-- ==== Sys2Proof/Word.lean ====
section
/-! DEFINITION. The words of the link and of the part's 32-bit quantities (spec/12_frame_formats.md, R180). -/

namespace Sys2Proof

/-- A 32-bit word: a link frame word, a retained word, a line index. -/
abbrev Word := BitVec 32

/-- One byte of a frame, as the frame check reads it. -/
abbrev Byte := BitVec 8

/-- A natural number sent in one word, modulo 2^32. -/
def word (n : Nat) : Word := BitVec.ofNat 32 n

/-- A signed number sent in one word: two's complement, and a web position modulo 2^32 (12.1). -/
def wordI (i : Int) : Word := BitVec.ofInt 32 i

end Sys2Proof
end

