-- ==== Sys2Proof/Syntax.lean ====
section
/-! DEFINITION. The commands of the block: one constructor per row of spec/opcode_table.json. -/

namespace Sys2Proof

/-- The two faces (00_scope, Faces, ports and numbered units). -/
inductive FaceId where
  | lead
  | trail
deriving DecidableEq, Repr

/-- The two senders of counted events (R132). -/
inductive EventSource where
  | blobBuilder
  | streakTracker
deriving DecidableEq, Repr

/-- One step of the part. The first nineteen and the last two are events; the rest is the execution of the command at
the head of the part's command queue, whose operands are the words of its queued frame (R170, R181). -/
inductive Instr where
  /-- ENCODER_COUNT (R1): the newly sampled levels of ENCA and ENCB. -/
  | encoderCount (a b : Bool)
  /-- TRIGGER_WORD_END (R7): the trigger word of a face ends. -/
  | triggerWordEnd (f : FaceId)
  /-- SPEED_WINDOW_EXPIRY (R8). -/
  | speedWindowExpiry
  /-- SCAN_PACKET (R25): port, line tag, declared pixel count, the samples the physical layer carried, its damage mark. -/
  | scanPacket (port tag declared : Nat) (samples : List Nat) (damaged : Bool)
  /-- PIXEL_CHAIN_LINE (R39): the face's Pixel Chain processes the oldest line handed to it. -/
  | pixelChainLine (f : FaceId)
  /-- BLOB_BUILDER_LINE (R75): the face's Blob Builder handles the oldest record handed to it. -/
  | blobBuilderLine (f : FaceId)
  /-- STREAK_TRACKER_LINE (R105): the face's Streak Tracker handles the oldest record handed to it. -/
  | streakTrackerLine (f : FaceId)
  /-- PREVIEW_LINE (R162): the preview path takes the face's oldest record handed to it. -/
  | previewLine (f : FaceId)
  /-- LEAD_CANDIDATE (R118): the correlator takes the oldest LEAD candidate. -/
  | leadCandidate
  /-- TRAIL_CANDIDATE (R119): the correlator takes the oldest TRAIL candidate. -/
  | trailCandidate
  /-- COUNTED_EVENT (R131): the face's Tier Controller takes the oldest event of one sender. -/
  | countedEvent (f : FaceId) (src : EventSource)
  /-- PATCH_MARK (R64): a rising edge on the patch mark line. -/
  | patchMark
  /-- CHECK_COMPLETION (R148). -/
  | checkCompletion
  /-- TRANSMIT_COMPLETION (R159). -/
  | transmitCompletion
  /-- LINK_UP (R164). -/
  | linkUp
  /-- LINK_DOWN (R164); `receiving`: an inbound frame was being received. -/
  | linkDown (receiving : Bool)
  /-- INBOUND_FRAME (R165): the words of a frame on the receive side. -/
  | inboundFrame (words : List Word)
  /-- UNKNOWN_COMMAND (R171). -/
  | unknownCommand
  /-- LINE_SETUP (R12). -/
  | lineSetup
  /-- PLACEMENT_WRITE (R19). -/
  | placementWrite
  /-- GEOMETRY_WRITE (R22). -/
  | geometryWrite
  /-- FLAT_WRITE (R23). -/
  | flatWrite
  /-- SET_CALIBRATION_LOCK (R24). -/
  | setCalibrationLock
  /-- PREVIEW_SET (R163). -/
  | previewSet
  /-- BANK_OPEN (R145). -/
  | bankOpen
  /-- BANK_WRITE (R146). -/
  | bankWrite
  /-- BANK_CHECK (R147). -/
  | bankCheck
  /-- BANK_SCHEDULE (R152). -/
  | bankSchedule
  /-- BANK_CANCEL (R155). -/
  | bankCancel
  /-- START (R150). -/
  | start
  /-- STOP (R151). -/
  | stop
  /-- BASELINE_LEARN (R54). -/
  | baselineLearn
  /-- BASELINE_READ (R55). -/
  | baselineRead
  /-- BASELINE_RESERVE (R56). -/
  | baselineReserve
  /-- BASELINE_PUT (R57). -/
  | baselinePut
  /-- TIER_LIMIT (R138). -/
  | tierLimit
  /-- QUERY_STATUS (R174). -/
  | queryStatus
  /-- QUERY_COUNTERS (R174). -/
  | queryCounters
  /-- QUERY_LANES (R142). -/
  | queryLanes
  /-- QUERY_STREAKS (R116). -/
  | queryStreaks
  /-- QUERY_PENDING (R128). -/
  | queryPending
  /-- QUERY_RETAINED (R176). -/
  | queryRetained
  /-- CLEAR_COUNTERS (R175). -/
  | clearCounters
  /-- RETAIN_WRITE (R176). -/
  | retainWrite
  /-- RESET (R177). -/
  | reset
  /-- POWER_ON_RESET (R16): the levels of ENCA and ENCB at the end of the reset. -/
  | powerOnReset (a b : Bool)
  /-- PIN_RESET (R16): the levels of ENCA and ENCB at the end of the reset. -/
  | pinReset (a b : Bool)
deriving DecidableEq, Repr

end Sys2Proof
end

