-- ==== Sys2Proof/Config.lean ====
section
/-! DEFINITION. What the part fixes (capacities, ranges) and the free values, which the spec leaves open. -/

namespace Sys2Proof.Config

/-! ### Free values. None has a body: nothing can be proved about the value of one. -/

/-- FREE VALUE (log 8): whether LEAD is taken before TRAIL where one step acts on both faces and the spec leaves the order
open (R126 and its like). Applied to the counter `free` of the state. -/
opaque leadFirst : Nat → Bool

/-- The enumerations that the STATUS reply sends and section 12.2 gives no codes for (log 11). -/
inductive Uncoded where
  | facePhase
  | partState
  | bankState
  | zone
  | linkState
deriving DecidableEq, Repr

/-- FREE VALUE (log 11): the code that stands for a member of such an enumeration. -/
opaque code : Uncoded → Nat → Word

/-- FREE VALUE (log 12): the buffer field of a blob block whose record holds no buffer (R96: no longer meaningful). Applied
to the blob's first line and number. -/
opaque unheldBuffer : Word → Nat → Nat

/-- FREE VALUE (log 13): whether the executed command count that QUERY COUNTERS returns already counts that query. -/
opaque countsOwnQuery : Bool

/-! ### Capacities and limits (00_scope, Capacities and Ranges at a Glance). -/

def columns : Nat := 8192
def lanes : Nat := 16
def pixels : Nat := 4096
def maxSlots : Nat := 4
def maxRuns : Nat := 512
def maxBlobs : Nat := 256
def maxBlobLines : Nat := 512
def ringLines : Nat := 64
def maxBuffers : Nat := 8
def maxStreaks : Nat := 64
def maxPending : Nat := 128
def maxMarks : Nat := 16
def maxCommands : Nat := 4
/-- The magnitude bound of P, H, F and the creep length: 2^47 - 1. -/
def positionLimit : Nat := 140737488355327
/-- The bound of a streak accumulator (R99). -/
def accLimit : Int := 134217727
/-- The longest command frame, a FLAT_WRITE of 256 entries (R181). -/
def longestCommand : Nat := 518
/-- A frame no shorter than a command's two opening words and the check word (R165). -/
def shortestCommand : Nat := 3

end Sys2Proof.Config
end

