-- ==== Sys2Proof/Machine/State.lean ====
section
/-! DEFINITION. The state of the part as plain data, with the value of every piece after reset. -/

namespace Sys2Proof.Machine

open Sys2Proof

/-- A sparse table: keys rising, no entry equal to the default that an unlisted key reads as (log 16). -/
abbrev Table (α : Type) := List (Nat × α)

/-! ### Enumerations (12.2) -/

inductive MotionState where | still | creep | moving | backing
deriving DecidableEq, Repr

inductive LineClass where | inspection | creep
deriving DecidableEq, Repr

inductive HeadState where | off | active | silent
deriving DecidableEq, Repr

inductive HeadCause where | placement | missing | packet
deriving DecidableEq, Repr

inductive Phase where | idle | learning | detecting
deriving DecidableEq, Repr

inductive Polarity where | bright | dark
deriving DecidableEq, Repr

/-- The polarity field of a class rule: one polarity or EITHER. -/
inductive RulePolarity where | bright | dark | either
deriving DecidableEq, Repr

/-- The kind a region gives (4.1). -/
inductive RegionKind where | lane | guard | margin | exclude
deriving DecidableEq, Repr

/-- The kind of a column in a column plan (R60). -/
inductive PlanKind where | lane | guard | margin | exclude | unmapped
deriving DecidableEq, Repr

/-- The kind of a column on a line (R61): its plan kind, dark, or absent (IDLE). -/
inductive ColumnKind where | planned (k : PlanKind) | dark | absent
deriving DecidableEq, Repr

inductive Zone where | coated | leadGuard | trailGuard | gap
deriving DecidableEq, Repr

inductive PatternState where | continuous | seeking | synced | coasting | lost
deriving DecidableEq, Repr

inductive PatternCause where | miss | seek | mark | changeover
deriving DecidableEq, Repr

inductive Level where | off | p0 | p1 | p2
deriving DecidableEq, Repr

inductive ExpressSlot where | none | a | b
deriving DecidableEq, Repr

inductive TruncReason where | none | length | pattern | changeover | motion | stop
deriving DecidableEq, Repr

inductive StreakReason where | released | merged | changeover | motion | stop
deriving DecidableEq, Repr

inductive LaneCause where | escalate | relax | alertFloor | limit | changeover
deriving DecidableEq, Repr

inductive LeadOnlyReason where | expired | evicted | stop
deriving DecidableEq, Repr

inductive CorrMark where | none | leadOnly (r : LeadOnlyReason) | trailOnly
deriving DecidableEq, Repr

/-- The excerpt state of a record, with the buffer number where it holds one (R90, R94 to R96). -/
inductive ExcerptState where | none | captured (buffer : Nat) | partly (buffer : Nat) | skipped | withdrawn
deriving DecidableEq, Repr

inductive ColumnStreak where | quiet | onset | streak | releasing
deriving DecidableEq, Repr

/-- One of the two recipe banks. -/
inductive BankId where | bank0 | bank1
deriving DecidableEq, Repr

inductive FaceSet where | lead | trail | both
deriving DecidableEq, Repr

inductive BankState where | vacant | opened | checking | checked | scheduled | active (faces : FaceSet)
deriving DecidableEq, Repr

inductive ResetCause where | power | pin | command
deriving DecidableEq, Repr

inductive ReplyCode where
  | done | clamped | busy | state | range | locked | overlap | stale | tooLate | unknown | malformed
deriving DecidableEq, Repr

inductive QueueId where
  | reply | expressA | expressB | p2 | p1 | p0 | excerpt | previewLead | previewTrail
deriving DecidableEq, Repr

/-! ### The Motion Unit (01) -/

/-- The line setup items (1.6), in the order of their table. -/
structure LineSetup where
  e : Nat
  n : Nat
  d : Nat
  die : Nat
  vmin : Nat
  backlash : Nat
  reverse : Nat
  window : Nat
deriving DecidableEq, Repr

/-- The values of 1.6 after power-on and pin reset. -/
def LineSetup.powerOn : LineSetup :=
  { e := 0, n := 1, d := 0, die := 0, vmin := 0, backlash := 500, reverse := 5000, window := 10 }

/-- The shared state of the Motion Unit (1.1). -/
structure Motion where
  encA : Bool
  encB : Bool
  p : Int
  h : Int
  state : MotionState
  window : Nat
  speed : Nat
  rewound : Bool
  /-- the period, in ms, of the speed window in progress (R8, R14) -/
  period : Nat
  encFaults : Nat
  setup : LineSetup
deriving DecidableEq, Repr

/-- R16. The encoder levels are those at the end of the reset (log 14). -/
def Motion.powerOn (a b : Bool) : Motion :=
  { encA := a, encB := b, p := 0, h := 0, state := .still, window := 0, speed := 0, rewound := false, period := 10,
    encFaults := 0, setup := LineSetup.powerOn }

/-- The per-face state of the Motion Unit (1.1). `trigger`: the tag of the word being sent; busy when present. -/
structure Grid where
  index : Word
  next : Int
  last : Option Int
  trigger : Option (BitVec 16)
  overruns : Nat
  creep : Nat
deriving DecidableEq, Repr

/-- R16. -/
def Grid.powerOn : Grid := { index := 0, next := 0, last := none, trigger := none, overruns := 0, creep := 0 }

/-! ### Sensor ports and Line Assemblers (02) -/

/-- A flat-field entry: dark offset and gain. -/
structure FlatEntry where
  dark : Nat
  gain : Nat
deriving DecidableEq, Repr

/-- R35: unity gain with no offset. -/
def FlatEntry.unity : FlatEntry := { dark := 0, gain := 4096 }

/-- A head placement record (2.1). -/
structure Placement where
  enabled : Bool
  face : FaceId
  first : Nat
  last : Nat
  origin : Nat
  descending : Bool
deriving DecidableEq, Repr

/-- 2.1: the values after power-on and pin reset. -/
def Placement.powerOn : Placement :=
  { enabled := false, face := .lead, first := 0, last := 0, origin := 0, descending := false }

/-- The counts of section 2.9 kept per port. -/
structure PortCounts where
  stray : Nat
  errors : Nat
  short : Nat
  long : Nat
  truncated : Nat
  late : Nat
  duplicate : Nat
  missingLines : Nat
deriving DecidableEq, Repr

def PortCounts.zero : PortCounts :=
  { stray := 0, errors := 0, short := 0, long := 0, truncated := 0, late := 0, duplicate := 0, missingLines := 0 }

/-- One sensor port: placement, head state, flat-field table, counts. -/
structure Port where
  place : Placement
  head : HeadState
  missing : Nat
  flat : Table FlatEntry
  counts : PortCounts
deriving DecidableEq, Repr

/-- R35. -/
def Port.powerOn : Port :=
  { place := Placement.powerOn, head := .off, missing := 0, flat := [], counts := PortCounts.zero }

/-- The four ports and the calibration lock (R24). -/
structure Sensors where
  ports : Table Port
  locked : Bool
deriving DecidableEq, Repr

def Sensors.powerOn : Sensors := { ports := [], locked := false }

/-- A face geometry record (2.2); `mirrored` is sign -1. -/
structure Geometry where
  origin : Int
  pitch : Nat
  mirrored : Bool
deriving DecidableEq, Repr

/-- 2.2: the values after power-on and pin reset. -/
def Geometry.powerOn : Geometry := { origin := 0, pitch := 1000, mirrored := false }

/-- What a line carries from its issue on (R6): index, position, pitch in force, class. Its tag is the index modulo 65536. -/
structure LineHead where
  index : Word
  pos : Int
  pitch : Nat
  cls : LineClass
deriving DecidableEq, Repr

/-- A raw sample with the port and head pixel it came from (R26). -/
structure Sample where
  port : Nat
  pixel : Nat
  raw : Nat
deriving DecidableEq, Repr

/-- An open assembly slot (2.6). `raw` lists the columns that have a sample. -/
structure Slot where
  head : LineHead
  expected : List Nat
  delivered : List Nat
  raw : Table Sample
deriving DecidableEq, Repr

/-- A line handed to the Pixel Chain (R29): columns not listed are void. -/
structure HandedLine where
  head : LineHead
  raw : Table Sample
deriving DecidableEq, Repr

/-- The Line Assembler of a face. `handed`: lines handed on and not yet processed (log 6). -/
structure Assembler where
  slots : List Slot
  forced : Nat
  abandoned : Nat
  handed : List HandedLine
  geometry : Geometry
deriving DecidableEq, Repr

/-- R35. -/
def Assembler.powerOn : Assembler :=
  { slots := [], forced := 0, abandoned := 0, handed := [], geometry := Geometry.powerOn }

/-! ### Recipe banks (09) -/

/-- A region record (4.1); lane absent stands for NONE. -/
structure Region where
  present : Bool
  kind : RegionKind
  first : Nat
  last : Nat
  lane : Option Nat
  priority : Nat
deriving DecidableEq, Repr

/-- A region of the empty contents: not present (R143); nothing reads its other fields (log 29). -/
def Region.empty : Region := { present := false, kind := .lane, first := 0, last := 0, lane := none, priority := 0 }

/-- A class rule (5.6). -/
structure ClassRule where
  present : Bool
  polarity : RulePolarity
  areaMin : Nat
  areaMax : Nat
  widthMin : Nat
  widthMax : Nat
  lengthMin : Nat
  lengthMax : Nat
  correlate : Bool
  counts : Bool
  excerpt : Bool
  level : Level
  slot : ExpressSlot
deriving DecidableEq, Repr

/-- A class rule of the empty contents: not present, level OFF, slot none (R143); the rest is not read (log 29). -/
def ClassRule.empty : ClassRule :=
  { present := false, polarity := .bright, areaMin := 0, areaMax := 0, widthMin := 0, widthMax := 0, lengthMin := 0,
    lengthMax := 0, correlate := false, counts := false, excerpt := false, level := .off, slot := .none }

/-- A report policy entry: a level and an express slot. -/
structure Route where
  level : Level
  slot : ExpressSlot
deriving DecidableEq, Repr

def Route.off : Route := { level := .off, slot := .none }

/-- The report policy (9.1). LEAD-only has a level alone. -/
structure Policy where
  unclassed : Route
  elongated : Route
  through : Route
  leadOnly : Level
  streakOpen : Route
  streakContinue : Route
  streakClose : Route
  lane : Route
  unclassedCounts : Bool
  elongatedCounts : Bool
deriving DecidableEq, Repr

def Policy.empty : Policy :=
  { unclassed := Route.off, elongated := Route.off, through := Route.off, leadOnly := .off, streakOpen := Route.off,
    streakContinue := Route.off, streakClose := Route.off, lane := Route.off, unclassedCounts := false,
    elongatedCounts := false }

/-- The thresholds of one tier (8.1). -/
structure TierRow where
  tb : Nat
  td : Nat
  ts : Nat
deriving DecidableEq, Repr

/-- R143. -/
def TierRow.empty : TierRow := { tb := 4095, td := 4095, ts := 65535 }

/-- The tier policy with the learn-on-entry flag (8.1). Tiers are 0..3 for T0..T3. -/
structure TierPolicy where
  w : Nat
  ne : Nat
  nd : Nat
  ru : Nat
  rd : Nat
  na : Nat
  fa : Nat
  minTier : Nat
  maxTier : Nat
  learnOnEntry : Bool
deriving DecidableEq, Repr

/-- R143. -/
def TierPolicy.empty : TierPolicy :=
  { w := 8, ne := 1, nd := 0, ru := 0, rd := 0, na := 16, fa := 0, minTier := 0, maxTier := 3, learnOnEntry := false }

/-- The pattern fields (4.2), in µm. -/
structure PatternRecipe where
  c : Nat
  g : Nat
  gl : Nat
  gt : Nat
  r : Int
  tolerance : Nat
deriving DecidableEq, Repr

/-- R143. -/
def PatternRecipe.empty : PatternRecipe := { c := 1000, g := 0, gl := 0, gt := 0, r := 0, tolerance := 0 }

/-- The detection fields (9.1). -/
structure Detection where
  k : Nat
  learnLength : Nat
  drift : Nat
  bg : Nat
  mb : Nat
  leak : Nat
  clip : Nat
  minStreak : Nat
  release : Nat
  sg : Nat
  interval : Nat
deriving DecidableEq, Repr

/-- R143. -/
def Detection.empty : Detection :=
  { k := 0, learnLength := 16, drift := 0, bg := 0, mb := 0, leak := 4, clip := 16, minStreak := 0, release := 0, sg := 0,
    interval := 0 }

/-- The correlation tolerances (9.1), in µm. -/
structure Correlation where
  md : Nat
  cd : Nat
deriving DecidableEq, Repr

/-- The contents of a bank (9.1). -/
structure Contents where
  regionsLead : Table Region
  regionsTrail : Table Region
  rules : Table ClassRule
  policy : Policy
  tiers : Table TierRow
  tierPolicy : TierPolicy
  pattern : PatternRecipe
  detection : Detection
  correlation : Correlation
deriving DecidableEq, Repr

/-- The empty contents (R143). -/
def Contents.empty : Contents :=
  { regionsLead := [], regionsTrail := [], rules := [], policy := Policy.empty, tiers := [],
    tierPolicy := TierPolicy.empty, pattern := PatternRecipe.empty, detection := Detection.empty,
    correlation := { md := 0, cd := 0 } }

/-- One entry of a column plan (R60). -/
structure PlanEntry where
  kind : PlanKind
  lane : Option Nat
deriving DecidableEq, Repr

def PlanEntry.unmapped : PlanEntry := { kind := .unmapped, lane := none }

/-- A column plan: the entries of columns 0, 1, … in order (R149). -/
abbrev Plan := List PlanEntry

/-- What a passed check fixes (R149). -/
structure Compiled where
  leadPlan : Plan
  trailPlan : Plan
  minLines : Nat
  releaseLines : Nat
deriving DecidableEq, Repr

structure Bank where
  state : BankState
  contents : Contents
  compiled : Option Compiled
deriving DecidableEq, Repr

/-- R156. -/
def Bank.vacant : Bank := { state := .vacant, contents := Contents.empty, compiled := none }

/-- The Bank Controller. `checkTag`: the tag of the BANK_CHECK whose check runs (R148). -/
structure Banks where
  running : Bool
  bank0 : Bank
  bank1 : Bank
  switchPos : Option Int
  checkTag : Option Nat
deriving DecidableEq, Repr

/-- R156. -/
def Banks.powerOn : Banks :=
  { running := false, bank0 := Bank.vacant, bank1 := Bank.vacant, switchPos := none, checkTag := none }

/-! ### The Pixel Chain (03) -/

/-- The per-column state of the Pixel Chain (3.1). -/
structure PixelColumn where
  ref : Nat
  learned : Bool
  sum : Nat
  count : Nat
deriving DecidableEq, Repr

/-- R53. -/
def PixelColumn.fresh : PixelColumn := { ref := 0, learned := false, sum := 0, count := 0 }

/-- A reservation (3.1): its column count is the length of the snapshot. -/
structure Reservation where
  first : Nat
  snapshot : List Nat
deriving DecidableEq, Repr

/-- The Pixel Chain of a face. -/
structure Pixel where
  cols : Table PixelColumn
  phase : Phase
  learnLines : Nat
  learnLength : Nat
  reservation : Option Reservation
  lastClip : Nat
  clipped : Nat
  processed : Nat
  lastPos : Option Int
deriving DecidableEq, Repr

/-- R53. -/
def Pixel.powerOn : Pixel :=
  { cols := [], phase := .idle, learnLines := 0, learnLength := 0, reservation := none, lastClip := 0, clipped := 0,
    processed := 0, lastPos := none }

/-- What a processed line record carries for a column that is not void (R39). -/
structure RecordColumn where
  value : Nat
  dev : Int
  flag : Option Polarity
  entry : Option PlanEntry
  learned : Bool
deriving DecidableEq, Repr

/-- The processed line record (R39). `cols` lists the columns that are not void, rising; `plan` and `lit` (the used columns
of the face's enabled ports) give the kind and lane of every column, void ones too; `learned` lists the columns, void ones too,
whose learned flag is set; `exit` marks a coating exit (R67). -/
structure LineRecord where
  head : LineHead
  zone : Option Zone
  exit : Bool
  phase : Phase
  bank : Option BankId
  cols : Table RecordColumn
  plan : Option Plan
  lit : List (Nat × Nat)
  learned : List Nat
  tiers : List Nat
deriving DecidableEq, Repr

/-! ### Coating pattern (04) -/

/-- An entry of the marks list: captured H and whether each face has handled it. -/
structure Mark where
  h : Int
  leadHandled : Bool
  trailHandled : Bool
deriving DecidableEq, Repr

structure Marks where
  list : List Mark
  lastAccepted : Option Int
  accepted : Nat
  repeated : Nat
  dropped : Nat
deriving DecidableEq, Repr

/-- R73. -/
def Marks.powerOn : Marks := { list := [], lastAccepted := none, accepted := 0, repeated := 0, dropped := 0 }

structure Pattern where
  state : Option PatternState
  edge : Option Int
  misses : Nat
  seek : Option Int
  lastZone : Option Zone
  consumed : Nat
  early : Nat
  missTotal : Nat
  lost : Nat
deriving DecidableEq, Repr

/-- R73. -/
def Pattern.powerOn : Pattern :=
  { state := none, edge := none, misses := 0, seek := none, lastZone := none, consumed := 0, early := 0, missTotal := 0,
    lost := 0 }

/-! ### Blobs (05) -/

/-- An open blob record (5.3); its number is its slot. `pitch` is the pitch its lines carried (R6, R87). -/
structure Blob where
  polarity : Polarity
  first : Word
  last : Word
  lastPos : Int
  pitch : Nat
  colMin : Nat
  colMax : Nat
  lastSpan : Option (Nat × Nat)
  lineSpan : Option (Nat × Nat)
  count : Nat
  peak : Nat
  peakCol : Nat
  peakGuard : Bool
  peakLane : Nat
  tier : Nat
  sum : Nat
  idle : Nat
  touched : Bool
deriving DecidableEq, Repr

/-- An entry of the History Ring (5.8): a column not listed was void and reads 0. -/
structure RingEntry where
  index : Word
  values : Table Nat
deriving DecidableEq, Repr

/-- The Blob Builder of a face. `ring`: newest first. `inbox`: records handed on and not yet handled (log 6). -/
structure Blobs where
  open_ : Table (Option Blob)
  saturated : Bool
  ring : List RingEntry
  lastLine : Option Word
  dropped : Nat
  discarded : Nat
  merges : Nat
  closed : Nat
  skipped : Nat
  satEntries : Nat
  inbox : List LineRecord
deriving DecidableEq, Repr

/-- R97. -/
def Blobs.powerOn : Blobs :=
  { open_ := [], saturated := false, ring := [], lastLine := none, dropped := 0, discarded := 0, merges := 0, closed := 0,
    skipped := 0, satEntries := 0, inbox := [] }

/-- A defect record (R90). -/
structure Defect where
  face : FaceId
  number : Nat
  cls : Nat
  polarity : Polarity
  first : Word
  last : Word
  md : Int
  cd : Int
  width : Nat
  length : Nat
  area : Nat
  peak : Nat
  peakCol : Nat
  tier : Nat
  sum : Nat
  lane : Nat
  inGuard : Bool
  trunc : TruncReason
  touched : Bool
  unsync : Bool
  excerpt : ExcerptState
  mark : CorrMark
deriving DecidableEq, Repr

/-- A held excerpt buffer (5.8): 32 rows of 32 cells, rows from the first line, columns left to right. -/
structure Buffer where
  face : FaceId
  firstLine : Word
  firstCol : Int
  partly : Bool
  cells : List Nat
deriving DecidableEq, Repr

/-! ### Streaks (06) -/

/-- The per-column state of the Streak Tracker (6.1). -/
structure StreakColumn where
  acc : Int
  state : ColumnStreak
  onsetPolarity : Polarity
  onsetCount : Nat
  onsetPos : Option Int
  releaseCount : Nat
  number : Nat
deriving DecidableEq, Repr

/-- A column in QUIET with accumulator `acc`: the fields that mean nothing in QUIET are at their reset values. -/
def StreakColumn.quiet (acc : Int) : StreakColumn :=
  { acc := acc, state := .quiet, onsetPolarity := .bright, onsetCount := 0, onsetPos := none, releaseCount := 0,
    number := 0 }

/-- An open streak record (6.4); its number is its slot. -/
structure Streak where
  polarity : Polarity
  colMin : Nat
  colMax : Nat
  founding : Nat
  lane : Nat
  inGuard : Bool
  start : Int
  openPos : Int
  peak : Nat
  members : Nat
  lastContinue : Int
  tierAtOpen : Nat
deriving DecidableEq, Repr

/-- The Streak Tracker of a face. `last`: index and position of the last handled line. -/
structure Streaks where
  cols : Table StreakColumn
  open_ : Table (Option Streak)
  saturated : Bool
  last : Option (Word × Int)
  opened : Nat
  closed : Nat
  merges : Nat
  held : Nat
  satEntries : Nat
  inbox : List LineRecord
deriving DecidableEq, Repr

/-- R115. -/
def Streaks.powerOn : Streaks :=
  { cols := [], open_ := [], saturated := false, last := none, opened := 0, closed := 0, merges := 0, held := 0,
    satEntries := 0, inbox := [] }

/-! ### Tiers (08) -/

/-- The state of one lane (8.2). Tiers are 0..3. -/
structure Lane where
  buckets : Table Nat
  own : Nat
  minLimit : Nat
  maxLimit : Nat
  lastChange : Option Int
deriving DecidableEq, Repr

/-- R141. -/
def Lane.powerOn : Lane := { buckets := [], own := 0, minLimit := 0, maxLimit := 3, lastChange := none }

/-- A counted event (8.3): lane, position, and the index of the line it belongs to. -/
structure CountedEvent where
  lane : Nat
  pos : Option Int
  index : Option Word
deriving DecidableEq, Repr

/-- The Tier Controller of a face. `fa`: the alert floor tier last loaded (log 27). -/
structure Tier where
  lanes : Table Lane
  current : Nat
  alert : Bool
  next : Option Int
  lastPos : Option Int
  lastLine : Option Word
  fa : Nat
  escalations : Nat
  relaxations : Nat
  alerts : Nat
  blobEvents : List CountedEvent
  streakEvents : List CountedEvent
deriving DecidableEq, Repr

/-- R141. -/
def Tier.powerOn : Tier :=
  { lanes := [], current := 0, alert := false, next := none, lastPos := none, lastLine := none, fa := 0,
    escalations := 0, relaxations := 0, alerts := 0, blobEvents := [], streakEvents := [] }

/-! ### Reports (10, 12) -/

structure Reply where
  code : Nat
  tag : Nat
  reply : ReplyCode
  body : List Word
deriving DecidableEq, Repr

/-- Which of the three STREAK reports. -/
inductive StreakKind where | opened | continued | closed (reason : StreakReason) (survivor : Option Nat)
deriving DecidableEq, Repr

/-- A STREAK_OPEN, STREAK_CONTINUE or STREAK_CLOSE report (R111, R112, R114). `pos` is the open, continue or close
position; positions in position units. -/
structure StreakReport where
  kind : StreakKind
  face : FaceId
  number : Nat
  polarity : Polarity
  inGuard : Bool
  unsync : Bool
  lane : Nat
  tierAtOpen : Nat
  tierNow : Nat
  founding : Nat
  members : Nat
  colMin : Nat
  colMax : Nat
  start : Int
  pos : Int
  length : Nat
  width : Nat
  cd : Int
  peak : Nat
deriving DecidableEq, Repr

/-- A LANE report (R137). -/
structure LaneReport where
  face : FaceId
  unsync : Bool
  lane : Nat
  cause : LaneCause
  oldTier : Nat
  newTier : Nat
  own : Nat
  minLimit : Nat
  maxLimit : Nat
  alert : Bool
  windowSum : Nat
  index : Option Word
  pos : Option Int
deriving DecidableEq, Repr

/-- The nine kinds of status report (10.1, 12.6); positions in position units. -/
inductive Status where
  | motion (old new : MotionState) (h : Int) (speed : Nat)
  | rewound (h p : Int)
  | head (port : Nat) (old new : HeadState) (cause : HeadCause) (line : Word)
  | learnDone (learnLength : Nat) (index : Word) (unlearned : Nat)
  | blobSaturation (saturated : Bool) (openBlobs : Nat) (index : Option Word)
  | streakSaturation (saturated : Bool) (openStreaks : Nat) (index : Option Word)
  | pattern (old : PatternState) (new : PatternState) (cause : PatternCause) (index : Word) (pos : Int) (edge : Option Int)
  | alert (on : Bool) (atT2 na : Nat) (index : Option Word) (pos : Option Int)
  | bankSwitched (old new : BankId) (switchPos : Int) (index : Word) (pos : Int)
deriving DecidableEq, Repr

/-- An entry of the excerpt queue (R160): the owning record's face, class and lines, and the buffer. -/
structure ExcerptEntry where
  face : FaceId
  cls : Nat
  first : Word
  last : Word
  buffer : Nat
deriving DecidableEq, Repr

/-- A binned preview line (R162); position in position units. -/
structure PreviewLine where
  face : FaceId
  index : Word
  pos : Int
  cls : LineClass
  binning : Nat
  bins : List Nat
deriving DecidableEq, Repr

/-- Everything the part sends (10.1). -/
inductive Report where
  | reply (r : Reply)
  | defect (r : Defect)
  | through (lead trail : Defect) (md cd : Int)
  | streak (r : StreakReport)
  | lane (r : LaneReport)
  | status (face : Option FaceId) (unsync : Bool) (st : Status)
  | excerpt (e : ExcerptEntry)
  | preview (p : PreviewLine)
  | start (cause : ResetCause) (tag : Option Nat) (kept : Bool)
deriving DecidableEq, Repr

/-- A queued report with its lost-before count (R157). -/
structure Queued where
  report : Report
  lostBefore : Nat
deriving DecidableEq, Repr

structure Queue where
  entries : List Queued
  pendingLoss : Nat
  totalLost : Nat
deriving DecidableEq, Repr

def Queue.empty : Queue := { entries := [], pendingLoss := 0, totalLost := 0 }

/-- The frame in transmission (R159). `words` is what goes out, fixed at the pick; `report` keeps its record's present
excerpt state (R161); `live`: its completion still frees its buffer (EXCERPT) or ends the START report's pending (START). -/
structure InFlight where
  queue : Option QueueId
  report : Report
  words : List Word
  live : Bool
deriving DecidableEq, Repr

/-- The Report Arbiter, the link, the excerpt buffers and the reset cause record (10, 5.8, 11.1). -/
structure Out where
  linkUp : Bool
  tx : Option InFlight
  reply : Queue
  expressA : Queue
  expressB : Queue
  p2 : Queue
  p1 : Queue
  p0 : Queue
  excerpt : Queue
  previewLead : Queue
  previewTrail : Queue
  toggle : FaceId
  startPending : Bool
  cause : ResetCause
  tag : Option Nat
  kept : Bool
  buffers : Table (Option Buffer)
  framesSent : Nat
  inboundErrors : Nat
  linkDowns : Nat
deriving DecidableEq, Repr

/-- R167, R166, R178 after a power-on reset: everything empty, link DOWN, the START report pending with cause POWER. -/
def Out.powerOn : Out :=
  { linkUp := false, tx := none, reply := Queue.empty, expressA := Queue.empty, expressB := Queue.empty,
    p2 := Queue.empty, p1 := Queue.empty, p0 := Queue.empty, excerpt := Queue.empty, previewLead := Queue.empty,
    previewTrail := Queue.empty, toggle := .lead, startPending := true, cause := .power, tag := none, kept := false,
    buffers := [], framesSent := 0, inboundErrors := 0, linkDowns := 0 }

/-- The preview path of a face (10.3). -/
structure Preview where
  decimation : Nat
  binning : Nat
  counter : Nat
  replaced : Nat
  inbox : List LineRecord
deriving DecidableEq, Repr

/-- R167 and the table of 10.3. -/
def Preview.powerOn : Preview := { decimation := 0, binning := 1, counter := 0, replaced := 0, inbox := [] }

/-! ### The Face Correlator (07) -/

/-- A pending entry (7.1), also the form in which a candidate of either face is handed over: the blob record and what is
copied at its close. -/
structure Candidate where
  record : Defect
  bank : Option BankId
  level : Level
  slot : ExpressSlot
  leadOnlyLevel : Level
deriving DecidableEq, Repr

/-- What waits at the correlator's TRAIL side: a candidate, or the expiry test of a TRAIL line whose candidates have been
sent on before it (R123, log 9): the line's position and the margin, both in position units. -/
inductive TrailWork where
  | candidate (c : Candidate)
  | expiry (pos margin : Int)
deriving DecidableEq, Repr

structure Corr where
  list : List Candidate
  leadWork : List Candidate
  trailWork : List TrailWork
  matchCount : Nat
  trailOnly : Nat
  expired : Nat
  evicted : Nat
  stopped : Nat
  highWater : Nat
deriving DecidableEq, Repr

/-- R127. -/
def Corr.powerOn : Corr :=
  { list := [], leadWork := [], trailWork := [], matchCount := 0, trailOnly := 0, expired := 0, evicted := 0, stopped := 0,
    highWater := 0 }

/-! ### The Command Executor (11) -/

/-- A queued command frame: its opening words' code, tag and operand word count, and the operand words that came. -/
structure Command where
  code : Nat
  tag : Nat
  count : Nat
  ops : List Word
deriving DecidableEq, Repr

structure Exec where
  queue : List Command
  retained : Table Word
  executed : Nat
  busy : Nat
  discarded : Nat
deriving DecidableEq, Repr

/-- R179, R176. -/
def Exec.powerOn : Exec := { queue := [], retained := [], executed := 0, busy := 0, discarded := 0 }

/-! ### The whole part -/

/-- Everything kept per face. -/
structure Face where
  grid : Grid
  asm : Assembler
  pixel : Pixel
  pattern : Pattern
  blob : Blobs
  streak : Streaks
  tier : Tier
  preview : Preview
deriving DecidableEq, Repr

def Face.powerOn : Face :=
  { grid := Grid.powerOn, asm := Assembler.powerOn, pixel := Pixel.powerOn, pattern := Pattern.powerOn,
    blob := Blobs.powerOn, streak := Streaks.powerOn, tier := Tier.powerOn, preview := Preview.powerOn }

/-- What the per-line blocks only read: motion and line setup, ports, banks; with the executor and the counter of free
values. -/
structure Base where
  motion : Motion
  sens : Sensors
  banks : Banks
  exec : Exec
  free : Nat
deriving DecidableEq, Repr

/-- What the lines work on: both faces, the marks list, the correlator, the outbound side. -/
structure Insp where
  lead : Face
  trail : Face
  marks : Marks
  corr : Corr
  out : Out
deriving DecidableEq, Repr

/-- The part without its input queue. -/
structure Dev where
  base : Base
  insp : Insp
deriving DecidableEq, Repr

/-- The block: the part, and the commands that wait, first in, first out. -/
structure State where
  dev : Dev
  pending : List Instr
deriving DecidableEq, Repr

/-- The part after a power-on reset that ended with the encoder lines at `a` and `b`. -/
def Dev.powerOn (a b : Bool) (free : Nat) : Dev :=
  { base := { motion := Motion.powerOn a b, sens := Sensors.powerOn, banks := Banks.powerOn, exec := Exec.powerOn,
              free := free },
    insp := { lead := Face.powerOn, trail := Face.powerOn, marks := Marks.powerOn, corr := Corr.powerOn,
              out := Out.powerOn } }

/-- The block right after power-on reset (R16, R35, R53, R73, R97, R115, R127, R141, R156, R167, R179), both encoder lines
low (DESIGN CHOICE, log 14), nothing waiting. -/
def State.reset : State := { dev := Dev.powerOn false false 0, pending := [] }

/-- Why the machine stops. The spec names no stop; the one fault is of the model's own making. -/
inductive Fault where
  /-- Raised by SCAN_PACKET alone, for an operand no physical layer of the part can deliver: a port above 3, a tag above
  65,535, a sample above 4095 (log 31). Safe: the spec's part never meets it. -/
  | illFormedPacket
deriving DecidableEq, Repr

/-- Why a command has no meaning. -/
inductive Refusal where
  /-- Raised by exec's arm of a row that has no meaning yet; no arm does so now. Safe. -/
  | notModelled (mnemonic : String)
deriving DecidableEq, Repr

end Sys2Proof.Machine
end

