-- ==== Sys2Proof/Machine/Ops.lean ====
section
/-! DEFINITION. The shared operations: sparse tables, saturating counts, rounding, ordering, and the accessors of faces,
ports, banks and face positions. -/

namespace Sys2Proof.Machine

open Sys2Proof

/-! ### Sparse tables (log 16) -/

/-- The value of key `k`: `d` when it is not listed. -/
def tget {α : Type} (d : α) : Table α → Nat → α
  | [], _ => d
  | (k', v) :: rest, k => if k = k' then v else tget d rest k

/-- Put `v` at key `k`, keeping the keys rising. -/
def tinsert {α : Type} : Table α → Nat → α → Table α
  | [], k, v => [(k, v)]
  | (k', v') :: rest, k, v =>
    if k < k' then (k, v) :: (k', v') :: rest
    else if k = k' then (k, v) :: rest
    else (k', v') :: tinsert rest k v

/-- Write `v` at key `k`: writing the default removes the entry, so that equal tables are equal lists. -/
def tset {α : Type} [DecidableEq α] (d : α) (t : Table α) (k : Nat) (v : α) : Table α :=
  if v = d then t.filter (fun e => e.1 != k) else tinsert t k v

/-- The canonical form: keys strictly rising and no entry equal to the default. -/
def twf {α : Type} [DecidableEq α] (d : α) : Table α → Bool
  | [] => true
  | [(_, v)] => decide (v ≠ d)
  | (k, v) :: (k', v') :: rest => decide (v ≠ d) && decide (k < k') && twf d ((k', v') :: rest)

/-- Apply `g` to every listed value, dropping what becomes the default (`g` keeps the default at every caller). -/
def tmap {α : Type} [DecidableEq α] (d : α) (g : α → α) (t : Table α) : Table α :=
  (t.map fun e => (e.1, g e.2)).filter fun e => decide (e.2 ≠ d)

/-- The occupied slots of a slot table, in slot order. -/
def occupied {α : Type} : Table (Option α) → List (Nat × α)
  | [] => []
  | (k, some v) :: rest => (k, v) :: occupied rest
  | (_, none) :: rest => occupied rest

/-- The free slot with the lowest number, below `cap` (R79, R94, R106). -/
def lowestFree {α : Type} (cap : Nat) (t : Table (Option α)) : Option Nat :=
  (List.range cap).find? fun k => (tget none t k).isNone

/-! ### Counts and rounding (00_scope, Arithmetic) -/

/-- Stop counting at `m`. -/
def satAdd (m n k : Nat) : Nat := min (n + k) m

/-- A 32-bit saturating count rises by one. -/
def count32 (n : Nat) : Nat := satAdd 4294967295 n 1

/-- A count that saturates at 65,535 rises by one. -/
def count16 (n : Nat) : Nat := satAdd 65535 n 1

/-- Quotient rounded up; 0 for a divisor of 0, which no caller's rule reaches. -/
def ceilDiv (a b : Nat) : Nat := (a + b - 1) / b

/-- Clamp to lo..hi. -/
def clampNat (lo hi v : Nat) : Nat := max lo (min v hi)

/-- Clamp to lo..hi. -/
def clampInt (lo hi v : Int) : Int := max lo (min v hi)

/-- A position in position units: floor(fine / 10,240) (R4). -/
def toUnits (fine : Int) : Int := fine / 10240

/-- The distance from line index `i` back from line index `n` (R79): indices wrap. -/
def lineAge (n i : Word) : Nat := (n - i).toNat

/-- Insert into an ordered list, before the first element that `x` precedes. -/
def orderedInsert {α : Type} (before : α → α → Bool) (x : α) : List α → List α
  | [] => [x]
  | y :: ys => if before x y then x :: y :: ys else y :: orderedInsert before x ys

/-- Sort by a strict order, keeping the order of elements neither of which precedes the other. -/
def orderBy {α : Type} (before : α → α → Bool) (l : List α) : List α :=
  l.foldl (fun acc x => orderedInsert before x acc) []

/-! ### Faces -/

def otherFace : FaceId → FaceId
  | .lead => .trail
  | .trail => .lead

def Insp.face (i : Insp) : FaceId → Face
  | .lead => i.lead
  | .trail => i.trail

def Insp.setFace (i : Insp) (f : FaceId) (x : Face) : Insp :=
  match f with
  | .lead => { i with lead := x }
  | .trail => { i with trail := x }

/-- Change one face's state. -/
def Insp.onFace (i : Insp) (f : FaceId) (g : Face → Face) : Insp := i.setFace f (g (i.face f))

def Dev.face (d : Dev) (f : FaceId) : Face := d.insp.face f

def Dev.onFace (d : Dev) (f : FaceId) (g : Face → Face) : Dev := { d with insp := d.insp.onFace f g }

/-- Act on both faces in one step, in an order the spec leaves open: the free value of this step (log 8). -/
def Dev.bothFaces (d : Dev) (act : FaceId → Dev → Dev) : Dev :=
  let d' := { d with base := { d.base with free := d.base.free + 1 } }
  if Config.leadFirst d.base.free then act .trail (act .lead d') else act .lead (act .trail d')

/-- Whether a face is LOST (R72). -/
def Insp.lost (i : Insp) (f : FaceId) : Bool := decide ((i.face f).pattern.state = some .lost)

/-! ### Ports -/

def Base.port (b : Base) (p : Nat) : Port := tget Port.powerOn b.sens.ports p

def Base.setPort (b : Base) (p : Nat) (x : Port) : Base :=
  { b with sens := { b.sens with ports := tset Port.powerOn b.sens.ports p x } }

def Dev.setPort (d : Dev) (p : Nat) (x : Port) : Dev := { d with base := d.base.setPort p x }

/-- The numbers of the four ports. -/
def portNumbers : List Nat := [0, 1, 2, 3]

/-- The used columns of a placement: its lowest and highest (table of directions, 2.1). Meaningful for a stored record. -/
def Placement.span (p : Placement) : Nat × Nat :=
  if p.descending then (p.origin - (p.last - p.first), p.origin) else (p.origin, p.origin + (p.last - p.first))

/-- The face column of a used pixel (table of directions, 2.1). -/
def Placement.column (p : Placement) (pixel : Nat) : Nat :=
  if p.descending then p.origin - (pixel - p.first) else p.origin + (pixel - p.first)

/-- The used columns of the enabled ports of a face. -/
def Base.lit (b : Base) (f : FaceId) : List (Nat × Nat) :=
  (portNumbers.filter fun p => (b.port p).place.enabled && decide ((b.port p).place.face = f)).map
    fun p => (b.port p).place.span

/-- A column in one of the spans. -/
def inSpans (spans : List (Nat × Nat)) (c : Nat) : Bool := spans.any fun s => decide (s.1 ≤ c ∧ c ≤ s.2)

/-- R20: a column that is a used column of no enabled port of the face. -/
def Base.dark (b : Base) (f : FaceId) (c : Nat) : Bool := !inSpans (b.lit f) c

/-! ### Motion -/

/-- The line pitch N × E, in fine units. -/
def LineSetup.pitch (s : LineSetup) : Nat := s.n * s.e

/-- The face position (R4). -/
def Base.facePos (b : Base) : FaceId → Int
  | .lead => b.motion.h
  | .trail => b.motion.h - (b.motion.setup.d * 1024 : Nat)

/-! ### Banks -/

def BankId.other : BankId → BankId
  | .bank0 => .bank1
  | .bank1 => .bank0

def Banks.bank (b : Banks) : BankId → Bank
  | .bank0 => b.bank0
  | .bank1 => b.bank1

def Banks.setBank (b : Banks) (i : BankId) (x : Bank) : Banks :=
  match i with
  | .bank0 => { b with bank0 := x }
  | .bank1 => { b with bank1 := x }

def Banks.setState (b : Banks) (i : BankId) (st : BankState) : Banks := b.setBank i { b.bank i with state := st }

def FaceSet.has : FaceSet → FaceId → Bool
  | .lead, .lead => true
  | .lead, .trail => false
  | .trail, .lead => false
  | .trail, .trail => true
  | .both, _ => true

/-- Whether a bank in this state is active on the face. -/
def BankState.activeOn : BankState → FaceId → Bool
  | .active fs, f => fs.has f
  | .vacant, _ | .opened, _ | .checking, _ | .checked, _ | .scheduled, _ => false

/-- The bank active on a face (R144), or none. -/
def Banks.activeOn (b : Banks) (f : FaceId) : Option BankId :=
  if b.bank0.state.activeOn f then some .bank0 else if b.bank1.state.activeOn f then some .bank1 else none

/-- The contents of the bank active on a face; the empty contents when none is. -/
def Banks.contents (b : Banks) (f : FaceId) : Contents :=
  match b.activeOn f with
  | some i => (b.bank i).contents
  | none => Contents.empty

/-- The compiled part of the bank active on a face. -/
def Banks.compiled (b : Banks) (f : FaceId) : Option Compiled :=
  match b.activeOn f with
  | some i => (b.bank i).compiled
  | none => none

/-- The column plan of a face in a compiled bank. -/
def Compiled.plan (c : Compiled) : FaceId → Plan
  | .lead => c.leadPlan
  | .trail => c.trailPlan

/-- The column plan of the bank active on a face. -/
def Banks.plan (b : Banks) (f : FaceId) : Option Plan := (b.compiled f).map (·.plan f)

def Banks.isChecking (b : Banks) : Bool :=
  decide (b.bank0.state = .checking) || decide (b.bank1.state = .checking)

/-- The bank that is SCHEDULED, or none. -/
def Banks.scheduled (b : Banks) : Option BankId :=
  if b.bank0.state = .scheduled then some .bank0 else if b.bank1.state = .scheduled then some .bank1 else none

/-- Between LEAD's switch and TRAIL's switch (R153): a bank is ACTIVE {LEAD}. -/
def Banks.midChange (b : Banks) : Option BankId :=
  if b.bank0.state = .active .lead then some .bank0 else if b.bank1.state = .active .lead then some .bank1 else none

/-- The entry of a column in a plan. -/
def planEntry (p : Plan) (c : Nat) : PlanEntry := p.getD c PlanEntry.unmapped

/-- The kind of a column on a line (R61). -/
def columnKind (plan : Option Plan) (lit : List (Nat × Nat)) (c : Nat) : ColumnKind :=
  if inSpans lit c then
    match plan with
    | some p => .planned (planEntry p c).kind
    | none => .absent
  else .dark

/-- Kinds that detect. -/
def PlanKind.detects : PlanKind → Bool
  | .lane | .guard => true
  | .margin | .exclude | .unmapped => false

/-- The thresholds of a tier in a bank's contents. -/
def Contents.tier (c : Contents) (t : Nat) : TierRow := tget TierRow.empty c.tiers t

end Sys2Proof.Machine
end

