-- ==== Sys2Proof/Machine/Flags.lean ====
section
/-! DEFINITION. Correction, deviation, flags, tracking, learned means, streak levels (R40 to R45, R49, R101, R102) and the
measures of a column span (R87, R88). -/

namespace Sys2Proof.Machine

open Sys2Proof

/-- The rounded, not yet clamped correction of a sample below 4095 (R40): half up, the floor for negative products. -/
def correctionRounded (s : Nat) (e : FlatEntry) : Int := (((s : Int) - e.dark) * e.gain + 2048) / 4096

/-- R40: the corrected value. -/
def corrected (s : Nat) (e : FlatEntry) : Nat :=
  if s = 4095 then 4095 else (clampInt 0 4095 (correctionRounded s e)).toNat

/-- R41: a column is clipped when its sample is 4095 or its rounded correction exceeded 4095. -/
def isClipped (s : Nat) (e : FlatEntry) : Bool := decide (s = 4095) || decide (4095 < correctionRounded s e)

/-- R42: dev = 16c - ref. -/
def deviation (c ref : Nat) : Int := 16 * (c : Int) - ref

/-- R43: BRIGHT when dev ≥ 16 × TB, DARK when dev ≤ -16 × TD. -/
def flagOf (dev : Int) (t : TierRow) : Option Polarity :=
  if 16 * (t.tb : Int) ≤ dev then some .bright else if dev ≤ -(16 * (t.td : Int)) then some .dark else none

/-- R45: the tracking step, truncated toward zero. -/
def trackStep (dev : Int) (k : Nat) : Int := dev.tdiv (2 ^ k : Nat)

/-- R45: the tracked ref. -/
def tracked (ref : Nat) (dev : Int) (k : Nat) : Nat := ((ref : Int) + trackStep dev k).toNat

/-- R49: the mean of the collected values in dev units, rounded half up. -/
def learnedMean (sum count : Nat) : Nat := (16 * sum + count / 2) / count

/-- R99: the level of an accumulator under leak shift L. -/
def streakLevel (acc : Int) (leak : Nat) : Int := acc.tdiv (2 ^ leak : Nat)

/-- R101: leak, add the contribution, clamp. -/
def accumulate (acc dev : Int) (leak clip : Nat) : Int :=
  clampInt (-Config.accLimit) Config.accLimit (acc - streakLevel acc leak + clampInt (-(clip : Int)) clip dev)

/-- R102: hot BRIGHT or hot DARK against TS. -/
def hotOf (level : Int) (ts : Nat) : Option Polarity :=
  if (ts : Int) ≤ level then some .bright else if level ≤ -(ts : Int) then some .dark else none

/-- R102: TR = floor(3 × TS / 4). -/
def releaseThreshold (ts : Nat) : Nat := 3 * ts / 4

/-- R102: a member's level is held to the release threshold. -/
def heldTo (pol : Polarity) (level : Int) (ts : Nat) : Bool :=
  match pol with
  | .bright => decide ((releaseThreshold ts : Int) ≤ level)
  | .dark => decide (level ≤ -(releaseThreshold ts : Int))

/-- The sign of a face's geometry. -/
def Geometry.sign (g : Geometry) : Int := if g.mirrored then -1 else 1

/-- R87: width in µm of a column span, saturating at 65,535; for a streak too, of which R111 names R87 alone (log 46). -/
def spanWidth (g : Geometry) (colMin colMax : Nat) : Nat := min 65535 (((colMax - colMin + 1) * g.pitch + 50) / 100)

/-- R88: cross-direction centre in µm, rounded half up. -/
def spanCentre (g : Geometry) (colMin colMax : Nat) : Int :=
  (200 * g.origin + g.sign * ((colMin : Int) + colMax) * g.pitch + 100) / 200

/-- R87: length in µm of a line count, saturating at 65,535. -/
def lineLength (lines pitch : Nat) : Nat := min 65535 ((lines * pitch + 512) / 1024)

end Sys2Proof.Machine
end

