-- ==== Sys2Proof/Machine/Frames.lean ====
section
/-! DEFINITION. The frame check and the words of every outbound frame (spec/12_frame_formats.md). -/

namespace Sys2Proof.Machine

open Sys2Proof

/-! ### The frame check word (R180) -/

/-- One of the eight shifts of R180 step 3. -/
def crcShift (reg : Word) : Word :=
  if reg.getLsbD 0 then (reg >>> 1) ^^^ 0xEDB88320#32 else reg >>> 1

/-- R180 steps 2 and 3 for one byte. -/
def crcByte (reg : Word) (b : Byte) : Word :=
  crcShift (crcShift (crcShift (crcShift (crcShift (crcShift (crcShift (crcShift (reg ^^^ b.setWidth 32))))))))

/-- The bytes of a word, least significant first (12, Frames). -/
def wordBytes (w : Word) : List Byte :=
  [w.extractLsb' 0 8, w.extractLsb' 8 8, w.extractLsb' 16 8, w.extractLsb' 24 8]

/-- R180: the check word over the words of a frame before it. -/
def frameCheck (ws : List Word) : Word :=
  ws.foldl (fun reg w => (wordBytes w).foldl crcByte reg) 0xFFFFFFFF#32 ^^^ 0xFFFFFFFF#32

/-- Close a frame with its check word (R165). -/
def withCheck (ws : List Word) : List Word := ws ++ [frameCheck ws]

/-! ### Codes (12.2) -/

def faceCode : FaceId → Nat
  | .lead => 0
  | .trail => 1

/-- Face none is 3. -/
def faceCode? : Option FaceId → Nat
  | some f => faceCode f
  | none => 3

def flagCode (b : Bool) : Nat := if b then 1 else 0

def polarityCode : Polarity → Nat
  | .bright => 0
  | .dark => 1

def excerptCode : ExcerptState → Nat
  | .none => 0
  | .captured _ => 1
  | .partly _ => 2
  | .skipped => 3
  | .withdrawn => 4

def truncCode : TruncReason → Nat
  | .none => 0
  | .length => 1
  | .pattern => 2
  | .changeover => 3
  | .motion => 4
  | .stop => 5

def streakReasonCode : StreakReason → Nat
  | .released => 1
  | .merged => 2
  | .changeover => 3
  | .motion => 4
  | .stop => 5

def laneCauseCode : LaneCause → Nat
  | .escalate => 0
  | .relax => 1
  | .alertFloor => 2
  | .limit => 3
  | .changeover => 4

def motionCode : MotionState → Nat
  | .still => 0
  | .creep => 1
  | .moving => 2
  | .backing => 3

def headCode : HeadState → Nat
  | .off => 0
  | .active => 1
  | .silent => 2

def headCauseCode : HeadCause → Nat
  | .placement => 0
  | .missing => 1
  | .packet => 2

def patternCode : PatternState → Nat
  | .continuous => 0
  | .seeking => 1
  | .synced => 2
  | .coasting => 3
  | .lost => 4

def patternCauseCode : PatternCause → Nat
  | .miss => 0
  | .seek => 1
  | .mark => 2
  | .changeover => 3

def replyCodeOf : ReplyCode → Nat
  | .done => 0
  | .clamped => 1
  | .busy => 2
  | .state => 3
  | .range => 4
  | .locked => 5
  | .overlap => 6
  | .stale => 7
  | .tooLate => 8
  | .unknown => 9
  | .malformed => 10

def causeCode : ResetCause → Nat
  | .power => 0
  | .pin => 1
  | .command => 2

def bankCode : BankId → Nat
  | .bank0 => 0
  | .bank1 => 1

def corrMarkCode : CorrMark → Nat
  | .none => 0
  | .leadOnly _ => 1
  | .trailOnly => 2

/-- The reason field is named for lead-only records alone; it is 0 in the others (log 23). -/
def leadOnlyCode : CorrMark → Nat
  | .leadOnly .expired => 1
  | .leadOnly .evicted => 2
  | .leadOnly .stop => 3
  | .none | .trailOnly => 0

/-- An absent value is sent as FFFFFFFFh (12.4, R137). -/
def absentWord : Word := 0xFFFFFFFF#32

/-- A field `width` bits wide whose lowest bit is bit `lo`. -/
def bits (lo width v : Nat) : Nat := v % 2 ^ width * 2 ^ lo

/-! ### The parts of the frames -/

/-- The common header of an outbound frame (12.3). -/
def header (kind count lostBefore face : Nat) (unsync : Bool) : List Word :=
  [word (bits 24 8 kind + bits 0 24 count),
   word (bits 16 16 lostBefore + bits 14 2 face + bits 13 1 (flagCode unsync))]

/-- The buffer field of a record: its buffer, or a free value where it holds none (log 12). -/
def bufferField (r : Defect) : Nat :=
  match r.excerpt with
  | .captured b | .partly b => b
  | .none | .skipped | .withdrawn => Config.unheldBuffer r.first r.number

/-- A blob block (12.5). `bit9`: in a THROUGH frame the record's unsynchronised mark stands in bit 9 of the first word. -/
def blobBlock (r : Defect) (bit9 : Bool) : List Word :=
  [word (bits 28 4 r.cls + bits 27 1 (polarityCode r.polarity) + bits 24 3 (excerptCode r.excerpt)
      + bits 21 3 (bufferField r) + bits 18 3 (truncCode r.trunc) + bits 17 1 (flagCode r.inGuard)
      + bits 16 1 (flagCode r.touched) + bits 14 2 (corrMarkCode r.mark) + bits 12 2 (leadOnlyCode r.mark)
      + bits 10 2 r.tier + bits 9 1 (flagCode (bit9 && r.unsync))),
   word (bits 24 8 r.number + bits 20 4 r.lane + bits 0 13 r.peakCol),
   r.first, r.last, wordI r.md, wordI r.cd,
   word (bits 16 16 r.width + bits 0 16 r.length),
   word (bits 0 16 r.area), word (bits 0 17 r.peak), word r.sum]

/-- The words 2..10 of a STREAK frame (12.6): the fields the kind carries (R111, R112, R114), 0 in the others. A peak above 131,071
is sent as its low 17 bits (log 50). -/
def streakWords (r : StreakReport) : List Word :=
  let common := bits 26 6 r.number + bits 25 1 (polarityCode r.polarity) + bits 15 1 (flagCode r.inGuard) + bits 11 4 r.lane
  match r.kind with
  | .opened =>
    [word (common + bits 9 2 r.tierAtOpen), word (bits 19 13 r.founding), 0, wordI r.start, wordI r.pos, 0, 0, 0,
     word (bits 0 17 r.peak)]
  | .continued =>
    [word (common + bits 7 2 r.tierNow), word (bits 5 14 r.members), word (bits 16 13 r.colMin + bits 0 13 r.colMax),
     wordI r.start, wordI r.pos, word r.length, word r.width, wordI r.cd, word (bits 0 17 r.peak)]
  | .closed reason survivor =>
    [word (common + bits 22 3 (streakReasonCode reason) + bits 16 6 (survivor.getD 0) + bits 9 2 r.tierAtOpen),
     word (bits 19 13 r.founding), word (bits 16 13 r.colMin + bits 0 13 r.colMax),
     wordI r.start, wordI r.pos, word r.length, word r.width, wordI r.cd, word (bits 0 17 r.peak)]

def streakFrameKind : StreakKind → Nat
  | .opened => 0x30
  | .continued => 0x31
  | .closed _ _ => 0x32

/-- The line a LANE or alert report names; FFFFFFFFh where the face has had no inspection line (R137). -/
def lineWords (index : Option Word) (pos : Option Int) : List Word :=
  [index.getD absentWord, (pos.map wordI).getD absentWord]

/-- Words 2..4 of a LANE frame (12.6). -/
def laneWords (r : LaneReport) : List Word :=
  word (bits 28 4 r.lane + bits 25 3 (laneCauseCode r.cause) + bits 23 2 r.oldTier + bits 21 2 r.newTier
      + bits 19 2 r.own + bits 17 2 r.minLimit + bits 15 2 r.maxLimit + bits 14 1 (flagCode r.alert)
      + bits 0 11 r.windowSum)
    :: lineWords r.index r.pos

/-- Words 2..5 of a status frame (12.6). -/
def statusWords : Status → List Word
  | .motion old new h speed =>
    [word (bits 24 8 1 + bits 22 2 (motionCode old) + bits 20 2 (motionCode new)), wordI h, word speed, 0]
  | .rewound h p => [word (bits 24 8 2), wordI h, wordI p, 0]
  | .head port old new cause line =>
    [word (bits 24 8 3 + bits 22 2 port + bits 20 2 (headCode old) + bits 18 2 (headCode new)
      + bits 16 2 (headCauseCode cause)), line, 0, 0]
  | .learnDone len index unlearned => [word (bits 24 8 4 + bits 0 13 len), index, word unlearned, 0]
  | .blobSaturation sat n index =>
    [word (bits 24 8 5 + bits 23 1 (flagCode sat) + bits 0 9 n), index.getD absentWord, 0, 0]
  | .streakSaturation sat n index =>
    [word (bits 24 8 6 + bits 23 1 (flagCode sat) + bits 0 7 n), index.getD absentWord, 0, 0]
  | .pattern old new cause index pos edge =>
    [word (bits 24 8 7 + bits 21 3 (patternCode old) + bits 18 3 (patternCode new) + bits 16 2 (patternCauseCode cause)),
     index, wordI pos, (edge.map wordI).getD 0]
  | .alert on n na index pos =>
    word (bits 24 8 8 + bits 23 1 (flagCode on) + bits 16 5 n + bits 0 5 na) :: (lineWords index pos ++ [0])
  | .bankSwitched old new s index pos =>
    [word (bits 24 8 9 + bits 23 1 (bankCode old) + bits 22 1 (bankCode new)), wordI s, index, wordI pos]

/-- Two 12-bit cells a word: bits 11..0, then 27..16 (12.7). -/
def cellWords : List Nat → List Word
  | [] => []
  | [a] => [word (bits 0 12 a)]
  | a :: b :: rest => word (bits 0 12 a + bits 16 12 b) :: cellWords rest

/-- Words 2..518 of an EXCERPT frame (12.7), with the window of the held buffer. -/
def excerptWords (e : ExcerptEntry) (b : Buffer) : List Word :=
  [word (bits 28 4 e.cls + bits 27 1 (flagCode b.partly) + bits 24 3 e.buffer), e.first, e.last, b.firstLine,
   wordI b.firstCol] ++ cellWords b.cells

/-- Words 2 on of a PREVIEW frame (12.7). -/
def previewWords (p : PreviewLine) : List Word :=
  [word (bits 31 1 (flagCode (decide (p.cls = .creep))) + bits 0 4 p.binning), p.index, wordI p.pos] ++ cellWords p.bins

/-- A buffer with no contents: what an EXCERPT entry whose buffer is not held would read (no rule lets it arise). -/
def Buffer.blank : Buffer := { face := .lead, firstLine := 0, firstCol := 0, partly := true, cells := [] }

/-- Kind, header face, unsynchronised mark and the words between header and check word of a report. -/
def reportBody (buffers : Table (Option Buffer)) : Report → Nat × Nat × Bool × List Word
  | .reply r => (0x10, 3, false, word (bits 24 8 r.code + bits 16 8 r.tag + bits 8 8 (replyCodeOf r.reply)) :: r.body)
  | .defect r => (0x20, faceCode r.face, r.unsync, blobBlock r false)
  | .through l t md cd =>
    (0x21, 2, l.unsync || t.unsync, blobBlock l true ++ blobBlock t true ++ [wordI md, wordI cd])
  | .streak r => (streakFrameKind r.kind, faceCode r.face, r.unsync, streakWords r)
  | .lane r => (0x40, faceCode r.face, r.unsync, laneWords r)
  | .status f u st => (0x50, faceCode? f, u, statusWords st)
  | .excerpt e => (0x60, faceCode e.face, false, excerptWords e ((tget none buffers e.buffer).getD Buffer.blank))
  | .preview p => (0x70, faceCode p.face, false, previewWords p)
  | .start cause tag kept =>
    (0x80, 3, false, [word (bits 30 2 (causeCode cause) + bits 29 1 (flagCode kept) + bits 8 1 (flagCode tag.isSome)
      + bits 0 8 (tag.getD 0))])

/-- The whole outbound frame of a report: header, body, check word. -/
def frameWords (buffers : Table (Option Buffer)) (r : Report) (lostBefore : Nat) : List Word :=
  let b := reportBody buffers r
  withCheck (header b.1 (b.2.2.2.length + 3) lostBefore b.2.1 b.2.2.1 ++ b.2.2.2)

end Sys2Proof.Machine
end

