-- ==== Sys2Proof/Machine/Arbiter.lean ====
section
/-! DEFINITION. The Report Arbiter: queues, losses, the pick, transmission, the link, and the freeing and withdrawing of
excerpt buffers (R96, R157 to R161, R164, R166). -/

namespace Sys2Proof.Machine

open Sys2Proof

/-! ### Queues -/

def Out.queue (o : Out) : QueueId → Queue
  | .reply => o.reply
  | .expressA => o.expressA
  | .expressB => o.expressB
  | .p2 => o.p2
  | .p1 => o.p1
  | .p0 => o.p0
  | .excerpt => o.excerpt
  | .previewLead => o.previewLead
  | .previewTrail => o.previewTrail

def Out.setQueue (o : Out) (q : QueueId) (x : Queue) : Out :=
  match q with
  | .reply => { o with reply := x }
  | .expressA => { o with expressA := x }
  | .expressB => { o with expressB := x }
  | .p2 => { o with p2 := x }
  | .p1 => { o with p1 := x }
  | .p0 => { o with p0 := x }
  | .excerpt => { o with excerpt := x }
  | .previewLead => { o with previewLead := x }
  | .previewTrail => { o with previewTrail := x }

/-- 10.1: the capacities. -/
def capacity : QueueId → Nat
  | .reply | .expressA | .expressB | .excerpt => 8
  | .p2 => 32
  | .p1 => 64
  | .p0 => 128
  | .previewLead | .previewTrail => 1

/-- The preview slot of a face. -/
def previewQueue : FaceId → QueueId
  | .lead => .previewLead
  | .trail => .previewTrail

/-- A loss raises both counts of a queue by one (R157). -/
def Queue.lose (q : Queue) : Queue :=
  { q with pendingLoss := count16 q.pendingLoss, totalLost := count32 q.totalLost }

/-- An acceptance: the report joins at the tail and carries the pending loss, which becomes 0 (R157). -/
def Queue.accept (q : Queue) (r : Report) : Queue :=
  { q with entries := q.entries ++ [{ report := r, lostBefore := q.pendingLoss }], pendingLoss := 0 }

/-! ### Excerpt buffers held by records (R96, R158) -/

/-- The buffer a record holds. -/
def ExcerptState.held : ExcerptState → Option Nat
  | .captured b | .partly b => some b
  | .none | .skipped | .withdrawn => .none

def Out.freeBuffer (o : Out) (b : Nat) : Out := { o with buffers := tset none o.buffers b none }

/-- Free the buffer a record holds. -/
def Out.freeRecord (o : Out) (r : Defect) : Out :=
  match r.excerpt.held with
  | some b => o.freeBuffer b
  | none => o

/-- A dropped, unoffered or lost report releases what it holds (R158, R96, R164). -/
def Out.release (o : Out) : Report → Out
  | .defect r => o.freeRecord r
  | .through l t _ _ => (o.freeRecord l).freeRecord t
  | .reply _ | .streak _ | .lane _ | .status _ _ _ | .excerpt _ | .preview _ | .start _ _ _ => o

/-- The record once STOP or a reset has freed its buffer (R96). -/
def Defect.withdraw (r : Defect) : Defect :=
  match r.excerpt.held with
  | some _ => { r with excerpt := .withdrawn }
  | none => r

def Report.withdraw : Report → Report
  | .defect r => .defect r.withdraw
  | .through l t md cd => .through l.withdraw t.withdraw md cd
  | .reply r => .reply r
  | .streak r => .streak r
  | .lane r => .lane r
  | .status f u s => .status f u s
  | .excerpt e => .excerpt e
  | .preview p => .preview p
  | .start c t k => .start c t k

def Queue.withdraw (q : Queue) : Queue :=
  { q with entries := q.entries.map fun e => { e with report := e.report.withdraw } }

def Candidate.withdraw (c : Candidate) : Candidate := { c with record := c.record.withdraw }

def TrailWork.withdraw : TrailWork → TrailWork
  | .candidate c => .candidate c.withdraw
  | .expiry p m => .expiry p m

/-- Whether a report is an EXCERPT frame. -/
def Report.isExcerpt : Report → Bool
  | .excerpt _ => true
  | .reply _ | .defect _ | .through _ _ _ _ | .streak _ | .lane _ | .status _ _ _ | .preview _ | .start _ _ _ => false

/-- The frame in transmission after STOP: it goes out as picked, its record is withdrawn, and an EXCERPT frame no longer
owns its buffer (R161). -/
def InFlight.withdraw (t : InFlight) : InFlight :=
  { t with report := t.report.withdraw, live := t.live && !t.report.isExcerpt }

/-- Every entry of a queue is removed and counted as lost (R161). -/
def Queue.removeAll (q : Queue) : Queue :=
  { entries := [], pendingLoss := satAdd 65535 q.pendingLoss q.entries.length,
    totalLost := satAdd 4294967295 q.totalLost q.entries.length }

/-- STOP at the arbiter: every buffer freed, every record withdrawn, the excerpt queue emptied at a loss (R96, R161). -/
def Out.stop (o : Out) : Out :=
  { o with
    buffers := [],
    tx := o.tx.map InFlight.withdraw,
    expressA := o.expressA.withdraw, expressB := o.expressB.withdraw, p2 := o.p2.withdraw, p1 := o.p1.withdraw,
    p0 := o.p0.withdraw, excerpt := o.excerpt.removeAll }

/-! ### The pick (R159) -/

/-- The order of R159 before the preview slots. -/
def pickOrder : List QueueId := [.reply, .expressA, .expressB, .p2, .p1, .p0, .excerpt]

/-- The preview slot to pick, and the toggle after it: with both slots full the toggle chooses and then names the other
face; with one full the toggle stays. -/
def Out.previewPick (o : Out) : Option (QueueId × FaceId) :=
  match o.previewLead.entries.isEmpty, o.previewTrail.entries.isEmpty with
  | true, true => none
  | false, true => some (.previewLead, o.toggle)
  | true, false => some (.previewTrail, o.toggle)
  | false, false => some (previewQueue o.toggle, otherFace o.toggle)

/-- The queue to pick from, with the toggle after the pick. -/
def Out.nextQueue (o : Out) : Option (QueueId × FaceId) :=
  match pickOrder.find? fun q => !(o.queue q).entries.isEmpty with
  | some q => some (q, o.toggle)
  | none => o.previewPick

/-- The START report as it stands when it is picked (R178). -/
def Out.startReport (o : Out) : Report := .start o.cause o.tag o.kept

/-- Pick the head of a queue: it leaves the queue and is in transmission. -/
def Out.pickFrom (o : Out) (q : QueueId) (toggle : FaceId) : Out :=
  match (o.queue q).entries with
  | [] => o
  | e :: rest =>
    { o.setQueue q { o.queue q with entries := rest } with
      toggle := toggle,
      tx := some { queue := some q, report := e.report, words := frameWords o.buffers e.report e.lostBefore, live := true } }

/-- R159: with the link UP and nothing in transmission, pick the START report while it is pending, else the head of the
first non-empty queue. -/
def Out.pick (o : Out) : Out :=
  if o.linkUp && o.tx.isNone then
    if o.startPending then
      { o with tx := some { queue := none, report := o.startReport, words := frameWords o.buffers o.startReport 0,
                            live := true } }
    else
      match o.nextQueue with
      | some (q, t) => o.pickFrom q t
      | none => o
  else o

/-- R157, R158: offer a report to a queue. An accepted report is picked at once when the transmitter is idle (R159). -/
def Out.offer (o : Out) (q : QueueId) (r : Report) : Out :=
  if (o.queue q).entries.length < capacity q then (o.setQueue q ((o.queue q).accept r)).pick
  else (o.setQueue q (o.queue q).lose).release r

/-- Where a level and an express slot send a report (R92, R114, R121, R122, R137); none for OFF. -/
def routeQueue : Level → ExpressSlot → Option QueueId
  | .off, _ => none
  | .p0, .none => some .p0
  | .p1, .none => some .p1
  | .p2, .none => some .p2
  | .p0, .a | .p1, .a | .p2, .a => some .expressA
  | .p0, .b | .p1, .b | .p2, .b => some .expressB

/-- Offer by level and slot; a report of level OFF is not offered and releases what it holds (R124). -/
def Out.route (o : Out) (l : Level) (s : ExpressSlot) (r : Report) : Out :=
  match routeQueue l s with
  | some q => o.offer q r
  | none => o.release r

/-! ### Transmit completion (R159, R160, R166) -/

/-- Append the EXCERPT entry of a record that holds a buffer (R160). -/
def Out.appendExcerpt (o : Out) (r : Defect) : Out :=
  match r.excerpt.held with
  | some b => o.offer .excerpt (.excerpt { face := r.face, cls := r.cls, first := r.first, last := r.last, buffer := b })
  | none => o

/-- What the completion of a sent frame brings about. -/
def Out.sent (o : Out) (t : InFlight) : Out :=
  match t.report with
  | .defect r => o.appendExcerpt r
  | .through l tr _ _ => (o.appendExcerpt l).appendExcerpt tr
  | .excerpt e => if t.live then o.freeBuffer e.buffer else o
  | .start _ _ _ => if t.live then { o with startPending := false } else o
  | .reply _ | .streak _ | .lane _ | .status _ _ _ | .preview _ => o

/-- R159: the frame in transmission has been sent; the arbiter picks the next. -/
def Out.complete (o : Out) : Out :=
  match o.tx with
  | none => o
  | some t => ({ o with tx := none, framesSent := count32 o.framesSent }.sent t).pick

/-! ### The link (R164) -/

/-- R164: a lost frame is accounted against the queue it was picked from; the START report against none. -/
def Out.countLost (o : Out) (t : InFlight) : Out :=
  match t.queue with
  | some q => o.setQueue q (o.queue q).lose
  | none => o

/-- What the loss of a frame in transmission brings about (R164): the START report stays pending. -/
def Out.loseFrame (o : Out) (t : InFlight) : Out :=
  match t.report with
  | .defect _ | .through _ _ _ _ => (o.countLost t).release t.report
  | .excerpt e => if t.live then (o.countLost t).freeBuffer e.buffer else o.countLost t
  | .start _ _ _ | .reply _ | .streak _ | .lane _ | .status _ _ _ | .preview _ => o.countLost t

/-- R164: the link becomes UP and the arbiter picks at once. -/
def Out.up (o : Out) : Out := if o.linkUp then o else { o with linkUp := true }.pick

/-- R164: the link goes DOWN. -/
def Out.down (o : Out) (receiving : Bool) : Out :=
  if o.linkUp then
    let o' := { o with
      linkUp := false, linkDowns := count32 o.linkDowns,
      inboundErrors := if receiving then count32 o.inboundErrors else o.inboundErrors, tx := none }
    match o.tx with
    | some t => o'.loseFrame t
    | none => o'
  else o

/-! ### The reset cause record (R178) -/

/-- The stronger cause, in the order POWER, PIN, COMMAND. -/
def strongerCause : ResetCause → ResetCause → ResetCause
  | .power, _ | _, .power => .power
  | .pin, _ | _, .pin => .pin
  | .command, .command => .command

/-- R178, R166: a reset records its cause and sets the START report pending. `tag`: the RESET command's. -/
def Out.recordReset (o : Out) (cause : ResetCause) (tag : Option Nat) : Out :=
  let c := if o.startPending then strongerCause o.cause cause else cause
  { o with
    startPending := true,
    cause := c,
    tag := if c = .command then tag else none,
    kept := if cause = .power then false else if o.startPending then o.kept else true }

/-! ### Offers by the blocks -/

/-- Offer a report. -/
def Insp.offer (i : Insp) (q : QueueId) (r : Report) : Insp := { i with out := i.out.offer q r }

/-- Offer a report by level and slot. -/
def Insp.route (i : Insp) (rt : Route) (r : Report) : Insp := { i with out := i.out.route rt.level rt.slot r }

/-- Offer a status report to P2 (10.1); one formed for a face carries that face's unsynchronised mark (R72). -/
def Insp.offerStatus (i : Insp) (f : Option FaceId) (st : Status) : Insp :=
  i.offer .p2 (.status f ((f.map i.lost).getD false) st)

/-- Offer a status report. -/
def Dev.offerStatus (d : Dev) (f : Option FaceId) (st : Status) : Dev := { d with insp := d.insp.offerStatus f st }

end Sys2Proof.Machine
end

