-- ==== Sys2Proof/Machine/Operands.lean ====
section
/-! DEFINITION. The command queue's head: which row it is, the operand count test, reading operands, and the one operation
by which every management command is executed and answered (R169 to R173, R181). -/

namespace Sys2Proof.Machine

open Sys2Proof

/-! ### Reading operands (R181, 12.1, 12.2) -/

/-- Operand word `k`. -/
def Command.op (c : Command) (k : Nat) : Word := c.ops.getD k 0

/-- Operand word `k`, unsigned. -/
def Command.nat (c : Command) (k : Nat) : Nat := (c.op k).toNat

/-- Operand word `k`, two's complement. -/
def Command.int (c : Command) (k : Nat) : Int := (c.op k).toInt

def yesNo : Nat → Option Bool
  | 0 => some false
  | 1 => some true
  | _ => none

/-- A face operand where BOTH is outside the set. -/
def faceOf : Nat → Option FaceId
  | 0 => some .lead
  | 1 => some .trail
  | _ => none

/-- A face operand where BOTH is in the set. -/
def facesOf : Nat → Option FaceSet
  | 0 => some .lead
  | 1 => some .trail
  | 2 => some .both
  | _ => none

def bankOf : Nat → Option BankId
  | 0 => some .bank0
  | 1 => some .bank1
  | _ => none

/-- Words in groups of `n`, in order; what does not fill a group is left out. -/
def groups (n : Nat) : Nat → List Word → List (List Word)
  | 0, _ => []
  | k + 1, ws => if ws.length < n then [] else ws.take n :: groups n k (ws.drop n)

/-! ### Which row (11.3, R181, R174) -/

/-- The row of a query: by its kind word when it has the two words a query carries. A query of no known kind, and one of
another length, is refused in the row QUERY_STATUS (log 5). -/
def queryRow (c : Command) : Instr :=
  if c.count = 2 ∧ c.ops.length = 2 then
    match c.nat 0 with
    | 0 => .queryStatus
    | 1 => .queryCounters
    | 2 => .queryLanes
    | 3 => .queryStreaks
    | 4 => .queryPending
    | 5 => .queryRetained
    | _ => .queryStatus
  else .queryStatus

/-- The row that a queued command is. -/
def rowOf (c : Command) : Instr :=
  match c.code with
  | 0x01 => .lineSetup
  | 0x02 => .placementWrite
  | 0x03 => .geometryWrite
  | 0x04 => .flatWrite
  | 0x05 => .setCalibrationLock
  | 0x06 => .previewSet
  | 0x10 => .bankOpen
  | 0x11 => .bankWrite
  | 0x12 => .bankCheck
  | 0x13 => .bankSchedule
  | 0x14 => .bankCancel
  | 0x20 => .start
  | 0x21 => .stop
  | 0x30 => .baselineLearn
  | 0x31 => .baselineRead
  | 0x32 => .baselineReserve
  | 0x33 => .baselinePut
  | 0x40 => .tierLimit
  | 0x50 => queryRow c
  | 0x51 => .clearCounters
  | 0x52 => .retainWrite
  | 0xFF => .reset
  | _ => .unknownCommand

/-! ### The operand count (R171, R181) -/

/-- R181: the fields per entry of a bank table; none for a number that names no table. -/
def tableFields : Nat → Option Nat
  | 0 | 1 => some 6
  | 2 => some 13
  | 3 => some 17
  | 4 => some 3
  | 5 => some 10
  | 6 => some 6
  | 7 => some 11
  | 8 => some 2
  | _ => none

/-- R181: the operand words a command requires; none where no count is given. -/
def Command.required (c : Command) : Option Nat :=
  match c.code with
  | 0x01 | 0x10 | 0x13 | 0x50 => some 2
  | 0x02 => some 7
  | 0x03 | 0x40 => some 4
  | 0x04 => some (3 + 2 * c.nat 2)
  | 0x05 | 0x14 | 0x21 | 0x51 | 0xFF => some 0
  | 0x06 | 0x31 | 0x32 => some 3
  | 0x11 => (tableFields (c.nat 1)).map fun n => 4 + c.nat 3 * n
  | 0x12 | 0x20 | 0x30 => some 1
  | 0x33 => some (3 + c.nat 2)
  | 0x52 => some (1 + 2 * c.nat 0)
  | _ => none

/-- R171: the MALFORMED test. -/
def Command.malformed (c : Command) : Bool :=
  decide (c.count ≠ c.ops.length) ||
    match c.required with
    | some n => decide (c.ops.length ≠ n)
    | none => false

/-! ### Replies (R172) -/

/-- What execution of a command answers: a reply code and the data; none where no reply is queued at execution. -/
abbrev Answer := Option (ReplyCode × List Word)

/-- Offer the reply of a command. -/
def Dev.reply (d : Dev) (code tag : Nat) (r : ReplyCode) (body : List Word) : Dev :=
  { d with insp := d.insp.offer .reply (.reply { code := code, tag := tag, reply := r, body := body }) }

/-- A refusal: nothing changes. -/
def refuse (d : Dev) (r : ReplyCode) : Dev × Answer := (d, some (r, []))

/-- Taken, with data. -/
def taken (d : Dev) (body : List Word) : Dev × Answer := (d, some (.done, body))

/-- Taken; CLAMPED when a value was stored as another. -/
def takenClamped (d : Dev) (clamped : Bool) : Dev × Answer := (d, some (if clamped then .clamped else .done, []))

/-- Offer what execution answered. -/
def answerWith (c : Command) (r : Dev × Answer) : Dev :=
  match r.2 with
  | some (code, body) => r.1.reply c.code c.tag code body
  | none => r.1

/-! ### Execution (R170, R171) -/

/-- R170: the head command leaves the queue and is counted, before its owning rule acts (log 48). -/
def Dev.takeCommand (d : Dev) (rest : List Command) : Dev :=
  { d with base := { d.base with exec := { d.base.exec with queue := rest, executed := count32 d.base.exec.executed } } }

/-- R170: the reply queue has a free place. -/
def Dev.canReply (d : Dev) : Bool := decide (d.insp.out.reply.entries.length < capacity .reply)

/-- R171: the frame's own tests, then the owning rule; the answer is offered in the same step, after the reports of the effect
(log 52). -/
def executeCommand (act : Command → Dev → Dev × Answer) (c : Command) (rest : List Command) (d : Dev) : Dev :=
  let d := d.takeCommand rest
  answerWith c (if c.malformed then refuse d .malformed else act c d)

/-- R170: execute the command at the head of the queue when it is of this row and the reply queue has a free place; where it
is not so the row's step does not occur and nothing changes (log 3, log 4). -/
def runCommand (row : Instr) (act : Command → Dev → Dev × Answer) (s : State) : Host.Outcome State Fault Refusal :=
  match s.dev.base.exec.queue with
  | [] => .next s
  | c :: rest =>
    if rowOf c = row ∧ s.dev.canReply = true then .next { s with dev := executeCommand act c rest s.dev } else .next s

/-! ### Two tests shared by the owning rules -/

/-- The bank a command names, tested first (R144). -/
def withBank (n : Nat) (d : Dev) (k : BankId → Dev × Answer) : Dev × Answer :=
  match bankOf n with
  | some i => k i
  | none => refuse d .range

/-- Act on each face of a set; on both in the free order (log 8). -/
def Dev.onFaces (d : Dev) (fs : FaceSet) (act : FaceId → Dev → Dev) : Dev :=
  match fs with
  | .lead => act .lead d
  | .trail => act .trail d
  | .both => d.bothFaces act

end Sys2Proof.Machine
end

