-- ==== Sys2Proof/Machine/LineLink.lean ====
section
/-! DEFINITION. The link's events and command arrival (R159, R164, R165, R169). -/

namespace Sys2Proof.Machine

open Sys2Proof

/-- Change the outbound side. -/
def Dev.onOut (d : Dev) (g : Out → Out) : Dev := { d with insp := { d.insp with out := g d.insp.out } }

/-- TRANSMIT_COMPLETION (R159). -/
def execTransmitCompletion (s : State) : Host.Outcome State Fault Refusal := .next { s with dev := s.dev.onOut Out.complete }

/-- LINK_UP (R164). -/
def execLinkUp (s : State) : Host.Outcome State Fault Refusal := .next { s with dev := s.dev.onOut Out.up }

/-- LINK_DOWN (R164). -/
def execLinkDown (receiving : Bool) (s : State) : Host.Outcome State Fault Refusal :=
  .next { s with dev := s.dev.onOut fun o => o.down receiving }

/-! ### Inbound frames (R165) -/

/-- R165, 12.3: the length a frame's header declares. -/
def declaredLength (ws : List Word) : Nat := (ws.getD 0 0).toNat % 16777216

/-- R165: the four tests of an inbound frame. -/
def frameGood (ws : List Word) : Bool :=
  decide (ws.getLast? = some (frameCheck ws.dropLast)) && decide (ws.length = declaredLength ws) &&
    decide (Config.shortestCommand ≤ ws.length) && decide (ws.length ≤ Config.longestCommand)

/-- 12.3, R181: the command of a frame. -/
def commandOf (ws : List Word) : Command :=
  let w := (ws.getD 1 0).toNat
  { code := w / 16777216, tag := w / 65536 % 256, count := w % 65536, ops := (ws.drop 2).dropLast }

/-- Change the Command Executor. -/
def Dev.onExec (d : Dev) (g : Exec → Exec) : Dev := { d with base := { d.base with exec := g d.base.exec } }

/-- R169: a command arrives. -/
def commandArrival (c : Command) (d : Dev) : Dev :=
  if d.base.exec.queue.length < Config.maxCommands then d.onExec fun x => { x with queue := x.queue ++ [c] }
  else if d.canReply then (d.onExec fun x => { x with busy := count32 x.busy }).reply c.code c.tag .busy []
  else d.onExec fun x => { x with discarded := count32 x.discarded }

/-- R165: an inbound frame; none arrives while the link is DOWN (R164). -/
def inboundFrame (ws : List Word) (d : Dev) : Dev :=
  if d.insp.out.linkUp = false then d
  else if frameGood ws then commandArrival (commandOf ws) d
  else d.onOut fun o => { o with inboundErrors := count32 o.inboundErrors }

/-- INBOUND_FRAME (R165). -/
def execInboundFrame (words : List Word) (s : State) : Host.Outcome State Fault Refusal :=
  .next { s with dev := inboundFrame words s.dev }

end Sys2Proof.Machine
end

