-- ==== Sys2Proof/Machine/Tiers.lean ====
section
/-! DEFINITION. The Tier Controller (spec/08_lane_sensitivity_tiers.md): window sums, effective tiers, counted events,
bucket boundaries, the face alert and its reports, loading at START and at a switch. -/

namespace Sys2Proof.Machine

open Sys2Proof

/-! ### Reading (8.2) -/

def Tier.lane (t : Tier) (j : Nat) : Lane := tget Lane.powerOn t.lanes j

def Tier.setLane (t : Tier) (j : Nat) (l : Lane) : Tier := { t with lanes := tset Lane.powerOn t.lanes j l }

/-- The numbers of the 16 lanes. -/
def laneNumbers : List Nat := List.range Config.lanes

def Lane.bucket (l : Lane) (k : Nat) : Nat := tget 0 l.buckets k

/-- The sum of a lane's eight buckets. -/
def Lane.windowSum (l : Lane) : Nat := ((List.range 8).map l.bucket).sum

/-- The floor of a face: Fa while the alert is on, else T0. -/
def Tier.floor (t : Tier) : Nat := if t.alert then t.fa else 0

/-- The effective tier of a lane under a floor: min(max(own, floor), max limit). -/
def Lane.effective (l : Lane) (floor : Nat) : Nat := min (max l.own floor) l.maxLimit

def Tier.effective (t : Tier) (j : Nat) : Nat := (t.lane j).effective t.floor

/-- The effective tiers of the 16 lanes, as the record carries them (R39). -/
def Tier.effectives (t : Tier) : List Nat := laneNumbers.map t.effective

/-- The number of lanes with own tier T2 or above (R136). -/
def Tier.atT2 (t : Tier) : Nat := (laneNumbers.filter fun j => decide (2 ≤ (t.lane j).own)).length

/-! ### One change with its reports (R136, R137) -/

/-- The alert after the test of R136, with the alert entry count. -/
def Tier.testAlert (t : Tier) (na : Nat) : Tier :=
  let on := decide (na ≤ t.atT2)
  { t with alert := on, alerts := if on && !t.alert then count32 t.alerts else t.alerts }

/-- A LANE report of lane `j` after a change (R137). -/
def laneReport (f : FaceId) (unsync : Bool) (cause : LaneCause) (line : Option (Word × Int)) (old new : Tier) (j : Nat) :
    LaneReport :=
  let l := new.lane j
  { face := f, unsync := unsync, lane := j, cause := cause, oldTier := old.effective j, newTier := new.effective j,
    own := l.own, minLimit := l.minLimit, maxLimit := l.maxLimit, alert := new.alert, windowSum := l.windowSum,
    index := line.map (·.1), pos := line.map fun p => toUnits p.2 }

/-- LANE reports for those of `lanes` whose effective tier changed, in the order of `lanes`. -/
def offerLanes (b : Base) (f : FaceId) (cause : LaneCause) (line : Option (Word × Int)) (old new : Tier)
    (lanes : List Nat) (i : Insp) : Insp :=
  lanes.foldl (fun i j =>
    if old.effective j = new.effective j then i
    else i.route (b.banks.contents f).policy.lane (.lane (laneReport f (i.lost f) cause line old new j))) i

/-- The alert status report, when the alert changed (R137 step 2). -/
def offerAlert (na : Nat) (f : FaceId) (line : Option (Word × Int)) (old new : Tier) (i : Insp) : Insp :=
  if old.alert = new.alert then i
  else i.offerStatus (some f) (.alert new.alert new.atT2 na (line.map (·.1)) (line.map fun p => toUnits p.2))

/-- The number Na of the bank active on the face. -/
def Base.na (b : Base) (f : FaceId) : Nat := (b.banks.contents f).tierPolicy.na

/-- R137: one change, the alert test, and the reports: the lanes directly changed, the alert, the other lanes. -/
def commitTiers (b : Base) (f : FaceId) (direct : List Nat) (cause : LaneCause) (line : Option (Word × Int)) (changed : Tier)
    (i : Insp) : Insp :=
  let old := (i.face f).tier
  let new := changed.testAlert (b.na f)
  let i := i.onFace f fun x => { x with tier := new }
  let i := offerLanes b f cause line old new direct i
  let i := offerAlert (b.na f) f line old new i
  offerLanes b f .alertFloor line old new (laneNumbers.filter fun j => !direct.contains j) i

/-- The line a change made between lines names: the face's last inspection line (R137). -/
def Tier.lastInspection (t : Tier) : Option (Word × Int) :=
  match t.lastLine, t.lastPos with
  | some l, some p => some (l, p)
  | none, _ | some _, none => none

/-! ### Counted events (R131) -/

/-- One metre in fine units. -/
def metre : Int := 1024000000

/-- Residency: the last change is absent or at least `dist` metres back (R131, R133). An event with no position (no
inspection line since START, which no rule lets arise) passes only an absent last change, or Ru = 0 (log 40). -/
def residencyOk (last pos : Option Int) (dist : Nat) : Bool :=
  match last, pos with
  | none, _ => true
  | some l, some p => decide ((dist : Int) * metre ≤ p - l)
  | some _, none => false

/-- R131: the event enters the current bucket. -/
def Tier.addEvent (t : Tier) (j : Nat) : Tier :=
  let l := t.lane j
  t.setLane j { l with buckets := tset 0 l.buckets t.current (satAdd 255 (l.bucket t.current) 1) }

/-- R131: the three tests of escalation. With Ru = 0 residency holds no event back, also one whose position lies below the
last change position, as R132 has both of two events escalate (log 42). -/
def escalates (p : TierPolicy) (l : Lane) (pos : Option Int) : Bool :=
  decide (p.ne ≤ l.windowSum) && decide (l.own < l.maxLimit) && (decide (p.ru = 0) || residencyOk l.lastChange pos p.ru)

/-- R131: a counted event at its Tier Controller. With no bank active on the face there is no policy to test against and
the event changes only the bucket (log 40). The reports of R137 name the event's own line, whatever line of the face has begun
since (log 51). -/
def applyEvent (b : Base) (f : FaceId) (ev : CountedEvent) (i : Insp) : Insp :=
  let t := (i.face f).tier.addEvent ev.lane
  let i := i.onFace f fun x => { x with tier := t }
  let l := t.lane ev.lane
  if (b.banks.activeOn f).isSome && escalates (b.banks.contents f).tierPolicy l ev.pos then
    let line := match ev.index, ev.pos with
      | some n, some p => some (n, p)
      | none, _ | some _, none => none
    commitTiers b f [ev.lane] .escalate line
      { t.setLane ev.lane { l with own := l.own + 1, lastChange := ev.pos } with escalations := count32 t.escalations } i
  else i

/-- The events of one sender that wait at the face's Tier Controller. -/
def Tier.events (t : Tier) : EventSource → List CountedEvent
  | .blobBuilder => t.blobEvents
  | .streakTracker => t.streakEvents

def Tier.setEvents (t : Tier) (src : EventSource) (l : List CountedEvent) : Tier :=
  match src with
  | .blobBuilder => { t with blobEvents := l }
  | .streakTracker => { t with streakEvents := l }

/-- Take the oldest waiting event of a sender (R131, R132). -/
def takeEvent (b : Base) (f : FaceId) (src : EventSource) (i : Insp) : Insp :=
  match (i.face f).tier.events src with
  | [] => i
  | ev :: rest => applyEvent b f ev (i.onFace f fun x => { x with tier := x.tier.setEvents src rest })

/-- Take every waiting event of a sender: before a switch or STOP changes the bank that governs them (log 7). -/
def drainEvents (b : Base) (f : FaceId) (src : EventSource) (i : Insp) : Insp :=
  ((i.face f).tier.events src).foldl (fun i ev => applyEvent b f ev i)
    (i.onFace f fun x => { x with tier := x.tier.setEvents src [] })

/-- Send a counted event to the face's Tier Controller (R91, R109). -/
def sendEvent (f : FaceId) (src : EventSource) (ev : CountedEvent) (i : Insp) : Insp :=
  i.onFace f fun x => { x with tier := x.tier.setEvents src (x.tier.events src ++ [ev]) }

/-! ### Bucket boundaries (R133, R135) -/

/-- R129: the bucket span, W × 128,000,000 fine units. -/
def TierPolicy.span (p : TierPolicy) : Int := p.w * 128000000

/-- R133: the relax test of one lane. -/
def relaxes (p : TierPolicy) (l : Lane) (y : Int) : Bool :=
  decide (l.windowSum < p.nd) && decide (l.minLimit < l.own) && residencyOk l.lastChange (some y) p.rd

/-- R133 steps 2 and 3 for one lane. -/
def relaxLane (b : Base) (f : FaceId) (index : Word) (y : Int) (i : Insp) (j : Nat) : Insp :=
  let t := (i.face f).tier
  let l := t.lane j
  if relaxes (b.banks.contents f).tierPolicy l y then
    commitTiers b f [j] .relax (some (index, y))
      { t.setLane j { l with own := l.own - 1, lastChange := some y } with relaxations := count32 t.relaxations } i
  else i

/-- R133 step 1: the oldest bucket is cleared in every lane and becomes current. -/
def Tier.rotate (t : Tier) : Tier :=
  let k := (t.current + 1) % 8
  { t with current := k,
           lanes := tmap Lane.powerOn (fun l => { l with buckets := tset 0 l.buckets k 0 }) t.lanes }

/-- R133: one boundary step. -/
def boundaryStep (b : Base) (f : FaceId) (index : Word) (y : Int) (i : Insp) : Insp :=
  let i := i.onFace f fun x => { x with tier := x.tier.rotate }
  let i := laneNumbers.foldl (relaxLane b f index y) i
  i.onFace f fun x =>
    { x with tier := { x.tier with next := x.tier.next.map (· + (b.banks.contents f).tierPolicy.span) } }

/-- R133: repeat the step until the boundary lies above the line; `fuel` is the number of spans up to the line. -/
def boundarySteps (b : Base) (f : FaceId) (index : Word) (y : Int) : Nat → Insp → Insp
  | 0, i => i
  | n + 1, i =>
    match (i.face f).tier.next with
    | some nb => if nb ≤ y then boundarySteps b f index y n (boundaryStep b f index y i) else i
    | none => i

/-- R133, R135: what the start of an inspection line in RUNNING does at the Tier Controller. -/
def tierLineStart (b : Base) (f : FaceId) (h : LineHead) (i : Insp) : Insp :=
  let fuel := match (i.face f).tier.next with
    | some nb => ((h.pos - nb) / (b.banks.contents f).tierPolicy.span + 1).toNat
    | none => 0
  (boundarySteps b f h.index h.pos fuel i).onFace f fun x =>
    { x with tier := { x.tier with lastPos := some h.pos, lastLine := some h.index } }

/-! ### Loading (R139, R140) -/

/-- A lane as a policy loads it (R139). -/
def TierPolicy.lane (p : TierPolicy) : Lane :=
  { buckets := [], own := p.minTier, minLimit := p.minTier, maxLimit := p.maxTier, lastChange := none }

/-- R139: the Tier Controller loaded from a policy, with its next boundary one bucket span past `pos`. -/
def Tier.load (t : Tier) (p : TierPolicy) (pos : Int) : Tier :=
  { t with lanes := laneNumbers.foldl (fun ls j => tset Lane.powerOn ls j p.lane) [],
           current := 0, next := some (pos + p.span), fa := p.fa }

/-- R139: load at START; a change of the alert, either way, is reported (log 37), LANE reports are not offered. -/
def loadTiersAtStart (b : Base) (f : FaceId) (i : Insp) : Insp :=
  let old := (i.face f).tier
  let p := (b.banks.contents f).tierPolicy
  let new := ({ old.load p (b.facePos f) with lastPos := none, lastLine := none }).testAlert p.na
  offerAlert p.na f none old new (i.onFace f fun x => { x with tier := new })

/-- R140: reload at the switch line; every lane whose effective tier changed gets a LANE report of cause CHANGEOVER. All of these
reports come before the alert report: R137 puts them in place of its steps 1 and 3, on which side of step 2 is left open
(log 47). The last inspection position and line stay (log 59). -/
def loadTiersAtSwitch (b : Base) (f : FaceId) (h : LineHead) (i : Insp) : Insp :=
  let old := (i.face f).tier
  let p := (b.banks.contents f).tierPolicy
  let new := (old.load p h.pos).testAlert p.na
  let line := some (h.index, h.pos)
  let i := i.onFace f fun x => { x with tier := new }
  offerAlert p.na f line old new (offerLanes b f .changeover line old new laneNumbers i)

/-! ### TIER_LIMIT (R138) -/

/-- R138: a lane takes new limits and is clamped into them. -/
def Lane.limit (l : Lane) (lo hi : Nat) (lastPos : Option Int) : Lane :=
  let own := clampNat lo hi l.own
  { l with minLimit := lo, maxLimit := hi, own := own, lastChange := if own = l.own then l.lastChange else lastPos }

/-- R138: the named lanes of one face take the limits. -/
def limitLanes (b : Base) (f : FaceId) (lanes : List Nat) (lo hi : Nat) (i : Insp) : Insp :=
  let t := (i.face f).tier
  commitTiers b f lanes .limit t.lastInspection
    (lanes.foldl (fun t j => t.setLane j ((t.lane j).limit lo hi t.lastPos)) t) i

end Sys2Proof.Machine
end

