-- ==== Sys2Proof/Machine/PatternTracker.lean ====
section
/-! DEFINITION. Patch marks, edges, synthesis, zones and pattern states (spec/04, R64 to R73). -/

namespace Sys2Proof.Machine

open Sys2Proof

/-- µm in fine units. -/
def fineOf (um : Int) : Int := 1024 * um

/-- The registration offset of a face: r of the bank active on TRAIL, 0 for LEAD (R65). -/
def Base.registration (b : Base) : FaceId → Int
  | .lead => 0
  | .trail => (b.banks.contents .trail).pattern.r

/-- The die-to-lead distance plus the face's registration offset, in fine units (R65, R68). -/
def Base.dieOffset (b : Base) (f : FaceId) : Int := fineOf ((b.motion.setup.die : Int) + b.registration f)

/-- The edge of a mark for a face (R65). -/
def Base.edgeOf (b : Base) (f : FaceId) (m : Mark) : Int := m.h + b.dieOffset f

def Mark.handledBy (m : Mark) : FaceId → Bool
  | .lead => m.leadHandled
  | .trail => m.trailHandled

/-- The face's disposition becomes handled. -/
def Mark.handle (m : Mark) : FaceId → Mark
  | .lead => { m with leadHandled := true }
  | .trail => { m with trailHandled := true }

/-- The oldest entry whose disposition for the face is waiting. -/
def Marks.waiting (ms : Marks) (f : FaceId) : Option Mark := ms.list.find? fun m => !m.handledBy f

/-- Mark the face's oldest waiting entry handled. -/
def handleFirst (f : FaceId) : List Mark → List Mark
  | [] => []
  | m :: rest => if m.handledBy f then m :: handleFirst f rest else m.handle f :: rest

/-- R65: the face handles its oldest waiting entry; entries both faces have handled leave the list. -/
def Marks.consume (ms : Marks) (f : FaceId) : Marks :=
  { ms with list := (handleFirst f ms.list).filter fun m => !(m.leadHandled && m.trailHandled) }

/-- C + G, in fine units. -/
def PatternRecipe.repeatLength (p : PatternRecipe) : Int := fineOf ((p.c : Int) + p.g)

/-- The point at which a face stops waiting for an edge: the synthesis point in SYNCED and COASTING, the seek limit in
SEEKING (R70). -/
def Pattern.limit (x : Pattern) (p : PatternRecipe) : Option Int :=
  match x.state, x.edge, x.seek with
  | some .synced, some e, _ | some .coasting, some e, _ => some (e + p.repeatLength + fineOf p.tolerance)
  | some .seeking, _, some s => some (s + p.repeatLength + fineOf p.tolerance)
  | some .synced, none, _ | some .coasting, none, _ | some .seeking, _, none
  | some .continuous, _, _ | some .lost, _, _ | none, _, _ => none

/-- R72: the report of an entry into LOST or a departure from it, formed after the change (log 22). -/
def offerPattern (f : FaceId) (old new : PatternState) (cause : PatternCause) (h : LineHead) (edge : Option Int) (i : Insp) :
    Insp :=
  i.offerStatus (some f) (.pattern old new cause h.index (toUnits h.pos) (edge.map toUnits))

/-- R69: a face reaches the edge of its oldest waiting entry. -/
def reachEdge (b : Base) (f : FaceId) (h : LineHead) (edge : Int) (i : Insp) : Insp :=
  let i := { i with marks := i.marks.consume f }
  let x := (i.face f).pattern
  let recipe := (b.banks.contents f).pattern
  let consumed := { x with edge := some edge, state := some .synced, consumed := count32 x.consumed }
  match x.state with
  | some .continuous | none => i
  | some .seeking => i.onFace f fun y => { y with pattern := { consumed with seek := none } }
  | some .synced | some .coasting =>
    if fineOf recipe.c + x.edge.getD edge ≤ edge then
      i.onFace f fun y => { y with pattern := { consumed with misses := 0 } }
    else i.onFace f fun y => { y with pattern := { x with early := count32 x.early } }
  | some .lost =>
    offerPattern f .lost .synced .mark h (some edge)
      (i.onFace f fun y => { y with pattern := { consumed with misses := 0 } })

/-- R70: a face reaches its synthesis point or seek limit without an edge. -/
def reachLimit (b : Base) (f : FaceId) (h : LineHead) (i : Insp) : Insp :=
  let x := (i.face f).pattern
  let recipe := (b.banks.contents f).pattern
  match x.state with
  | some .seeking =>
    offerPattern f .seeking .lost .seek h none
      (i.onFace f fun y => { y with pattern := { x with state := some .lost, seek := none, lost := count32 x.lost } })
  | some .synced | some .coasting =>
    let x' := { x with misses := x.misses + 1, missTotal := count32 x.missTotal }
    if x.misses + 1 < 3 then
      i.onFace f fun y => { y with pattern :=
        { x' with state := some .coasting, edge := x.edge.map (· + recipe.repeatLength) } }
    else
      offerPattern f .coasting .lost .miss h none
        (i.onFace f fun y => { y with pattern := { x' with state := some .lost, edge := none, lost := count32 x.lost } })
  | some .continuous | some .lost | none => i

/-- R71: the events y has reached, in order of position, an edge before a limit at the same position. `fuel` bounds the
events of one step: each of at most 16 entries once, with at most three synthesized patches or one seek limit before, after
and between them. -/
def patternSteps (b : Base) (f : FaceId) (h : LineHead) : Nat → Insp → Insp
  | 0, i => i
  | n + 1, i =>
    let edge := (i.marks.waiting f).map (b.edgeOf f)
    let limit := (i.face f).pattern.limit (b.banks.contents f).pattern
    match edge, limit with
    | some e, some l =>
      if e ≤ l then
        if e ≤ h.pos then patternSteps b f h n (reachEdge b f h e i) else i
      else if l ≤ h.pos then patternSteps b f h n (reachLimit b f h i) else i
    | some e, none => if e ≤ h.pos then patternSteps b f h n (reachEdge b f h e i) else i
    | none, some l => if l ≤ h.pos then patternSteps b f h n (reachLimit b f h i) else i
    | none, none => i

/-- The bound of R71's step: see `patternSteps`. -/
def patternFuel (ms : Marks) : Nat := 4 * (ms.list.length + 1)

/-- R71: the pattern step of an inspection line. -/
def patternStep (b : Base) (f : FaceId) (h : LineHead) (i : Insp) : Insp :=
  patternSteps b f h (patternFuel i.marks) i

/-- R66: the zone at position y; absent in IDLE. -/
def zoneAt (x : Pattern) (p : PatternRecipe) (y : Int) : Option Zone :=
  match x.state with
  | none => none
  | some .continuous | some .lost => some .coated
  | some .seeking => some .gap
  | some .synced | some .coasting =>
    match x.edge with
    | none => some .gap
    | some e =>
      if y < e + fineOf p.gl then some .leadGuard
      else if y < e + fineOf ((p.c : Int) - p.gt) then some .coated
      else if y < e + fineOf p.c then some .trailGuard
      else some .gap

/-- R68: enter CONTINUOUS or SEEKING under the bank now active on the face. -/
def enterPattern (b : Base) (f : FaceId) (x : Pattern) : Pattern :=
  let recipe := (b.banks.contents f).pattern
  if recipe.g = 0 then { x with state := some .continuous, edge := none, misses := 0, seek := none }
  else { x with state := some .seeking, edge := none, misses := 0, seek := some (b.motion.h + b.dieOffset f) }

/-- R64: a mark event at the captured H. -/
def Marks.event (ms : Marks) (h : Int) : Marks :=
  if ms.lastAccepted = some h then { ms with repeated := count32 ms.repeated }
  else if Config.maxMarks ≤ ms.list.length then { ms with dropped := count32 ms.dropped }
  else { ms with list := ms.list ++ [{ h := h, leadHandled := false, trailHandled := false }],
                 lastAccepted := some h, accepted := count32 ms.accepted }

/-- R64: a rising edge is a mark event in RUNNING when the pattern of a face's active bank has G > 0. -/
def Base.marksCount (b : Base) : Bool :=
  b.banks.running &&
    (decide (0 < (b.banks.contents .lead).pattern.g) || decide (0 < (b.banks.contents .trail).pattern.g))

/-- R73: what STOP leaves of a face's pattern state. -/
def Pattern.stop (x : Pattern) : Pattern :=
  { x with state := none, edge := none, misses := 0, seek := none, lastZone := none }

/-- PATCH_MARK (R64). -/
def execPatchMark (s : State) : Host.Outcome State Fault Refusal :=
  if s.dev.base.marksCount then
    .next { s with dev := { s.dev with insp := { s.dev.insp with marks := s.dev.insp.marks.event s.dev.base.motion.h } } }
  else .next s

end Sys2Proof.Machine
end

