-- ==== Sys2Proof/Machine/Correlator.lean ====
section
/-! DEFINITION. The Face Correlator (spec/07, R117 to R127): the pending list, matching, lead-only and trail-only outcomes,
expiry, eviction and the flush. -/

namespace Sys2Proof.Machine

open Sys2Proof

/-- Levels rank OFF, P0, P1, P2 (R122). -/
def Level.rank : Level → Nat
  | .off => 0
  | .p0 => 1
  | .p1 => 2
  | .p2 => 3

/-- The higher of two levels. -/
def Level.higher (a b : Level) : Level := if a.rank < b.rank then b else a

/-- R122: a lead-only outcome, reported with the levels copied at the close. -/
def reportLeadOnly (reason : LeadOnlyReason) (c : Candidate) (i : Insp) : Insp :=
  i.route { level := c.level.higher c.leadOnlyLevel, slot := c.slot } (.defect { c.record with mark := .leadOnly reason })

/-- R118: a LEAD candidate joins the pending list, evicting the head of a full list. -/
def takeLead (c : Candidate) (i : Insp) : Insp :=
  let i := match i.corr.list with
    | head :: rest =>
      if Config.maxPending ≤ (head :: rest).length then
        reportLeadOnly .evicted head { i with corr := { i.corr with list := rest, evicted := count32 i.corr.evicted } }
      else i
    | [] => i
  let list := i.corr.list ++ [c]
  { i with corr := { i.corr with list := list, highWater := max i.corr.highWater list.length } }

/-- R119: the two tests of a match. -/
def matchesEntry (tol : Correlation) (t e : Defect) : Bool :=
  decide (10 * (t.md - e.md).natAbs ≤ tol.md) && decide ((t.cd - e.cd).natAbs ≤ tol.cd)

/-- Split a list at its first element that satisfies `p`: that element and the list without it. -/
def takeFirst {α : Type} (p : α → Bool) : List α → Option (α × List α)
  | [] => none
  | x :: xs =>
    if p x then some (x, xs)
    else match takeFirst p xs with
      | some (y, rest) => some (y, x :: rest)
      | none => none

/-- R119, R121, R122: a TRAIL candidate searches the list from the head. -/
def takeTrail (b : Base) (c : Candidate) (i : Insp) : Insp :=
  match takeFirst (fun e => matchesEntry (b.banks.contents .trail).correlation c.record e.record) i.corr.list with
  | some (e, rest) =>
    let i := { i with corr := { i.corr with list := rest, matchCount := count32 i.corr.matchCount } }
    i.route (b.banks.contents .trail).policy.through
      (.through e.record c.record (c.record.md - e.record.md) (c.record.cd - e.record.cd))
  | none =>
    let i := { i with corr := { i.corr with trailOnly := count32 i.corr.trailOnly } }
    i.route { level := c.level, slot := c.slot } (.defect { c.record with mark := .trailOnly })

/-- R123: whether an entry expires at a TRAIL line position under a margin, in position units. -/
def expiresAt (pos margin : Int) (c : Candidate) : Bool := decide (c.record.md + margin ≤ pos)

/-- R123: the expiry test. -/
def expire (pos margin : Int) (i : Insp) : Insp :=
  let gone := i.corr.list.filter (expiresAt pos margin)
  let i := { i with corr := { i.corr with
    list := i.corr.list.filter fun c => !expiresAt pos margin c,
    expired := satAdd 4294967295 i.corr.expired gone.length } }
  gone.foldl (fun i c => reportLeadOnly .expired c i) i

/-- R123: M_pu, the expiry margin in position units, rounded up. -/
def expiryMargin (c : Contents) (pitch : Nat) : Int :=
  (ceilDiv (1024 * c.correlation.md + (513 + c.detection.mb) * pitch) 10240 : Nat)

/-- Make the expiry tests at the front of the waiting TRAIL work; what is left begins with a candidate (log 9). -/
def settleTrail : List TrailWork → Insp → Insp
  | .expiry p m :: rest, i => settleTrail rest (expire p m i)
  | .candidate c :: rest, i => { i with corr := { i.corr with trailWork := .candidate c :: rest } }
  | [], i => { i with corr := { i.corr with trailWork := [] } }

/-- Take the oldest TRAIL candidate, then make the expiry tests that waited behind it. -/
def takeNextTrail (b : Base) (i : Insp) : Insp :=
  match i.corr.trailWork with
  | .candidate c :: rest => settleTrail rest (takeTrail b c i)
  | .expiry p m :: rest => settleTrail (.expiry p m :: rest) i
  | [] => i

/-- Take the oldest LEAD candidate. -/
def takeNextLead (i : Insp) : Insp :=
  match i.corr.leadWork with
  | c :: rest => takeLead c { i with corr := { i.corr with leadWork := rest } }
  | [] => i

/-- Take all waiting TRAIL work in order: before TRAIL's switch or STOP (log 7). -/
def drainTrail (b : Base) (i : Insp) : Insp :=
  i.corr.trailWork.foldl (fun i w => match w with
    | .candidate c => takeTrail b c i
    | .expiry p m => expire p m i) { i with corr := { i.corr with trailWork := [] } }

/-- Take all waiting LEAD candidates in order (log 7). -/
def drainLead (i : Insp) : Insp :=
  i.corr.leadWork.foldl (fun i c => takeLead c i) { i with corr := { i.corr with leadWork := [] } }

/-- R126: every entry leaves in list order, lead-only with reason STOP. -/
def flushPending (i : Insp) : Insp :=
  let gone := i.corr.list
  gone.foldl (fun i c => reportLeadOnly .stop c i)
    { i with corr := { i.corr with list := [], stopped := satAdd 4294967295 i.corr.stopped gone.length } }

/-- LEAD_CANDIDATE (R118). -/
def execLeadCandidate (s : State) : Host.Outcome State Fault Refusal :=
  .next { s with dev := { s.dev with insp := takeNextLead s.dev.insp } }

/-- TRAIL_CANDIDATE (R119). -/
def execTrailCandidate (s : State) : Host.Outcome State Fault Refusal :=
  .next { s with dev := { s.dev with insp := takeNextTrail s.dev.base s.dev.insp } }

/-- COUNTED_EVENT (R131). -/
def execCountedEvent (f : FaceId) (src : EventSource) (s : State) : Host.Outcome State Fault Refusal :=
  .next { s with dev := { s.dev with insp := takeEvent s.dev.base f src s.dev.insp } }

end Sys2Proof.Machine
end

