-- ==== Sys2Proof/Machine/BlobBuilder.lean ====
section
/-! DEFINITION. The Blob Builder (spec/05): runs, linking, merging, closing, measuring, classification, dispositions, the
History Ring and excerpt capture. -/

namespace Sys2Proof.Machine

open Sys2Proof

/-! ### Runs (R76 to R78) -/

/-- A run (R77). -/
structure Run where
  polarity : Polarity
  first : Nat
  last : Nat
  count : Nat
  peak : Nat
  peakCol : Nat
  peakGuard : Bool
  peakLane : Nat
  tier : Nat
  sum : Nat
  touched : Bool
deriving DecidableEq, Repr

/-- The effective tier of a lane as a record carries it. -/
def LineRecord.tierOf (r : LineRecord) (lane : Nat) : Nat := r.tiers.getD lane 0

/-- The lane of a column of a record (present for LANE and GUARD columns). -/
def RecordColumn.lane (c : RecordColumn) : Nat := (c.entry.bind (·.lane)).getD 0

def RecordColumn.isGuard (c : RecordColumn) : Bool := decide (c.entry.map (·.kind) = some .guard)

/-- Whether a column's kind is LANE or GUARD. -/
def RecordColumn.detects (c : RecordColumn) : Bool :=
  match c.entry with
  | some e => e.kind.detects
  | none => false

/-- A run that starts at a flagged column. -/
def Run.begin_ (r : LineRecord) (pol : Polarity) (k : Nat) (c : RecordColumn) : Run :=
  { polarity := pol, first := k, last := k, count := 1, peak := c.dev.natAbs, peakCol := k, peakGuard := c.isGuard,
    peakLane := c.lane, tier := r.tierOf c.lane, sum := c.dev.natAbs, touched := false }

/-- A run extended to a flagged column: the greater peak, the lowest column among equal peaks (R77). -/
def Run.extend (u : Run) (r : LineRecord) (k : Nat) (c : RecordColumn) : Run :=
  let u := { u with last := k, count := u.count + 1, sum := u.sum + c.dev.natAbs }
  if u.peak < c.dev.natAbs then
    { u with peak := c.dev.natAbs, peakCol := k, peakGuard := c.isGuard, peakLane := c.lane, tier := r.tierOf c.lane }
  else u

/-- A run being formed: the run, the column last seen, the bridge columns since the last flagged one. -/
structure OpenRun where
  run : Run
  at_ : Nat
  bridges : Nat
deriving DecidableEq, Repr

/-- What one column that is not void does to the run being formed: the run it ends, and the run open after it (R76). -/
def runStep (r : LineRecord) (bg : Nat) (cur : Option OpenRun) (k : Nat) (c : RecordColumn) : Option Run × Option OpenRun :=
  let fresh : Option OpenRun := c.flag.map fun pol => { run := Run.begin_ r pol k c, at_ := k, bridges := 0 }
  match cur with
  | none => (none, fresh)
  | some o =>
    if o.at_ + 1 ≠ k then (some o.run, fresh)
    else match c.flag with
      | some pol =>
        if pol = o.run.polarity then (none, some { run := o.run.extend r k c, at_ := k, bridges := 0 })
        else (some o.run, fresh)
      | none =>
        if c.detects && decide (o.bridges + 1 ≤ bg) then (none, some { o with at_ := k, bridges := o.bridges + 1 })
        else (some o.run, none)

/-- The runs of the listed columns, in column order (R76). -/
def formRuns (r : LineRecord) (bg : Nat) : Table RecordColumn → Option OpenRun → List Run
  | [], cur => (cur.map (·.run)).toList
  | (k, c) :: rest, cur =>
    let step := runStep r bg cur k c
    step.1.toList ++ formRuns r bg rest step.2

/-- Whether a column of the face is void on the line. -/
def LineRecord.void (r : LineRecord) (c : Nat) : Bool := !r.cols.any fun e => decide (e.1 = c)

/-- R77: a neighbour of the run that exists on the face and is void. -/
def Run.touchesVoid (u : Run) (r : LineRecord) : Bool :=
  (decide (0 < u.first) && r.void (u.first - 1)) || (decide (u.last + 1 < Config.columns) && r.void (u.last + 1))

/-- The runs of a line, before the limit of R78. -/
def LineRecord.runs (r : LineRecord) (bg : Nat) : List Run :=
  (formRuns r bg r.cols none).map fun u => { u with touched := u.touchesVoid r }

/-! ### Linking (R80 to R83) -/

/-- R80: same polarity, and the blob's last-line span overlaps the run widened by one column on both sides. -/
def connects (u : Run) (b : Blob) : Bool :=
  decide (u.polarity = b.polarity) &&
    match b.lastSpan with
    | some (lo, hi) => decide (lo ≤ u.last + 1) && decide (u.first ≤ hi + 1)
    | none => false

/-- The union of two spans, either of which may be absent. -/
def spanUnion : Option (Nat × Nat) → Option (Nat × Nat) → Option (Nat × Nat)
  | some a, some b => some (min a.1 b.1, max a.2 b.2)
  | some a, none => some a
  | none, y => y

/-- The pixel count's and the sum's limits (5.3). -/
def addCount (a b : Nat) : Nat := satAdd 65535 a b

def addSum (a b : Nat) : Nat := satAdd 4294967295 a b

/-- R81: the blob a run starts. -/
def newBlob (h : LineHead) (u : Run) : Blob :=
  { polarity := u.polarity, first := h.index, last := h.index, lastPos := h.pos, pitch := h.pitch, colMin := u.first,
    colMax := u.last, lastSpan := none, lineSpan := some (u.first, u.last), count := addCount u.count 0, peak := u.peak,
    peakCol := u.peakCol, peakGuard := u.peakGuard, peakLane := u.peakLane, tier := u.tier, sum := addSum u.sum 0, idle := 0,
    touched := u.touched }

/-- Whether peak `p` at column `c` replaces peak `p'` at column `c'`: greater, or equal at a lower column (R82, R83). -/
def peakWins (p c p' c' : Nat) : Bool := decide (p' < p) || (decide (p = p') && decide (c < c'))

/-- R82: a run extends a blob. -/
def Blob.extend (b : Blob) (h : LineHead) (u : Run) : Blob :=
  let b := { b with
    count := addCount b.count u.count, sum := addSum b.sum u.sum, colMin := min b.colMin u.first,
    colMax := max b.colMax u.last, lineSpan := spanUnion b.lineSpan (some (u.first, u.last)), last := h.index,
    lastPos := h.pos, pitch := h.pitch, idle := 0, touched := b.touched || u.touched }
  if peakWins u.peak u.peakCol b.peak b.peakCol then
    { b with peak := u.peak, peakCol := u.peakCol, peakGuard := u.peakGuard, peakLane := u.peakLane, tier := u.tier }
  else b

/-- R83: fold a younger blob into the survivor, on line `n`. Of two equal peaks at one column the survivor's peak fields stay
(log 45). -/
def Blob.absorb (n : Word) (b y : Blob) : Blob :=
  let b' := { b with
    count := addCount b.count y.count, sum := addSum b.sum y.sum, colMin := min b.colMin y.colMin,
    colMax := max b.colMax y.colMax, first := if lineAge n b.first < lineAge n y.first then y.first else b.first,
    lineSpan := spanUnion b.lineSpan y.lineSpan, lastSpan := spanUnion b.lastSpan y.lastSpan,
    touched := b.touched || y.touched }
  if peakWins y.peak y.peakCol b.peak b.peakCol then
    { b' with peak := y.peak, peakCol := y.peakCol, peakGuard := y.peakGuard, peakLane := y.peakLane, tier := y.tier }
  else b'

/-- R83: which of two blobs survives: the oldest, then the lowest column min, then the lowest number. -/
def survives (n : Word) (a b : Nat × Blob) : Bool :=
  let x := lineAge n a.2.first
  let y := lineAge n b.2.first
  decide (y < x) || (decide (x = y) &&
    (decide (a.2.colMin < b.2.colMin) || (decide (a.2.colMin = b.2.colMin) && decide (a.1 < b.1))))

/-- The number of open blobs. -/
def Blobs.openCount (x : Blobs) : Nat := (occupied x.open_).length

/-- Offer the blob saturation report (R85). -/
def offerBlobSaturation (f : FaceId) (on : Bool) (line : Option Word) (i : Insp) : Insp :=
  i.offerStatus (some f) (.blobSaturation on (i.face f).blob.openCount line)

/-- R81: a run that finds no free slot is discarded; the first makes the face blob-saturated. -/
def discardRun (f : FaceId) (h : LineHead) (i : Insp) : Insp :=
  let x := (i.face f).blob
  if x.saturated then i.onFace f fun y => { y with blob := { x with discarded := count32 x.discarded } }
  else offerBlobSaturation f true (some h.index) (i.onFace f fun y =>
    { y with blob := { x with discarded := count32 x.discarded, saturated := true, satEntries := count32 x.satEntries } })

/-- R80 to R83: link one run. -/
def linkRun (f : FaceId) (h : LineHead) (i : Insp) (u : Run) : Insp :=
  let x := (i.face f).blob
  match orderBy (survives h.index) ((occupied x.open_).filter fun e => connects u e.2) with
  | [] =>
    match lowestFree Config.maxBlobs x.open_ with
    | some k => i.onFace f fun y => { y with blob := { x with open_ := tset none x.open_ k (some (newBlob h u)) } }
    | none => discardRun f h i
  | (k, b) :: younger =>
    let merged := younger.foldl (fun b e => b.absorb h.index e.2) b
    let freed := younger.foldl (fun t e => tset none t e.1 none) x.open_
    i.onFace f fun y => { y with blob :=
      { x with open_ := tset none freed k (some (merged.extend h u)),
               merges := satAdd 4294967295 x.merges younger.length } }

/-! ### Measuring and classifying (R87 to R90) -/

/-- The line count of a blob: last line - first line + 1, over wrapping indices (R79). -/
def Blob.lineCount (b : Blob) : Nat := (b.last - b.first).toNat + 1

/-- The middle line's distance from the first line (R88). -/
def Blob.middle (b : Blob) : Nat := (b.lineCount - 1) / 2

/-- R88: the machine-direction centre, in position units. -/
def Blob.mdCentre (b : Blob) : Int := toUnits (b.lastPos - ((b.lineCount - 1 - b.middle : Nat) : Int) * b.pitch)

/-- What classification gives a closed blob (R89). -/
structure ClassOutcome where
  code : Nat
  correlate : Bool
  counts : Bool
  excerpt : Bool
  level : Level
  slot : ExpressSlot
deriving DecidableEq, Repr

def RulePolarity.admits : RulePolarity → Polarity → Bool
  | .either, _ => true
  | .bright, .bright => true
  | .bright, .dark => false
  | .dark, .bright => false
  | .dark, .dark => true

/-- R89: whether a rule matches. -/
def ClassRule.matchesBlob (r : ClassRule) (pol : Polarity) (area width length : Nat) : Bool :=
  r.present && r.polarity.admits pol &&
    (decide (r.areaMin ≤ area) && decide (area ≤ r.areaMax)) &&
    (decide (r.widthMin ≤ width) && decide (width ≤ r.widthMax)) &&
    (decide (r.lengthMin ≤ length) && decide (length ≤ r.lengthMax))

/-- Rule `k` of a bank. -/
def Contents.rule (c : Contents) (k : Nat) : ClassRule := tget ClassRule.empty c.rules k

/-- R89: first match over the rules 0..7; NONE is code 9, ELONGATED code 8. -/
def classify (c : Contents) (elongated : Bool) (pol : Polarity) (area width length : Nat) : ClassOutcome :=
  if elongated then
    { code := 8, correlate := false, counts := c.policy.elongatedCounts, excerpt := false,
      level := c.policy.elongated.level, slot := c.policy.elongated.slot }
  else
    match (List.range 8).find? fun k => (c.rule k).matchesBlob pol area width length with
    | some k =>
      let r := c.rule k
      { code := k, correlate := r.correlate, counts := r.counts, excerpt := r.excerpt, level := r.level, slot := r.slot }
    | none =>
      { code := 9, correlate := false, counts := c.policy.unclassedCounts, excerpt := false,
        level := c.policy.unclassed.level, slot := c.policy.unclassed.slot }

/-- R90: the defect record, before its excerpt state is decided. -/
def defectOf (f : FaceId) (g : Geometry) (unsync : Bool) (k : Nat) (b : Blob) (reason : TruncReason) (cls : Nat) : Defect :=
  { face := f, number := k, cls := cls, polarity := b.polarity, first := b.first, last := b.last, md := b.mdCentre,
    cd := spanCentre g b.colMin b.colMax, width := spanWidth g b.colMin b.colMax, length := lineLength b.lineCount b.pitch,
    area := b.count, peak := b.peak, peakCol := b.peakCol, tier := b.tier, sum := b.sum, lane := b.peakLane,
    inGuard := b.peakGuard, trunc := reason, touched := b.touched, unsync := unsync, excerpt := .none, mark := .none }

/-! ### Excerpts (R93 to R95) -/

/-- R93: enter a line into the ring, newest first, keeping 64. -/
def enterRing (r : LineRecord) (ring : List RingEntry) : List RingEntry :=
  ({ index := r.head.index, values := r.cols.map fun e => (e.1, e.2.value) } :: ring).take Config.ringLines

/-- R95: the cell of a line and column: its corrected value, or none where it must be filled. -/
def ringCell (ring : List RingEntry) (line : Word) (col : Int) : Option Nat :=
  if col < 0 then none
  else match ring.find? fun e => decide (e.index = line) with
    | some e => (e.values.find? fun v => decide ((v.1 : Int) = col)).map (·.2)
    | none => none

/-- R95: the last row of the window: the earlier of the centre line + 15 and the newest line of the ring. -/
def windowLast (ring : List RingEntry) (centre : Word) : Word :=
  match ring with
  | [] => centre + 15
  | e :: _ => if lineAge e.index centre < 15 then e.index else centre + 15

/-- R95: the window cut from the ring. -/
def cutWindow (f : FaceId) (ring : List RingEntry) (b : Blob) : Buffer :=
  let centre := b.first + BitVec.ofNat 32 b.middle
  let firstLine := windowLast ring centre - 31
  let firstCol : Int := ((b.colMin + b.colMax) / 2 : Nat) - 16
  let cells := (List.range 1024).map fun n =>
    ringCell ring (firstLine + BitVec.ofNat 32 (n / 32)) (firstCol + (n % 32 : Nat))
  { face := f, firstLine := firstLine, firstCol := firstCol, partly := cells.any (·.isNone), cells := cells.map (·.getD 0) }

/-- R94: capture into the lowest free buffer, or SKIPPED. -/
def capture (f : FaceId) (b : Blob) (r : Defect) (i : Insp) : Defect × Insp :=
  match lowestFree Config.maxBuffers i.out.buffers with
  | some k =>
    let w := cutWindow f (i.face f).blob.ring b
    ({ r with excerpt := if w.partly then .partly k else .captured k },
     { i with out := { i.out with buffers := tset none i.out.buffers k (some w) } })
  | none =>
    ({ r with excerpt := .skipped },
     i.onFace f fun x => { x with blob := { x.blob with skipped := count32 x.blob.skipped } })

/-- R94, R96: the excerpt of a closing blob. A record closed by STOP whose class has the flag is WITHDRAWN from the start. -/
def excerptAtClose (f : FaceId) (b : Blob) (o : ClassOutcome) (r : Defect) (i : Insp) : Defect × Insp :=
  if o.excerpt then
    if r.trunc = .stop then ({ r with excerpt := .withdrawn }, i)
    else if o.correlate || decide (o.level ≠ .off) then capture f b r i
    else (r, i)
  else (r, i)

/-! ### Closing (R84 to R86, R91, R92) -/

/-- R91: whether a classified blob is counted. -/
def countsBlob (o : ClassOutcome) (b : Blob) (reason : TruncReason) : Bool :=
  o.counts && !b.peakGuard && decide (reason ≠ .changeover)

/-- R92: hand a correlating record to the correlator, or offer it by level and slot. -/
def dispose (bk : Base) (f : FaceId) (o : ClassOutcome) (r : Defect) (i : Insp) : Insp :=
  if o.correlate then
    let c : Candidate :=
      { record := r, bank := bk.banks.activeOn f, level := o.level, slot := o.slot,
        leadOnlyLevel := (bk.banks.contents f).policy.leadOnly }
    match f with
    | .lead => { i with corr := { i.corr with leadWork := i.corr.leadWork ++ [c] } }
    | .trail => { i with corr := { i.corr with trailWork := i.corr.trailWork ++ [.candidate c] } }
  else i.route { level := o.level, slot := o.slot } (.defect r)

/-- Measure, classify, count, capture and send on one closed blob (5.5 to 5.8). `line` is the line its counted event and
its reports belong to. -/
def sendBlob (bk : Base) (f : FaceId) (reason : TruncReason) (line : Option (Word × Int)) (i : Insp) (e : Nat × Blob) : Insp :=
  let b := e.2
  let g := (i.face f).asm.geometry
  let o := classify (bk.banks.contents f) (decide (reason = .length)) b.polarity b.count
    (spanWidth g b.colMin b.colMax) (lineLength b.lineCount b.pitch)
  let r := defectOf f g (i.lost f) e.1 b reason o.code
  let i := i.onFace f fun x => { x with blob := { x.blob with closed := count32 x.blob.closed } }
  let i := if countsBlob o b reason then
      sendEvent f .blobBuilder { lane := b.peakLane, pos := line.map (·.2), index := line.map (·.1) } i
    else i
  let ex := excerptAtClose f b o r i
  dispose bk f o ex.1 ex.2

/-- The close order of R84, relative to line `n`: by last line, first line, column min, number. -/
def closesBefore (n : Word) (a b : Nat × Blob) : Bool :=
  let la := lineAge n a.2.last
  let lb := lineAge n b.2.last
  let fa := lineAge n a.2.first
  let fb := lineAge n b.2.first
  decide (lb < la) || (decide (la = lb) && (decide (fb < fa) || (decide (fa = fb) &&
    (decide (a.2.colMin < b.2.colMin) || (decide (a.2.colMin = b.2.colMin) && decide (a.1 < b.1))))))

/-- R85: leaving blob-saturated. -/
def testSaturation (f : FaceId) (line : Option Word) (i : Insp) : Insp :=
  if (i.face f).blob.saturated && decide ((i.face f).blob.openCount ≤ 192) then
    offerBlobSaturation f false line (i.onFace f fun x => { x with blob := { x.blob with saturated := false } })
  else i

/-- Close every open blob of a face with a reason, in close order (R86, R97). -/
def closeAllBlobs (bk : Base) (f : FaceId) (reason : TruncReason) (line : Option (Word × Int)) (i : Insp) : Insp :=
  let x := (i.face f).blob
  let ref := ((line.map (·.1)).orElse fun _ => x.lastLine).getD 0
  let order := orderBy (closesBefore ref) (occupied x.open_)
  order.foldl (sendBlob bk f reason line) (i.onFace f fun y => { y with blob := { x with open_ := [] } })

/-- R84: what the end-of-line step does to an open blob: the blob that stays, or the reason it closes. -/
def endOfLine (mb : Nat) (b : Blob) : Blob × Option TruncReason :=
  match b.lineSpan with
  | some s =>
    let b := { b with lastSpan := some s, lineSpan := none }
    (b, if Config.maxBlobLines ≤ b.lineCount then some .length else none)
  | none => if b.idle < mb then ({ b with idle := b.idle + 1 }, none) else (b, some .none)

/-- R84: the blobs that stay after the end-of-line step. -/
def staying (mb : Nat) (t : Table (Option Blob)) : Table (Option Blob) :=
  t.filterMap fun e => match e.2 with
    | some b => match endOfLine mb b with
      | (b', none) => some (e.1, some b')
      | (_, some _) => none
    | none => none

/-- R84: the blobs that close at the end-of-line step, with their reasons. -/
def closing (mb : Nat) (t : Table (Option Blob)) : List ((Nat × Blob) × TruncReason) :=
  (occupied t).filterMap fun e => match endOfLine mb e.2 with
    | (b, some reason) => some ((e.1, b), reason)
    | (_, none) => none

/-- R84: the end-of-line step. -/
def endLine (bk : Base) (f : FaceId) (h : LineHead) (i : Insp) : Insp :=
  let mb := (bk.banks.contents f).detection.mb
  let x := (i.face f).blob
  let order := orderBy (fun a b => closesBefore h.index a.1 b.1) (closing mb x.open_)
  order.foldl (fun i e => sendBlob bk f e.2 (some (h.index, h.pos)) i e.1)
    (i.onFace f fun y => { y with blob := { x with open_ := staying mb x.open_ } })

/-! ### A line (R75) -/

/-- R75 steps 3 to 6, for a line that is handled. A saturation report after the PATTERN forced close of a coating exit names this
line, which is both the line being handled and the one then held as the last handled line (log 39). -/
def handleBlobLine (bk : Base) (f : FaceId) (r : LineRecord) (i : Insp) : Insp :=
  let h := r.head
  let line := some (h.index, h.pos)
  let i := i.onFace f fun x => { x with blob := { x.blob with lastLine := some h.index } }
  let i := if r.exit then testSaturation f (some h.index) (closeAllBlobs bk f .pattern line i) else i
  let runs := r.runs (bk.banks.contents f).detection.bg
  let i := i.onFace f fun x => { x with blob :=
    { x.blob with dropped := satAdd 4294967295 x.blob.dropped (runs.length - Config.maxRuns) } }
  let i := (runs.take Config.maxRuns).foldl (linkRun f h) i
  testSaturation f (some h.index) (endLine bk f h i)

/-- R123: after a handled TRAIL line, its expiry test waits behind the TRAIL candidates sent on before it. -/
def queueExpiry (bk : Base) (r : LineRecord) (i : Insp) : Insp :=
  settleTrail (i.corr.trailWork ++
    [.expiry (toUnits r.head.pos) (expiryMargin (bk.banks.contents .trail) r.head.pitch)]) i

/-- R75: one processed line record at the Blob Builder. -/
def blobLine (bk : Base) (f : FaceId) (r : LineRecord) (i : Insp) : Insp :=
  let i := i.onFace f fun x => { x with blob := { x.blob with ring := enterRing r x.blob.ring } }
  if decide (r.head.cls = .creep) || decide (r.phase = .idle) then i
  else
    let i := handleBlobLine bk f r i
    match f with
    | .lead => i
    | .trail => queueExpiry bk r i

/-- Take the oldest record handed to the Blob Builder. -/
def takeBlobLine (bk : Base) (f : FaceId) (i : Insp) : Insp :=
  match (i.face f).blob.inbox with
  | [] => i
  | r :: rest => blobLine bk f r (i.onFace f fun x => { x with blob := { x.blob with inbox := rest } })

/-- Take every record handed to the Blob Builder (R39: before the closes of STOP, REWOUND and the switch). -/
def drainBlobLines (bk : Base) (f : FaceId) (i : Insp) : Insp :=
  (i.face f).blob.inbox.foldl (fun i r => blobLine bk f r i)
    (i.onFace f fun x => { x with blob := { x.blob with inbox := [] } })

/-- BLOB_BUILDER_LINE (R75). -/
def execBlobBuilderLine (f : FaceId) (s : State) : Host.Outcome State Fault Refusal :=
  .next { s with dev := { s.dev with insp := takeBlobLine s.dev.base f s.dev.insp } }

end Sys2Proof.Machine
end

