-- ==== Sys2Proof/Machine/StreakTracker.lean ====
section
/-! DEFINITION. The Streak Tracker (spec/06): accumulation, column states, opening, joining, merging, holding, closing,
continuing. -/

namespace Sys2Proof.Machine

open Sys2Proof

/-! ### Reading -/

def Streaks.col (x : Streaks) (c : Nat) : StreakColumn := tget (StreakColumn.quiet 0) x.cols c

def Streaks.setCol (x : Streaks) (c : Nat) (v : StreakColumn) : Streaks :=
  { x with cols := tset (StreakColumn.quiet 0) x.cols c v }

def Streaks.streak (x : Streaks) (k : Nat) : Option Streak := tget none x.open_ k

def Streaks.setStreak (x : Streaks) (k : Nat) (v : Option Streak) : Streaks :=
  { x with open_ := tset none x.open_ k v }

/-- Change one open streak record. -/
def Streaks.onStreak (x : Streaks) (k : Nat) (g : Streak → Streak) : Streaks :=
  match x.streak k with
  | some s => x.setStreak k (some (g s))
  | none => x

def Streaks.openCount (x : Streaks) : Nat := (occupied x.open_).length

/-- 6.1: a column in STREAK or RELEASING is a member of the streak its number names. -/
def StreakColumn.member (v : StreakColumn) : Bool :=
  match v.state with
  | .streak | .releasing => true
  | .quiet | .onset => false

def StreakColumn.memberOf (v : StreakColumn) (k : Nat) : Bool := v.member && decide (v.number = k)

/-- Change the streak state of a face. -/
def Insp.onStreaks (i : Insp) (f : FaceId) (g : Streaks → Streaks) : Insp :=
  i.onFace f fun x => { x with streak := g x.streak }

def Insp.streaks (i : Insp) (f : FaceId) : Streaks := (i.face f).streak

/-! ### Reports (R110, R111, R112, R114) -/

/-- Offer the streak saturation report (R110). -/
def offerStreakSaturation (f : FaceId) (on : Bool) (line : Option Word) (i : Insp) : Insp :=
  i.offerStatus (some f) (.streakSaturation on (i.streaks f).openCount line)

/-- The fields every streak report takes from the record. The length saturates as R111 says for a close, and so does the length
so far of a STREAK_CONTINUE, for which R112 names no bound; the width saturates as R87's does (log 46). -/
def streakReport (kind : StreakKind) (f : FaceId) (g : Geometry) (unsync : Bool) (k : Nat) (s : Streak) (pos : Int)
    (length : Int) (tierNow : Nat) : StreakReport :=
  { kind := kind, face := f, number := k, polarity := s.polarity, inGuard := s.inGuard, unsync := unsync, lane := s.lane,
    tierAtOpen := s.tierAtOpen, tierNow := tierNow, founding := s.founding, members := s.members, colMin := s.colMin,
    colMax := s.colMax, start := toUnits s.start, pos := toUnits pos,
    length := (clampInt 0 4294967295 (toUnits length)).toNat, width := spanWidth g s.colMin s.colMax,
    cd := spanCentre g s.colMin s.colMax, peak := s.peak }

/-- R111: a streak closes at a position: its report, its slot, its count; R110: the first close after saturation ends it,
with a report unless the close is made by STOP. -/
def closeStreak (b : Base) (f : FaceId) (reason : StreakReason) (survivor : Option Nat) (line : Option (Word × Int)) (k : Nat)
    (s : Streak) (i : Insp) : Insp :=
  let x := i.streaks f
  let pos := (line.map (·.2)).getD s.start
  let rep := streakReport (.closed reason survivor) f (i.face f).asm.geometry (i.lost f) k s pos (pos - s.start) 0
  let i := i.onStreaks f fun _ => { x.setStreak k none with closed := count32 x.closed }
  let i := i.route (b.banks.contents f).policy.streakClose (.streak rep)
  if x.saturated then
    let i := i.onStreaks f fun y => { y with saturated := false }
    if reason = .stop then i else offerStreakSaturation f false (line.map (·.1)) i
  else i

/-! ### Entering STREAK (R107 to R110) -/

/-- R107: the open streaks of a polarity that have a member within Sg + 1 columns of `c`, oldest first (R106). -/
def older (a b : Nat × Streak) : Bool :=
  decide (a.2.start < b.2.start) || (decide (a.2.start = b.2.start) && decide (a.1 < b.1))

/-- R107: whether streak `k` has a member column within `reach` of `c`. -/
def Streaks.near (x : Streaks) (c reach k : Nat) : Bool :=
  (List.range (2 * reach + 1)).any fun d => decide (reach ≤ c + d) && (x.col (c + d - reach)).memberOf k

def Streaks.inReach (x : Streaks) (pol : Polarity) (c reach : Nat) : List (Nat × Streak) :=
  orderBy older ((occupied x.open_).filter fun e => decide (e.2.polarity = pol) && x.near c reach e.1)

/-- R107, R106: the column becomes a member of streak `k`; its level counts toward the peak on this line (log 28). -/
def Streaks.join (x : Streaks) (c k : Nat) (level : Int) : Streaks :=
  let v := x.col c
  (x.setCol c { StreakColumn.quiet v.acc with state := .streak, number := k }).onStreak k fun s =>
    { s with colMin := min s.colMin c, colMax := max s.colMax c, members := s.members + 1, peak := max s.peak level.natAbs }

/-- R108: every member of streak `k'` takes the number `k`. -/
def renumber (k k' : Nat) (cols : Table StreakColumn) : Table StreakColumn :=
  cols.map fun e => if e.2.memberOf k' then (e.1, { e.2 with number := k }) else e

/-- R108: a younger streak is merged into streak `k`. -/
def mergeStreak (b : Base) (f : FaceId) (line : Option (Word × Int)) (k : Nat) (i : Insp) (y : Nat × Streak) : Insp :=
  let i := i.onStreaks f fun x =>
    { x with cols := renumber k y.1 x.cols, merges := count32 x.merges }.onStreak k fun s =>
      { s with colMin := min s.colMin y.2.colMin, colMax := max s.colMax y.2.colMax, members := s.members + y.2.members,
               peak := max s.peak y.2.peak }
  closeStreak b f .merged (some k) line y.1 y.2 i

/-- R109: the record of a new streak. -/
def newStreak (r : LineRecord) (c : Nat) (pix : RecordColumn) (v : StreakColumn) (level : Int) : Streak :=
  let start := v.onsetPos.getD r.head.pos
  { polarity := v.onsetPolarity, colMin := c, colMax := c, founding := c, lane := pix.lane, inGuard := pix.isGuard,
    start := start, openPos := r.head.pos, peak := level.natAbs, members := 1, lastContinue := start,
    tierAtOpen := r.tierOf pix.lane }

/-- R109: open a streak in slot `k`. -/
def openStreak (b : Base) (f : FaceId) (r : LineRecord) (c : Nat) (pix : RecordColumn) (level : Int) (k : Nat) (i : Insp) :
    Insp :=
  let x := i.streaks f
  let v := x.col c
  let s := newStreak r c pix v level
  let i := i.onStreaks f fun _ =>
    { (x.setStreak k (some s)).setCol c { StreakColumn.quiet v.acc with state := .streak, number := k } with
      opened := count32 x.opened }
  let i := i.route (b.banks.contents f).policy.streakOpen
    (.streak (streakReport .opened f (i.face f).asm.geometry (i.lost f) k s s.openPos 0 0))
  if pix.isGuard then i
  else sendEvent f .streakTracker { lane := pix.lane, pos := some r.head.pos, index := some r.head.index } i

/-- R110: a column with no streak in reach and no free slot is held in ONSET. -/
def holdOnset (f : FaceId) (h : LineHead) (i : Insp) : Insp :=
  let x := i.streaks f
  if x.saturated then i.onStreaks f fun _ => { x with held := count32 x.held }
  else offerStreakSaturation f true (some h.index) (i.onStreaks f fun _ =>
    { x with held := count32 x.held, saturated := true, satEntries := count32 x.satEntries })

/-- R103: a column whose onset count stands at MinLines tries to enter STREAK (R107 to R110). -/
def enterStreak (b : Base) (f : FaceId) (r : LineRecord) (c : Nat) (pix : RecordColumn) (level : Int) (i : Insp) : Insp :=
  let x := i.streaks f
  match x.inReach (x.col c).onsetPolarity c ((b.banks.contents f).detection.sg + 1) with
  | [] =>
    match lowestFree Config.maxStreaks x.open_ with
    | some k => openStreak b f r c pix level k i
    | none => holdOnset f r.head i
  | (k, _) :: younger =>
    let i := younger.foldl (mergeStreak b f (some (r.head.index, r.head.pos)) k) i
    i.onStreaks f fun x => x.join c k level

/-! ### One column (R100 to R104) -/

/-- R103: QUIET and ONSET. The column after the line, and whether it tries to enter STREAK. -/
def onsetStep (v : StreakColumn) (hot : Option Polarity) (minLines : Nat) (pos : Int) : StreakColumn × Bool :=
  match hot with
  | none => (StreakColumn.quiet v.acc, false)
  | some pol =>
    match v.state with
    | .onset =>
      if v.onsetPolarity = pol then
        let n := if v.onsetCount < minLines then v.onsetCount + 1 else v.onsetCount
        ({ v with onsetCount := n }, decide (minLines ≤ n))
      else (StreakColumn.quiet v.acc, false)
    | .quiet | .streak | .releasing =>
      ({ StreakColumn.quiet v.acc with state := .onset, onsetPolarity := pol, onsetCount := 1, onsetPos := some pos },
       decide (minLines ≤ 1))

/-- R104: STREAK and RELEASING. The column after the line, and whether it leaves its streak. -/
def memberStep (v : StreakColumn) (held : Bool) (releaseLines : Nat) : StreakColumn × Bool :=
  if held then ({ v with state := .streak, releaseCount := 0 }, false)
  else
    let n := match v.state with
      | .releasing => v.releaseCount + 1
      | .quiet | .onset | .streak => 1
    if releaseLines ≤ n then (StreakColumn.quiet v.acc, true) else ({ v with state := .releasing, releaseCount := n }, false)

/-- R100: whether the line is eligible for a column that is not void. -/
def eligible (r : LineRecord) (pix : RecordColumn) : Bool :=
  pix.detects && decide (r.zone = some .coated) && decide (r.phase = .detecting) && pix.learned &&
    decide (r.head.cls = .inspection)

/-- MinLines and ReleaseLines of the bank active on a face (R149). -/
def Base.minLines (b : Base) (f : FaceId) : Nat := ((b.banks.compiled f).map (·.minLines)).getD 0

def Base.releaseLines (b : Base) (f : FaceId) : Nat := ((b.banks.compiled f).map (·.releaseLines)).getD 0

/-- R101 to R104: an eligible line at a column. -/
def eligibleStep (b : Base) (f : FaceId) (r : LineRecord) (c : Nat) (pix : RecordColumn) (i : Insp) : Insp :=
  let det := (b.banks.contents f).detection
  let ts := ((b.banks.contents f).tier (r.tierOf pix.lane)).ts
  let x := i.streaks f
  let v := { x.col c with acc := accumulate (x.col c).acc pix.dev det.leak det.clip }
  let level := streakLevel v.acc det.leak
  if v.member then
    let pol := ((x.streak v.number).map (·.polarity)).getD .bright
    let step := memberStep v (heldTo pol level ts) (b.releaseLines f)
    i.onStreaks f fun x => (x.setCol c step.1).onStreak v.number fun s =>
      { s with peak := max s.peak level.natAbs, members := if step.2 then s.members - 1 else s.members }
  else
    let step := onsetStep v (hotOf level ts) (b.minLines f) r.head.pos
    let i := i.onStreaks f fun x => x.setCol c step.1
    if step.2 then enterStreak b f r c pix level i else i

/-- R100: MARGIN, EXCLUDE and UNMAPPED columns are zeroed on an inspection line in RUNNING. -/
def zeroes (r : LineRecord) (c : Nat) : Bool :=
  decide (r.head.cls = .inspection) && decide (r.phase ≠ .idle) &&
    match columnKind r.plan r.lit c with
    | .planned k => !k.detects
    | .dark | .absent => false

/-- R105 step 1 for one column: zeroing, an eligible line, or holding. -/
def streakColumn (b : Base) (f : FaceId) (r : LineRecord) (i : Insp) (c : Nat) : Insp :=
  if zeroes r c then i.onStreaks f fun x => x.setCol c (StreakColumn.quiet 0)
  else match r.cols.find? fun e => decide (e.1 = c) with
    | some e => if eligible r e.2 then eligibleStep b f r c e.2 i else i
    | none => i

/-- The columns step 1 can change, rising: those that are not void on the line, and those with streak state. Any other
column is void and at its reset values, and holds. -/
def streakWalk (r : LineRecord) (x : Streaks) : List Nat :=
  (r.cols.foldl (fun t e => tinsert t e.1 ()) (x.cols.map fun e => (e.1, ()))).map (·.1)

/-! ### A line (R105) -/

/-- R105 step 2: streaks with no member close, in order of number. -/
def closeReleased (b : Base) (f : FaceId) (line : Option (Word × Int)) (i : Insp) : Insp :=
  ((occupied (i.streaks f).open_).filter fun e => decide (e.2.members = 0)).foldl
    (fun i e => closeStreak b f .released none line e.1 e.2 i) i

/-- R112: the continue test of one streak. -/
def continueStep (b : Base) (f : FaceId) (r : LineRecord) (interval : Int) (i : Insp) (e : Nat × Streak) : Insp :=
  let due := e.2.lastContinue + interval
  if due ≤ r.head.pos then
    let s := { e.2 with lastContinue := due }
    (i.onStreaks f fun x => x.setStreak e.1 (some s)).route (b.banks.contents f).policy.streakContinue
      (.streak (streakReport .continued f (i.face f).asm.geometry (i.lost f) e.1 s due (due - s.start) (r.tierOf s.lane)))
  else i

/-- R105 step 3: the continue tests, for a line handled while RUNNING under a non-zero interval. -/
def continueTests (b : Base) (f : FaceId) (r : LineRecord) (i : Insp) : Insp :=
  let interval := (b.banks.contents f).detection.interval
  if decide (interval = 0) || decide (r.phase = .idle) then i
  else (occupied (i.streaks f).open_).foldl (continueStep b f r (interval * metre)) i

/-- R105: one processed line record at the Streak Tracker. -/
def streakLine (b : Base) (f : FaceId) (r : LineRecord) (i : Insp) : Insp :=
  let line := some (r.head.index, r.head.pos)
  let i := i.onStreaks f fun x => { x with last := line }
  let i := (streakWalk r (i.streaks f)).foldl (streakColumn b f r) i
  continueTests b f r (closeReleased b f line i)

/-- Take the oldest record handed to the Streak Tracker. -/
def takeStreakLine (b : Base) (f : FaceId) (i : Insp) : Insp :=
  match (i.streaks f).inbox with
  | [] => i
  | r :: rest => streakLine b f r (i.onStreaks f fun x => { x with inbox := rest })

/-- Take every record handed to the Streak Tracker (R39). -/
def drainStreakLines (b : Base) (f : FaceId) (i : Insp) : Insp :=
  (i.streaks f).inbox.foldl (fun i r => streakLine b f r i) (i.onStreaks f fun x => { x with inbox := [] })

/-- R113: every column that was in STREAK, RELEASING or ONSET becomes QUIET; accumulators are kept. -/
def Streaks.quietAll (x : Streaks) : Streaks :=
  { x with cols := tmap (StreakColumn.quiet 0) (fun v => StreakColumn.quiet v.acc) x.cols }

/-- R113: close every open streak of a face, oldest first, at the face's last handled line. -/
def closeAllStreaks (b : Base) (f : FaceId) (reason : StreakReason) (i : Insp) : Insp :=
  let x := i.streaks f
  let i := (orderBy older (occupied x.open_)).foldl (fun i e => closeStreak b f reason none x.last e.1 e.2 i) i
  i.onStreaks f Streaks.quietAll

/-- STREAK_TRACKER_LINE (R105). -/
def execStreakTrackerLine (f : FaceId) (s : State) : Host.Outcome State Fault Refusal :=
  .next { s with dev := { s.dev with insp := takeStreakLine s.dev.base f s.dev.insp } }

end Sys2Proof.Machine
end

