-- ==== Sys2Proof/Machine/PixelChain.lean ====
section
/-! DEFINITION. The Pixel Chain (spec/03) and the face's bank switch (R153): one handed-over line is processed and its record
handed on. -/

namespace Sys2Proof.Machine

open Sys2Proof

def Pixel.col (x : Pixel) (c : Nat) : PixelColumn := tget PixelColumn.fresh x.cols c

/-! ### Learning phases (R47, R49, R52) -/

/-- R47: the learning sums and counts of every column become 0. -/
def Pixel.clearSums (x : Pixel) : Pixel :=
  { x with cols := tmap PixelColumn.fresh (fun v => { v with sum := 0, count := 0 }) x.cols, learnLines := 0 }

/-- R47: enter LEARNING with a learn length. -/
def Pixel.enterLearning (x : Pixel) (learnLength : Nat) : Pixel :=
  { x.clearSums with phase := .learning, learnLength := learnLength }

/-- R47: a face enters LEARNING with the learn length of the bank active on it. -/
def enterLearning (b : Base) (f : FaceId) (i : Insp) : Insp :=
  i.onFace f fun x => { x with pixel := x.pixel.enterLearning (b.banks.contents f).detection.learnLength }

/-- R52: STOP at the Pixel Chain. -/
def Pixel.stop (x : Pixel) : Pixel := { x.clearSums with phase := .idle, reservation := none }

/-- R49: the end of a learning phase at one column. -/
def PixelColumn.learn (v : PixelColumn) : PixelColumn :=
  if 0 < v.count then { v with ref := learnedMean v.sum v.count, learned := true } else v

/-- Count the columns of a face with a property. -/
def countColumns (p : Nat → Bool) : Nat := ((List.range Config.columns).filter p).length

/-- R49: the number of unlearned LANE columns: kind LANE in the plan, not dark, learned flag clear. -/
def unlearnedLanes (plan : Plan) (lit : List (Nat × Nat)) (x : Pixel) : Nat :=
  countColumns fun c => decide ((planEntry plan c).kind = .lane) && inSpans lit c && !(x.col c).learned

/-- R49: end the learning phase after the line that completed it, and report LEARN_DONE. -/
def endLearning (b : Base) (f : FaceId) (h : LineHead) (i : Insp) : Insp :=
  let x := (i.face f).pixel
  let x := { x with cols := tmap PixelColumn.fresh PixelColumn.learn x.cols, phase := .detecting }
  (i.onFace f fun y => { y with pixel := x }).offerStatus (some f)
    (.learnDone x.learnLength h.index (unlearnedLanes ((b.banks.plan f).getD []) (b.lit f) x))

/-! ### One column (R40 to R45, R48) -/

/-- What the chain reads for a line (3.2). -/
structure LineContext where
  cls : LineClass
  phase : Phase
  zone : Option Zone
  plan : Option Plan
  tiers : List Nat
  thresholds : Table TierRow
  k : Nat
deriving DecidableEq, Repr

/-- The kind an entry gives; a column without one (IDLE) works as an UNMAPPED column does (R61, R62). -/
def planKind (e : Option PlanEntry) : PlanKind := (e.getD PlanEntry.unmapped).kind

/-- R44, R48: LANE and GUARD on a COATED line, MARGIN in any zone, on an inspection line. -/
def LineContext.adapts (x : LineContext) (e : Option PlanEntry) : Bool :=
  decide (x.cls = .inspection) &&
    match planKind e with
    | .lane | .guard => decide (x.zone = some .coated)
    | .margin => true
    | .exclude | .unmapped => false

/-- R43: the conditions of a flag-eligible column that is not void. -/
def LineContext.flags (x : LineContext) (e : Option PlanEntry) (learned : Bool) : Bool :=
  decide (x.cls = .inspection) && decide (x.phase = .detecting) && decide (x.zone = some .coated) && learned &&
    (planKind e).detects

/-- R43: the flag of a column. -/
def LineContext.flag (x : LineContext) (e : Option PlanEntry) (learned : Bool) (dev : Int) : Option Polarity :=
  if x.flags e learned then
    flagOf dev (tget TierRow.empty x.thresholds (x.tiers.getD ((e.bind (·.lane)).getD 0) 0))
  else none

/-- R44, R45, R48: the learning step or the tracking step of a column. -/
def LineContext.adapt (x : LineContext) (v : PixelColumn) (e : Option PlanEntry) (flag : Option Polarity) (c : Nat) (dev : Int) :
    PixelColumn :=
  match x.phase with
  | .idle => v
  | .learning =>
    if x.adapts e && decide (v.count < 4096) then { v with sum := v.sum + c, count := v.count + 1 } else v
  | .detecting =>
    if x.adapts e && v.learned && flag.isNone && decide (x.k ≠ 0) then { v with ref := tracked v.ref dev x.k } else v

/-- R39: one column that is not void: what the record carries, and the column after the line. -/
def LineContext.column (x : LineContext) (flat : FlatEntry) (v : PixelColumn) (k : Nat) (raw : Nat) :
    RecordColumn × PixelColumn :=
  let c := corrected raw flat
  let dev := deviation c v.ref
  let e := x.plan.map fun p => planEntry p k
  let flag := x.flag e v.learned dev
  ({ value := c, dev := dev, flag := flag, entry := e, learned := v.learned }, x.adapt v e flag c dev)

/-- The flat-field entry of a sample (3.3). -/
def Base.flatOf (b : Base) (s : Sample) : FlatEntry := tget FlatEntry.unity (b.port s.port).flat s.pixel

/-- R20, R61: the samples of a handed-over line that its columns still have when the line is processed: a column that is dark
then is void, even where a placement in force at the hand-over fed it (log 38). -/
def Base.litSamples (b : Base) (f : FaceId) (raw : Table Sample) : Table Sample := raw.filter fun e => !b.dark f e.1

/-- R39: all columns of a line that are not void, each against its own state. -/
def LineContext.columns (x : LineContext) (b : Base) (px : Pixel) (raw : Table Sample) :
    List (Nat × RecordColumn × PixelColumn) :=
  raw.map fun e => (e.1, x.column (b.flatOf e.2) (px.col e.1) e.1 e.2.raw)

/-- R41: the clipped columns of a line. -/
def clipCount (b : Base) (raw : Table Sample) : Nat := (raw.filter fun e => isClipped e.2.raw (b.flatOf e.2)).length

/-! ### The bank switch (R153) -/

/-- The bank a face switches to before this line, or none (R153). -/
def switchTarget (b : Base) (f : FaceId) (y : Int) : Option BankId :=
  match b.banks.switchPos with
  | none => none
  | some s =>
    if s ≤ y then
      match f with
      | .lead => b.banks.scheduled
      | .trail => b.banks.midChange
    else none

/-- R153: the bank states after a face's switch. -/
def Banks.switched (b : Banks) (f : FaceId) (new : BankId) : Banks :=
  match f with
  | .lead => (b.setState new (.active .lead)).setState new.other (.active .trail)
  | .trail => { (b.setState new (.active .both)).setState new.other .checked with switchPos := none }

/-- R153 step 1, with what its rules make the blocks finish first (R39, R140; log 7); of the counted events that wait, the Blob
Builder's are taken before the Streak Tracker's (log 53), and all of them before the waiting TRAIL candidates (log 57). -/
def switchCloses (b : Base) (f : FaceId) (i : Insp) : Insp :=
  let i := drainStreakLines b f (drainBlobLines b f i)
  let i := closeAllBlobs b f .changeover none i
  let i := testSaturation f (i.face f).blob.lastLine i
  let i := closeAllStreaks b f .changeover i
  let i := drainEvents b f .streakTracker (drainEvents b f .blobBuilder i)
  match f with
  | .lead => i
  | .trail => drainTrail b i

/-- R68, R72 at a switch: the pattern state of the new bank, and the report of a face that leaves LOST. -/
def switchPattern (b : Base) (f : FaceId) (h : LineHead) (i : Insp) : Insp :=
  let lost := i.lost f
  let i := i.onFace f fun x => { x with pattern := enterPattern b f x.pattern }
  if lost then
    offerPattern f .lost (((i.face f).pattern.state).getD .continuous) .changeover h none i
  else i

/-- R50: learning at a switch. -/
def switchLearning (b : Base) (f : FaceId) (i : Insp) : Insp :=
  let c := b.banks.contents f
  if c.tierPolicy.learnOnEntry then enterLearning b f i
  else if (i.face f).pixel.phase = .learning then
    i.onFace f fun x => { x with pixel := { x.pixel with learnLength := c.detection.learnLength } }
  else i

/-- R153: a face's switch, in its seven steps. -/
def switchFace (f : FaceId) (h : LineHead) (new : BankId) (d : Dev) : Dev :=
  let i := switchCloses d.base f d.insp
  let i := i.onFace f fun x => { x with pixel := { x.pixel with reservation := none } }
  let s := d.base.banks.switchPos.getD 0
  let b := { d.base with banks := d.base.banks.switched f new }
  let i := switchPattern b f h i
  let i := loadTiersAtSwitch b f h i
  let i := switchLearning b f i
  { base := b,
    insp := i.offerStatus (some f) (.bankSwitched new.other new (toUnits s) h.index (toUnits h.pos)) }

/-! ### A line (R39) -/

/-- What begins an inspection line in RUNNING: bucket boundaries, the last inspection line, the pattern step (R133, R135,
R71; order: log 10). -/
def lineStart (b : Base) (f : FaceId) (h : LineHead) (i : Insp) : Insp :=
  if b.banks.running && decide (h.cls = .inspection) then patternStep b f h (tierLineStart b f h i) else i

/-- R67: the coating exit of a line, against the zone of the last inspection line. -/
def coatingExit (cls : LineClass) (last zone : Option Zone) : Bool :=
  decide (cls = .inspection) && decide (last = some .coated) && decide (zone ≠ some .coated)

/-- The context of a line once its start has been made. -/
def lineContext (b : Base) (f : FaceId) (h : LineHead) (i : Insp) : LineContext :=
  let c := b.banks.contents f
  let x := i.face f
  { cls := h.cls, phase := x.pixel.phase, zone := zoneAt x.pattern c.pattern h.pos, plan := b.banks.plan f,
    tiers := x.tier.effectives, thresholds := c.tiers, k := c.detection.k }

/-- R39: the record of a line, from the samples its columns have. -/
def lineRecord (b : Base) (f : FaceId) (h : LineHead) (i : Insp) (raw : Table Sample) : LineRecord :=
  let x := lineContext b f h i
  let px := (i.face f).pixel
  { head := h, zone := x.zone, exit := coatingExit h.cls (i.face f).pattern.lastZone x.zone, phase := x.phase,
    bank := b.banks.activeOn f, plan := x.plan, lit := b.lit f, tiers := x.tiers,
    cols := (x.columns b px raw).map fun e => (e.1, e.2.1),
    learned := (px.cols.filter fun e => e.2.learned).map (·.1) }

/-- R48: whether a line counts toward the end of a learning phase. -/
def LineContext.learnsLine (x : LineContext) : Bool :=
  decide (x.phase = .learning) && decide (x.cls = .inspection) && decide (x.zone = some .coated)

/-- R41, R48: the Pixel Chain's state after the columns of a line. -/
def pixelAfter (x : LineContext) (b : Base) (px : Pixel) (raw : Table Sample) : Pixel :=
  let clip := clipCount b raw
  { px with
    cols := (x.columns b px raw).foldl (fun t e => tset PixelColumn.fresh t e.1 e.2.2) px.cols,
    lastClip := clip, clipped := satAdd 4294967295 px.clipped clip, processed := count32 px.processed,
    learnLines := if x.learnsLine then px.learnLines + 1 else px.learnLines }

/-- R39: hand the record on to the Blob Builder (with the History Ring), the Streak Tracker and the preview path. -/
def handOn (f : FaceId) (r : LineRecord) (i : Insp) : Insp :=
  i.onFace f fun x => { x with
    blob := { x.blob with inbox := x.blob.inbox ++ [r] },
    streak := { x.streak with inbox := x.streak.inbox ++ [r] },
    preview := { x.preview with inbox := x.preview.inbox ++ [r] } }

/-- R67: the zone of an inspection line becomes the last inspection zone. -/
def keepZone (f : FaceId) (h : LineHead) (zone : Option Zone) (i : Insp) : Insp :=
  if h.cls = .inspection then i.onFace f fun x => { x with pattern := { x.pattern with lastZone := zone } } else i

/-- R39: process one line under the bank now active on the face. -/
def processLine (b : Base) (f : FaceId) (ln : HandedLine) (i : Insp) : Insp :=
  let h := ln.head
  let i := i.onFace f fun x => { x with pixel := { x.pixel with
    lastPos := if b.banks.running then some h.pos else x.pixel.lastPos } }
  let i := lineStart b f h i
  let raw := b.litSamples f ln.raw
  let x := lineContext b f h i
  let r := lineRecord b f h i raw
  let px := pixelAfter x b (i.face f).pixel raw
  let i := i.onFace f fun y => { y with pixel := px }
  let i := keepZone f h x.zone i
  let i := handOn f r i
  if x.learnsLine && decide (px.learnLength ≤ px.learnLines) then endLearning b f h i else i

/-- R39, R153: one handed-over line at the Pixel Chain, after the face's switch when it is due. -/
def pixelLine (f : FaceId) (ln : HandedLine) (d : Dev) : Dev :=
  let d := match switchTarget d.base f ln.head.pos with
    | some new => switchFace f ln.head new d
    | none => d
  { d with insp := processLine d.base f ln d.insp }

/-- Take the oldest line handed to the Pixel Chain. -/
def takePixelLine (f : FaceId) (d : Dev) : Dev :=
  match (d.face f).asm.handed with
  | [] => d
  | ln :: rest => pixelLine f ln (d.onFace f fun x => { x with asm := { x.asm with handed := rest } })

/-- Take every line handed to the Pixel Chain: before STOP, after which no line opened before it is processed (R52, log 7). -/
def drainPixelLines (f : FaceId) (d : Dev) : Dev :=
  (d.face f).asm.handed.foldl (fun d ln => pixelLine f ln d)
    (d.onFace f fun x => { x with asm := { x.asm with handed := [] } })

/-- PIXEL_CHAIN_LINE (R39). -/
def execPixelChainLine (f : FaceId) (s : State) : Host.Outcome State Fault Refusal :=
  .next { s with dev := takePixelLine f s.dev }

/-! ### Preview lines (R162) -/

/-- R162: the value of bin `n` of `b` columns; a void column counts 0. -/
def binValue (cols : Table RecordColumn) (b n : Nat) : Nat :=
  (((cols.filter fun e => decide (n * b ≤ e.1) && decide (e.1 < (n + 1) * b)).map fun e => e.2.value).sum + b / 2) / b

/-- R162: the binned preview line of a record. -/
def previewOf (f : FaceId) (b : Nat) (r : LineRecord) : PreviewLine :=
  { face := f, index := r.head.index, pos := toUnits r.head.pos, cls := r.head.cls, binning := b,
    bins := (List.range (Config.columns / b)).map (binValue r.cols b) }

/-- R162: a preview line takes the face's slot: into an empty slot it is accepted; a line not yet picked is replaced, its
lost-before taken over. -/
def takeSlot (f : FaceId) (p : PreviewLine) (i : Insp) : Insp :=
  match (i.out.queue (previewQueue f)).entries with
  | [] => i.offer (previewQueue f) (.preview p)
  | e :: rest =>
    let q := i.out.queue (previewQueue f)
    { i with out := i.out.setQueue (previewQueue f) { q with entries := { e with report := .preview p } :: rest } }.onFace f
      fun x => { x with preview := { x.preview with replaced := count32 x.preview.replaced } }

/-- R162: one record at the preview path. -/
def previewLine (f : FaceId) (r : LineRecord) (i : Insp) : Insp :=
  let x := (i.face f).preview
  if x.decimation = 0 then i
  else if x.counter + 1 < x.decimation then
    i.onFace f fun y => { y with preview := { x with counter := x.counter + 1 } }
  else takeSlot f (previewOf f x.binning r) (i.onFace f fun y => { y with preview := { x with counter := 0 } })

/-- Take the oldest record handed to the preview path. -/
def takePreviewLine (f : FaceId) (i : Insp) : Insp :=
  match (i.face f).preview.inbox with
  | [] => i
  | r :: rest => previewLine f r (i.onFace f fun x => { x with preview := { x.preview with inbox := rest } })

/-- PREVIEW_LINE (R162). -/
def execPreviewLine (f : FaceId) (s : State) : Host.Outcome State Fault Refusal :=
  .next { s with dev := { s.dev with insp := takePreviewLine f s.dev.insp } }

end Sys2Proof.Machine
end

