-- ==== Sys2Proof/WellFormed.lean ====
section
/-! DEFINITION. Which commands the part's surroundings can deliver: the operand ranges of a scan packet (section 2.5). -/

namespace Sys2Proof

/-- Section 2.5: the packet arrives at one of the ports SP0..SP3. -/
def portInRange (port : Nat) : Bool := decide (port < 4)

/-- Section 2.5: a line tag is 0..65535. -/
def tagInRange (tag : Nat) : Bool := decide (tag < 65536)

/-- Section 2.5: samples are 12-bit, 0..4095. -/
def samplesInRange (samples : List Nat) : Bool := samples.all fun s => decide (s < 4096)

/-- An operand check per row; only a scan packet has operands whose type is wider than their range. The declared pixel
count is left unchecked: R25 itself says what a count of 0 or above 4096 does. -/
def Instr.wellFormed : Instr → Bool
  | .scanPacket port tag _ samples _ => portInRange port && tagInRange tag && samplesInRange samples
  | .encoderCount _ _ | .triggerWordEnd _ | .speedWindowExpiry | .pixelChainLine _ | .blobBuilderLine _ |
    .streakTrackerLine _ | .previewLine _ | .leadCandidate | .trailCandidate | .countedEvent _ _ | .patchMark |
    .checkCompletion | .transmitCompletion | .linkUp | .linkDown _ | .inboundFrame _ | .unknownCommand |
    .lineSetup | .placementWrite | .geometryWrite | .flatWrite | .setCalibrationLock | .previewSet | .bankOpen |
    .bankWrite | .bankCheck | .bankSchedule | .bankCancel | .start | .stop | .baselineLearn | .baselineRead |
    .baselineReserve | .baselinePut | .tierLimit | .queryStatus | .queryCounters | .queryLanes | .queryStreaks |
    .queryPending | .queryRetained | .clearCounters | .retainWrite | .reset | .powerOnReset _ _ |
    .pinReset _ _ => true

end Sys2Proof
end

