-- ==== Sys2Proof/Machine/SensorPorts.lean ====
section
/-! DEFINITION. Sensor ports and Line Assemblers (spec/02): slots, packets, head states, and the placement, geometry,
flat-field and lock commands. -/

namespace Sys2Proof.Machine

open Sys2Proof

/-! ### Slots -/

def Slot.tag (s : Slot) : Nat := s.head.index.toNat % 65536

/-- R29: every expected port has delivered. -/
def Slot.complete (s : Slot) : Bool := s.expected.all fun p => s.delivered.contains p

/-- Change a face's assembly slots. -/
def Dev.onSlots (d : Dev) (f : FaceId) (g : List Slot → List Slot) : Dev :=
  d.onFace f fun x => { x with asm := { x.asm with slots := g x.asm.slots } }

/-- R33: a head status report. -/
def offerHead (f : Option FaceId) (p : Nat) (old new : HeadState) (cause : HeadCause) (line : Word) (d : Dev) : Dev :=
  d.offerStatus f (.head p old new cause line)

/-- R31: a port falls SILENT: its report, and it leaves the expected set of every open slot that has not its packet. -/
def silencePort (f : FaceId) (p : Nat) (line : Word) (d : Dev) : Dev :=
  let port := d.base.port p
  offerHead (some f) p port.head .silent .missing line
    ((d.setPort p { port with head := .silent, missing := 16 }).onSlots f fun l =>
      l.map fun s => if s.delivered.contains p then s else { s with expected := s.expected.filter (· ≠ p) })

/-- R31: one expected port is accounted for a line that leaves. -/
def accountPort (f : FaceId) (s : Slot) (d : Dev) (p : Nat) : Dev :=
  let port := d.base.port p
  let creep := decide (s.head.cls = .creep)
  if s.delivered.contains p then
    if creep then d else d.setPort p { port with missing := 0 }
  else
    let port := { port with counts := { port.counts with missingLines := count32 port.counts.missingLines } }
    if creep then d.setPort p port
    else if port.missing + 1 < 16 then d.setPort p { port with missing := port.missing + 1 }
    else silencePort f p s.head.index (d.setPort p port)

/-- R29, R31: the oldest slot leaves: its line is handed to the Pixel Chain and its expected ports are accounted, in ascending
port number, so that two MISSING reports of one line are offered in that order (log 30). -/
def leaveSlot (f : FaceId) (s : Slot) (rest : List Slot) (d : Dev) : Dev :=
  s.expected.foldl (accountPort f s) (d.onFace f fun x =>
    { x with asm := { x.asm with slots := rest, handed := x.asm.handed ++ [{ head := s.head, raw := s.raw }] } })

/-- R29: complete lines leave from the oldest end, at most `n` of them. -/
def leaveReady (f : FaceId) : Nat → Dev → Dev
  | 0, d => d
  | n + 1, d =>
    match (d.face f).asm.slots with
    | [] => d
    | s :: rest => if s.complete then leaveReady f n (leaveSlot f s rest d) else d

/-- R29: test the face's slots. -/
def settleSlots (f : FaceId) (d : Dev) : Dev := leaveReady f (d.face f).asm.slots.length d

/-- R30: the oldest slot is forced complete. -/
def forceOldest (f : FaceId) (d : Dev) : Dev :=
  match (d.face f).asm.slots with
  | [] => d
  | s :: rest => settleSlots f (leaveSlot f s rest (d.onFace f fun x =>
      { x with asm := { x.asm with forced := count32 x.asm.forced } }))

/-- R27: the ports a line opened now is expected from. -/
def Base.expectedPorts (b : Base) (f : FaceId) : List Nat :=
  portNumbers.filter fun p =>
    (b.port p).place.enabled && decide ((b.port p).place.face = f) && decide ((b.port p).head = .active)

/-- R27: open a slot for an issued line. -/
def openSlot (f : FaceId) (h : LineHead) (d : Dev) : Dev :=
  let d := if Config.maxSlots ≤ (d.face f).asm.slots.length then forceOldest f d else d
  settleSlots f (d.onSlots f fun l => l ++ [{ head := h, expected := d.base.expectedPorts f, delivered := [], raw := [] }])

/-- R21, R34: the slots of a face are emptied, each partial line abandoned. -/
def Assembler.abandon (a : Assembler) : Assembler :=
  { a with slots := [], abandoned := satAdd 4294967295 a.abandoned a.slots.length }

/-! ### Packets (R25, R26, R28, R32) -/

/-- A port's counts change. -/
def Dev.onCounts (d : Dev) (p : Nat) (g : PortCounts → PortCounts) : Dev :=
  d.setPort p { d.base.port p with counts := g (d.base.port p).counts }

/-- R26: the number of samples available. -/
def availableSamples (declared : Nat) (samples : List Nat) : Nat := min declared samples.length

/-- R26: the short, long and truncated counts of a well-formed packet (log 20). -/
def PortCounts.packet (c : PortCounts) (pl : Placement) (declared : Nat) (samples : List Nat) : PortCounts :=
  { c with
    short := if samples.length < declared then count32 c.short else c.short,
    long := if declared < samples.length then count32 c.long else c.long,
    truncated := if availableSamples declared samples ≤ pl.last then count32 c.truncated else c.truncated }

/-- R26: the samples of the used pixels, each with its face column. -/
def usedSamples (p : Nat) (pl : Placement) (declared : Nat) (samples : List Nat) : List (Nat × Sample) :=
  ((samples.take (availableSamples declared samples)).zipIdx.filter fun e => decide (pl.first ≤ e.2 ∧ e.2 ≤ pl.last)).map
    fun e => (pl.column e.2, { port := p, pixel := e.2, raw := e.1 })

/-- R28: a slot takes a packet. -/
def Slot.take (s : Slot) (p : Nat) (placed : List (Nat × Sample)) : Slot :=
  { s with delivered := s.delivered ++ [p], raw := placed.foldl (fun t e => tinsert t e.1 e.2) s.raw }

/-- R28: match a well-formed packet against the open slots of its face. -/
def matchPacket (f : FaceId) (p tag : Nat) (placed : List (Nat × Sample)) (d : Dev) : Dev :=
  match (d.face f).asm.slots.find? fun s => decide (s.tag = tag) with
  | none => d.onCounts p fun c => { c with late := count32 c.late }
  | some s =>
    if s.delivered.contains p then d.onCounts p fun c => { c with duplicate := count32 c.duplicate }
    else settleSlots f (d.onSlots f fun l => l.map fun s => if s.tag = tag then s.take p placed else s)

/-- R32: a well-formed packet at a SILENT port makes it ACTIVE. -/
def recoverPort (f : FaceId) (p tag : Nat) (d : Dev) : Dev :=
  let port := d.base.port p
  if port.head = .silent then
    offerHead (some f) p .silent .active .packet (word tag) (d.setPort p { port with head := .active, missing := 0 })
  else d

/-- R25: one packet arrival at a port. -/
def packetArrival (p tag declared : Nat) (samples : List Nat) (damaged : Bool) (d : Dev) : Dev :=
  let port := d.base.port p
  if port.place.enabled = false then d.onCounts p fun c => { c with stray := count32 c.stray }
  else if damaged || decide (declared = 0) || decide (Config.pixels < declared) then
    d.onCounts p fun c => { c with errors := count32 c.errors }
  else
    let f := port.place.face
    matchPacket f p tag (usedSamples p port.place declared samples)
      ((recoverPort f p tag d).onCounts p fun c => c.packet port.place declared samples)

/-- SCAN_PACKET (R25). Operands that no physical layer of the part delivers stop the model (log 31). -/
def execScanPacket (port tag declared : Nat) (samples : List Nat) (damaged : Bool) (s : State) :
    Host.Outcome State Fault Refusal :=
  if (Instr.scanPacket port tag declared samples damaged).wellFormed then
    .next { s with dev := packetArrival port tag declared samples damaged s.dev }
  else .fault .illFormedPacket

/-! ### PLACEMENT_WRITE (R19 to R21) -/

/-- R19 test 4: the record of a frame, or none where a field is out of range. -/
def readPlacement (c : Command) : Option Placement :=
  match yesNo (c.nat 1), faceOf (c.nat 2), yesNo (c.nat 6) with
  | some en, some f, some desc =>
    if c.nat 3 ≤ c.nat 4 ∧ c.nat 4 < Config.pixels ∧ c.nat 5 < Config.columns then
      some { enabled := en, face := f, first := c.nat 3, last := c.nat 4, origin := c.nat 5, descending := desc }
    else none
  | _, _, _ => none

/-- R19 test 5: the used columns lie within 0..8191. -/
def Placement.fits (p : Placement) : Bool :=
  if p.descending then decide (p.last - p.first ≤ p.origin)
  else decide (p.origin + (p.last - p.first) < Config.columns)

/-- Two spans share a column. -/
def spansMeet (a b : Nat × Nat) : Bool := decide (a.1 ≤ b.2) && decide (b.1 ≤ a.2)

/-- R19 test 6: a used column of the record is one of another enabled port of the same face. -/
def Base.overlaps (b : Base) (n : Nat) (p : Placement) : Bool :=
  p.enabled && portNumbers.any fun m =>
    decide (m ≠ n) && (b.port m).place.enabled && decide ((b.port m).place.face = p.face) &&
      spansMeet (b.port m).place.span p.span

/-- The face a placement binds its port to. -/
def Placement.bound (p : Placement) : Option FaceId := if p.enabled then some p.face else none

/-- R21: the slots of the face a port was bound to, and of the one it is bound to, are emptied. -/
def emptySlots (f : Option FaceId) (d : Dev) : Dev :=
  match f with
  | some f => d.onFace f fun x => { x with asm := x.asm.abandon }
  | none => d

/-- R21: an accepted placement. -/
def place (n : Nat) (p : Placement) (d : Dev) : Dev :=
  let old := d.base.port n
  let before := old.place.bound
  let d := emptySlots p.bound (if before = p.bound then d else emptySlots before d)
  let head := if p.enabled then HeadState.active else HeadState.off
  let d := d.setPort n { old with place := p, head := head, missing := 0 }
  if head = old.head then d
  else
    let line := match p.bound.orElse fun _ => before with
      | some f => (d.face f).grid.index
      | none => 0
    offerHead p.bound n old.head head .placement line d

/-- R19: the tests in order, then R21. -/
def placementWrite (c : Command) (d : Dev) : Dev × Answer :=
  if d.base.banks.running || d.base.banks.isChecking then refuse d .state
  else if d.base.sens.locked then refuse d .locked
  else if 3 < c.nat 0 then refuse d .range
  else match readPlacement c with
    | none => refuse d .range
    | some p =>
      if p.fits = false then refuse d .range
      else if d.base.overlaps (c.nat 0) p then refuse d .overlap
      else taken (place (c.nat 0) p d) []

/-- PLACEMENT_WRITE (R19). -/
def execPlacementWrite (s : State) : Host.Outcome State Fault Refusal := runCommand .placementWrite placementWrite s

/-! ### GEOMETRY_WRITE (R22) -/

/-- The geometry record of a frame, or none where a field is out of range. -/
def readGeometry (c : Command) : Option Geometry :=
  match yesNo (c.nat 3) with
  | some m =>
    if -2000000 ≤ c.int 1 ∧ c.int 1 ≤ 2000000 ∧ 100 ≤ c.nat 2 ∧ c.nat 2 ≤ 10000 then
      some { origin := c.int 1, pitch := c.nat 2, mirrored := m }
    else none
  | none => none

/-- R22. -/
def geometryWrite (c : Command) (d : Dev) : Dev × Answer :=
  if d.base.banks.running then refuse d .state
  else if d.base.sens.locked then refuse d .locked
  else match faceOf (c.nat 0), readGeometry c with
    | some f, some g => taken (d.onFace f fun x => { x with asm := { x.asm with geometry := g } }) []
    | none, _ | some _, none => refuse d .range

/-- GEOMETRY_WRITE (R22). -/
def execGeometryWrite (s : State) : Host.Outcome State Fault Refusal := runCommand .geometryWrite geometryWrite s

/-! ### FLAT_WRITE (R23) -/

/-- The entries of a block as the frame gives them: dark offset and gain. -/
def flatPairs : List Word → List (Nat × Nat)
  | d :: g :: rest => (d.toNat, g.toNat) :: flatPairs rest
  | [_] | [] => []

/-- R23: an entry as it is stored. -/
def storedFlat (e : Nat × Nat) : FlatEntry := { dark := min e.1 1023, gain := min e.2 16383 }

/-- R23: write a block of entries from a pixel onward. -/
def writeFlat : List (Nat × Nat) → Nat → Table FlatEntry → Table FlatEntry
  | [], _, t => t
  | e :: rest, k, t => writeFlat rest (k + 1) (tset FlatEntry.unity t k (storedFlat e))

/-- R23. -/
def flatWrite (c : Command) (d : Dev) : Dev × Answer :=
  if d.base.banks.running then refuse d .state
  else if d.base.sens.locked then refuse d .locked
  else
    let block := flatPairs (c.ops.drop 3)
    if 3 < c.nat 0 ∨ c.nat 2 = 0 ∨ 256 < c.nat 2 ∨ Config.pixels < c.nat 1 + c.nat 2 then refuse d .range
    else
      let port := d.base.port (c.nat 0)
      takenClamped (d.setPort (c.nat 0) { port with flat := writeFlat block (c.nat 1) port.flat })
        (block.any fun e => decide (1023 < e.1) || decide (16383 < e.2))

/-- FLAT_WRITE (R23). -/
def execFlatWrite (s : State) : Host.Outcome State Fault Refusal := runCommand .flatWrite flatWrite s

/-! ### SET_CALIBRATION_LOCK (R24) -/

/-- R24. -/
def setLock (_ : Command) (d : Dev) : Dev × Answer :=
  taken { d with base := { d.base with sens := { d.base.sens with locked := true } } } []

/-- SET_CALIBRATION_LOCK (R24). -/
def execSetCalibrationLock (s : State) : Host.Outcome State Fault Refusal := runCommand .setCalibrationLock setLock s

end Sys2Proof.Machine
end

