-- ==== Sys2Proof/Machine/MotionUnit.lean ====
section
/-! DEFINITION. The Motion Unit (spec/01): encoder counts, the line grid, trigger words, REWOUND, the speed window, line
setup. -/

namespace Sys2Proof.Machine

open Sys2Proof

/-- Change the Motion Unit's shared state. -/
def Dev.onMotion (d : Dev) (g : Motion → Motion) : Dev := { d with base := { d.base with motion := g d.base.motion } }

/-! ### Reports and state changes (R9) -/

/-- R9: take a motion state; a change offers the motion status report. -/
def enterMotion (new : MotionState) (d : Dev) : Dev :=
  let old := d.base.motion.state
  let d := d.onMotion fun m => { m with state := new }
  if old = new then d
  else d.offerStatus none (.motion old new (toUnits d.base.motion.h) d.base.motion.speed)

/-! ### REWOUND (R10) -/

/-- R10, R51, R86, R113: REWOUND at one face. Records handed on before are finished first (log 7); lines in the assembly slots, and
lines handed to the Pixel Chain, stay and are processed after it, in the new learning phase (log 55). -/
def rewindFace (f : FaceId) (d : Dev) : Dev :=
  let b := d.base
  let i := drainStreakLines b f (drainBlobLines b f d.insp)
  let i := closeAllBlobs b f .motion (i.face f).tier.lastInspection i
  let i := testSaturation f (i.face f).blob.lastLine i
  let i := closeAllStreaks b f .motion i
  let i := i.onFace f fun x => { x with pixel := { x.pixel with reservation := none } }
  { d with insp := if (i.face f).pixel.phase = .idle then i else enterLearning b f i }

/-- R10: the report, then both faces. -/
def raiseRewound (d : Dev) : Dev :=
  let m := d.base.motion
  ((d.onMotion fun m => { m with rewound := true }).offerStatus none (.rewound (toUnits m.h) (toUnits m.p))).bothFaces
    rewindFace

/-! ### Lines (R5 to R7) -/

/-- R6: the class of a line issued in a motion state. -/
def issueClass : MotionState → LineClass
  | .moving => .inspection
  | .still | .creep | .backing => .creep

/-- R5, R6: the line a face issues. -/
def issuedLine (m : Motion) (g : Grid) : LineHead :=
  { index := g.index, pos := g.next, pitch := m.setup.pitch, cls := issueClass m.state }

/-- A count that saturates at 2^47 - 1. -/
def addPosition (a b : Nat) : Nat := satAdd Config.positionLimit a b

/-- R5, R7, R11: the face's grid after it issues a line. -/
def Grid.issue (m : Motion) (g : Grid) : Grid :=
  { index := g.index + 1,
    next := g.next + m.setup.pitch,
    last := some g.next,
    trigger := match g.trigger with
      | some t => some t
      | none => some (g.index.setWidth 16),
    overruns := if g.trigger.isSome then count16 g.overruns else g.overruns,
    creep := match issueClass m.state with
      | .creep => addPosition g.creep m.setup.pitch
      | .inspection => g.creep }

/-- R5: the line test of a face. -/
def lineTest (f : FaceId) (d : Dev) : Dev :=
  let m := d.base.motion
  let g := (d.face f).grid
  if m.setup.e ≠ 0 ∧ g.next ≤ d.base.facePos f then
    openSlot f (issuedLine m g) (d.onFace f fun x => { x with grid := g.issue m })
  else d

/-- R7: the levels of a trigger word, 40 ns each: start bit, the tag from its least significant bit, stop bit. -/
def triggerLevels (tag : BitVec 16) : List Bool := true :: ((List.range 16).map tag.getLsbD ++ [false])

/-! ### Counts (R1 to R3) -/

/-- R1: the pair that follows (a, b) in the forward cycle 00, 10, 11, 01, 00. -/
def forwardPair (p : Bool × Bool) : Bool × Bool := (!p.2, p.1)

/-- R1: a position within the range of P. -/
def inRange (p : Int) : Bool := decide (-(Config.positionLimit : Int) ≤ p) && decide (p ≤ Config.positionLimit)

/-- R1: an encoder fault. -/
def encoderFault (d : Dev) : Dev := d.onMotion fun m => { m with encFaults := count16 m.encFaults }

/-- R2: the Motion Unit after a forward count, before any line. -/
def Motion.forward (m : Motion) : Motion :=
  { m with p := m.p + m.setup.e, window := addPosition m.window m.setup.e, h := max m.h (m.p + m.setup.e) }

/-- R2: a forward count; lines fall due only where H rose. -/
def forwardCount (d : Dev) : Dev :=
  let m := d.base.motion
  if inRange (m.p + m.setup.e) then
    let d := d.onMotion Motion.forward
    if m.h < m.p + m.setup.e then d.bothFaces lineTest else d
  else encoderFault d

/-- R3 step 1: the web is behind H by more than the backlash tolerance. -/
def Motion.behind (m : Motion) : Bool := decide (1024 * (m.setup.backlash : Int) < m.h - m.p)

/-- R3 step 2: the web is behind H by more than the reverse limit. -/
def Motion.pastReverse (m : Motion) : Bool := decide (1024 * (m.setup.reverse : Int) < m.h - m.p)

/-- R3: a backward count. -/
def backwardCount (d : Dev) : Dev :=
  let m := d.base.motion
  if inRange (m.p - m.setup.e) then
    let d := d.onMotion fun m => { m with p := m.p - m.setup.e }
    let d := if d.base.motion.state ≠ .backing ∧ d.base.motion.behind = true then
        enterMotion .backing (d.onMotion fun m => { m with rewound := false })
      else d
    let m := d.base.motion
    if m.state = .backing ∧ m.rewound = false ∧ m.pastReverse = true then raiseRewound d else d
  else encoderFault d

/-- R1: a newly sampled pair; it becomes the reference of the next change. A pair equal to the old one is no event (log 4). -/
def encoderCount (a b : Bool) (d : Dev) : Dev :=
  let old := (d.base.motion.encA, d.base.motion.encB)
  let d := d.onMotion fun m => { m with encA := a, encB := b }
  if (a, b) = old then d
  else if (a, b) = forwardPair old then forwardCount d
  else if forwardPair (a, b) = old then backwardCount d
  else encoderFault d

/-- ENCODER_COUNT (R1). -/
def execEncoderCount (a b : Bool) (s : State) : Host.Outcome State Fault Refusal :=
  .next { s with dev := encoderCount a b s.dev }

/-- TRIGGER_WORD_END (R7). -/
def execTriggerWordEnd (f : FaceId) (s : State) : Host.Outcome State Fault Refusal :=
  .next { s with dev := s.dev.onFace f fun x => { x with grid := { x.grid with trigger := none } } }

/-! ### The speed window (R8) -/

/-- R8: the motion state found from the closed window (its period: log 18). -/
def windowState (m : Motion) : MotionState :=
  if m.behind then .backing
  else if m.window = 0 then .still
  else if 3 * m.window < 51200 * m.setup.vmin * m.period then .creep
  else .moving

/-- R8: the measured speed in mm/min. -/
def windowSpeed (m : Motion) : Nat := min (3000 * m.window / (51200 * m.period)) 1000000

/-- R8: the expiry of a speed window. -/
def speedWindow (d : Dev) : Dev :=
  let m := d.base.motion
  let new := windowState m
  enterMotion new (d.onMotion fun m => { m with
    speed := windowSpeed m, rewound := if new = .backing then m.rewound else false, window := 0,
    period := m.setup.window })

/-- SPEED_WINDOW_EXPIRY (R8). -/
def execSpeedWindowExpiry (s : State) : Host.Outcome State Fault Refusal := .next { s with dev := speedWindow s.dev }

/-! ### LINE_SETUP (R12 to R15) -/

/-- R15: the smallest multiple of the pitch at or above the face's position and 0, and above its last line position. With E
still 0 the pitch is 0 and the boundary stays 0. -/
def rebased (pitch : Nat) (pos : Int) (last : Option Int) : Int :=
  let up := -((-(max pos 0)) / pitch)
  match last with
  | some l => pitch * max up (l / pitch + 1)
  | none => pitch * up

/-- R15: re-base both faces. -/
def rebase (d : Dev) : Dev :=
  let go (f : FaceId) (d : Dev) : Dev := d.onFace f fun x =>
    { x with grid := { x.grid with next := rebased d.base.motion.setup.pitch (d.base.facePos f) x.grid.last } }
  go .trail (go .lead d)

/-- R13: the pitch test of the table. -/
def pitchOk (s : LineSetup) : Bool := decide (s.e = 0) || (decide (1024 ≤ s.pitch) && decide (s.pitch ≤ 2048000))

/-- R13, R14: the line setup after a write of a known item, or none where it is refused. -/
def LineSetup.write (s : LineSetup) (item v : Nat) : Option LineSetup :=
  match item with
  | 0 => if 1 ≤ v ∧ v ≤ 1048575 ∧ pitchOk { s with e := v } = true then some { s with e := v } else none
  | 1 =>
    let n := clampNat 1 4096 v
    if pitchOk { s with n := n } then some { s with n := n } else none
  | 2 => if v ≤ 20000000 then some { s with d := v } else none
  | 3 => if v ≤ 30000000 then some { s with die := v } else none
  | 4 => if v ≤ 200 then some { s with vmin := v } else none
  | 5 => if v ≤ 100000 ∧ v ≤ s.reverse then some { s with backlash := v } else none
  | 6 => if v ≤ 10000000 ∧ s.backlash ≤ v then some { s with reverse := v } else none
  | 7 => if 1 ≤ v ∧ v ≤ 100 then some { s with window := v } else none
  | _ => none

/-- R12: the tests in order; the items E, N and D (0, 1, 2) re-base the faces. -/
def lineSetup (c : Command) (d : Dev) : Dev × Answer :=
  if d.base.banks.running || d.base.banks.isChecking then refuse d .state
  else match d.base.motion.setup.write (c.nat 0) (c.nat 1) with
    | none => refuse d .range
    | some s =>
      let d := d.onMotion fun m => { m with setup := s }
      takenClamped (if c.nat 0 ≤ 2 then rebase d else d)
        (decide (c.nat 0 = 1) && decide (clampNat 1 4096 (c.nat 1) ≠ c.nat 1))

/-- LINE_SETUP (R12). -/
def execLineSetup (s : State) : Host.Outcome State Fault Refusal := runCommand .lineSetup lineSetup s

end Sys2Proof.Machine
end

