-- ==== Sys2Proof/Machine/RecipeBanks.lean ====
section
/-! DEFINITION. The Bank Controller (spec/09): opening, writing, the check and what it compiles, scheduling and cancelling. -/

namespace Sys2Proof.Machine

open Sys2Proof

/-- Change the Bank Controller. -/
def Dev.onBanks (d : Dev) (g : Banks → Banks) : Dev := { d with base := { d.base with banks := g d.base.banks } }

/-! ### BANK_OPEN (R145) -/

/-- R145: open a bank with a seed (0 EMPTY, 1 COPY). -/
def openBank (i : BankId) (copy : Bool) (d : Dev) : Dev × Answer :=
  match (d.base.banks.bank i).state with
  | .checking => refuse d .busy
  | .opened | .scheduled | .active _ => refuse d .state
  | .vacant | .checked =>
    let contents := if copy then (d.base.banks.bank i.other).contents else Contents.empty
    taken (d.onBanks fun b => b.setBank i { state := .opened, contents := contents, compiled := none }) []

/-- R145: bank and seed, then the bank's state. -/
def bankOpen (c : Command) (d : Dev) : Dev × Answer :=
  withBank (c.nat 0) d fun i =>
    match yesNo (c.nat 1) with
    | some copy => openBank i copy d
    | none => refuse d .range

/-- BANK_OPEN (R145). -/
def execBankOpen (s : State) : Host.Outcome State Fault Refusal := runCommand .bankOpen bankOpen s

/-! ### Reading entries (R146, 9.1, 12.2)

Each reader gives the entry as it is stored and whether a tuning number was changed, or none where a structural field fails. -/

def kindOf : Nat → Option RegionKind
  | 0 => some .lane
  | 1 => some .guard
  | 2 => some .margin
  | 3 => some .exclude
  | _ => none

/-- A lane operand of a region: 16 stands for NONE. -/
def laneOf (n : Nat) : Option (Option Nat) := if n < 16 then some (some n) else if n = 16 then some none else none

def rulePolarityOf : Nat → Option RulePolarity
  | 0 => some .bright
  | 1 => some .dark
  | 2 => some .either
  | _ => none

def levelOf : Nat → Option Level
  | 0 => some .off
  | 1 => some .p0
  | 2 => some .p1
  | 3 => some .p2
  | _ => none

def slotOf : Nat → Option ExpressSlot
  | 0 => some .none
  | 1 => some .a
  | 2 => some .b
  | _ => none

def tierOf (n : Nat) : Option Nat := if n < 4 then some n else none

def columnOf (n : Nat) : Option Nat := if n < Config.columns then some n else none

def priorityOf (n : Nat) : Option Nat := if n < 4 then some n else none

/-- An entry's field `k`. -/
def field (ws : List Word) (k : Nat) : Nat := (ws.getD k 0).toNat

/-- Whether clamping to lo..hi changes a field. -/
def offRange (lo hi v : Nat) : Bool := decide (clampNat lo hi v ≠ v)

def readRegion (ws : List Word) : Option (Region × Bool) := do
  let present ← yesNo (field ws 0)
  let kind ← kindOf (field ws 1)
  let first ← columnOf (field ws 2)
  let last ← columnOf (field ws 3)
  let lane ← laneOf (field ws 4)
  let priority ← priorityOf (field ws 5)
  return ({ present := present, kind := kind, first := first, last := last, lane := lane, priority := priority }, false)

/-- A size field of a class rule, 0..65,535. -/
def size (ws : List Word) (k : Nat) : Nat := clampNat 0 65535 (field ws k)

def readRule (ws : List Word) : Option (ClassRule × Bool) := do
  let present ← yesNo (field ws 0)
  let polarity ← rulePolarityOf (field ws 1)
  let correlate ← yesNo (field ws 8)
  let counts ← yesNo (field ws 9)
  let excerpt ← yesNo (field ws 10)
  let level ← levelOf (field ws 11)
  let slot ← slotOf (field ws 12)
  return ({ present := present, polarity := polarity, areaMin := size ws 2, areaMax := size ws 3, widthMin := size ws 4,
            widthMax := size ws 5, lengthMin := size ws 6, lengthMax := size ws 7, correlate := correlate, counts := counts,
            excerpt := excerpt, level := level, slot := slot },
          [2, 3, 4, 5, 6, 7].any fun k => offRange 0 65535 (field ws k))

/-- The policy entry of level word `l` and slot word `s`. -/
def readRoute (ws : List Word) (l s : Nat) : Option Route := do
  let level ← levelOf (field ws l)
  let slot ← slotOf (field ws s)
  return { level := level, slot := slot }

/-- R181: eight levels (NONE, ELONGATED, THROUGH, LEAD-only, STREAK_OPEN, STREAK_CONTINUE, STREAK_CLOSE, LANE), the slots
of all but LEAD-only in the same order, the counts flags of NONE and ELONGATED. -/
def readPolicy (ws : List Word) : Option (Policy × Bool) := do
  let unclassed ← readRoute ws 0 8
  let elongated ← readRoute ws 1 9
  let through ← readRoute ws 2 10
  let leadOnly ← levelOf (field ws 3)
  let streakOpen ← readRoute ws 4 11
  let streakContinue ← readRoute ws 5 12
  let streakClose ← readRoute ws 6 13
  let lane ← readRoute ws 7 14
  let unclassedCounts ← yesNo (field ws 15)
  let elongatedCounts ← yesNo (field ws 16)
  return ({ unclassed := unclassed, elongated := elongated, through := through, leadOnly := leadOnly,
            streakOpen := streakOpen, streakContinue := streakContinue, streakClose := streakClose, lane := lane,
            unclassedCounts := unclassedCounts, elongatedCounts := elongatedCounts }, false)

def readTier (ws : List Word) : Option (TierRow × Bool) :=
  some ({ tb := clampNat 1 4095 (field ws 0), td := clampNat 1 4095 (field ws 1), ts := clampNat 1 65535 (field ws 2) },
    offRange 1 4095 (field ws 0) || offRange 1 4095 (field ws 1) || offRange 1 65535 (field ws 2))

def readTierPolicy (ws : List Word) : Option (TierPolicy × Bool) := do
  let fa ← tierOf (field ws 6)
  let minTier ← tierOf (field ws 7)
  let maxTier ← tierOf (field ws 8)
  let learnOnEntry ← yesNo (field ws 9)
  return ({ w := clampNat 8 8000 (field ws 0), ne := clampNat 1 255 (field ws 1), nd := clampNat 0 254 (field ws 2),
            ru := clampNat 0 10000 (field ws 3), rd := clampNat 0 10000 (field ws 4), na := clampNat 1 16 (field ws 5),
            fa := fa, minTier := minTier, maxTier := maxTier, learnOnEntry := learnOnEntry },
          offRange 8 8000 (field ws 0) || offRange 1 255 (field ws 1) || offRange 0 254 (field ws 2) ||
          offRange 0 10000 (field ws 3) || offRange 0 10000 (field ws 4) || offRange 1 16 (field ws 5))

def readPattern (ws : List Word) : Option (PatternRecipe × Bool) :=
  let r := (ws.getD 4 0).toInt
  some ({ c := clampNat 1000 2000000 (field ws 0), g := clampNat 0 500000 (field ws 1), gl := clampNat 0 50000 (field ws 2),
          gt := clampNat 0 50000 (field ws 3), r := clampInt (-50000) 50000 r,
          tolerance := clampNat 0 100000 (field ws 5) },
    offRange 1000 2000000 (field ws 0) || offRange 0 500000 (field ws 1) || offRange 0 50000 (field ws 2) ||
    offRange 0 50000 (field ws 3) || decide (clampInt (-50000) 50000 r ≠ r) || offRange 0 100000 (field ws 5))

/-- R146: k written as 1, 2 or 3 is stored as 4; above 15, as 15. -/
def storedShift (k : Nat) : Nat := if k = 0 then 0 else clampNat 4 15 k

def readDetection (ws : List Word) : Option (Detection × Bool) :=
  some ({ k := storedShift (field ws 0), learnLength := clampNat 16 4096 (field ws 1), drift := clampNat 0 4095 (field ws 2),
          bg := clampNat 0 3 (field ws 3), mb := clampNat 0 2 (field ws 4), leak := clampNat 4 10 (field ws 5),
          clip := clampNat 16 65535 (field ws 6), minStreak := clampNat 0 100000000 (field ws 7),
          release := clampNat 0 100000000 (field ws 8), sg := clampNat 0 7 (field ws 9),
          interval := clampNat 0 1000 (field ws 10) },
    decide (storedShift (field ws 0) ≠ field ws 0) || offRange 16 4096 (field ws 1) || offRange 0 4095 (field ws 2) ||
    offRange 0 3 (field ws 3) || offRange 0 2 (field ws 4) || offRange 4 10 (field ws 5) || offRange 16 65535 (field ws 6) ||
    offRange 0 100000000 (field ws 7) || offRange 0 100000000 (field ws 8) || offRange 0 7 (field ws 9) ||
    offRange 0 1000 (field ws 10))

def readCorrelation (ws : List Word) : Option (Correlation × Bool) :=
  some ({ md := clampNat 0 100000 (field ws 0), cd := clampNat 0 10000 (field ws 1) },
    offRange 0 100000 (field ws 0) || offRange 0 10000 (field ws 1))

/-! ### BANK_WRITE (R146) -/

/-- 9.1: the number of entries of a table. -/
def tableSize : Nat → Nat
  | 0 | 1 => 32
  | 2 => 8
  | 4 => 4
  | _ => 1

/-- R146: read every entry, or none where one of them fails. -/
def readAll {α : Type} (read : List Word → Option (α × Bool)) : List (List Word) → Option (List α × Bool)
  | [] => some ([], false)
  | e :: rest =>
    match read e, readAll read rest with
    | some (x, c), some (xs, c') => some (x :: xs, c || c')
    | none, _ | some _, none => none

/-- Write entries from an index onward. -/
def putEntries {α : Type} [DecidableEq α] (d : α) : List α → Nat → Table α → Table α
  | [], _, t => t
  | x :: xs, k, t => putEntries d xs (k + 1) (tset d t k x)

/-- The first of the entries of a single-entry table. -/
def firstEntry {α : Type} (old : α) : List α → α
  | [] => old
  | x :: _ => x

/-- R146: the contents after a write of one table, and whether a number was changed; none where a structural field fails. -/
def writeTable (table first : Nat) (es : List (List Word)) (c : Contents) : Option (Contents × Bool) :=
  match table with
  | 0 => (readAll readRegion es).map fun r => ({ c with regionsLead := putEntries Region.empty r.1 first c.regionsLead }, r.2)
  | 1 => (readAll readRegion es).map fun r =>
      ({ c with regionsTrail := putEntries Region.empty r.1 first c.regionsTrail }, r.2)
  | 2 => (readAll readRule es).map fun r => ({ c with rules := putEntries ClassRule.empty r.1 first c.rules }, r.2)
  | 3 => (readAll readPolicy es).map fun r => ({ c with policy := firstEntry c.policy r.1 }, r.2)
  | 4 => (readAll readTier es).map fun r => ({ c with tiers := putEntries TierRow.empty r.1 first c.tiers }, r.2)
  | 5 => (readAll readTierPolicy es).map fun r => ({ c with tierPolicy := firstEntry c.tierPolicy r.1 }, r.2)
  | 6 => (readAll readPattern es).map fun r => ({ c with pattern := firstEntry c.pattern r.1 }, r.2)
  | 7 => (readAll readDetection es).map fun r => ({ c with detection := firstEntry c.detection r.1 }, r.2)
  | 8 => (readAll readCorrelation es).map fun r => ({ c with correlation := firstEntry c.correlation r.1 }, r.2)
  | _ => none

/-- R146: table, list and index, then the entries. -/
def writeOpenBank (i : BankId) (c : Command) (d : Dev) : Dev × Answer :=
  match tableFields (c.nat 1) with
  | none => refuse d .range
  | some n =>
    if c.nat 3 = 0 ∨ tableSize (c.nat 1) < c.nat 2 + c.nat 3 then refuse d .range
    else
      let bank := d.base.banks.bank i
      match writeTable (c.nat 1) (c.nat 2) (groups n (c.nat 3) (c.ops.drop 4)) bank.contents with
      | none => refuse d .range
      | some (contents, clamped) =>
        takenClamped (d.onBanks fun b => b.setBank i { bank with contents := contents }) clamped

/-- R146: the bank number and its state, then the write. -/
def bankWrite (c : Command) (d : Dev) : Dev × Answer :=
  withBank (c.nat 0) d fun i =>
    match (d.base.banks.bank i).state with
    | .checking => refuse d .busy
    | .vacant | .checked | .scheduled | .active _ => refuse d .state
    | .opened => writeOpenBank i c d

/-- BANK_WRITE (R146). -/
def execBankWrite (s : State) : Host.Outcome State Fault Refusal := runCommand .bankWrite bankWrite s

/-! ### BANK_CHECK (R147) -/

/-- R147: the bank becomes CHECKING; the reply comes at completion, with this command's tag (log 33). -/
def bankCheck (c : Command) (d : Dev) : Dev × Answer :=
  withBank (c.nat 0) d fun i =>
    if d.base.banks.isChecking then refuse d .busy
    else if (d.base.banks.bank i).state ≠ .opened then refuse d .state
    else (d.onBanks fun b => { b.setState i .checking with checkTag := some c.tag }, none)

/-- BANK_CHECK (R147). -/
def execBankCheck (s : State) : Host.Outcome State Fault Refusal := runCommand .bankCheck bankCheck s

/-! ### The decode (R60) -/

def Region.covers (r : Region) (c : Nat) : Bool := r.present && decide (r.first ≤ c) && decide (c ≤ r.last)

/-- The present regions of a map that cover a column. -/
def coveringRegions (t : Table Region) (c : Nat) : List Region := (t.map (·.2)).filter (·.covers c)

/-- The highest priority among regions. -/
def topPriority (l : List Region) : Nat := l.foldl (fun m r => max m r.priority) 0

def RegionKind.plan : RegionKind → PlanKind
  | .lane => .lane
  | .guard => .guard
  | .margin => .margin
  | .exclude => .exclude

def RegionKind.hasLane : RegionKind → Bool
  | .lane | .guard => true
  | .margin | .exclude => false

/-- R60: the decode of a column. -/
def decodeColumn (t : Table Region) (c : Nat) : PlanEntry :=
  let l := coveringRegions t c
  match l.find? fun r => decide (r.priority = topPriority l) with
  | some r => { kind := r.kind.plan, lane := if r.kind.hasLane then r.lane else none }
  | none => PlanEntry.unmapped

def Contents.regions (c : Contents) : FaceId → Table Region
  | .lead => c.regionsLead
  | .trail => c.regionsTrail

/-- R149: the column plan of a face. -/
def Contents.planFor (c : Contents) (f : FaceId) : Plan := (List.range Config.columns).map (decodeColumn (c.regions f))

/-! ### The check (R148) -/

/-- What a failed check names: its code, the face, the item. -/
abbrev Verdict := Nat × Option FaceId × Option Nat

/-- The lowest present region of a face with a property. -/
def lowestRegion (t : Table Region) (p : Region → Bool) : Option Nat :=
  (List.range 32).find? fun k => (tget Region.empty t k).present && p (tget Region.empty t k)

/-- Search LEAD before TRAIL. -/
def searchFaces (code : Nat) (find : FaceId → Option Nat) : Option Verdict :=
  match find .lead, find .trail with
  | some k, _ => some (code, some .lead, some k)
  | none, some k => some (code, some .trail, some k)
  | none, none => none

/-- R148 check 2: a LANE or GUARD region covers a dark column. -/
def Base.coversDark (b : Base) (f : FaceId) (r : Region) : Bool :=
  r.kind.hasLane && (List.range (r.last + 1 - r.first)).any fun n => b.dark f (r.first + n)

/-- R148 check 3: the column is covered twice at its highest priority. -/
def tied (t : Table Region) (c : Nat) : Bool :=
  let l := coveringRegions t c
  decide (2 ≤ (l.filter fun r => decide (r.priority = topPriority l)).length)

/-- R148 check 5: an enabled port, and no LANE column. -/
def Base.emptyFace (b : Base) (c : Contents) (f : FaceId) : Bool :=
  (portNumbers.any fun p => (b.port p).place.enabled && decide ((b.port p).place.face = f)) &&
    !((List.range Config.columns).any fun k => decide ((decodeColumn (c.regions f) k).kind = .lane))

/-- The lowest class rule with a property that is present. -/
def lowestRule (c : Contents) (p : ClassRule → Bool) : Option Nat :=
  (List.range 8).find? fun k => (c.rule k).present && p (c.rule k)

/-- R148 check 6. -/
def ClassRule.reversed (r : ClassRule) : Bool :=
  decide (r.areaMax < r.areaMin) || decide (r.widthMax < r.widthMin) || decide (r.lengthMax < r.lengthMin)

/-- The seven policy entries that carry a slot. -/
def Policy.routes (p : Policy) : List Route :=
  [p.unclassed, p.elongated, p.through, p.streakOpen, p.streakContinue, p.streakClose, p.lane]

/-- R148 check 7: the users of an express slot. -/
def Contents.users (c : Contents) (s : ExpressSlot) : Nat :=
  ((List.range 8).filter fun k => (c.rule k).present && decide ((c.rule k).slot = s)).length +
    (c.policy.routes.filter fun r => decide (r.slot = s)).length

/-- R129: a threshold of tier `t` exceeds that of the tier below it. -/
def Contents.rises (c : Contents) (t : Nat) : Bool :=
  decide ((c.tier (t - 1)).tb < (c.tier t).tb) || decide ((c.tier (t - 1)).td < (c.tier t).td) ||
    decide ((c.tier (t - 1)).ts < (c.tier t).ts)

/-- R148 check 8, R129. -/
def tierVerdict (c : Contents) : Option Verdict :=
  match [1, 2, 3].find? c.rises with
  | some t => some (8, none, some t)
  | none =>
    if c.tierPolicy.maxTier < c.tierPolicy.minTier ∨ c.tierPolicy.ne ≤ c.tierPolicy.nd then some (8, none, none) else none

/-- R148 check 10; E = 0 counts here only under a correlating class rule (log 54). -/
def stationSpanFails (s : LineSetup) (c : Contents) : Bool :=
  (lowestRule c (·.correlate)).isSome &&
    (decide (s.e = 0) || decide (1024 * s.d < 1024 * c.correlation.md + (513 + c.detection.mb) * s.pitch))

/-- R148: MinLines and ReleaseLines from a length in µm. -/
def linesOf (um pitch : Nat) : Nat := ceilDiv (1024 * um) pitch

/-- R148 check 11. -/
def streakSpanFails (s : LineSetup) (c : Contents) : Bool :=
  decide (s.e = 0) ||
    [linesOf c.detection.minStreak s.pitch, linesOf c.detection.release s.pitch].any fun n =>
      decide (n = 0) || decide (65535 < n)

/-- A check without face or item. -/
def plainCheck (code : Nat) (fails : Bool) : Option Verdict := if fails then some (code, none, none) else none

/-- The first of some verdicts. -/
def firstVerdict : List (Option Verdict) → Option Verdict
  | [] => none
  | some v :: _ => some v
  | none :: rest => firstVerdict rest

/-- R148: the checks in order; the first failure, or none. -/
def judge (b : Base) (c : Contents) : Option Verdict :=
  firstVerdict [
    searchFaces 1 fun f => lowestRegion (c.regions f) fun r => decide (r.last < r.first),
    searchFaces 2 fun f => lowestRegion (c.regions f) (b.coversDark f),
    searchFaces 3 fun f => (List.range Config.columns).find? (tied (c.regions f)),
    searchFaces 4 fun f => lowestRegion (c.regions f) fun r => r.kind.hasLane && r.lane.isNone,
    (([FaceId.lead, FaceId.trail]).find? (b.emptyFace c)).map fun f => (5, some f, none),
    (lowestRule c ClassRule.reversed).map fun k => (6, none, some k),
    if 1 < c.users .a then some (7, none, some 1) else if 1 < c.users .b then some (7, none, some 2) else none,
    tierVerdict c,
    plainCheck 9 (decide (c.pattern.c ≤ c.pattern.gl + c.pattern.gt)),
    plainCheck 10 (stationSpanFails b.motion.setup c),
    plainCheck 11 (streakSpanFails b.motion.setup c)]

/-- R149: what a passed check fixes. -/
def compile (s : LineSetup) (c : Contents) : Compiled :=
  { leadPlan := c.planFor .lead, trailPlan := c.planFor .trail, minLines := linesOf c.detection.minStreak s.pitch,
    releaseLines := linesOf c.detection.release s.pitch }

/-- 12.4: word 3 of a BANK_CHECK reply; outcome 0 PASSED. -/
def checkWord (v : Option Verdict) : Word :=
  let x : Verdict := v.getD (0, none, none)
  word (bits 24 8 x.1 + bits 22 2 (faceCode? x.2.1) + bits 0 16 (x.2.2.getD 65535))

/-- R148, R149: the bank after its check. -/
def Bank.judged (b : Bank) (s : LineSetup) (v : Option Verdict) : Bank :=
  match v with
  | some _ => { b with state := .opened, compiled := none }
  | none => { b with state := .checked, compiled := some (compile s b.contents) }

/-- The bank that is CHECKING. -/
def Banks.checkingBank (b : Banks) : Option BankId :=
  if b.bank0.state = .checking then some .bank0 else if b.bank1.state = .checking then some .bank1 else none

/-- R148: check completion. The reply carries the tag of the BANK_CHECK. -/
def completeCheck (d : Dev) : Dev :=
  match d.base.banks.checkingBank with
  | none => d
  | some i =>
    let bank := d.base.banks.bank i
    let v := judge d.base bank.contents
    let tag := d.base.banks.checkTag.getD 0
    (d.onBanks fun b => { b.setBank i (bank.judged d.base.motion.setup v) with checkTag := none }).reply 0x12 tag .done
      [checkWord v]

/-- CHECK_COMPLETION (R148). -/
def execCheckCompletion (s : State) : Host.Outcome State Fault Refusal := .next { s with dev := completeCheck s.dev }

/-! ### BANK_SCHEDULE and BANK_CANCEL (R152, R155) -/

/-- R152: the one value congruent to `s` modulo 2^32 within 2^31 of a position, the lower bound included. -/
def extendPosition (s : Word) (at_ : Int) : Int :=
  let lo := at_ - 2147483648
  lo + ((s.toNat : Int) - lo) % 4294967296

/-- R152: the switch position of NEXT. -/
def Dev.nextSwitch (d : Dev) : Int :=
  match d.insp.lead.pixel.lastPos with
  | some p => p + d.base.motion.setup.pitch
  | none => d.base.facePos .lead

/-- R152: the switch position of an operand. -/
def Dev.switchPosition (d : Dev) (s : Word) : Int :=
  if s = absentWord then d.nextSwitch
  else
    let x := 10240 * extendPosition s (toUnits (d.base.facePos .lead))
    match d.insp.lead.pixel.lastPos with
    | some p => if p < x then x else d.nextSwitch
    | none => x

/-- R152. -/
def bankSchedule (c : Command) (d : Dev) : Dev × Answer :=
  withBank (c.nat 0) d fun i =>
    let state := (d.base.banks.bank i).state
    if state = .checking then refuse d .busy
    else if d.base.banks.running = false ∨ state ≠ .checked ∨ d.base.banks.scheduled.isSome = true then refuse d .state
    else
      let s := d.switchPosition (c.op 1)
      taken (d.onBanks fun b => { b.setState i .scheduled with switchPos := some s }) [wordI (toUnits s)]

/-- BANK_SCHEDULE (R152). -/
def execBankSchedule (s : State) : Host.Outcome State Fault Refusal := runCommand .bankSchedule bankSchedule s

/-- R155. -/
def bankCancel (_ : Command) (d : Dev) : Dev × Answer :=
  match d.base.banks.scheduled with
  | some i => taken (d.onBanks fun b => { b.setState i .checked with switchPos := none }) []
  | none => refuse d (if d.base.banks.midChange.isSome then .tooLate else .state)

/-- BANK_CANCEL (R155). -/
def execBankCancel (s : State) : Host.Outcome State Fault Refusal := runCommand .bankCancel bankCancel s

end Sys2Proof.Machine
end

