-- ==== Sys2Proof/Machine/Running.lean ====
section
/-! DEFINITION. START and STOP (R150, R151) with what each block does at them, BASELINE commands (R54 to R58), TIER_LIMIT
(R138) and PREVIEW_SET (R163). -/

namespace Sys2Proof.Machine

open Sys2Proof

/-! ### START (R150) -/

/-- R68: the pattern state at START: the last inspection zone is cleared too. -/
def Face.startPattern (b : Base) (f : FaceId) (x : Face) : Pattern := { enterPattern b f x.pattern with lastZone := none }

/-- R115: the streak accumulators and columns at START. -/
def Streaks.start (x : Streaks) : Streaks := { x with cols := [], saturated := false }

/-- R150: one face starts under the bank now active on it (R46, R68, R115, R139; R152 for the last processed line). -/
def startFace (f : FaceId) (d : Dev) : Dev :=
  let b := d.base
  let i := enterLearning b f d.insp
  let i := i.onFace f fun x => { x with
    pixel := { x.pixel with lastPos := none }, pattern := x.startPattern b f, streak := x.streak.start }
  { d with insp := loadTiersAtStart b f i }

/-- R150: the named bank becomes ACTIVE {both}, the part RUNNING, and each face starts. -/
def startPart (i : BankId) (d : Dev) : Dev :=
  (d.onBanks fun b => { b.setState i (.active .both) with running := true }).bothFaces startFace

/-- R150: the bank number (R144), then the two STATE tests. -/
def startCommand (c : Command) (d : Dev) : Dev × Answer :=
  withBank (c.nat 0) d fun i =>
    if d.base.banks.running = true ∨ (d.base.banks.bank i).state ≠ .checked then refuse d .state
    else taken (startPart i d) []

/-- START (R150). -/
def execStart (s : State) : Host.Outcome State Fault Refusal := runCommand .start startCommand s

/-! ### STOP (R151) -/

/-- R52, R39: what the blocks of a face finish before STOP: lines handed to the chain, records handed on (log 7). -/
def finishFace (f : FaceId) (d : Dev) : Dev :=
  let d := drainPixelLines f d
  { d with insp := drainStreakLines d.base f (drainBlobLines d.base f d.insp) }

/-- R96, R161: STOP frees every buffer; each record still in the part is withdrawn. -/
def withdrawAll (i : Insp) : Insp :=
  { i with
    out := i.out.stop,
    corr := { i.corr with
      list := i.corr.list.map Candidate.withdraw, leadWork := i.corr.leadWork.map Candidate.withdraw,
      trailWork := i.corr.trailWork.map TrailWork.withdraw } }

/-- R97, R126, R141: a face's blobs close with reason STOP; its candidates reach the correlator and its counted events the
Tier Controller under the bank active before STOP (log 7), the Blob Builder's before the Streak Tracker's (log 53) and
all of them after the candidates (log 57). -/
def stopBlobs (f : FaceId) (d : Dev) : Dev :=
  let b := d.base
  let i := closeAllBlobs b f .stop (d.face f).tier.lastInspection d.insp
  let i := match f with
    | .lead => drainLead i
    | .trail => drainTrail b i
  { d with insp := drainEvents b f .streakTracker (drainEvents b f .blobBuilder i) }

/-- R113: a face's streaks close with reason STOP. -/
def stopStreaks (f : FaceId) (d : Dev) : Dev := { d with insp := closeAllStreaks d.base f .stop d.insp }

/-- What STOP clears without a report in a face (R34, R52, R73, R93, R97, R113). -/
def Face.stop (x : Face) : Face :=
  { x with
    asm := x.asm.abandon, pixel := x.pixel.stop, pattern := x.pattern.stop,
    blob := { x.blob with saturated := false, ring := [] }, streak := { x.streak with saturated := false } }

/-- R73: STOP at the marks list. -/
def Marks.stop (m : Marks) : Marks := { m with list := [], lastAccepted := none }

/-- R151: an ACTIVE or SCHEDULED bank becomes CHECKED. -/
def Bank.stop (b : Bank) : Bank :=
  match b.state with
  | .active _ | .scheduled => { b with state := .checked }
  | .vacant | .opened | .checking | .checked => b

/-- R151: STOP at the Bank Controller. -/
def Banks.stop (b : Banks) : Banks :=
  { b with running := false, bank0 := b.bank0.stop, bank1 := b.bank1.stop, switchPos := none }

/-- What STOP clears without a report in the part. -/
def clearAtStop (d : Dev) : Dev :=
  { base := { d.base with banks := d.base.banks.stop },
    insp := { d.insp with lead := d.insp.lead.stop, trail := d.insp.trail.stop, marks := d.insp.marks.stop } }

/-- R151: the blocks flush, then the part is STANDBY. The buffers are freed and the records withdrawn before the closes, so an
entry that a STOP close evicts goes out WITHDRAWN (log 49); the pending list is flushed before the streaks close (log 56). -/
def stopPart (d : Dev) : Dev :=
  let d := d.bothFaces finishFace
  let d := ({ d with insp := withdrawAll d.insp }).bothFaces stopBlobs
  clearAtStop (({ d with insp := flushPending d.insp }).bothFaces stopStreaks)

/-- R151. -/
def stopCommand (_ : Command) (d : Dev) : Dev × Answer :=
  if d.base.banks.running then taken (stopPart d) [] else refuse d .state

/-- STOP (R151). -/
def execStop (s : State) : Host.Outcome State Fault Refusal := runCommand .stop stopCommand s

/-! ### Faces named by a command whose order cannot show -/

/-- The faces of a set. -/
def FaceSet.faces : FaceSet → List FaceId
  | .lead => [.lead]
  | .trail => [.trail]
  | .both => [.lead, .trail]

/-! ### BASELINE commands (3.7) -/

/-- R54. -/
def baselineLearn (c : Command) (d : Dev) : Dev × Answer :=
  match facesOf (c.nat 0) with
  | none => refuse d .range
  | some fs =>
    if d.base.banks.running then
      taken { d with insp := fs.faces.foldl (fun i f => enterLearning d.base f i) d.insp } []
    else refuse d .state

/-- BASELINE_LEARN (R54). -/
def execBaselineLearn (s : State) : Host.Outcome State Fault Refusal := runCommand .baselineLearn baselineLearn s

/-- R55: a span of 1..64 columns within the face. -/
def spanOk (first count : Nat) : Bool :=
  decide (1 ≤ count) && decide (count ≤ 64) && decide (first + count ≤ Config.columns)

/-- The refs of a span. -/
def Pixel.refs (x : Pixel) (first count : Nat) : List Nat := (List.range count).map fun n => (x.col (first + n)).ref

/-- R55, R56: ref and learned flag of each column of a span. -/
def Pixel.spanWords (x : Pixel) (first count : Nat) : List Word :=
  (List.range count).flatMap fun n => [word (x.col (first + n)).ref, word (flagCode (x.col (first + n)).learned)]

/-- R55. -/
def baselineRead (c : Command) (d : Dev) : Dev × Answer :=
  match faceOf (c.nat 0) with
  | none => refuse d .range
  | some f =>
    if spanOk (c.nat 1) (c.nat 2) then taken d ((d.face f).pixel.spanWords (c.nat 1) (c.nat 2)) else refuse d .range

/-- BASELINE_READ (R55). -/
def execBaselineRead (s : State) : Host.Outcome State Fault Refusal := runCommand .baselineRead baselineRead s

/-- R56: a face's reservation of a span. -/
def Pixel.reserve (x : Pixel) (first count : Nat) : Pixel :=
  { x with reservation := some { first := first, snapshot := x.refs first count } }

/-- R56. -/
def baselineReserve (c : Command) (d : Dev) : Dev × Answer :=
  match faceOf (c.nat 0) with
  | none => refuse d .range
  | some f =>
    if spanOk (c.nat 1) (c.nat 2) then
      taken (d.onFace f fun x => { x with pixel := x.pixel.reserve (c.nat 1) (c.nat 2) })
        ((d.face f).pixel.spanWords (c.nat 1) (c.nat 2))
    else refuse d .range

/-- BASELINE_RESERVE (R56). -/
def execBaselineReserve (s : State) : Host.Outcome State Fault Refusal := runCommand .baselineReserve baselineReserve s

/-- R57 test 4: the lowest column whose ref has drifted from its snapshot by more than the tolerance. -/
def driftedColumn (x : Pixel) (drift : Nat) : List Nat → Nat → Option Nat
  | [], _ => none
  | v :: rest, c =>
    if drift < (((x.col c).ref : Int) - v).natAbs then some c else driftedColumn x drift rest (c + 1)

/-- R57: a put value as it is written. -/
def putColumn (v : PixelColumn) (value : Nat) : PixelColumn := { v with ref := min value 65520, learned := true }

/-- R57: write a span of values. -/
def putSpan : List Nat → Nat → Pixel → Pixel
  | [], _, x => x
  | v :: rest, c, x => putSpan rest (c + 1) { x with cols := tset PixelColumn.fresh x.cols c (putColumn (x.col c) v) }

/-- R57: the tests on the reservation, then the put. -/
def putFace (f : FaceId) (first : Nat) (values : List Nat) (d : Dev) : Dev × Answer :=
  match (d.face f).pixel.reservation with
  | none => refuse d .state
  | some r =>
    if first ≠ r.first ∨ values.length ≠ r.snapshot.length then refuse d .stale
    else match driftedColumn (d.face f).pixel (d.base.banks.contents f).detection.drift r.snapshot first with
      | some c => (d, some (.stale, [word (bits 0 13 c)]))
      | none =>
        takenClamped (d.onFace f fun x => { x with pixel := { putSpan values first x.pixel with reservation := none } })
          (values.any fun v => decide (65520 < v))

/-- R57: each value a list of words gives. A value is 0..65535; R57 clamps every value above 65,520. -/
def putValues (c : Command) : List Nat := (c.ops.drop 3).map (·.toNat)

/-- R57. -/
def baselinePut (c : Command) (d : Dev) : Dev × Answer :=
  match faceOf (c.nat 0) with
  | none => refuse d .range
  | some f => if spanOk (c.nat 1) (c.nat 2) then putFace f (c.nat 1) (putValues c) d else refuse d .range

/-- BASELINE_PUT (R57). -/
def execBaselinePut (s : State) : Host.Outcome State Fault Refusal := runCommand .baselinePut baselinePut s

/-! ### TIER_LIMIT (R138) -/

/-- The lanes a TIER_LIMIT names: one, or ALL (16). -/
def lanesOf (n : Nat) : Option (List Nat) := if n < 16 then some [n] else if n = 16 then some laneNumbers else none

/-- R138. -/
def tierLimit (c : Command) (d : Dev) : Dev × Answer :=
  match facesOf (c.nat 0), lanesOf (c.nat 1) with
  | some fs, some lanes =>
    if 3 < c.nat 3 ∨ c.nat 3 < c.nat 2 then refuse d .range
    else if d.base.banks.running = false then refuse d .state
    else taken (d.onFaces fs fun f d => { d with insp := limitLanes d.base f lanes (c.nat 2) (c.nat 3) d.insp }) []
  | none, _ | some _, none => refuse d .range

/-- TIER_LIMIT (R138). -/
def execTierLimit (s : State) : Host.Outcome State Fault Refusal := runCommand .tierLimit tierLimit s

/-! ### PREVIEW_SET (R163) -/

/-- R163: the slot is emptied; the lost-before of a line it removes returns to the pending loss. -/
def Queue.dropPreview (q : Queue) : Queue :=
  { q with entries := [], pendingLoss := satAdd 65535 q.pendingLoss ((q.entries.map (·.lostBefore)).sum) }

/-- R163: one face takes its preview settings. -/
def setPreview (decimation binning : Nat) (i : Insp) (f : FaceId) : Insp :=
  let i := i.onFace f fun x => { x with preview :=
    { x.preview with decimation := decimation, binning := binning, counter := 0 } }
  if decimation = 0 then
    { i with out := i.out.setQueue (previewQueue f) (i.out.queue (previewQueue f)).dropPreview }
  else i

/-- R163. -/
def previewSet (c : Command) (d : Dev) : Dev × Answer :=
  match facesOf (c.nat 0) with
  | none => refuse d .range
  | some fs =>
    if 1024 < c.nat 1 ∨ ¬ (c.nat 2 ∈ [1, 2, 4, 8]) then refuse d .range
    else taken { d with insp := fs.faces.foldl (setPreview (c.nat 1) (c.nat 2)) d.insp } []

/-- PREVIEW_SET (R163). -/
def execPreviewSet (s : State) : Host.Outcome State Fault Refusal := runCommand .previewSet previewSet s

end Sys2Proof.Machine
end

