-- ==== Sys2Proof/Machine/Queries.lean ====
section
/-! DEFINITION. The queries (R174) and what each chapter returns for them: one value per word, in the order the rules list the
values (12.4; layout: log 21). -/

namespace Sys2Proof.Machine

open Sys2Proof

/-! ### Words of a reply (12.4) -/

/-- A value that may be absent. -/
def optWord (v : Option Nat) : Word := (v.map word).getD absentWord

/-- A position in position units, or absent. -/
def optPos (v : Option Int) : Word := (v.map fun p => wordI (toUnits p)).getD absentWord

def flagWord (b : Bool) : Word := word (flagCode b)

/-- LEAD's values, then TRAIL's. -/
def perFace (d : Dev) (words : FaceId → Face → List Word) : List Word :=
  words .lead (d.face .lead) ++ words .trail (d.face .trail)

/-! ### R18 -/

def setupWords (s : LineSetup) : List Word :=
  [word s.e, word s.n, word s.d, word s.die, word s.vmin, word s.backlash, word s.reverse, word s.window]

/-- R18. A creep length above 2^32 - 1 position units is sent modulo 2^32, as web positions are (log 43). -/
def motionStatus (d : Dev) : List Word :=
  let m := d.base.motion
  [word (motionCode m.state), wordI (toUnits m.p), wordI (toUnits m.h), word m.speed] ++
    perFace d (fun f x => [wordI (toUnits (d.base.facePos f)), x.grid.index, wordI (toUnits x.grid.next),
      wordI (toUnits x.grid.creep)]) ++
    setupWords m.setup

def motionCounters (d : Dev) : List Word :=
  word d.base.motion.encFaults :: perFace d fun _ x => [word x.grid.overruns]

/-! ### R37 -/

def placementWords (p : Placement) : List Word :=
  [flagWord p.enabled, word (faceCode p.face), word p.first, word p.last, word p.origin, flagWord p.descending]

def geometryWords (g : Geometry) : List Word := [wordI g.origin, word g.pitch, flagWord g.mirrored]

/-- R20: the number of dark columns of a face. -/
def Base.darkColumns (b : Base) (f : FaceId) : Nat := countColumns (b.dark f)

def sensorStatus (d : Dev) : List Word :=
  (portNumbers.flatMap fun p =>
    let x := d.base.port p
    placementWords x.place ++ [word (headCode x.head), word x.missing]) ++
    perFace d (fun f x => geometryWords x.asm.geometry ++ [word (d.base.darkColumns f), word x.asm.slots.length]) ++
    [flagWord d.base.sens.locked]

def portCountWords (c : PortCounts) : List Word :=
  [word c.stray, word c.errors, word c.short, word c.long, word c.truncated, word c.late, word c.duplicate,
   word c.missingLines]

def sensorCounters (d : Dev) : List Word :=
  (portNumbers.flatMap fun p => portCountWords (d.base.port p).counts) ++
    perFace d fun _ x => [word x.asm.forced, word x.asm.abandoned]

/-! ### R59 -/

def Phase.index : Phase → Nat
  | .idle => 0
  | .learning => 1
  | .detecting => 2

/-- The learn line count and learn length, absent when not LEARNING. -/
def learningWords (x : Pixel) : List Word :=
  if x.phase = .learning then [word x.learnLines, word x.learnLength] else [absentWord, absentWord]

def reservationWords : Option Reservation → List Word
  | some r => [word r.first, word r.snapshot.length]
  | none => [absentWord, absentWord]

/-- R59: the unlearned LANE columns, absent in IDLE. -/
def unlearnedWord (b : Base) (f : FaceId) (x : Pixel) : Word :=
  if x.phase = .idle then absentWord else word (unlearnedLanes ((b.banks.plan f).getD []) (b.lit f) x)

def pixelStatus (d : Dev) : List Word :=
  perFace d fun f x => [Config.code .facePhase x.pixel.phase.index] ++ learningWords x.pixel ++ [word x.pixel.lastClip] ++
    reservationWords x.pixel.reservation ++ [unlearnedWord d.base f x.pixel]

def pixelCounters (d : Dev) : List Word := perFace d fun _ x => [word x.pixel.clipped, word x.pixel.processed]

/-! ### R63, R74 -/

/-- R63: the columns of a kind on the current lines: not dark, and of that kind in the active plan. -/
def Base.kindCount (b : Base) (f : FaceId) (k : PlanKind) : Nat :=
  countColumns fun c => decide (columnKind (b.banks.plan f) (b.lit f) c = .planned k)

/-- R63: the columns of a kind and lane on the current lines. -/
def Base.laneCount (b : Base) (f : FaceId) (k : PlanKind) (j : Nat) : Nat :=
  countColumns fun c => inSpans (b.lit f) c && decide (planEntry ((b.banks.plan f).getD []) c = { kind := k, lane := some j })

/-- R63: the six kind counts; in IDLE the dark count alone. -/
def kindWords (b : Base) (f : FaceId) : List Word :=
  if (b.banks.activeOn f).isSome then
    [PlanKind.lane, .guard, .margin, .exclude, .unmapped].map (fun k => word (b.kindCount f k)) ++ [word (b.darkColumns f)]
  else [word (b.darkColumns f)]

/-- R63: LANE and GUARD columns of each lane; absent in IDLE. -/
def laneWordsOf (b : Base) (f : FaceId) : List Word :=
  laneNumbers.flatMap fun j =>
    if (b.banks.activeOn f).isSome then [word (b.laneCount f .lane j), word (b.laneCount f .guard j)]
    else [absentWord, absentWord]

def columnWords (d : Dev) : List Word := perFace d fun f _ => kindWords d.base f ++ laneWordsOf d.base f

def Zone.index : Zone → Nat
  | .coated => 0
  | .leadGuard => 1
  | .trailGuard => 2
  | .gap => 3

def patternWords (x : Pattern) : List Word :=
  [optWord (x.state.map patternCode), optPos x.edge, word x.misses, optPos x.seek,
   (x.lastZone.map fun z => Config.code .zone z.index).getD absentWord]

def patternStatus (d : Dev) : List Word :=
  word d.insp.marks.list.length :: (perFace d (fun _ x => patternWords x.pattern) ++ columnWords d)

def patternCounters (d : Dev) : List Word :=
  let m := d.insp.marks
  [word m.accepted, word m.repeated, word m.dropped] ++
    perFace d fun _ x => [word x.pattern.consumed, word x.pattern.early, word x.pattern.missTotal, word x.pattern.lost]

/-! ### R98, R116, R128, R142 -/

/-- R98: the free excerpt buffers. -/
def Out.freeBuffers (o : Out) : Nat := ((List.range Config.maxBuffers).filter fun k => (tget none o.buffers k).isNone).length

def blobStatus (d : Dev) : List Word :=
  perFace d (fun _ x => [word x.blob.openCount, flagWord x.blob.saturated]) ++ [word d.insp.out.freeBuffers]

def blobCounters (d : Dev) : List Word :=
  perFace d fun _ x => [word x.blob.dropped, word x.blob.discarded, word x.blob.merges, word x.blob.closed,
    word x.blob.skipped, word x.blob.satEntries]

/-- R116: the columns of a face in a state other than QUIET. -/
def Streaks.inState (x : Streaks) (s : ColumnStreak) : Nat := (x.cols.filter fun e => decide (e.2.state = s)).length

def streakStatus (d : Dev) : List Word :=
  perFace d fun _ x => [word x.streak.openCount, flagWord x.streak.saturated, word (x.streak.inState .onset),
    word (x.streak.inState .streak), word (x.streak.inState .releasing)]

def streakCounters (d : Dev) : List Word :=
  perFace d fun _ x => [word x.streak.opened, word x.streak.closed, word x.streak.merges, word x.streak.held,
    word x.streak.satEntries]

def corrCounters (d : Dev) : List Word :=
  let c := d.insp.corr
  [word c.matchCount, word c.trailOnly, word c.expired, word c.evicted, word c.stopped, word c.highWater]

def tierStatus (d : Dev) : List Word := perFace d fun _ x => [flagWord x.tier.alert, word x.tier.atT2]

def tierCounters (d : Dev) : List Word :=
  perFace d fun _ x => [word x.tier.escalations, word x.tier.relaxations, word x.tier.alerts]

/-! ### R156, R168, R179 -/

def BankState.index : BankState → Nat
  | .vacant => 0
  | .opened => 1
  | .checking => 2
  | .checked => 3
  | .scheduled => 4
  | .active _ => 5

def FaceSet.code : FaceSet → Nat
  | .lead => 0
  | .trail => 1
  | .both => 2

/-- A bank's state, with its face set when ACTIVE. -/
def bankWords (b : Bank) : List Word :=
  [Config.code .bankState b.state.index,
   match b.state with
   | .active fs => word fs.code
   | .vacant | .opened | .checking | .checked | .scheduled => absentWord]

/-- MinLines and ReleaseLines of a bank that has passed its check. -/
def lineCountWords (b : Bank) : List Word :=
  [optWord (b.compiled.map (·.minLines)), optWord (b.compiled.map (·.releaseLines))]

def bankStatus (d : Dev) : List Word :=
  let b := d.base.banks
  [Config.code .partState (flagCode b.running)] ++ bankWords b.bank0 ++ bankWords b.bank1 ++
    [optPos b.switchPos, flagWord b.isChecking, optWord (b.checkingBank.map bankCode)] ++
    lineCountWords b.bank0 ++ lineCountWords b.bank1

/-- The queues in the order of 10.1. -/
def allQueues : List QueueId := pickOrder ++ [.previewLead, .previewTrail]

def linkStatus (d : Dev) : List Word :=
  let o := d.insp.out
  [Config.code .linkState (flagCode o.linkUp)] ++ allQueues.map (fun q => word (o.queue q).entries.length) ++
    allQueues.map (fun q => word (o.queue q).pendingLoss) ++ [flagWord o.startPending] ++
    perFace d fun _ x => [word x.preview.decimation, word x.preview.binning]

def linkCounters (d : Dev) : List Word :=
  let o := d.insp.out
  allQueues.map (fun q => word (o.queue q).totalLost) ++ perFace d (fun _ x => [word x.preview.replaced]) ++
    [word o.framesSent, word o.inboundErrors, word o.linkDowns]

/-- R179. The number of queued commands leaves out the query that asks: it has left the queue (`Dev.takeCommand`, log 48). -/
def execStatus (d : Dev) : List Word :=
  let o := d.insp.out
  [word d.base.exec.queue.length, word (causeCode o.cause), optWord o.tag, flagWord o.kept]

/-- R179; the executed count with or without this query's own execution is a free value (log 13). -/
def execCounters (before : Nat) (d : Dev) : List Word :=
  let x := d.base.exec
  [word (if Config.countsOwnQuery then x.executed else before), word x.busy, word x.discarded]

/-! ### The queries (R174) -/

/-- R174: QUERY STATUS, rule by rule. R63 and R74 each list the column counts, so they stand at both places (log 21). -/
def statusReply (d : Dev) : List Word :=
  motionStatus d ++ sensorStatus d ++ pixelStatus d ++ columnWords d ++ patternStatus d ++ blobStatus d ++
    streakStatus d ++ [word d.insp.corr.list.length] ++ tierStatus d ++ bankStatus d ++ linkStatus d ++ execStatus d

/-- R174: QUERY COUNTERS; `before` is the executed count before this query. -/
def countersReply (before : Nat) (d : Dev) : List Word :=
  motionCounters d ++ sensorCounters d ++ pixelCounters d ++ patternCounters d ++ blobCounters d ++ streakCounters d ++
    corrCounters d ++ tierCounters d ++ linkCounters d ++ execCounters before d

/-- R174: a query of STATUS; a kind outside the six is refused (log 5). -/
def queryStatus (c : Command) (d : Dev) : Dev × Answer :=
  if c.nat 0 = 0 then taken d (statusReply d) else refuse d .range

/-- QUERY_STATUS (R174). -/
def execQueryStatus (s : State) : Host.Outcome State Fault Refusal := runCommand .queryStatus queryStatus s

/-- R174. -/
def queryCounters (before : Nat) (_ : Command) (d : Dev) : Dev × Answer := taken d (countersReply before d)

/-- QUERY_COUNTERS (R174). -/
def execQueryCounters (s : State) : Host.Outcome State Fault Refusal :=
  runCommand .queryCounters (queryCounters s.dev.base.exec.executed) s

/-- The face a query names (R174). -/
def withFace (n : Nat) (d : Dev) (k : FaceId → Dev × Answer) : Dev × Answer :=
  match faceOf n with
  | some f => k f
  | none => refuse d .range

/-- R142: the eight buckets, oldest first. -/
def bucketWords (t : Tier) (l : Lane) : List Word := (List.range 8).map fun n => word (l.bucket ((t.current + 1 + n) % 8))

/-- R142: one lane. -/
def laneReply (t : Tier) (j : Nat) : List Word :=
  let l := t.lane j
  [word l.own, word (t.effective j), word l.minLimit, word l.maxLimit] ++ bucketWords t l ++
    [word l.windowSum, optPos l.lastChange]

/-- R142: QUERY LANES. -/
def lanesReply (t : Tier) : List Word :=
  [flagWord t.alert, word t.floor, optPos t.next] ++ laneNumbers.flatMap (laneReply t)

/-- R142. -/
def queryLanes (c : Command) (d : Dev) : Dev × Answer :=
  withFace (c.nat 1) d fun f => taken d (lanesReply (d.face f).tier)

/-- QUERY_LANES (R142). -/
def execQueryLanes (s : State) : Host.Outcome State Fault Refusal := runCommand .queryLanes queryLanes s

/-- R116: one open streak record, its fields in the order of R116, which is not that of the table of 6.4 (log 58). -/
def streakRecordWords (e : Nat × Streak) : List Word :=
  let s := e.2
  [word e.1, word (polarityCode s.polarity), word s.colMin, word s.colMax, word s.founding, word s.lane, flagWord s.inGuard,
   wordI (toUnits s.start), wordI (toUnits s.openPos), wordI (toUnits s.lastContinue), word s.peak, word s.members,
   word s.tierAtOpen]

/-- R116: QUERY STREAKS, in order of streak number, behind the number of records (12.4). -/
def streaksReply (x : Streaks) : List Word := word x.openCount :: (occupied x.open_).flatMap streakRecordWords

/-- R116. -/
def queryStreaks (c : Command) (d : Dev) : Dev × Answer :=
  withFace (c.nat 1) d fun f => taken d (streaksReply (d.face f).streak)

/-- QUERY_STREAKS (R116). -/
def execQueryStreaks (s : State) : Host.Outcome State Fault Refusal := runCommand .queryStreaks queryStreaks s

/-- R128: one pending entry. -/
def pendingWords (c : Candidate) : List Word :=
  let r := c.record
  [r.first, r.last, wordI r.md, wordI r.cd, word r.cls, word (polarityCode r.polarity), word r.lane,
   word (excerptCode r.excerpt), optWord r.excerpt.held, optWord (c.bank.map bankCode)]

/-- R128: QUERY PENDING, in list order, behind the number of entries (12.4). -/
def pendingReply (l : List Candidate) : List Word := word l.length :: l.flatMap pendingWords

/-- R128. -/
def queryPending (_ : Command) (d : Dev) : Dev × Answer := taken d (pendingReply d.insp.corr.list)

/-- QUERY_PENDING (R128). -/
def execQueryPending (s : State) : Host.Outcome State Fault Refusal := runCommand .queryPending queryPending s

/-- A retained word (11.5). -/
def Exec.retainedWord (x : Exec) (k : Nat) : Word := tget 0 x.retained k

/-- R176: QUERY RETAINED. -/
def retainedReply (d : Dev) : List Word :=
  (List.range 8).map d.base.exec.retainedWord ++ [flagWord d.insp.out.kept]

/-- R176. -/
def queryRetained (_ : Command) (d : Dev) : Dev × Answer := taken d (retainedReply d)

/-- QUERY_RETAINED (R176). -/
def execQueryRetained (s : State) : Host.Outcome State Fault Refusal := runCommand .queryRetained queryRetained s

end Sys2Proof.Machine
end

