-- ==== Sys2Proof/Machine/Resets.lean ====
section
/-! DEFINITION. The executor's own commands and the resets: CLEAR_COUNTERS (R175), RETAIN_WRITE (R176), a command of unknown
code (R171), RESET (R177), power-on reset and pin reset. -/

namespace Sys2Proof.Machine

open Sys2Proof

/-! ### CLEAR_COUNTERS (R175) -/

/-- R175 at the per-face blocks (R1, R7, R11, R37, R59, R74, R98, R116, R142, R168). -/
def Face.clearCounters (x : Face) : Face :=
  { x with
    grid := { x.grid with overruns := 0, creep := 0 },
    asm := { x.asm with forced := 0, abandoned := 0 },
    pixel := { x.pixel with clipped := 0, processed := 0 },
    pattern := { x.pattern with consumed := 0, early := 0, missTotal := 0, lost := 0 },
    blob := { x.blob with dropped := 0, discarded := 0, merges := 0, closed := 0, skipped := 0, satEntries := 0 },
    streak := { x.streak with opened := 0, closed := 0, merges := 0, held := 0, satEntries := 0 },
    tier := { x.tier with escalations := 0, relaxations := 0, alerts := 0 },
    preview := { x.preview with replaced := 0 } }

/-- R128: the outcome counts become 0, the high-water count the present length. -/
def Corr.clearCounters (c : Corr) : Corr :=
  { c with matchCount := 0, trailOnly := 0, expired := 0, evicted := 0, stopped := 0, highWater := c.list.length }

/-- R37: the counts of every port. -/
def Sensors.clearCounters (x : Sensors) : Sensors :=
  { x with ports := tmap Port.powerOn (fun p => { p with counts := PortCounts.zero }) x.ports }

/-- R175: every count that a chapter names. -/
def clearAll (d : Dev) : Dev :=
  { base := { d.base with
      motion := { d.base.motion with encFaults := 0 }, sens := d.base.sens.clearCounters,
      exec := { d.base.exec with executed := 0, busy := 0, discarded := 0 } },
    insp := { d.insp with
      lead := d.insp.lead.clearCounters, trail := d.insp.trail.clearCounters,
      marks := { d.insp.marks with accepted := 0, repeated := 0, dropped := 0 },
      corr := d.insp.corr.clearCounters,
      out := { d.insp.out with framesSent := 0, inboundErrors := 0, linkDowns := 0 } } }

/-- R175. -/
def clearCounters (_ : Command) (d : Dev) : Dev × Answer := taken (clearAll d) []

/-- CLEAR_COUNTERS (R175). -/
def execClearCounters (s : State) : Host.Outcome State Fault Refusal := runCommand .clearCounters clearCounters s

/-! ### RETAIN_WRITE (R176) -/

/-- The pairs of a frame: index and value. -/
def retainPairs : List Word → List (Nat × Word)
  | i :: v :: rest => (i.toNat, v) :: retainPairs rest
  | [_] | [] => []

/-- R176: write pairs in list order. -/
def writeRetained : List (Nat × Word) → Table Word → Table Word
  | [], t => t
  | e :: rest, t => writeRetained rest (tset 0 t e.1 e.2)

/-- R176. A list of 0 or more than 8 pairs is refused with RANGE (log 25). -/
def retainWrite (c : Command) (d : Dev) : Dev × Answer :=
  let pairs := retainPairs (c.ops.drop 1)
  if c.nat 0 = 0 ∨ 8 < c.nat 0 ∨ (pairs.any fun e => decide (7 < e.1)) = true then refuse d .range
  else taken (d.onExec fun x => { x with retained := writeRetained pairs x.retained }) []

/-- RETAIN_WRITE (R176). -/
def execRetainWrite (s : State) : Host.Outcome State Fault Refusal := runCommand .retainWrite retainWrite s

/-! ### A command of unknown code (R171) -/

/-- R171: UNKNOWN, whatever the frame's operand count. -/
def unknownCommand (c : Command) (rest : List Command) (d : Dev) : Dev :=
  answerWith c (refuse (d.takeCommand rest) .unknown)

/-- UNKNOWN_COMMAND (R171). -/
def execUnknownCommand (s : State) : Host.Outcome State Fault Refusal :=
  match s.dev.base.exec.queue with
  | [] => .next s
  | c :: rest =>
    if rowOf c = .unknownCommand ∧ s.dev.canReply = true then .next { s with dev := unknownCommand c rest s.dev }
    else .next s

/-! ### The command reset (R17, R36, R53, R73, R97, R115, R127, R141, R156, R167, R177) -/

/-- R17: the Motion Unit. -/
def Motion.commandReset (m : Motion) : Motion :=
  { Motion.powerOn m.encA m.encB with setup := m.setup, period := m.setup.window }

/-- R36: a port. -/
def Port.commandReset (p : Port) : Port :=
  { p with head := if p.place.enabled then .active else .off, missing := 0, counts := PortCounts.zero }

/-- R36: the ports; the calibration lock stays. -/
def Sensors.commandReset (x : Sensors) : Sensors := { x with ports := tmap Port.powerOn Port.commandReset x.ports }

/-- The command reset of a face: trigger word in progress (R17), geometry (R36) and preview settings (R167) stay. The lines,
records and counted events that were handed on and wait at a block are discarded (log 44). -/
def Face.commandReset (x : Face) : Face :=
  { Face.powerOn with
    grid := { Grid.powerOn with trigger := x.grid.trigger },
    asm := { Assembler.powerOn with geometry := x.asm.geometry },
    preview := { Preview.powerOn with decimation := x.preview.decimation, binning := x.preview.binning } }

/-- R167: a frame in transmission goes out whole; the reset has freed its buffer, and it no longer ends a START report's
pending. -/
def InFlight.commandReset (t : InFlight) : InFlight := { t with report := t.report.withdraw, live := false }

/-- R167, R164: the outbound side, before the reset is recorded. -/
def Out.commandReset (o : Out) : Out :=
  { Out.powerOn with
    linkUp := o.linkUp, tx := o.tx.map InFlight.commandReset, startPending := o.startPending, cause := o.cause, tag := o.tag,
    kept := o.kept }

/-- R177: the command reset of the part. Candidates that wait at the correlator are discarded (log 44). -/
def commandReset (tag : Nat) (d : Dev) : Dev :=
  { base := { motion := d.base.motion.commandReset, sens := d.base.sens.commandReset, banks := Banks.powerOn,
              exec := { Exec.powerOn with retained := d.base.exec.retained }, free := d.base.free },
    insp := { lead := d.insp.lead.commandReset, trail := d.insp.trail.commandReset, marks := Marks.powerOn,
              corr := Corr.powerOn, out := (d.insp.out.commandReset.recordReset .command (some tag)).pick } }

/-- RESET (R177): executed at the head whatever the reply queue holds (R170). A RESET with operands is a refused command like
any other and waits for a reply place (log 24). -/
def execReset (s : State) : Host.Outcome State Fault Refusal :=
  match s.dev.base.exec.queue with
  | [] => .next s
  | c :: _ =>
    if rowOf c = .reset ∧ c.malformed = false then .next { s with dev := commandReset c.tag s.dev }
    else runCommand .reset (fun _ d => (d, none)) s

/-! ### Power-on reset and pin reset (R16, R35, R53, R73, R97, R115, R127, R141, R156, R164, R167, R178, R179) -/

/-- POWER_ON_RESET (R16): everything at its power-on value, the cause POWER (R178). -/
def execPowerOnReset (a b : Bool) (s : State) : Host.Outcome State Fault Refusal :=
  .next { s with dev := Dev.powerOn a b s.dev.base.free }

/-- R164, R167, R178 at a pin reset. -/
def Out.pinReset (o : Out) : Out :=
  { Out.powerOn with startPending := o.startPending, cause := o.cause, tag := o.tag, kept := o.kept }.recordReset .pin none

/-- The pin reset: as power-on, but for the retained words (R176) and the recorded cause (R178). -/
def pinReset (a b : Bool) (d : Dev) : Dev :=
  let p := Dev.powerOn a b d.base.free
  { base := { p.base with exec := { p.base.exec with retained := d.base.exec.retained } },
    insp := { p.insp with out := d.insp.out.pinReset } }

/-- PIN_RESET (R16). -/
def execPinReset (a b : Bool) (s : State) : Host.Outcome State Fault Refusal :=
  .next { s with dev := pinReset a b s.dev }

end Sys2Proof.Machine
end

