-- ==== Sys2Proof/Machine/Dispatch.lean ====
section
/-! DEFINITION. One arm per command. -/

namespace Sys2Proof.Machine

open Sys2Proof

/-- The effect of a command on everything but the queue of waiting commands. -/
def exec (i : Instr) (s : State) : Host.Outcome State Fault Refusal :=
  match i with
  | .encoderCount a b => Sys2Proof.Machine.execEncoderCount a b s
  | .triggerWordEnd f => Sys2Proof.Machine.execTriggerWordEnd f s
  | .speedWindowExpiry => Sys2Proof.Machine.execSpeedWindowExpiry s
  | .scanPacket port tag declared samples damaged => Sys2Proof.Machine.execScanPacket port tag declared samples damaged s
  | .pixelChainLine f => Sys2Proof.Machine.execPixelChainLine f s
  | .blobBuilderLine f => Sys2Proof.Machine.execBlobBuilderLine f s
  | .streakTrackerLine f => Sys2Proof.Machine.execStreakTrackerLine f s
  | .previewLine f => Sys2Proof.Machine.execPreviewLine f s
  | .leadCandidate => Sys2Proof.Machine.execLeadCandidate s
  | .trailCandidate => Sys2Proof.Machine.execTrailCandidate s
  | .countedEvent f src => Sys2Proof.Machine.execCountedEvent f src s
  | .patchMark => Sys2Proof.Machine.execPatchMark s
  | .checkCompletion => Sys2Proof.Machine.execCheckCompletion s
  | .transmitCompletion => Sys2Proof.Machine.execTransmitCompletion s
  | .linkUp => Sys2Proof.Machine.execLinkUp s
  | .linkDown receiving => Sys2Proof.Machine.execLinkDown receiving s
  | .inboundFrame words => Sys2Proof.Machine.execInboundFrame words s
  | .unknownCommand => Sys2Proof.Machine.execUnknownCommand s
  | .lineSetup => Sys2Proof.Machine.execLineSetup s
  | .placementWrite => Sys2Proof.Machine.execPlacementWrite s
  | .geometryWrite => Sys2Proof.Machine.execGeometryWrite s
  | .flatWrite => Sys2Proof.Machine.execFlatWrite s
  | .setCalibrationLock => Sys2Proof.Machine.execSetCalibrationLock s
  | .previewSet => Sys2Proof.Machine.execPreviewSet s
  | .bankOpen => Sys2Proof.Machine.execBankOpen s
  | .bankWrite => Sys2Proof.Machine.execBankWrite s
  | .bankCheck => Sys2Proof.Machine.execBankCheck s
  | .bankSchedule => Sys2Proof.Machine.execBankSchedule s
  | .bankCancel => Sys2Proof.Machine.execBankCancel s
  | .start => Sys2Proof.Machine.execStart s
  | .stop => Sys2Proof.Machine.execStop s
  | .baselineLearn => Sys2Proof.Machine.execBaselineLearn s
  | .baselineRead => Sys2Proof.Machine.execBaselineRead s
  | .baselineReserve => Sys2Proof.Machine.execBaselineReserve s
  | .baselinePut => Sys2Proof.Machine.execBaselinePut s
  | .tierLimit => Sys2Proof.Machine.execTierLimit s
  | .queryStatus => Sys2Proof.Machine.execQueryStatus s
  | .queryCounters => Sys2Proof.Machine.execQueryCounters s
  | .queryLanes => Sys2Proof.Machine.execQueryLanes s
  | .queryStreaks => Sys2Proof.Machine.execQueryStreaks s
  | .queryPending => Sys2Proof.Machine.execQueryPending s
  | .queryRetained => Sys2Proof.Machine.execQueryRetained s
  | .clearCounters => Sys2Proof.Machine.execClearCounters s
  | .retainWrite => Sys2Proof.Machine.execRetainWrite s
  | .reset => Sys2Proof.Machine.execReset s
  | .powerOnReset a b => Sys2Proof.Machine.execPowerOnReset a b s
  | .pinReset a b => Sys2Proof.Machine.execPinReset a b s

end Sys2Proof.Machine
end

