-- ==== Sys2Proof/Safety.lean ====
section
/-! DEFINITION. What counts as a safe state and a safe run of the part, in the terms the statements use. -/

namespace Sys2Proof.Machine

open Sys2Proof

/-- A property that every step keeps. -/
def Kept (inv : State → Prop) : Prop := ∀ s t : State, inv s → step s = .next t → inv t

/-- A table whose listed values all satisfy a property. -/
abbrev AllListed {α : Type} (p : α → Prop) (t : Table α) : Prop := ∀ e ∈ t, p e.2

/-! ### What a command leaves alone -/

/-- The separate parts of the state, in the statements that say what a command leaves unchanged. -/
inductive Part where
  | motion | sens | banks | exec | free | marks | corr | out
  | grid (f : FaceId)
  | asm (f : FaceId)
  | pixel (f : FaceId)
  | pattern (f : FaceId)
  | blob (f : FaceId)
  | streak (f : FaceId)
  | tier (f : FaceId)
  | preview (f : FaceId)
deriving DecidableEq, Repr

/-- A part is the same in two states of the part. -/
def Part.same (d d' : Dev) : Part → Prop
  | .motion => d'.base.motion = d.base.motion
  | .sens => d'.base.sens = d.base.sens
  | .banks => d'.base.banks = d.base.banks
  | .exec => d'.base.exec = d.base.exec
  | .free => d'.base.free = d.base.free
  | .marks => d'.insp.marks = d.insp.marks
  | .corr => d'.insp.corr = d.insp.corr
  | .out => d'.insp.out = d.insp.out
  | .grid f => (d'.face f).grid = (d.face f).grid
  | .asm f => (d'.face f).asm = (d.face f).asm
  | .pixel f => (d'.face f).pixel = (d.face f).pixel
  | .pattern f => (d'.face f).pattern = (d.face f).pattern
  | .blob f => (d'.face f).blob = (d.face f).blob
  | .streak f => (d'.face f).streak = (d.face f).streak
  | .tier f => (d'.face f).tier = (d.face f).tier
  | .preview f => (d'.face f).preview = (d.face f).preview

/-- Every part outside the list is unchanged. -/
def Touches (parts : List Part) (d d' : Dev) : Prop := ∀ p : Part, p ∉ parts → p.same d d'

/-- Every part outside the list, and the queue of waiting commands, is unchanged. -/
def OnlyChanges (parts : List Part) (s t : State) : Prop := t.pending = s.pending ∧ Touches parts s.dev t.dev

/-- The parts of one face. -/
def Part.ofFace (f : FaceId) : List Part :=
  [.grid f, .asm f, .pixel f, .pattern f, .blob f, .streak f, .tier f, .preview f]

/-! ### R144: bank states and the part state -/

/-- A bank that is neither ACTIVE nor SCHEDULED. -/
def BankState.atRest : BankState → Bool
  | .vacant | .opened | .checking | .checked => true
  | .scheduled | .active _ => false

/-- R144: in STANDBY no bank is ACTIVE or SCHEDULED; in RUNNING one bank is ACTIVE {both} and the other is not ACTIVE, or one is
ACTIVE {LEAD} and the other ACTIVE {TRAIL}. -/
def BankLaw (b : Banks) : Prop :=
  if b.running then
    ∃ i, ((b.bank i).state = .active .both ∧ ((b.bank i.other).state.atRest = true ∨ (b.bank i.other).state = .scheduled)) ∨
      ((b.bank i).state = .active .lead ∧ (b.bank i.other).state = .active .trail)
  else ∀ i, (b.bank i).state.atRest = true

/-- R144 over a state. -/
def BanksLawful (s : State) : Prop := BankLaw s.dev.base.banks

/-! ### R130: lane tiers -/

/-- R130 for one lane: its limits and its own tier. -/
abbrev LaneLaw (l : Lane) : Prop := l.minLimit ≤ l.own ∧ l.own ≤ l.maxLimit

/-- A bank that has passed its check. -/
def BankState.passed : BankState → Bool
  | .checked | .scheduled | .active _ => true
  | .vacant | .opened | .checking => false

/-- R129: the tier policy of a bank that has passed its check. -/
def PolicyLaw (b : Bank) : Prop := b.state.passed = true → b.contents.tierPolicy.minTier ≤ b.contents.tierPolicy.maxTier

/-- R130 for every lane of both faces, with what R129 and R144 give the banks it is loaded from. -/
def TiersLawful (s : State) : Prop :=
  BanksLawful s ∧ (∀ i, PolicyLaw (s.dev.base.banks.bank i)) ∧ ∀ f, AllListed LaneLaw (s.dev.face f).tier.lanes

/-! ### R38: baselines -/

/-- R38 for one column, with the learning sum that a learned mean comes from (3.1). -/
abbrev ColumnLaw (v : PixelColumn) : Prop := v.ref ≤ 65520 ∧ v.sum ≤ 4095 * v.count ∧ v.count ≤ 4096

/-- R38 for every column of both faces. -/
def BaselinesBounded (s : State) : Prop := ∀ f, AllListed ColumnLaw (s.dev.face f).pixel.cols

/-! ### R99: streak accumulators -/

/-- R99 for one column. -/
abbrev AccLaw (v : StreakColumn) : Prop := -134217727 ≤ v.acc ∧ v.acc ≤ 134217727

/-- R99 for every column of both faces. -/
def AccumulatorsBounded (s : State) : Prop := ∀ f, AllListed AccLaw (s.dev.face f).streak.cols

/-! ### R20: ports -/

/-- R20: no two enabled ports of one face share a column; with the canonical form of the port table. -/
abbrev PortsLaw (b : Base) : Prop :=
  twf Port.powerOn b.sens.ports = true ∧
    ∀ m ∈ portNumbers, ∀ n ∈ portNumbers, m ≠ n → (b.port m).place.enabled = true → (b.port n).place.enabled = true →
      (b.port m).place.face = (b.port n).place.face → spansMeet (b.port m).place.span (b.port n).place.span = false

/-- R20 over a state. -/
abbrev ColumnsDisjoint (s : State) : Prop := PortsLaw s.dev.base

/-! ### The stores of a face -/

/-- A table of `n` numbered slots in canonical form: only slots below `n` are listed, each once (log 16). -/
def SlotTable {α : Type} [DecidableEq α] (n : Nat) (t : Table (Option α)) : Prop := twf none t = true ∧ ∀ e ∈ t, e.1 < n

/-- Log 16: the tables of a face by column, blob slot (256: R79), streak slot (64: R106) and lane are in canonical form; and the
expected set of every open slot lists its ports once, rising (R27). -/
def FaceCanonical (x : Face) : Prop :=
  twf PixelColumn.fresh x.pixel.cols = true ∧ SlotTable 256 x.blob.open_ ∧ SlotTable 64 x.streak.open_ ∧
    twf (StreakColumn.quiet 0) x.streak.cols = true ∧ twf Lane.powerOn x.tier.lanes = true ∧
    ∀ o ∈ x.asm.slots, o.expected.Pairwise (· < ·)

/-- The stores of both faces. -/
def TablesCanonical (s : State) : Prop := ∀ f, FaceCanonical (s.dev.face f)

/-! ### Capacities (00_scope, Capacities and Ranges at a Glance) -/

/-- 10.1: every outbound queue within its capacity; and only the eight excerpt buffers are held (R94). -/
def OutBounded (o : Out) : Prop := (∀ q, (o.queue q).entries.length ≤ capacity q) ∧ SlotTable 8 o.buffers

/-- The capacities of the lists the part holds. -/
def CapacityLaw (d : Dev) : Prop :=
  OutBounded d.insp.out ∧ d.base.exec.queue.length ≤ 4 ∧ d.insp.corr.list.length ≤ 128 ∧ d.insp.marks.list.length ≤ 16 ∧
    ∀ f, (d.face f).asm.slots.length ≤ 4 ∧ (d.face f).blob.ring.length ≤ 64

/-- Capacities over a state. -/
def CapacitiesHold (s : State) : Prop := CapacityLaw s.dev

/-! ### Commands at the head of the queue (R170, R171) -/

/-- A command of a row stands at the head of the command queue with `rest` behind it, its operand count is right, and the
reply queue has a free place: it is executed. -/
abbrev Ready (row : Instr) (c : Command) (rest : List Command) (s : State) : Prop :=
  s.dev.base.exec.queue = c :: rest ∧ rowOf c = row ∧ c.malformed = false ∧ s.dev.canReply = true

/-- The state in which a command has left the queue, its owning rule has made `d`, and its reply has been offered. -/
def answered (s : State) (c : Command) (d : Dev) (r : ReplyCode) (body : List Word) : State :=
  { s with dev := d.reply c.code c.tag r body }

/-! ### Switches, streak columns -/

/-- R153: a face does not switch before a line at position `y`: no switch position stands, the line lies below it, or no bank
waits for this face (SCHEDULED for LEAD, ACTIVE {LEAD} for TRAIL). -/
abbrev NoSwitchDue (b : Banks) (f : FaceId) (y : Int) : Prop :=
  ∀ p ∈ b.switchPos, y < p ∨ ∀ k, (b.bank k).state ≠ (match f with
    | .lead => .scheduled
    | .trail => .active .lead)

/-- R100 to R102: the line of a record is eligible for column `c`, which carries `y`. `v` is the column with the accumulator the
line gives it, `level` its level, `ts` the streak threshold of its lane's effective tier, `k` the compiled part of the bank. -/
abbrev EligibleAt (b : Base) (f : FaceId) (r : LineRecord) (i : Insp) (c : Nat) (y : RecordColumn) (v : StreakColumn)
    (level : Int) (ts : Nat) (k : Compiled) : Prop :=
  zeroes r c = false ∧ r.cols.find? (fun e => decide (e.1 = c)) = some (c, y) ∧ eligible r y = true ∧
    b.banks.compiled f = some k ∧
    v = { (i.streaks f).col c with
      acc := accumulate ((i.streaks f).col c).acc y.dev (b.banks.contents f).detection.leak (b.banks.contents f).detection.clip } ∧
    level = v.acc.tdiv (2 ^ (b.banks.contents f).detection.leak) ∧
    ts = ((b.banks.contents f).tier (r.tiers.getD y.lane 0)).ts

/-! ### Encoder levels, used columns, resets -/

/-- The used columns that fields `first`, `last`, `origin` and `descending` of a placement give (table of directions, 2.1). -/
def usedColumns (first last origin : Nat) (descending : Bool) : Nat × Nat :=
  if descending then (origin - (last - first), origin) else (origin, origin + (last - first))

/-- The counts of a port after a well-formed packet, short of what matching adds: R26's short, long and truncated packets
(counted for late and duplicate packets too: log 20). -/
def countsAfter (k : PortCounts) (last declared delivered : Nat) : PortCounts :=
  { k with
    short := if delivered < declared then min (k.short + 1) 4294967295 else k.short,
    long := if declared < delivered then min (k.long + 1) 4294967295 else k.long,
    truncated := if min declared delivered ≤ last then min (k.truncated + 1) 4294967295 else k.truncated }

/-- R29, R31: of the open slots `l` of a face, oldest first, the complete ones at the front have left in line order, down to the
oldest incomplete one, and their expected ports, each of which has delivered, are accounted: an inspection line among them sets the
missing count to 0. `a` and `ports` are the assembler and the ports before. -/
def SlotsLeft (f : FaceId) (a : Assembler) (ports : Nat → Port) (l : List Slot) (d : Dev) : Prop :=
  ∃ before after, l = before ++ after ∧ (∀ o ∈ before, ∀ p ∈ o.expected, p ∈ o.delivered) ∧
    (∀ o ∈ after.head?, ∃ p ∈ o.expected, p ∉ o.delivered) ∧
    (d.face f).asm = { a with slots := after, handed := a.handed ++ before.map fun o => { head := o.head, raw := o.raw } } ∧
    ∀ p, d.base.port p = { ports p with
      missing := if before.any (fun o => decide (p ∈ o.expected ∧ o.head.cls = .inspection)) then 0 else (ports p).missing }

/-- R27, R29 to R31: a face opens a slot for a line, from `d` to `d'`. It expects the ACTIVE ports. With four slots open the oldest
leaves first, forced: it is counted, and its expected ports are accounted, those that fall SILENT being reported (in ascending port
number: log 30) and no longer expected where they have not delivered. Then every complete slot at the front leaves. -/
def SlotOpened (f : FaceId) (head : LineHead) (d d' : Dev) : Prop :=
  ∀ (x : Assembler) (new : Slot), x = (d.face f).asm →
    new = {
      head := head, delivered := [], raw := [],
      expected := [0, 1, 2, 3].filter fun p => (d.base.port p).place.enabled && decide ((d.base.port p).place.face = f) &&
        decide ((d.base.port p).head = .active) } →
    (x.slots.length < 4 → SlotsLeft f x d.base.port (x.slots ++ [new]) d' ∧ d'.insp.out = d.insp.out) ∧
    ∀ (o : Slot) (rest : List Slot) (silenced : List Nat) (ports : Nat → Port), x.slots = o :: rest → 3 ≤ rest.length →
      o.expected.Pairwise (· < ·) →
      silenced = (o.expected.filter fun p => decide (p ∉ o.delivered ∧ o.head.cls = .inspection ∧
        15 ≤ (d.base.port p).missing)) →
      (∀ p y z, y = d.base.port p →
        z = { y with counts := { y.counts with missingLines := min (y.counts.missingLines + 1) 4294967295 } } →
        ports p =
          if p ∉ o.expected then y
          else if p ∈ o.delivered then (if o.head.cls = .creep then y else { y with missing := 0 })
          else if o.head.cls = .creep then z
          else if p ∈ silenced then { z with head := .silent, missing := 16 }
          else { z with missing := y.missing + 1 }) →
      SlotsLeft f { x with
          handed := x.handed ++ [{ head := o.head, raw := o.raw }], forced := min (x.forced + 1) 4294967295 } ports
        ((rest.map fun o' => { o' with expected := o'.expected.filter fun p => decide (p ∈ o'.delivered ∨ p ∉ silenced) }) ++
          [{ new with expected := new.expected.filter fun p => decide (p ∉ silenced) }]) d' ∧
      d'.insp.out = silenced.foldl (fun w p => w.offer .p2 (.status (some f)
        (decide ((d.face f).pattern.state = some .lost))
        (.head p (d.base.port p).head .silent .missing o.head.index))) d.insp.out

/-- A RESET command, its operand count right, stands at the head of the command queue (R170, R177). -/
abbrev ResetHeads (c : Command) (rest : List Command) (s : State) : Prop :=
  s.dev.base.exec.queue = c :: rest ∧ c.code = 0xFF ∧ c.count = 0 ∧ c.ops = []

/-- The three resets: power-on, pin, and a RESET command that is executed. -/
def IsReset (i : Instr) (s : State) : Prop :=
  (∃ a b, i = .powerOnReset a b) ∨ (∃ a b, i = .pinReset a b) ∨ i = .reset ∧ ∃ c rest, ResetHeads c rest s

/-- R1: the pair of encoder levels `new` follows `old` in the forward cycle 00, 10, 11, 01, 00. -/
abbrev Forward (old new : Bool × Bool) : Prop :=
  (old, new) ∈ [((false, false), (true, false)), ((true, false), (true, true)), ((true, true), (false, true)),
    ((false, true), (false, false))]

/-- The levels of the encoder lines last sampled. -/
def State.levels (s : State) : Bool × Bool := (s.dev.base.motion.encA, s.dev.base.motion.encB)

/-! ### The check (R148) -/

/-- R148 check 3: the regions of a map that cover a column at the highest priority among those that cover it. -/
def topRegions (t : Table Region) (col : Nat) : List Region :=
  (t.map (·.2)).filter fun r => r.present && decide (r.first ≤ col) && decide (col ≤ r.last) &&
    (t.map (·.2)).all fun q => !(q.present && decide (q.first ≤ col) && decide (col ≤ q.last)) || decide (q.priority ≤ r.priority)

/-- R148 check 7: the users of an express slot: present class rules, and the seven policy entries that carry one. -/
def slotUsers (c : Contents) (s : ExpressSlot) : Nat :=
  ((List.range 8).filter fun k => (c.rule k).present && decide ((c.rule k).slot = s)).length +
    ([c.policy.unclassed, c.policy.elongated, c.policy.through, c.policy.streakOpen, c.policy.streakContinue,
      c.policy.streakClose, c.policy.lane].filter fun r => decide (r.slot = s)).length

/-- R148: ceil(1,024 × length / pitch) lies outside 1..65,535. -/
def linesOutside (um pitch : Nat) : Prop := (1024 * um + pitch - 1) / pitch = 0 ∨ 65535 < (1024 * um + pitch - 1) / pitch

/-- R148: the item `k` of a face fails the check of a code, 1 to 5: a region, a column, or for EMPTY_FACE no item (FFFFh). -/
def FaceFails (b : Base) (c : Contents) (code : Nat) (f : FaceId) (k : Nat) : Prop :=
  match code with
  | 1 => k < 32 ∧ (tget Region.empty (c.regions f) k).present = true ∧
      (tget Region.empty (c.regions f) k).last < (tget Region.empty (c.regions f) k).first
  | 2 => k < 32 ∧ ∃ r : Region, r = tget Region.empty (c.regions f) k ∧ r.present = true ∧
      (r.kind = .lane ∨ r.kind = .guard) ∧ ∃ col, r.first ≤ col ∧ col ≤ r.last ∧ b.dark f col = true
  | 3 => k < 8192 ∧ 2 ≤ (topRegions (c.regions f) k).length
  | 4 => k < 32 ∧ ∃ r : Region, r = tget Region.empty (c.regions f) k ∧ r.present = true ∧
      (r.kind = .lane ∨ r.kind = .guard) ∧ r.lane = none
  | 5 => k = 65535 ∧ (∃ p < 4, (b.port p).place.enabled = true ∧ (b.port p).place.face = f) ∧
      ∀ col < 8192, (decodeColumn (c.regions f) col).kind ≠ .lane
  | _ => False

/-- R148 check 6: a present class rule with a min above its max. -/
def RuleFails (c : Contents) (k : Nat) : Prop :=
  k < 8 ∧ (c.rule k).present = true ∧ ((c.rule k).areaMax < (c.rule k).areaMin ∨ (c.rule k).widthMax < (c.rule k).widthMin ∨
    (c.rule k).lengthMax < (c.rule k).lengthMin)

/-- R148 check 8: a threshold of tier `t` exceeds that of the tier below it (R129). -/
def TierFails (c : Contents) (t : Nat) : Prop :=
  1 ≤ t ∧ t ≤ 3 ∧ ((c.tier (t - 1)).tb < (c.tier t).tb ∨ (c.tier (t - 1)).td < (c.tier t).td ∨
    (c.tier (t - 1)).ts < (c.tier t).ts)

/-- R148: the check of a code fails. -/
def CheckFails (b : Base) (c : Contents) : Nat → Prop
  | 1 => ∃ f k, FaceFails b c 1 f k
  | 2 => ∃ f k, FaceFails b c 2 f k
  | 3 => ∃ f k, FaceFails b c 3 f k
  | 4 => ∃ f k, FaceFails b c 4 f k
  | 5 => ∃ f k, FaceFails b c 5 f k
  | 6 => ∃ k, RuleFails c k
  | 7 => 1 < slotUsers c .a ∨ 1 < slotUsers c .b
  | 8 => (∃ t, TierFails c t) ∨ c.tierPolicy.maxTier < c.tierPolicy.minTier ∨ c.tierPolicy.ne ≤ c.tierPolicy.nd
  | 9 => c.pattern.c ≤ c.pattern.gl + c.pattern.gt
  | 10 => (∃ k < 8, (c.rule k).present = true ∧ (c.rule k).correlate = true) ∧
      (b.motion.setup.e = 0 ∨ b.motion.setup.d * 1024 <
        1024 * c.correlation.md + (513 + c.detection.mb) * (b.motion.setup.n * b.motion.setup.e))
  | 11 => b.motion.setup.e = 0 ∨ linesOutside c.detection.minStreak (b.motion.setup.n * b.motion.setup.e) ∨
      linesOutside c.detection.release (b.motion.setup.n * b.motion.setup.e)
  | _ => False

/-- R148: the face (3: none) and the item (65,535: none) that the table names for a failed check: LEAD is searched before TRAIL, a
lower index before a higher one. -/
def CheckNames (b : Base) (c : Contents) (code face item : Nat) : Prop :=
  if code ≤ 5 then ∃ f, face = faceCode f ∧ FaceFails b c code f item ∧ (∀ k < item, ¬ FaceFails b c code f k) ∧
    (f = .trail → ∀ k, ¬ FaceFails b c code .lead k)
  else face = 3 ∧ match code with
    | 6 => RuleFails c item ∧ ∀ k < item, ¬ RuleFails c k
    | 7 => item = if 1 < slotUsers c .a then 1 else 2
    | 8 => TierFails c item ∧ (∀ t < item, ¬ TierFails c t) ∨ item = 65535 ∧ ∀ t, ¬ TierFails c t
    | _ => item = 65535

/-! ### Reports and buffers -/

/-- R158: a report holds an excerpt buffer. -/
def Report.holds (r : Report) (k : Nat) : Prop :=
  ∃ x : Defect, (x.excerpt = .captured k ∨ x.excerpt = .partly k) ∧
    (r = .defect x ∨ (∃ y md cd, r = .through x y md cd) ∨ ∃ y md cd, r = .through y x md cd)

/-- A command word's length as R181 gives it: the operand words of a frame. -/
abbrev rightCount (c : Command) (n : Nat) : Prop := c.count = c.ops.length ∧ c.ops.length = n

end Sys2Proof.Machine
end

