-- ==== Sys2Proof/Certificates/Slice0/Obligations.lean ====
section
/-! DEFINITION. The statements of this row, one Prop each. Where a clause rests on a choice of the model and not of the spec, the
docstring names the log entry. -/

open Sys2Proof Sys2Proof.Machine

/-! ### The step, and the invariants of the part -/

/-- A step with a command at the front of the queue is that command on the rest of the queue; with an empty queue the block
idles (the model's choice, log 1). -/
def Obligations.StepRunsFrontCommand : Prop :=
  (∀ (c : Instr) (rest : List Instr) (s : State),
    step { s with pending := c :: rest } = exec c { s with pending := rest }) ∧
  ∀ s : State, s.pending = [] → step s = .next s

/-- Every command that the part's surroundings can deliver completes and leaves the waiting commands alone; a scan packet that
no physical layer delivers stops the model (log 31). -/
def Obligations.EveryDeliverableCommandCompletes : Prop :=
  ∀ (c : Instr) (s : State),
    (c.wellFormed = true → ∃ t, exec c s = .next t ∧ t.pending = s.pending) ∧
    (c.wellFormed = false → exec c s = .fault .illFormedPacket)

/-- R144: bank states and part state stay lawful. -/
def Obligations.BankStatesStayLawful : Prop := Kept BanksLawful

/-- R130: the lanes' laws are kept by every step. With them the effective tier, min(max(own, floor), max limit), lies between own
tier and max limit, and is the max limit where the floor lies above it. The floor is T0, or under the alert the Fa that the face
loaded last: the model keeps a copy of it (log 27). -/
def Obligations.LaneTiersStayWithinLimits : Prop :=
  Kept TiersLawful ∧
  ∀ s : State, TiersLawful s → ∀ (f : FaceId) (j : Nat),
    ((s.dev.face f).tier.lane j).minLimit ≤ ((s.dev.face f).tier.lane j).own ∧
    ((s.dev.face f).tier.lane j).own ≤ (s.dev.face f).tier.effective j ∧
    (s.dev.face f).tier.effective j ≤ ((s.dev.face f).tier.lane j).maxLimit ∧
    (((s.dev.face f).tier.lane j).maxLimit < (s.dev.face f).tier.floor →
      (s.dev.face f).tier.effective j = ((s.dev.face f).tier.lane j).maxLimit) ∧
    (s.dev.face f).tier.effective j = min (max ((s.dev.face f).tier.lane j).own
      (if (s.dev.face f).tier.alert then (s.dev.face f).tier.fa else 0)) ((s.dev.face f).tier.lane j).maxLimit

/-- R38, R99: every ref of every column lies within 0..65520 and every streak accumulator within its bound, in every state a step
leads to. -/
def Obligations.BaselinesAndAccumulatorsStayBounded : Prop :=
  (Kept BaselinesBounded ∧
    ∀ s : State, BaselinesBounded s → ∀ (f : FaceId) (c : Nat), ((s.dev.face f).pixel.col c).ref ≤ 65520) ∧
  Kept AccumulatorsBounded ∧
  ∀ s : State, AccumulatorsBounded s → ∀ (f : FaceId) (c : Nat),
    -134217727 ≤ ((s.dev.face f).streak.col c).acc ∧ ((s.dev.face f).streak.col c).acc ≤ 134217727

/-- R20: no column comes to belong to two enabled ports of its face. -/
def Obligations.ColumnsStayDisjoint : Prop := Kept ColumnsDisjoint

/-- The queues and lists of the part stay within their capacities. The stores of both faces (by column, blob slot, streak slot and
lane) stay in the canonical form in which the model writes them (log 16), and the expected set of every open slot lists each port
once. Of these invariants it follows that a face has at most 256 open blobs (R79) and 64 open streaks (R106), and that at most
eight excerpt buffers are held (R94). -/
def Obligations.CapacitiesStayKept : Prop :=
  Kept CapacitiesHold ∧ Kept TablesCanonical ∧
  ∀ s : State,
    (TablesCanonical s → ∀ f, (s.dev.face f).blob.openCount ≤ 256 ∧ (s.dev.face f).streak.openCount ≤ 64) ∧
    (CapacitiesHold s → (occupied s.dev.insp.out.buffers).length ≤ 8)

/-- The invariants hold after power-on reset. -/
def Obligations.InvariantsHoldAfterReset : Prop :=
  BanksLawful State.reset ∧ TiersLawful State.reset ∧ BaselinesBounded State.reset ∧ AccumulatorsBounded State.reset ∧
    ColumnsDisjoint State.reset ∧ CapacitiesHold State.reset ∧ TablesCanonical State.reset

/-! ### Resets -/

/-- R16: what power-on reset and pin reset make of the Motion Unit; the encoder levels at the end of the reset give no count. -/
def Obligations.PowerOnAndPinResetSetMotionUnit : Prop :=
  ∀ (a b : Bool) (i : Instr) (s : State), i = .powerOnReset a b ∨ i = .pinReset a b →
    ∃ t, exec i s = .next t ∧ t.pending = s.pending ∧
      t.dev.base.motion = {
        encA := a, encB := b, p := 0, h := 0, state := .still, window := 0, speed := 0, rewound := false,
        period := 10, encFaults := 0,
        setup := { e := 0, n := 1, d := 0, die := 0, vmin := 0, backlash := 500, reverse := 5000, window := 10 } } ∧
      (∀ f, (t.dev.face f).grid = { index := 0, next := 0, last := none, trigger := none, overruns := 0, creep := 0 }) ∧
      exec (.encoderCount a b) t = .next t

/-- What every reset makes of the blocks of a face (R53 whole; R36, R73, R97, R115, R141 in part), and of the pending list, the
marks list, the banks and the executor (R73, R127, R156, R177, R179). The learn length is the model's choice (log 15). That what
one block has handed to another is discarded too (lines at the Pixel Chain, records at the Blob Builder and the Streak Tracker,
candidates and expiry tests at the correlator, counted events at the Tier Controller) is the model's choice (log 44). -/
def Obligations.ResetsClearEveryBlock : Prop :=
  ∀ (i : Instr) (s : State), IsReset i s → ∃ t, exec i s = .next t ∧ t.pending = s.pending ∧
    (∀ f, (t.dev.face f).pixel = {
      cols := [], phase := .idle, learnLines := 0, learnLength := 0, reservation := none,
      lastClip := 0, clipped := 0, processed := 0, lastPos := none }) ∧
    (∀ f c, ((t.dev.face f).pixel.col c).ref = 0 ∧ ((t.dev.face f).pixel.col c).learned = false ∧
      ((t.dev.face f).pixel.col c).sum = 0 ∧ ((t.dev.face f).pixel.col c).count = 0) ∧
    (∀ f, (t.dev.face f).asm.slots = [] ∧ (t.dev.face f).asm.handed = [] ∧ (t.dev.face f).asm.forced = 0 ∧
      (t.dev.face f).asm.abandoned = 0) ∧
    (∀ f, (t.dev.face f).pattern = {
      state := none, edge := none, misses := 0, seek := none, lastZone := none, consumed := 0,
      early := 0, missTotal := 0, lost := 0 }) ∧
    (∀ f, (t.dev.face f).blob = {
      open_ := [], saturated := false, ring := [], lastLine := none, dropped := 0,
      discarded := 0, merges := 0, closed := 0, skipped := 0, satEntries := 0, inbox := [] }) ∧
    (∀ f, (t.dev.face f).streak = {
      cols := [], open_ := [], saturated := false, last := none, opened := 0, closed := 0,
      merges := 0, held := 0, satEntries := 0, inbox := [] }) ∧
    (∀ f j, (t.dev.face f).tier.lane j = { buckets := [], own := 0, minLimit := 0, maxLimit := 3, lastChange := none } ∧
      (t.dev.face f).tier.effective j = 0) ∧
    (∀ f, (t.dev.face f).tier.current = 0 ∧ (t.dev.face f).tier.alert = false ∧ (t.dev.face f).tier.next = none ∧
      (t.dev.face f).tier.lastPos = none ∧ (t.dev.face f).tier.lastLine = none ∧ (t.dev.face f).tier.blobEvents = [] ∧
      (t.dev.face f).tier.streakEvents = [] ∧ (t.dev.face f).tier.escalations = 0 ∧ (t.dev.face f).tier.relaxations = 0 ∧
      (t.dev.face f).tier.alerts = 0) ∧
    t.dev.insp.marks = { list := [], lastAccepted := none, accepted := 0, repeated := 0, dropped := 0 } ∧
    t.dev.insp.corr = {
      list := [], leadWork := [], trailWork := [], matchCount := 0, trailOnly := 0, expired := 0,
      evicted := 0, stopped := 0, highWater := 0 } ∧
    t.dev.base.banks = {
      running := false, bank0 := { state := .vacant, contents := Contents.empty, compiled := none },
      bank1 := { state := .vacant, contents := Contents.empty, compiled := none }, switchPos := none, checkTag := none } ∧
    t.dev.base.exec.queue = [] ∧ t.dev.base.exec.executed = 0 ∧ t.dev.base.exec.busy = 0 ∧ t.dev.base.exec.discarded = 0

/-- What distinguishes the resets: placements, geometry, flat-field tables, lock, preview settings and link after a power-on or
pin reset (R35, R164, R167); what a command reset keeps (R17, R36, R167, R177); the retained words (R176). A frame in transmission is
cut off at a power-on or pin reset; at a command reset it goes out whole, its record withdrawn (R96), and the START report, pending,
follows it, or goes out at once where none is in transmission and the link is UP (R166, R167). That the completion of a frame
going out whole frees no buffer and ends no START report's pending (log 36), and that a command reset discards the records waiting
at the preview path, as every reset does (log 44), is the model's choice. -/
def Obligations.ResetsKeepWhatTheRulesName : Prop :=
  (∀ (a b : Bool) (i : Instr) (s : State), i = .powerOnReset a b ∨ i = .pinReset a b → ∃ t, exec i s = .next t ∧
    (∀ p, t.dev.base.port p = {
      place := {
      enabled := false, face := .lead, first := 0, last := 0, origin := 0,
      descending := false }, head := .off, missing := 0, flat := [],
      counts := {
        stray := 0, errors := 0, short := 0, long := 0, truncated := 0, late := 0, duplicate := 0,
        missingLines := 0 } }) ∧
    (∀ f c, t.dev.base.dark f c = true) ∧ t.dev.base.sens.locked = false ∧
    (∀ f, (t.dev.face f).asm.geometry = { origin := 0, pitch := 1000, mirrored := false } ∧
      (t.dev.face f).preview = { decimation := 0, binning := 1, counter := 0, replaced := 0, inbox := [] }) ∧
    t.dev.insp.out.linkUp = false ∧ t.dev.insp.out.tx = none ∧
    ∀ k, t.dev.base.exec.retainedWord k = if i = .powerOnReset a b then 0 else s.dev.base.exec.retainedWord k) ∧
  ∀ (c : Command) (rest : List Command) (s : State), ResetHeads c rest s → ∃ t, exec .reset s = .next t ∧
    (∃ m : Motion, m = s.dev.base.motion ∧ t.dev.base.motion = { m with
      p := 0, h := 0, state := .still, window := 0, speed := 0, rewound := false, period := m.setup.window, encFaults := 0 }) ∧
    (∀ f, (t.dev.face f).grid = {
      index := 0, next := 0, last := none, trigger := (s.dev.face f).grid.trigger, overruns := 0,
      creep := 0 } ∧ (t.dev.face f).asm.geometry = (s.dev.face f).asm.geometry ∧
      (t.dev.face f).preview = {
        decimation := (s.dev.face f).preview.decimation, binning := (s.dev.face f).preview.binning,
        counter := 0, replaced := 0, inbox := [] }) ∧
    (ColumnsDisjoint s → ∀ n, ∃ p : Port, p = s.dev.base.port n ∧ t.dev.base.port n = { p with
      head := if p.place.enabled then .active else .off, missing := 0,
      counts := {
        stray := 0, errors := 0, short := 0, long := 0, truncated := 0, late := 0, duplicate := 0,
        missingLines := 0 } }) ∧
    t.dev.base.sens.locked = s.dev.base.sens.locked ∧ t.dev.insp.out.linkUp = s.dev.insp.out.linkUp ∧
    (∀ x, s.dev.insp.out.tx = some x → t.dev.insp.out.tx = some { x with report := x.report.withdraw, live := false }) ∧
    (s.dev.insp.out.tx = none → s.dev.insp.out.linkUp = false → t.dev.insp.out.tx = none) ∧
    (∀ report : Report, s.dev.insp.out.tx = none → s.dev.insp.out.linkUp = true →
      report = .start t.dev.insp.out.cause t.dev.insp.out.tag t.dev.insp.out.kept →
      t.dev.insp.out.tx = some { queue := none, report := report, words := frameWords [] report 0, live := true }) ∧
    t.dev.base.exec.retained = s.dev.base.exec.retained

/-- R178: the cause, tag and retained-word flag that each reset records, and the START report pending; every queue is empty
with its losses 0 (R167). -/
def Obligations.ResetsRecordTheirCause : Prop :=
  ∀ (i : Instr) (s : State), IsReset i s → ∃ t, exec i s = .next t ∧
    t.dev.insp.out.startPending = true ∧
    (∀ q, t.dev.insp.out.queue q = { entries := [], pendingLoss := 0, totalLost := 0 }) ∧
    t.dev.insp.out.buffers = [] ∧ t.dev.insp.out.framesSent = 0 ∧ t.dev.insp.out.inboundErrors = 0 ∧
    t.dev.insp.out.linkDowns = 0 ∧ t.dev.insp.out.toggle = .lead ∧
    ((∃ a b, i = .powerOnReset a b) →
      t.dev.insp.out.cause = .power ∧ t.dev.insp.out.tag = none ∧ t.dev.insp.out.kept = false) ∧
    ((∃ a b, i = .pinReset a b) →
      t.dev.insp.out.cause = (if s.dev.insp.out.startPending = true ∧ s.dev.insp.out.cause = .power then .power else .pin) ∧
      t.dev.insp.out.tag = none ∧
      t.dev.insp.out.kept = (if s.dev.insp.out.startPending then s.dev.insp.out.kept else true)) ∧
    (∀ c rest, i = .reset → s.dev.base.exec.queue = c :: rest →
      t.dev.insp.out.cause = (if s.dev.insp.out.startPending then s.dev.insp.out.cause else .command) ∧
      t.dev.insp.out.tag = (if t.dev.insp.out.cause = .command then some c.tag else none) ∧
      t.dev.insp.out.kept = (if s.dev.insp.out.startPending then s.dev.insp.out.kept else true))
/-! ### The Motion Unit -/

/-- R1: a change of both lines, and a count that would carry P out of its range, is an encoder fault and nothing else; the new
pair is the reference of the next change. A pair equal to the old one is no event (the model's choice, log 4). -/
def Obligations.EncoderFaultIsOnlyCounted : Prop :=
  (∀ (a b : Bool) (s : State), a ≠ s.dev.base.motion.encA → b ≠ s.dev.base.motion.encB →
    exec (.encoderCount a b) s = .next { s with
      dev := s.dev.onMotion fun m =>
      { m with encA := a, encB := b, encFaults := min (m.encFaults + 1) 65535 } }) ∧
  (∀ (a b : Bool) (s : State), Forward s.levels (a, b) → 2 ^ 47 - 1 < s.dev.base.motion.p + s.dev.base.motion.setup.e →
    exec (.encoderCount a b) s = .next { s with
      dev := s.dev.onMotion fun m =>
      { m with encA := a, encB := b, encFaults := min (m.encFaults + 1) 65535 } }) ∧
  (∀ (a b : Bool) (s : State), Forward (a, b) s.levels → s.dev.base.motion.p - s.dev.base.motion.setup.e < -(2 ^ 47 - 1) →
    exec (.encoderCount a b) s = .next { s with
      dev := s.dev.onMotion fun m =>
      { m with encA := a, encB := b, encFaults := min (m.encFaults + 1) 65535 } }) ∧
  ∀ s : State, exec (.encoderCount s.dev.base.motion.encA s.dev.base.motion.encB) s = .next s

/-- R2, R5: a forward count within the range of P. At or below H it moves P and the window distance alone. Above H it also
raises H to P, and then a face whose E is non-zero and whose position is at or above its next boundary issues one line: its
index rises by one modulo 2^32, its boundary by one pitch; a trigger word is sent unless one is in progress, which is counted
(R7); a line issued outside MOVING adds its pitch to the creep length (R11, counted at the issue: log 19). Beside this only
assembly slots, head accounting and reports change. -/
def Obligations.ForwardCountMovesWebAndIssuesLines : Prop :=
  ∀ (a b : Bool) (s : State) (m : Motion), m = s.dev.base.motion → Forward s.levels (a, b) →
    -(2 ^ 47 - 1) ≤ m.p + m.setup.e → m.p + m.setup.e ≤ 2 ^ 47 - 1 →
    (m.p + m.setup.e ≤ m.h → exec (.encoderCount a b) s = .next { s with
      dev := s.dev.onMotion fun m =>
      { m with encA := a, encB := b, p := m.p + m.setup.e, window := min (m.window + m.setup.e) (2 ^ 47 - 1) } }) ∧
    (m.h < m.p + m.setup.e → ∃ t, exec (.encoderCount a b) s = .next t ∧
      t.dev.base.motion = { m with
        encA := a, encB := b, p := m.p + m.setup.e, window := min (m.window + m.setup.e) (2 ^ 47 - 1),
        h := m.p + m.setup.e } ∧
      (∀ f, ∃ g : Grid, g = (s.dev.face f).grid ∧ (t.dev.face f).grid =
        if m.setup.e ≠ 0 ∧ g.next ≤ (match f with
            | .lead => m.p + m.setup.e
            | .trail => m.p + m.setup.e - m.setup.d * 1024) then
          {
            index := g.index + 1, next := g.next + m.setup.n * m.setup.e, last := some g.next,
            trigger := (match g.trigger with
              | some w => some w
              | none => some (BitVec.ofNat 16 g.index.toNat)),
            overruns := if g.trigger.isSome then min (g.overruns + 1) 65535 else g.overruns,
            creep := if m.state = .moving then g.creep else min (g.creep + m.setup.n * m.setup.e) (2 ^ 47 - 1) }
        else g) ∧
      OnlyChanges [.motion, .sens, .free, .grid .lead, .grid .trail, .asm .lead, .asm .trail, .out] s t)

/-- R5, R6, R27, R29, R30, R31: the slots of the lines that a forward count issues, on neither face, on one or on both; on both, which
face comes first is left open (log 8), and the second finds what the first has left. A face that issues no line keeps its slots, and
changes no port and no report. One that does opens a slot with index, position, pitch and class of the line, expecting the ACTIVE
ports. With four slots open the oldest is first forced complete, counted and handed on, and its expected ports are accounted: on an
inspection line a port that delivered has its missing count 0; any other is counted missing, and at 16 falls SILENT, is reported, and
is no longer expected, unless its packet was taken; these reports go out in ascending port number (log 30). Then the complete slots
at the front leave, in line order, each accounted, down to the oldest incomplete one: slots that waited behind a line forced or for a
head fallen SILENT alone, and the new line itself when nothing is open before it and no port is ACTIVE. -/
def Obligations.IssuedLineTakesItsSlot : Prop :=
  ∀ (a b : Bool) (s : State) (m : Motion) (position : FaceId → Int) (turn : FaceId → Dev → Dev → Prop),
    m = s.dev.base.motion → Forward s.levels (a, b) → m.p + m.setup.e ≤ 2 ^ 47 - 1 → -(2 ^ 47 - 1) ≤ m.p + m.setup.e →
    m.h < m.p + m.setup.e → position .lead = m.p + m.setup.e → position .trail = m.p + m.setup.e - m.setup.d * 1024 →
    (∀ f d d' g, g = (s.dev.face f).grid → (turn f d d' ↔
      (d'.face (otherFace f)).asm = (d.face (otherFace f)).asm ∧
      (m.setup.e ≠ 0 → g.next ≤ position f → SlotOpened f {
        index := g.index, pos := g.next, pitch := m.setup.n * m.setup.e,
        cls := if m.state = .moving then .inspection else .creep } d d') ∧
      (m.setup.e = 0 ∨ position f < g.next →
        (d'.face f).asm = (d.face f).asm ∧ (∀ p, d'.base.port p = d.base.port p) ∧ d'.insp.out = d.insp.out))) →
    ∃ (t : State) (first : FaceId) (d : Dev), exec (.encoderCount a b) s = .next t ∧ turn first s.dev d ∧
      turn (otherFace first) d t.dev ∧ (∀ f, (d.face f).pattern = (s.dev.face f).pattern) ∧
      t.dev.base.sens.locked = s.dev.base.sens.locked

/-- R3, R9: a backward count within the range of P that raises no REWOUND. It moves P alone; from another state than BACKING,
with the web behind H by more than the backlash tolerance, it also enters BACKING, begins an episode and offers the motion
status report with the speed of the last expiry. -/
def Obligations.BackwardCountMovesWebAndEntersBacking : Prop :=
  ∀ (a b : Bool) (s : State) (m : Motion), m = s.dev.base.motion → Forward (a, b) s.levels →
    -(2 ^ 47 - 1) ≤ m.p - m.setup.e → m.p - m.setup.e ≤ 2 ^ 47 - 1 →
    ((m.state = .backing ∨ m.h - (m.p - m.setup.e) ≤ 1024 * m.setup.backlash) →
      (m.state ≠ .backing ∨ m.rewound = true ∨ m.h - (m.p - m.setup.e) ≤ 1024 * m.setup.reverse) →
      exec (.encoderCount a b) s = .next { s with
        dev := s.dev.onMotion fun m =>
        { m with encA := a, encB := b, p := m.p - m.setup.e } }) ∧
    (m.state ≠ .backing → 1024 * m.setup.backlash < m.h - (m.p - m.setup.e) →
      m.h - (m.p - m.setup.e) ≤ 1024 * m.setup.reverse →
      exec (.encoderCount a b) s = .next { s with
        dev :=
        (s.dev.onMotion fun m => { m with
          encA := a, encB := b, p := m.p - m.setup.e, state := .backing, rewound := false }).offerStatus none
          (.motion m.state .backing (m.h / 10240) m.speed) })

/-- R3, R9, R10, R51, R84, R86, R113: a backward count past the reverse limit, in a backing episode that has not raised it, raises
REWOUND. Entering BACKING is reported first, then REWOUND with H and P in position units; then, with no record waiting at a block,
each face takes its turn, in an order left open (log 8): its open blobs close with reason MOTION, as of its last inspection line, a
saturated face is tested (log 39), its open streaks close with reason MOTION, its reservation clears, and a face that is not IDLE
begins a learning phase. That the closes of blobs come before those of streaks is log 30. Grids, H and the pending list are kept, and
lines in the slots or handed to the Pixel Chain stay for the new learning phase (log 55). A
forced close empties the table and sends every open blob on in close order; the streaks of a face close at its last handled line,
oldest first, none surviving, and every column is QUIET after it, its accumulator kept; a learning phase begins with every sum and
count 0, refs and learned flags kept (with the column tables in their canonical form: log 16). -/
def Obligations.RewoundRestartsFaces : Prop :=
  ∀ (a b : Bool) (s : State) (m : Motion), m = s.dev.base.motion → Forward (a, b) s.levels →
    -(2 ^ 47 - 1) ≤ m.p - m.setup.e → m.p - m.setup.e ≤ 2 ^ 47 - 1 →
    (m.state = .backing ∧ m.rewound = false ∨ m.state ≠ .backing ∧ 1024 * m.setup.backlash < m.h - (m.p - m.setup.e)) →
    1024 * m.setup.reverse < m.h - (m.p - m.setup.e) →
    (∀ f, (s.dev.face f).blob.inbox = [] ∧ (s.dev.face f).streak.inbox = []) →
    ∃ t, exec (.encoderCount a b) s = .next t ∧
      t.dev.base.motion = { m with encA := a, encB := b, p := m.p - m.setup.e, state := .backing, rewound := true } ∧
      (∀ (i : Insp) (turn : FaceId → Insp → Insp),
        i = (if m.state = .backing then s.dev.insp
          else s.dev.insp.offerStatus none (.motion m.state .backing (m.h / 10240) m.speed)).offerStatus none
            (.rewound (m.h / 10240) ((m.p - m.setup.e) / 10240)) →
        (∀ f i j k, j = closeAllBlobs t.dev.base f .motion (i.face f).tier.lastInspection i →
          k = (closeAllStreaks t.dev.base f .motion (testSaturation f (j.face f).blob.lastLine j)).onFace f
            (fun x => { x with pixel := { x.pixel with reservation := none } }) →
          turn f i = if (k.face f).pixel.phase = .idle then k else enterLearning t.dev.base f k) →
        t.dev.insp = turn .trail (turn .lead i) ∨ t.dev.insp = turn .lead (turn .trail i)) ∧
      (∀ f, (t.dev.face f).blob.openCount = 0 ∧ (t.dev.face f).streak.openCount = 0 ∧
        (t.dev.face f).pixel.reservation = none ∧
        (t.dev.face f).pixel.phase = (if (s.dev.face f).pixel.phase = .idle then .idle else .learning) ∧
        ((s.dev.face f).pixel.phase ≠ .idle → (t.dev.face f).pixel.learnLines = 0 ∧
          (t.dev.face f).pixel.learnLength = (s.dev.base.banks.contents f).detection.learnLength) ∧
        (t.dev.face f).grid = (s.dev.face f).grid) ∧
      t.dev.insp.corr.list = s.dev.insp.corr.list ∧
      OnlyChanges [.motion, .free, .corr, .out, .pixel .lead, .blob .lead, .streak .lead, .tier .lead, .pixel .trail,
        .blob .trail, .streak .trail, .tier .trail] s t ∧
      -- the forced closes
      (∀ (b : Base) (f : FaceId) (reason : TruncReason) (line : Option (Word × Int)) (i : Insp) (n : Word) (l : List (Nat × Blob)),
        n = (match line with
          | some e => e.1
          | none => (i.face f).blob.lastLine.getD 0) → l = orderBy (closesBefore n) (occupied (i.face f).blob.open_) →
        l.Perm (occupied (i.face f).blob.open_) ∧ l.Pairwise (fun a c => closesBefore n c a = false) ∧
        closeAllBlobs b f reason line i = l.foldl (sendBlob b f reason line)
          (i.onFace f fun x => { x with blob := { x.blob with open_ := [] } })) ∧
      (∀ (b : Base) (f : FaceId) (reason : StreakReason) (i : Insp) (x : Streaks) (l : List (Nat × Streak)), x = i.streaks f →
        l = orderBy older (occupied x.open_) →
        l.Perm (occupied x.open_) ∧
        l.Pairwise (fun a c => a.2.start < c.2.start ∨ a.2.start = c.2.start ∧ a.1 ≤ c.1) ∧
        closeAllStreaks b f reason i =
          (l.foldl (fun i e => closeStreak b f reason none x.last e.1 e.2 i) i).onStreaks f Streaks.quietAll) ∧
      (∀ x : Streaks, x.quietAll = { x with cols := x.quietAll.cols } ∧
        (twf (StreakColumn.quiet 0) x.cols = true → ∀ c, x.quietAll.col c = StreakColumn.quiet (x.col c).acc)) ∧
      -- a learning phase begins
      ∀ (b : Base) (f : FaceId) (i : Insp) (x : Pixel), x = (i.face f).pixel → ∃ cols,
        enterLearning b f i = i.onFace f (fun y => { y with pixel := { x with
          cols := cols, phase := .learning, learnLines := 0,
          learnLength := (b.banks.contents f).detection.learnLength } }) ∧
        (twf PixelColumn.fresh x.cols = true →
          ∀ c, tget PixelColumn.fresh cols c = { x.col c with sum := 0, count := 0 })

/-- R7, R8: the two timed events. The end of a trigger word clears trigger-word busy of its face. A speed window expiry finds
the state from the window just closed, by the first case that applies, sets the measured speed, ends a backing episode on leaving
BACKING, sets the window distance to 0 and the period of the next window. The period w of the cases and of the speed is that of
the window just closed (the model's reading, log 18). A changed state is reported (R9). -/
def Obligations.TimedMotionEventsTakeEffect : Prop :=
  (∀ (f : FaceId) (s : State), ∃ t, exec (.triggerWordEnd f) s = .next t ∧
    (t.dev.face f).grid = { (s.dev.face f).grid with trigger := none } ∧ OnlyChanges [.grid f] s t) ∧
  ∀ (s : State) (m m' : Motion) (new : MotionState), m = s.dev.base.motion →
    new = (if 1024 * m.setup.backlash < m.h - m.p then .backing
      else if m.window = 0 then .still
      else if 3 * m.window < 51200 * m.setup.vmin * m.period then .creep
      else .moving) →
    m' = { m with
      state := new, speed := min (3000 * m.window / (51200 * m.period)) 1000000,
      rewound := if new = .backing then m.rewound else false, window := 0, period := m.setup.window } →
    exec .speedWindowExpiry s = .next { s with
      dev :=
      if m.state = new then s.dev.onMotion fun _ => m'
      else (s.dev.onMotion fun _ => m').offerStatus none (.motion m.state new (m.h / 10240) m'.speed) }/-! ### Line setup (R12 to R15) -/

/-- R12 to R14: LINE_SETUP: the STATE tests, the unknown item, the range tests of E and D, and the items that do not touch the
grid: a write that is taken stores its value, replies DONE and changes nothing else. -/
def Obligations.LineSetupStoresItem : Prop :=
  ∀ (c : Command) (rest : List Command) (s : State) (l : LineSetup) (d : Dev), Ready .lineSetup c rest s →
    l = s.dev.base.motion.setup → d = s.dev.takeCommand rest →
    ((s.dev.base.banks.running = true ∨ s.dev.base.banks.bank0.state = .checking ∨
        s.dev.base.banks.bank1.state = .checking) →
      exec .lineSetup s = .next (answered s c d .state [])) ∧
    (s.dev.base.banks.running = false → s.dev.base.banks.bank0.state ≠ .checking →
      s.dev.base.banks.bank1.state ≠ .checking →
      (7 < c.nat 0 → exec .lineSetup s = .next (answered s c d .range [])) ∧
      (c.nat 0 = 0 → (c.nat 1 = 0 ∨ 1048575 < c.nat 1) → exec .lineSetup s = .next (answered s c d .range [])) ∧
      (c.nat 0 = 2 → 20000000 < c.nat 1 → exec .lineSetup s = .next (answered s c d .range [])) ∧
      (c.nat 0 = 3 → exec .lineSetup s = .next (if c.nat 1 ≤ 30000000 then
        answered s c (d.onMotion fun m => { m with setup := { l with die := c.nat 1 } }) .done []
        else answered s c d .range [])) ∧
      (c.nat 0 = 4 → exec .lineSetup s = .next (if c.nat 1 ≤ 200 then
        answered s c (d.onMotion fun m => { m with setup := { l with vmin := c.nat 1 } }) .done []
        else answered s c d .range [])) ∧
      (c.nat 0 = 5 → exec .lineSetup s = .next (if c.nat 1 ≤ 100000 ∧ c.nat 1 ≤ l.reverse then
        answered s c (d.onMotion fun m => { m with setup := { l with backlash := c.nat 1 } }) .done []
        else answered s c d .range [])) ∧
      (c.nat 0 = 6 → exec .lineSetup s = .next (if c.nat 1 ≤ 10000000 ∧ l.backlash ≤ c.nat 1 then
        answered s c (d.onMotion fun m => { m with setup := { l with reverse := c.nat 1 } }) .done []
        else answered s c d .range [])) ∧
      (c.nat 0 = 7 → exec .lineSetup s = .next (if 1 ≤ c.nat 1 ∧ c.nat 1 ≤ 100 then
        answered s c (d.onMotion fun m => { m with setup := { l with window := c.nat 1 } }) .done []
        else answered s c d .range [])))

/-- R12, R13, R15: LINE_SETUP of E, N and D in STANDBY with no bank CHECKING. N is clamped, and E and N
either must leave a pitch N × E of 1,024..2,048,000 while E is non-zero. What is taken is stored, and each face's next boundary
becomes the smallest multiple of the new pitch at or above the face's position and 0, and above its last line position; the
indices and all else stay. -/
def Obligations.GridWriteRebasesFaces : Prop :=
  ∀ (c : Command) (rest : List Command) (s : State) (l l' : LineSetup) (v n : Nat), Ready .lineSetup c rest s →
    l = s.dev.base.motion.setup → v = c.nat 1 → n = max 1 (min v 4096) → s.dev.base.banks.running = false →
    s.dev.base.banks.bank0.state ≠ .checking → s.dev.base.banks.bank1.state ≠ .checking →
    (c.nat 0 = 0 ∧ l' = { l with e := v } ∧ 1 ≤ v ∧ v ≤ 1048575 ∨ c.nat 0 = 1 ∧ l' = { l with n := n } ∨
      c.nat 0 = 2 ∧ l' = { l with d := v } ∧ v ≤ 20000000) →
    (c.nat 0 ≠ 2 → l'.e ≠ 0 → (l'.n * l'.e < 1024 ∨ 2048000 < l'.n * l'.e) →
      exec .lineSetup s = .next (answered s c (s.dev.takeCommand rest) .range [])) ∧
    ((c.nat 0 = 2 ∨ l'.e = 0 ∨ 1024 ≤ l'.n * l'.e ∧ l'.n * l'.e ≤ 2048000) →
      ∃ d : Dev, exec .lineSetup s = .next (answered s c d (if c.nat 0 = 1 ∧ n ≠ v then .clamped else .done) []) ∧
        d.base.motion = { s.dev.base.motion with setup := l' } ∧
        Touches [.motion, .exec, .grid .lead, .grid .trail] s.dev d ∧
        d.base.exec = (s.dev.takeCommand rest).base.exec ∧
        ∀ f, (∃ x : Int, (d.face f).grid = { (s.dev.face f).grid with next := x }) ∧
          (l'.n * l'.e = 0 → (d.face f).grid.next = 0) ∧
          (0 < l'.n * l'.e →
            ((l'.n * l'.e : Nat) : Int) ∣ (d.face f).grid.next ∧ 0 ≤ (d.face f).grid.next ∧
            d.base.facePos f ≤ (d.face f).grid.next ∧
            (∀ p ∈ (s.dev.face f).grid.last, p < (d.face f).grid.next) ∧
            ∀ x : Int, ((l'.n * l'.e : Nat) : Int) ∣ x → 0 ≤ x → d.base.facePos f ≤ x →
              (∀ p ∈ (s.dev.face f).grid.last, p < x) → (d.face f).grid.next ≤ x))

/-! ### Sensor ports and Line Assemblers -/

/-- R19, R21, R33: PLACEMENT_WRITE. The tests in order; a refused write changes nothing but the executor and the reply queue. A
placement in range with a used column of another enabled port of its face is refused with OVERLAP. Otherwise it is stored, the
port's missing count is 0 and its head ACTIVE or OFF; the slots of the faces the port was and is bound to are emptied and counted
as abandoned; no other port and no other face's slots change. A change of the head state is reported with cause PLACEMENT (R33): the
face is the one bound after the write, or none, the line the next index of the face bound after it, or else before it; without a
change nothing is reported. The report comes before the reply (log 52). -/
def Obligations.PlacementWriteBindsPort : Prop :=
  (∀ (c : Command) (rest : List Command) (s : State) (d : Dev), Ready .placementWrite c rest s → d = s.dev.takeCommand rest →
    ((s.dev.base.banks.running = true ∨ s.dev.base.banks.bank0.state = .checking ∨ s.dev.base.banks.bank1.state = .checking) →
      exec .placementWrite s = .next (answered s c d .state [])) ∧
    (s.dev.base.banks.running = false → s.dev.base.banks.bank0.state ≠ .checking → s.dev.base.banks.bank1.state ≠ .checking →
      (s.dev.base.sens.locked = true → exec .placementWrite s = .next (answered s c d .locked [])) ∧
      (s.dev.base.sens.locked = false →
        (3 < c.nat 0 ∨ 1 < c.nat 1 ∨ 1 < c.nat 2 ∨ 1 < c.nat 6 ∨ c.nat 4 < c.nat 3 ∨ 4095 < c.nat 4 ∨ 8191 < c.nat 5 ∨
          c.nat 6 = 0 ∧ 8191 < c.nat 5 + (c.nat 4 - c.nat 3) ∨ c.nat 6 = 1 ∧ c.nat 5 < c.nat 4 - c.nat 3) →
        exec .placementWrite s = .next (answered s c d .range [])))) ∧
  ∀ (c : Command) (rest : List Command) (s : State) (p : Placement) (d : Dev), Ready .placementWrite c rest s →
    d = s.dev.takeCommand rest → s.dev.base.banks.running = false → s.dev.base.banks.bank0.state ≠ .checking →
    s.dev.base.banks.bank1.state ≠ .checking → s.dev.base.sens.locked = false → c.nat 0 ≤ 3 →
    c.nat 1 = (if p.enabled then 1 else 0) → c.nat 2 = (match p.face with | .lead => 0 | .trail => 1) → c.nat 3 = p.first →
    c.nat 4 = p.last → c.nat 5 = p.origin → c.nat 6 = (if p.descending then 1 else 0) → p.first ≤ p.last → p.last ≤ 4095 →
    p.origin ≤ 8191 →
    (if p.descending then p.last - p.first ≤ p.origin else p.origin + (p.last - p.first) ≤ 8191) →
    ((p.enabled = true ∧ ∃ m ∈ [0, 1, 2, 3], m ≠ c.nat 0 ∧ (s.dev.base.port m).place.enabled = true ∧
        (s.dev.base.port m).place.face = p.face ∧ ∃ col : Nat,
          (usedColumns p.first p.last p.origin p.descending).1 ≤ col ∧ col ≤ (usedColumns p.first p.last p.origin p.descending).2 ∧
          (s.dev.base.port m).place.span.1 ≤ col ∧ col ≤ (s.dev.base.port m).place.span.2) →
      exec .placementWrite s = .next (answered s c d .overlap [])) ∧
    ((p.enabled = false ∨ ∀ m ∈ [0, 1, 2, 3], m ≠ c.nat 0 → (s.dev.base.port m).place.enabled = true →
        (s.dev.base.port m).place.face = p.face → ∀ col : Nat,
          (usedColumns p.first p.last p.origin p.descending).1 ≤ col → col ≤ (usedColumns p.first p.last p.origin p.descending).2 →
          (s.dev.base.port m).place.span.1 ≤ col → col ≤ (s.dev.base.port m).place.span.2 → False) →
      ∃ d', exec .placementWrite s = .next (answered s c d' .done []) ∧
        d'.base.port (c.nat 0) = {
          place := p, head := if p.enabled then .active else .off, missing := 0,
          flat := (s.dev.base.port (c.nat 0)).flat, counts := (s.dev.base.port (c.nat 0)).counts } ∧
        (∀ m, m ≠ c.nat 0 → d'.base.port m = s.dev.base.port m) ∧
        (∀ f, (d'.face f).asm =
          if p.enabled = true ∧ p.face = f ∨
              (s.dev.base.port (c.nat 0)).place.enabled = true ∧ (s.dev.base.port (c.nat 0)).place.face = f then
            { (s.dev.face f).asm with
              slots := [], abandoned := min ((s.dev.face f).asm.abandoned + (s.dev.face f).asm.slots.length) 4294967295 }
          else (s.dev.face f).asm) ∧
        d'.base.exec = d.base.exec ∧ d'.base.sens.locked = false ∧
        Touches [.sens, .exec, .asm .lead, .asm .trail, .out] s.dev d' ∧
        ∀ (x : Port) (head : HeadState) (face : Option FaceId) (bound : FaceId), x = s.dev.base.port (c.nat 0) →
          head = (if p.enabled then .active else .off) → face = (if p.enabled then some p.face else none) →
          bound = (if p.enabled then p.face else x.place.face) →
          (x.head = head → d'.insp.out = s.dev.insp.out) ∧
          (x.head ≠ head → p.enabled = true ∨ x.place.enabled = true →
            d'.insp.out = s.dev.insp.out.offer .p2 (.status face
              (p.enabled && decide ((s.dev.face p.face).pattern.state = some .lost))
              (.head (c.nat 0) x.head head .placement (s.dev.face bound).grid.index))))

/-- R22: GEOMETRY_WRITE: the tests in order, and the record stored. -/
def Obligations.GeometryWriteStoresRecord : Prop :=
  ∀ (c : Command) (rest : List Command) (s : State) (d : Dev), Ready .geometryWrite c rest s → d = s.dev.takeCommand rest →
    (s.dev.base.banks.running = true → exec .geometryWrite s = .next (answered s c d .state [])) ∧
    (s.dev.base.banks.running = false → s.dev.base.sens.locked = true →
      exec .geometryWrite s = .next (answered s c d .locked [])) ∧
    (s.dev.base.banks.running = false → s.dev.base.sens.locked = false →
      ((1 < c.nat 0 ∨ c.int 1 < -2000000 ∨ 2000000 < c.int 1 ∨ c.nat 2 < 100 ∨ 10000 < c.nat 2 ∨ 1 < c.nat 3) →
        exec .geometryWrite s = .next (answered s c d .range [])) ∧
      (∀ f : FaceId, c.nat 0 = (match f with | .lead => 0 | .trail => 1) → -2000000 ≤ c.int 1 → c.int 1 ≤ 2000000 →
        100 ≤ c.nat 2 → c.nat 2 ≤ 10000 → c.nat 3 ≤ 1 →
        exec .geometryWrite s = .next (answered s c (d.onFace f fun x => { x with
          asm := { x.asm with
          geometry := { origin := c.int 1, pitch := c.nat 2, mirrored := decide (c.nat 3 = 1) } } }) .done [])))

/-- R23: FLAT_WRITE: the tests in order; the entries of the block stored from the first pixel onward, each clamped, with the
reply CLAMPED where one was; every other entry, and every other port, as before. -/
def Obligations.FlatWriteStoresBlock : Prop :=
  ∀ (c : Command) (rest : List Command) (s : State) (d : Dev), Ready .flatWrite c rest s → d = s.dev.takeCommand rest →
    (s.dev.base.banks.running = true → exec .flatWrite s = .next (answered s c d .state [])) ∧
    (s.dev.base.banks.running = false → s.dev.base.sens.locked = true → exec .flatWrite s = .next (answered s c d .locked [])) ∧
    (s.dev.base.banks.running = false → s.dev.base.sens.locked = false →
      ((3 < c.nat 0 ∨ c.nat 2 = 0 ∨ 256 < c.nat 2 ∨ 4096 < c.nat 1 + c.nat 2) →
        exec .flatWrite s = .next (answered s c d .range [])) ∧
      (c.nat 0 ≤ 3 → 1 ≤ c.nat 2 → c.nat 2 ≤ 256 → c.nat 1 + c.nat 2 ≤ 4096 → ∃ (d' : Dev) (r : ReplyCode),
        exec .flatWrite s = .next (answered s c d' r []) ∧
        (r = .clamped ∧ (∃ n < c.nat 2, 1023 < c.nat (3 + 2 * n) ∨ 16383 < c.nat (4 + 2 * n)) ∨
          r = .done ∧ ∀ n < c.nat 2, c.nat (3 + 2 * n) ≤ 1023 ∧ c.nat (4 + 2 * n) ≤ 16383) ∧
        (∀ n < c.nat 2, tget FlatEntry.unity (d'.base.port (c.nat 0)).flat (c.nat 1 + n) =
          { dark := min (c.nat (3 + 2 * n)) 1023, gain := min (c.nat (4 + 2 * n)) 16383 }) ∧
        (∀ x, x < c.nat 1 ∨ c.nat 1 + c.nat 2 ≤ x → tget FlatEntry.unity (d'.base.port (c.nat 0)).flat x =
          tget FlatEntry.unity (s.dev.base.port (c.nat 0)).flat x) ∧
        (∃ t, d'.base.port (c.nat 0) = { s.dev.base.port (c.nat 0) with flat := t }) ∧
        (∀ p, p ≠ c.nat 0 → d'.base.port p = s.dev.base.port p) ∧
        d'.base.exec = d.base.exec ∧ d'.base.sens.locked = false ∧ Touches [.sens, .exec] s.dev d'))

/-- R24: SET_CALIBRATION_LOCK sets the lock and replies DONE in every state, and no command but a power-on or pin reset clears
it. -/
def Obligations.CalibrationLockIsSetAndStays : Prop :=
  (∀ (c : Command) (rest : List Command) (s : State), Ready .setCalibrationLock c rest s →
    exec .setCalibrationLock s = .next (answered s c { s.dev.takeCommand rest with
      base := { (s.dev.takeCommand rest).base with sens := { s.dev.base.sens with locked := true } } } .done [])) ∧
  ∀ (i : Instr) (s t : State), s.dev.base.sens.locked = true → exec i s = .next t →
    (∀ a b, i ≠ .powerOnReset a b ∧ i ≠ .pinReset a b) → t.dev.base.sens.locked = true
/-- R25: a packet at a port that is not enabled is stray; one that is damaged, or that declares no pixels or more than 4096, is
an error. Either is only counted. -/
def Obligations.DiscardedPacketIsOnlyCounted : Prop :=
  ∀ (p tag declared : Nat) (samples : List Nat) (damaged : Bool) (s : State) (x : Port),
    p ≤ 3 → tag ≤ 65535 → (∀ v ∈ samples, v ≤ 4095) → x = s.dev.base.port p →
    (x.place.enabled = false → exec (.scanPacket p tag declared samples damaged) s = .next { s with
      dev := s.dev.setPort p
        { x with counts := { x.counts with stray := min (x.counts.stray + 1) 4294967295 } } }) ∧
    (x.place.enabled = true → (damaged = true ∨ declared = 0 ∨ 4096 < declared) →
      exec (.scanPacket p tag declared samples damaged) s = .next { s with
        dev := s.dev.setPort p
          { x with counts := { x.counts with errors := min (x.counts.errors + 1) 4294967295 } } })

/-- R26, R28, R29: a well-formed packet at a port that is not SILENT. Late: counted. Duplicate: counted. Short, long and truncated
packets are counted before the match, so for late and duplicate packets too (log 20). Otherwise taken: the port
joins the delivered set and every used pixel with a sample puts it, with port and pixel, at its face column (the highest such
pixel, should two share one); every other column stays. A line that waits behind an incomplete oldest line stays in its slot;
the only open line, once complete, is handed on; and when the packet completes the oldest line, that line and the complete ones
directly behind it leave in line order, each tested in turn and accounted (R31), down to the oldest incomplete one. -/
def Obligations.PacketFillsItsSlot : Prop :=
  ∀ (p tag declared : Nat) (samples : List Nat) (s : State) (x : Port) (f : FaceId) (a : Assembler) (k : PortCounts),
    p ≤ 3 → tag ≤ 65535 → (∀ v ∈ samples, v ≤ 4095) → x = s.dev.base.port p → x.place.enabled = true →
    x.head ≠ .silent → f = x.place.face → 1 ≤ declared → declared ≤ 4096 → a = (s.dev.face f).asm →
    k = countsAfter x.counts x.place.last declared samples.length →
    ((∀ o ∈ a.slots, o.head.index.toNat % 65536 ≠ tag) →
      exec (.scanPacket p tag declared samples false) s = .next { s with
        dev := s.dev.setPort p
          { x with counts := { k with late := min (k.late + 1) 4294967295 } } }) ∧
    (∀ o, a.slots.find? (fun o => decide (o.head.index.toNat % 65536 = tag)) = some o →
      (p ∈ o.delivered → exec (.scanPacket p tag declared samples false) s = .next { s with
        dev := s.dev.setPort p
          { x with counts := { k with duplicate := min (k.duplicate + 1) 4294967295 } } }) ∧
      (p ∉ o.delivered → ∃ (t : State) (r : Slot → Table Sample), exec (.scanPacket p tag declared samples false) s = .next t ∧
        (∀ (o' : Slot) (d : Sample) (n : Nat), n < min declared samples.length → x.place.first ≤ n → n ≤ x.place.last →
          (∀ n' < min declared samples.length, n < n' → n' ≤ x.place.last → x.place.column n' ≠ x.place.column n) →
          tget d (r o') (x.place.column n) = { port := p, pixel := n, raw := samples.getD n 0 }) ∧
        (∀ (o' : Slot) (d : Sample) (col : Nat), (∀ n < min declared samples.length, x.place.first ≤ n → n ≤ x.place.last →
          x.place.column n ≠ col) → tget d (r o') col = tget d o'.raw col) ∧
        ((∀ o' ∈ a.slots.head?, ∃ q ∈ o'.expected, q ∉ o'.delivered ∧ (o'.head.index.toNat % 65536 = tag → q ≠ p)) →
          t = { s with
            dev := (s.dev.setPort p { x with counts := k }).onFace f fun y => { y with
            asm := { y.asm with
            slots := a.slots.map fun o' => if o'.head.index.toNat % 65536 = tag then
              { o' with delivered := o'.delivered ++ [p], raw := r o' } else o' } } }) ∧
        (a.slots = [o] → (∀ q ∈ o.expected, q ∈ o.delivered ∨ q = p) →
          (t.dev.face f).asm = { a with slots := [], handed := a.handed ++ [{ head := o.head, raw := r o }] } ∧
          (∀ q, (t.dev.base.port q).missing =
            if q ∈ o.expected ∧ o.head.cls = .inspection then 0 else (s.dev.base.port q).missing) ∧
          OnlyChanges [.sens, .asm f] s t) ∧
        SlotsLeft f a (fun q => if q = p then { x with counts := k } else s.dev.base.port q)
          (a.slots.map fun o' => if o'.head.index.toNat % 65536 = tag then
            { o' with delivered := o'.delivered ++ [p], raw := r o' } else o') t.dev ∧
        OnlyChanges [.sens, .asm f] s t))

/-- R31 to R33: how one expected port is accounted for a line that leaves. With its packet taken, an inspection line sets its
missing count to 0; without, its missing line count rises, and on an inspection line its consecutive missing count: at 16 the head
falls SILENT, is reported with cause MISSING, and leaves the expected set of every open slot that has not its packet. A well-formed
packet at a SILENT port makes it ACTIVE with its consecutive missing count 0 and is reported with cause PACKET
and its line tag; then it is matched as a packet at an ACTIVE port. -/
def Obligations.HeadFallsSilentAndWakes : Prop :=
  (∀ (f : FaceId) (o : Slot) (d : Dev) (p : Nat) (x y : Port), x = d.base.port p →
    y = { x with counts := { x.counts with missingLines := min (x.counts.missingLines + 1) 4294967295 } } →
    (p ∈ o.delivered → accountPort f o d p = if o.head.cls = .creep then d else d.setPort p { x with missing := 0 }) ∧
    (p ∉ o.delivered → o.head.cls = .creep → accountPort f o d p = d.setPort p y) ∧
    (p ∉ o.delivered → o.head.cls = .inspection → x.missing < 15 →
      accountPort f o d p = d.setPort p { y with missing := x.missing + 1 }) ∧
    (p ∉ o.delivered → o.head.cls = .inspection → 15 ≤ x.missing → ∃ d' : Dev,
      accountPort f o d p = d'.offerStatus (some f) (.head p x.head .silent .missing o.head.index) ∧
      d'.base.port p = { y with head := .silent, missing := 16 } ∧ (∀ q, q ≠ p → d'.base.port q = d.base.port q) ∧
      (d'.face f).asm.slots = (d.face f).asm.slots.map (fun o' =>
        if p ∈ o'.delivered then o' else { o' with expected := o'.expected.filter (· ≠ p) }) ∧
      Touches [.sens, .asm f] d d')) ∧
  ∀ (p tag declared : Nat) (samples : List Nat) (s : State) (x : Port), p ≤ 3 → tag ≤ 65535 → (∀ v ∈ samples, v ≤ 4095) →
    x = s.dev.base.port p → x.place.enabled = true → x.head = .silent → 1 ≤ declared → declared ≤ 4096 →
    exec (.scanPacket p tag declared samples false) s = exec (.scanPacket p tag declared samples false) { s with
      dev := (s.dev.setPort p { x with head := .active, missing := 0 }).offerStatus (some x.place.face)
        (.head p .silent .active .packet (BitVec.ofNat 32 tag)) } ∧
    ∃ t, exec (.scanPacket p tag declared samples false) s = .next t ∧
      (t.dev.base.port p).head = .active ∧ (t.dev.base.port p).missing = 0 ∧
      (t.dev.base.port p).place = x.place ∧ (t.dev.base.port p).flat = x.flat ∧
      OnlyChanges [.sens, .asm x.place.face, .out] s t

/-! ### The Pixel Chain -/

/-- R20, R39, R41 to R43, R61, R67, R11: the oldest line handed to a face's Pixel Chain, no switch of the face being due at it. Its
samples of columns that are dark by now are void (log 38). An inspection line in RUNNING first makes its bucket boundaries and its
pattern step (log 10). Zone, effective tiers and coating exit of the record are read after them. One record goes on to the Blob
Builder, the Streak Tracker and the preview path; it carries the line, the phase, the bank and plan active on the face, the kind
and learned flag of every column, and for each column that is not void the corrected value, the deviation against the ref before
the line, and the flag: BRIGHT at 16 TB or above, DARK at -16 TD or below, under the tier of its lane, on an eligible column. A
column without a sample keeps its state unless the line ends the learning phase. On a face that is not LEARNING a column with one
sample (two on one line are ruled out by disjoint placements) takes R45's tracking step under R44's conditions, its ref moving by the
deviation over 2^k truncated toward zero, and keeps its state otherwise. The clip counts and the processed total move. A
creep line leaves pattern, tier, marks, columns and reports alone, and a line of a face that is not LEARNING makes no report of its
own beyond those of its bucket boundaries and its pattern step. -/
def Obligations.PixelChainHandsOnRecord : Prop :=
  ∀ (f : FaceId) (s : State) (ln : HandedLine) (rest : List HandedLine) (x : Pixel) (raw : Table Sample) (i j : Insp),
    (s.dev.face f).asm.handed = ln :: rest → x = (s.dev.face f).pixel → NoSwitchDue s.dev.base.banks f ln.head.pos →
    raw = (ln.raw.filter fun e => !s.dev.base.dark f e.1) →
    i = (s.dev.insp.onFace f fun y => { y with
      asm := { y.asm with handed := rest },
      pixel := { x with lastPos := if s.dev.base.banks.running then some ln.head.pos else x.lastPos } }) →
    j = (if s.dev.base.banks.running = true ∧ ln.head.cls = .inspection then
      patternStep s.dev.base f ln.head (tierLineStart s.dev.base f ln.head i) else i) →
    ∃ (t : State) (r : LineRecord), exec (.pixelChainLine f) s = .next t ∧
      (t.dev.face f).asm = { (s.dev.face f).asm with handed := rest } ∧
      (t.dev.face f).blob = { (s.dev.face f).blob with inbox := (s.dev.face f).blob.inbox ++ [r] } ∧
      (t.dev.face f).streak = { (s.dev.face f).streak with inbox := (s.dev.face f).streak.inbox ++ [r] } ∧
      (t.dev.face f).preview = { (s.dev.face f).preview with inbox := (s.dev.face f).preview.inbox ++ [r] } ∧
      t.dev.insp.marks = j.marks ∧ (t.dev.face f).tier = (j.face f).tier ∧
      (x.phase ≠ .learning → t.dev.insp.out = j.out) ∧
      (t.dev.face f).pattern = (if ln.head.cls = .inspection then { (j.face f).pattern with lastZone := r.zone }
        else (j.face f).pattern) ∧
      r.head = ln.head ∧ r.phase = x.phase ∧ r.bank = s.dev.base.banks.activeOn f ∧ r.plan = s.dev.base.banks.plan f ∧
      r.zone = zoneAt (j.face f).pattern (s.dev.base.banks.contents f).pattern ln.head.pos ∧
      r.tiers = (List.range 16).map (j.face f).tier.effective ∧
      (r.exit = true ↔ ln.head.cls = .inspection ∧ (s.dev.face f).pattern.lastZone = some .coated ∧ r.zone ≠ some .coated) ∧
      (∀ k, columnKind r.plan r.lit k = if s.dev.base.dark f k then .dark else
        match s.dev.base.banks.plan f with
        | some p => .planned (planEntry p k).kind
        | none => .absent) ∧
      (twf PixelColumn.fresh x.cols = true → ∀ k, k ∈ r.learned ↔ (x.col k).learned = true) ∧
      r.cols.map (·.1) = raw.map (·.1) ∧
      (∀ (k : Nat) (v : Sample), (k, v) ∈ raw → ∃ (y : RecordColumn) (row : TierRow), (k, y) ∈ r.cols ∧
        row = (s.dev.base.banks.contents f).tier (r.tiers.getD y.lane 0) ∧
        y.value = corrected v.raw (tget FlatEntry.unity (s.dev.base.port v.port).flat v.pixel) ∧
        y.dev = 16 * (y.value : Int) - (x.col k).ref ∧ y.learned = (x.col k).learned ∧
        y.entry = (s.dev.base.banks.plan f).map (fun p => planEntry p k) ∧
        (x.phase ≠ .detecting ∨ ln.head.cls = .creep ∨ (x.col k).learned = false ∨ r.zone ≠ some .coated ∨ y.detects = false →
          y.flag = none) ∧
        (x.phase = .detecting → ln.head.cls = .inspection → (x.col k).learned = true → r.zone = some .coated →
          y.detects = true →
          (16 * (row.tb : Int) ≤ y.dev → y.flag = some .bright) ∧
          (y.dev < 16 * (row.tb : Int) → y.dev ≤ -(16 * (row.td : Int)) → y.flag = some .dark) ∧
          (y.dev < 16 * (row.tb : Int) → -(16 * (row.td : Int)) < y.dev → y.flag = none))) ∧
      (∀ k, (∀ e ∈ raw, e.1 ≠ k) → (t.dev.face f).pixel.phase = x.phase → (t.dev.face f).pixel.col k = x.col k) ∧
      (∀ (k n : Nat) (v : Sample) (y : RecordColumn) (kind : PlanKind) (tracks : Prop), x.phase ≠ .learning →
        raw.filter (fun e => decide (e.1 = k)) = [(k, v)] → (k, y) ∈ r.cols →
        kind = (planEntry ((s.dev.base.banks.plan f).getD []) k).kind → n = (s.dev.base.banks.contents f).detection.k →
        (tracks ↔ x.phase = .detecting ∧ ln.head.cls = .inspection ∧ (x.col k).learned = true ∧ y.flag = none ∧ n ≠ 0 ∧
          ((kind = .lane ∨ kind = .guard) ∧ r.zone = some .coated ∨ kind = .margin)) →
        (tracks → ∃ ref : Nat, (ref : Int) = (x.col k).ref + y.dev.tdiv (2 ^ n) ∧
          (t.dev.face f).pixel.col k = { x.col k with ref := ref }) ∧
        (¬ tracks → (t.dev.face f).pixel.col k = x.col k)) ∧
      (t.dev.face f).pixel.processed = min (x.processed + 1) 4294967295 ∧
      (t.dev.face f).pixel.lastClip = (raw.filter fun e =>
        isClipped e.2.raw (tget FlatEntry.unity (s.dev.base.port e.2.port).flat e.2.pixel)).length ∧
      (t.dev.face f).pixel.clipped = min (x.clipped + (t.dev.face f).pixel.lastClip) 4294967295 ∧
      (t.dev.face f).pixel.reservation = x.reservation ∧
      (t.dev.face f).pixel.lastPos = (if s.dev.base.banks.running then some ln.head.pos else x.lastPos) ∧
      (ln.head.cls = .creep → OnlyChanges [.asm f, .pixel f, .blob f, .streak f, .preview f] s t ∧
        (∀ k, (t.dev.face f).pixel.col k = x.col k) ∧ (t.dev.face f).pixel.phase = x.phase ∧
        (t.dev.face f).pixel.learnLines = x.learnLines) ∧
      OnlyChanges [.asm f, .pixel f, .pattern f, .blob f, .streak f, .tier f, .preview f, .marks, .out] s t

/-- R40, R41: the corrected value is the exact product over 4096 rounded half up and clamped to 0..4095, 4095 for a saturated
sample, the sample itself under unity gain without offset; the clipped samples are those at 4095 and those whose rounded product
exceeds it. -/
def Obligations.CorrectionRoundsHalfUp : Prop :=
  ∀ (s : Nat) (e : FlatEntry), s ≤ 4095 →
    corrected s e ≤ 4095 ∧ corrected 4095 e = 4095 ∧ isClipped 4095 e = true ∧ corrected s { dark := 0, gain := 4096 } = s ∧
    (s < 4095 →
      (0 < corrected s e → 4096 * (corrected s e : Int) - 2048 ≤ ((s : Int) - e.dark) * e.gain) ∧
      (corrected s e < 4095 → ((s : Int) - e.dark) * e.gain < 4096 * (corrected s e : Int) + 2048) ∧
      (isClipped s e = true ↔ 4096 * 4096 - 2048 ≤ ((s : Int) - e.dark) * e.gain))

/-- R44, R45: a tracking step. While the face is DETECTING, a column takes one on an inspection line when it is learned and not
flagged, the bank's k is not 0, and its kind is LANE or GUARD with the line COATED, or MARGIN in any zone; on any other line it keeps
all its state. The deviation handed on is the one before the step; the step is the deviation over 2^k truncated toward
zero; the new ref lies between the old ref and 16c, and is unchanged for a deviation of magnitude below 2^k. -/
def Obligations.TrackingStepTruncatesTowardZero : Prop :=
  ∀ (x : LineContext) (flat : FlatEntry) (v : PixelColumn) (j raw : Nat) (y : RecordColumn × PixelColumn) (kind : PlanKind)
      (tracks : Prop),
    y = x.column flat v j raw → x.phase = .detecting →
    kind = (match x.plan with
      | some p => (planEntry p j).kind
      | none => .unmapped) →
    (tracks ↔ x.cls = .inspection ∧ v.learned = true ∧ y.1.flag = none ∧ x.k ≠ 0 ∧
      ((kind = .lane ∨ kind = .guard) ∧ x.zone = some .coated ∨ kind = .margin)) →
    (tracks →
      y.1.dev = 16 * (y.1.value : Int) - v.ref ∧
      (y.2.ref : Int) = v.ref + (y.1.dev).tdiv (2 ^ x.k) ∧
      (0 ≤ y.1.dev → v.ref ≤ y.2.ref ∧ y.2.ref ≤ 16 * y.1.value) ∧
      (y.1.dev ≤ 0 → 16 * y.1.value ≤ y.2.ref ∧ y.2.ref ≤ v.ref) ∧
      (v.ref ≤ 65520 → y.2.ref ≤ 65520) ∧
      (y.1.dev.natAbs < 2 ^ x.k → y.2.ref = v.ref) ∧
      y.2.learned = true ∧ y.2.sum = v.sum ∧ y.2.count = v.count) ∧
    (¬ tracks → y.2 = v)

/-- R44, R48, R49: learning. While the face is LEARNING an inspection line adds its corrected value to a column that has fewer than
4,096, of kind LANE or GUARD on a COATED line, or of kind MARGIN in any zone; any other line leaves the column as it is. A face in
IDLE, a creep line and a column of kind EXCLUDE or UNMAPPED change nothing. At the end of a learning phase a column with collected
values takes their mean in dev units, rounded half up, and is learned; one without keeps what it has. On a continuous face the
line that brings the learn line count to the learn length ends the phase. Whatever its class and zone, a line of a LEARNING face makes
these steps at its columns that are not void; the learn line count rises on a COATED inspection line alone, and the one that brings
it to the learn length then ends the phase at every column (with the column table in its canonical form: log 16) and offers
LEARN_DONE with the learn length, the line index and the number of unlearned LANE columns that are not dark. A column with two samples
on one line, which disjoint placements rule out, is left aside. Zone and reports before it are those of the line's start (log 10). -/
def Obligations.LearningCollectsAndEnds : Prop :=
  (∀ (x : LineContext) (flat : FlatEntry) (v : PixelColumn) (j raw : Nat) (y : RecordColumn × PixelColumn) (kind : PlanKind)
      (collects : Prop),
    y = x.column flat v j raw →
    kind = (match x.plan with
      | some p => (planEntry p j).kind
      | none => .unmapped) →
    (collects ↔ x.cls = .inspection ∧ ((kind = .lane ∨ kind = .guard) ∧ x.zone = some .coated ∨ kind = .margin)) →
    (x.phase = .learning → collects → v.count < 4096 →
      y.2 = { v with sum := v.sum + y.1.value, count := v.count + 1 }) ∧
    (x.phase = .learning → (¬ collects ∨ 4096 ≤ v.count) → y.2 = v) ∧
    (x.phase = .idle ∨ x.cls = .creep ∨ kind = .exclude ∨ kind = .unmapped → y.2 = v)) ∧
  (∀ v : PixelColumn, (v.count = 0 → v.learn = v) ∧
    (0 < v.count → v.learn.learned = true ∧ v.learn.ref = (16 * v.sum + v.count / 2) / v.count ∧ v.learn.sum = v.sum ∧
      v.learn.count = v.count)) ∧
  (∀ (f : FaceId) (s : State) (ln : HandedLine) (rest : List HandedLine), (s.dev.face f).asm.handed = ln :: rest →
    NoSwitchDue s.dev.base.banks f ln.head.pos → (s.dev.face f).pattern.state = some .continuous →
    (s.dev.face f).pixel.phase = .learning → ln.head.cls = .inspection →
    ∃ t, exec (.pixelChainLine f) s = .next t ∧
      (t.dev.face f).pixel.learnLines = (s.dev.face f).pixel.learnLines + 1 ∧
      (t.dev.face f).pixel.phase =
        if (s.dev.face f).pixel.learnLength ≤ (s.dev.face f).pixel.learnLines + 1 then .detecting else .learning) ∧
  ∀ (f : FaceId) (s : State) (ln : HandedLine) (rest : List HandedLine) (x : Pixel) (raw : Table Sample) (i j : Insp)
      (kind : Nat → PlanKind) (coated ends : Prop),
    (s.dev.face f).asm.handed = ln :: rest → NoSwitchDue s.dev.base.banks f ln.head.pos → x = (s.dev.face f).pixel →
    raw = (ln.raw.filter fun e => !s.dev.base.dark f e.1) →
    i = (s.dev.insp.onFace f fun y => { y with
      asm := { y.asm with handed := rest },
      pixel := { x with lastPos := if s.dev.base.banks.running then some ln.head.pos else x.lastPos } }) →
    (s.dev.base.banks.running = true → ln.head.cls = .inspection →
      j = patternStep s.dev.base f ln.head (tierLineStart s.dev.base f ln.head i)) →
    (s.dev.base.banks.running = false ∨ ln.head.cls = .creep → j = i) →
    (∀ k, kind k = (planEntry ((s.dev.base.banks.plan f).getD []) k).kind) →
    x.phase = .learning → twf PixelColumn.fresh x.cols = true →
    (coated ↔ ln.head.cls = .inspection ∧
      zoneAt (j.face f).pattern (s.dev.base.banks.contents f).pattern ln.head.pos = some .coated) →
    (ends ↔ coated ∧ x.learnLength ≤ x.learnLines + 1) →
    ∃ t, exec (.pixelChainLine f) s = .next t ∧
      (coated → (t.dev.face f).pixel.learnLines = x.learnLines + 1) ∧
      (¬ coated → (t.dev.face f).pixel.learnLines = x.learnLines) ∧ (t.dev.face f).pixel.learnLength = x.learnLength ∧
      (ends → (t.dev.face f).pixel.phase = .detecting) ∧ (¬ ends → (t.dev.face f).pixel.phase = .learning) ∧
      (∀ k, ∃ v : PixelColumn, ((∀ e ∈ raw, e.1 ≠ k) → v = x.col k) ∧
        (∀ (y : Sample) (collects : Prop), raw.filter (fun e => decide (e.1 = k)) = [(k, y)] →
          (collects ↔ (x.col k).count < 4096 ∧ ln.head.cls = .inspection ∧
            ((kind k = .lane ∨ kind k = .guard) ∧ coated ∨ kind k = .margin)) →
          (collects → v = { x.col k with
            sum := (x.col k).sum + corrected y.raw (tget FlatEntry.unity (s.dev.base.port y.port).flat y.pixel),
            count := (x.col k).count + 1 }) ∧
          (¬ collects → v = x.col k)) ∧
        (ends → (t.dev.face f).pixel.col k = v.learn) ∧ (¬ ends → (t.dev.face f).pixel.col k = v)) ∧
      (ends → t.dev.insp.out = j.out.offer .p2 (.status (some f) (decide ((j.face f).pattern.state = some .lost))
        (.learnDone x.learnLength ln.head.index ((List.range 8192).filter fun k => decide (kind k = .lane) &&
          !s.dev.base.dark f k && !((t.dev.face f).pixel.col k).learned).length))) ∧
      (¬ ends → t.dev.insp.out = j.out)

/-- R46, R47, R50, R68, R72, R86, R113, R137, R140, R153, R154: a face's switch before the line it processes, with the bank states after it: LEAD's makes
the scheduled bank ACTIVE {LEAD} and the other ACTIVE {TRAIL}; TRAIL's makes the new bank ACTIVE {both}, the old CHECKED, and
discards the switch position. No blob and no streak of the face stays open, the reservation is cleared. Every lane starts from the
new bank: buckets empty, own tier at the min limit, no last change, the next boundary one bucket span past the line, the alert
tested; last inspection position and line stay (log 59; a bucket span of 0, which no checked bank has, is left out). A bank that sets learn-on-entry has the face LEARNING with no
line counted before this one; without the flag a DETECTING face stays DETECTING, and a LEARNING face goes on under the new learn
length, the lines counted so far kept. The face enters CONTINUOUS, or SEEKING from its seek origin, which it leaves on this line
only by an edge or the seek limit at or below it. The other face's blocks change nothing. The steps come in R153's order, after what
its blocks have been handed (log 7): blobs and streaks close with reason CHANGEOVER under the old bank, a saturated face being tested
between (logs 30, 39), and the counted events that wait are taken, the Blob Builder's first (log 53), then the TRAIL
candidates (log 57); a face that leaves LOST reports it with cause CHANGEOVER (R72); LANE reports of cause CHANGEOVER and the alert
report follow (R137; log 47), LEARNING may begin, and BANK_SWITCHED names old and new bank, switch position, line index and
position. -/
def Obligations.FaceSwitchesToScheduledBank : Prop :=
  ∀ (f : FaceId) (s : State) (ln : HandedLine) (rest : List HandedLine) (p : Int) (new : BankId) (c : Contents) (x : Pixel)
    (seek : Int),
    (s.dev.face f).asm.handed = ln :: rest → s.dev.base.banks.switchPos = some p → p ≤ ln.head.pos →
    (match f with
      | .lead => (s.dev.base.banks.bank new).state = .scheduled ∧ (s.dev.base.banks.bank new.other).state = .active .both
      | .trail => (s.dev.base.banks.bank new).state = .active .lead ∧
          (s.dev.base.banks.bank new.other).state = .active .trail) →
    c = (s.dev.base.banks.bank new).contents → x = (s.dev.face f).pixel →
    seek = s.dev.base.motion.h + 1024 * (s.dev.base.motion.setup.die + (match f with | .lead => 0 | .trail => c.pattern.r)) →
    ∃ t, exec (.pixelChainLine f) s = .next t ∧
      (t.dev.base.banks.bank new).state = (match f with | .lead => .active .lead | .trail => .active .both) ∧
      (t.dev.base.banks.bank new.other).state = (match f with | .lead => .active .trail | .trail => .checked) ∧
      t.dev.base.banks.switchPos = (match f with | .lead => some p | .trail => none) ∧
      (∀ i, (t.dev.base.banks.bank i).contents = (s.dev.base.banks.bank i).contents ∧
        (t.dev.base.banks.bank i).compiled = (s.dev.base.banks.bank i).compiled) ∧
      t.dev.base.banks.activeOn f = some new ∧ t.dev.base.banks.running = s.dev.base.banks.running ∧
      (t.dev.face f).blob.openCount = 0 ∧ (t.dev.face f).streak.openCount = 0 ∧ (t.dev.face f).pixel.reservation = none ∧
      -- the Tier Controller
      (∀ j < 16,
        ((t.dev.face f).tier.lane j).minLimit = c.tierPolicy.minTier ∧
        ((t.dev.face f).tier.lane j).maxLimit = c.tierPolicy.maxTier) ∧
      (1 ≤ c.tierPolicy.w →
        (∀ j < 16, (t.dev.face f).tier.lane j = {
          buckets := [], own := c.tierPolicy.minTier, minLimit := c.tierPolicy.minTier, maxLimit := c.tierPolicy.maxTier,
          lastChange := none }) ∧
        (t.dev.face f).tier.current = 0 ∧ (t.dev.face f).tier.next = some (ln.head.pos + c.tierPolicy.w * 128000000) ∧
        (t.dev.face f).tier.fa = c.tierPolicy.fa ∧
        (t.dev.face f).tier.alert = decide (c.tierPolicy.na ≤ (t.dev.face f).tier.atT2)) ∧
      -- learning
      (c.tierPolicy.learnOnEntry = true → (t.dev.face f).pixel.learnLength = c.detection.learnLength ∧
        (∀ k, ((t.dev.face f).pixel.col k).count ≤ 1) ∧
        (16 ≤ c.detection.learnLength → (t.dev.face f).pixel.phase = .learning ∧ (t.dev.face f).pixel.learnLines ≤ 1)) ∧
      (c.tierPolicy.learnOnEntry = false →
        (x.phase ≠ .learning → (t.dev.face f).pixel.phase = x.phase ∧ (t.dev.face f).pixel.learnLines = x.learnLines ∧
          (t.dev.face f).pixel.learnLength = x.learnLength) ∧
        (x.phase = .learning → (t.dev.face f).pixel.learnLength = c.detection.learnLength ∧
          (x.learnLines + 1 < c.detection.learnLength → (t.dev.face f).pixel.phase = .learning ∧
            x.learnLines ≤ (t.dev.face f).pixel.learnLines ∧ (t.dev.face f).pixel.learnLines ≤ x.learnLines + 1))) ∧
      -- the pattern state
      (c.pattern.g = 0 → (t.dev.face f).pattern.state = some .continuous ∧ (t.dev.face f).pattern.edge = none ∧
        (t.dev.face f).pattern.misses = 0 ∧ (t.dev.face f).pattern.seek = none) ∧
      (0 < c.pattern.g →
        (ln.head.cls = .creep ∨
          ln.head.pos < seek + 1024 * (c.pattern.c + c.pattern.g) + 1024 * c.pattern.tolerance ∧
          ∀ k ∈ s.dev.insp.marks.list, (match f with | .lead => k.leadHandled | .trail => k.trailHandled) = false →
            ln.head.pos < k.h + (seek - s.dev.base.motion.h)) →
        (t.dev.face f).pattern.state = some .seeking ∧ (t.dev.face f).pattern.edge = none ∧
          (t.dev.face f).pattern.misses = 0 ∧ (t.dev.face f).pattern.seek = some seek) ∧
      OnlyChanges ([.banks, .marks, .corr, .out, .asm f, .pixel f, .pattern f, .blob f, .streak f, .tier f, .preview f]) s t ∧
      -- the steps in order, with their reports, before the line is processed
      (∀ (old b : Base) (i j k l : Insp), old = s.dev.base → b = t.dev.base →
        i = drainStreakLines old f (drainBlobLines old f (s.dev.insp.onFace f fun y => { y with
          asm := { y.asm with handed := rest } })) →
        j = closeAllBlobs old f .changeover none i →
        k = drainEvents old f .streakTracker (drainEvents old f .blobBuilder
          (closeAllStreaks old f .changeover (testSaturation f (j.face f).blob.lastLine j))) →
        l = ((match f with
          | .lead => k
          | .trail => drainTrail old k).onFace f fun y => { y with pixel := { y.pixel with reservation := none } }) →
        t.dev.insp = processLine b f ln
          ((switchLearning b f (loadTiersAtSwitch b f ln.head (switchPattern b f ln.head l))).offerStatus (some f)
            (.bankSwitched new.other new (p / 10240) ln.head.index (ln.head.pos / 10240)))) ∧
      -- the pattern report, the tier reports
      (∀ (b : Base) (h : LineHead) (i j : Insp), j = (i.onFace f fun y => { y with pattern := enterPattern b f y.pattern }) →
        switchPattern b f h i = if (i.face f).pattern.state = some .lost then
            j.offer .p2 (.status (some f) false (.pattern .lost
              (if (b.banks.contents f).pattern.g = 0 then .continuous else .seeking) .changeover h.index (h.pos / 10240) none))
          else j) ∧
      (∀ (b : Base) (y : Pattern), enterPattern b f y = { y with
        state := some (if (b.banks.contents f).pattern.g = 0 then .continuous else .seeking), edge := none, misses := 0,
        seek := if (b.banks.contents f).pattern.g = 0 then none else some (b.motion.h + 1024 *
          ((b.motion.setup.die : Int) + (match f with | .lead => 0 | .trail => (b.banks.contents f).pattern.r))) }) ∧
      -- learning at the switch
      (∀ (b : Base) (i : Insp) (new : Contents), new = b.banks.contents f →
        (new.tierPolicy.learnOnEntry = true → switchLearning b f i = enterLearning b f i) ∧
        (new.tierPolicy.learnOnEntry = false → switchLearning b f i = if (i.face f).pixel.phase = .learning then
          i.onFace f fun y => { y with pixel := { y.pixel with learnLength := new.detection.learnLength } } else i)) ∧
      ∀ (b : Base) (h : LineHead) (i : Insp) (line : Option (Word × Int)) (before after : Tier) (policy : TierPolicy),
        line = some (h.index, h.pos) → policy = (b.banks.contents f).tierPolicy →
        before = (i.face f).tier → after = ((loadTiersAtSwitch b f h i).face f).tier →
        after = { before with
          lanes := after.lanes, current := 0, next := some (h.pos + policy.w * 128000000), fa := policy.fa,
          alert := decide (policy.na ≤ after.atT2),
          alerts := if policy.na ≤ after.atT2 ∧ before.alert = false then min (before.alerts + 1) 4294967295
            else before.alerts } ∧
        (∀ j < 16, after.lane j = {
          buckets := [], own := policy.minTier, minLimit := policy.minTier, maxLimit := policy.maxTier, lastChange := none }) ∧
        loadTiersAtSwitch b f h i = offerAlert (b.banks.contents f).tierPolicy.na f line before after
          (offerLanes b f .changeover line before after (List.range 16) (i.onFace f fun y => { y with tier := after }))

/-! ### Blobs -/

/-- R75, R78, R84 to R86, R93: one record at the Blob Builder. Every record enters the History Ring, newest first, 64 kept. A creep
line and a line processed in IDLE do nothing else. Any other line becomes the last handled line and leaves no open blob a span on
the line; after a coating exit, which closes every open blob with reason PATTERN, every open blob began on this line (a report that
the face is saturated no more then names this line: log 39). Of the line's runs the first 512 are linked in order, the others
are counted as dropped. Then the end of the line: a blob with a span on the line stays, unless it spans 512 lines or more, which
closes it with reason LENGTH; a blob without stays with its idle count one higher where that was below Mb, and closes with reason
NONE otherwise. The blobs that close are sent on in close order: by last line, first line, column min and number. A saturated face
that is left with 192 open blobs or fewer is saturated no more, which is reported. After this the line of TRAIL makes its expiry
test, which waits behind the TRAIL candidates that wait then, those of this line among them (R123, log 9). -/
def Obligations.BlobBuilderHandlesRecord : Prop :=
  (∀ (f : FaceId) (s : State) (r : LineRecord) (rest : List LineRecord) (x : Blobs) (ring : List RingEntry) (mb : Nat),
    x = (s.dev.face f).blob → x.inbox = r :: rest → mb = (s.dev.base.banks.contents f).detection.mb →
    ring = ({ index := r.head.index, values := r.cols.map fun e => (e.1, e.2.value) } :: x.ring).take 64 →
    ((r.head.cls = .creep ∨ r.phase = .idle) →
      exec (.blobBuilderLine f) s = .next { s with
        dev := s.dev.onFace f fun y =>
        { y with blob := { x with inbox := rest, ring := ring } } }) ∧
    (r.head.cls = .inspection → r.phase ≠ .idle → ∃ t, exec (.blobBuilderLine f) s = .next t ∧
      (t.dev.face f).blob.ring = ring ∧ (t.dev.face f).blob.inbox = rest ∧
      (t.dev.face f).blob.lastLine = some r.head.index ∧
      (∀ e ∈ occupied (t.dev.face f).blob.open_, e.2.lineSpan = none ∧ (r.exit = true → e.2.first = r.head.index)) ∧
      (r.exit = false → (∀ e ∈ r.cols, e.2.flag = none) →
        (∀ k b, (k, b) ∈ occupied x.open_ → b.lineSpan = none → b.idle < mb →
          (k, { b with idle := b.idle + 1 }) ∈ occupied (t.dev.face f).blob.open_) ∧
        (∀ k b, (k, b) ∈ occupied (t.dev.face f).blob.open_ → ∃ b', (k, b') ∈ occupied x.open_ ∧
          (b'.lineSpan = none → b'.idle < mb ∧ b = { b' with idle := b'.idle + 1 }))) ∧
      (∀ (runs : List Run) (i j l : Insp) (y : Blobs), runs = r.runs (s.dev.base.banks.contents f).detection.bg →
        i = (s.dev.insp.onFace f fun z => { z with
          blob := { x with inbox := rest, ring := ring, lastLine := some r.head.index } }) →
        j = (if r.exit = true then testSaturation f (some r.head.index)
          (closeAllBlobs s.dev.base f .pattern (some (r.head.index, r.head.pos)) i) else i) →
        l = (runs.take 512).foldl (linkRun f r.head) (j.onFace f fun z => { z with
          blob := { z.blob with dropped := min (z.blob.dropped + (runs.length - 512)) 4294967295 } }) →
        y = (l.face f).blob →
        (∀ z : Insp, z = testSaturation f (some r.head.index) (endLine s.dev.base f r.head l) →
          (f = .lead → t.dev.insp = z) ∧
          (f = .trail → ∀ (tests : List (Int × Int)) (waiting : List TrailWork) (z' z'' : Insp) (p m : Int),
            z.corr.trailWork = tests.map (fun e => TrailWork.expiry e.1 e.2) ++ waiting →
            (∀ q n, waiting.head? ≠ some (.expiry q n)) → z' = tests.foldl (fun i e => expire e.1 e.2 i) z →
            p = r.head.pos / 10240 → m = expiryMargin (s.dev.base.banks.contents .trail) r.head.pitch → z'' = expire p m z' →
            (waiting = [] → t.dev.insp = { z'' with corr := { z''.corr with trailWork := [] } }) ∧
            (waiting ≠ [] → t.dev.insp = { z' with
              corr := { z'.corr with trailWork := waiting ++ [.expiry p m] } }))) ∧
        (t.dev.face f).blob.dropped = min (x.dropped + (runs.length - 512)) 4294967295 ∧
        (t.dev.face f).blob.saturated = (y.saturated && decide (192 < (t.dev.face f).blob.openCount)) ∧
        (∀ k b, (k, b) ∈ occupied (t.dev.face f).blob.open_ ↔ ∃ b', (k, b') ∈ occupied y.open_ ∧
          (b'.lineSpan = none ∧ b'.idle < mb ∧ b = { b' with idle := b'.idle + 1 } ∨
            ∃ u, b'.lineSpan = some u ∧ (b'.last - b'.first).toNat + 1 < 512 ∧
              b = { b' with lastSpan := some u, lineSpan := none }))) ∧
      OnlyChanges [.blob f, .tier f, .corr, .out] s t)) ∧
  (∀ (b : Base) (f : FaceId) (h : LineHead) (i : Insp) (mb : Nat) (l : List ((Nat × Blob) × TruncReason)),
    mb = (b.banks.contents f).detection.mb →
    l = orderBy (fun a c => closesBefore h.index a.1 c.1) (closing mb (i.face f).blob.open_) →
    endLine b f h i = l.foldl (fun i e => sendBlob b f e.2 (some (h.index, h.pos)) i e.1)
      (i.onFace f fun z => { z with blob := { z.blob with open_ := staying mb z.blob.open_ } }) ∧
    ∀ k x reason, ((k, x), reason) ∈ l ↔ ∃ x', (k, x') ∈ occupied (i.face f).blob.open_ ∧
      (x'.lineSpan = none ∧ mb ≤ x'.idle ∧ x = x' ∧ reason = .none ∨
        ∃ u, x'.lineSpan = some u ∧ 512 ≤ (x'.last - x'.first).toNat + 1 ∧
          x = { x' with lastSpan := some u, lineSpan := none } ∧ reason = .length)) ∧
  (∀ (n : Word) (a c : Nat × Blob), closesBefore n a c = true ↔
    (n - c.2.last).toNat < (n - a.2.last).toNat ∨ (n - a.2.last).toNat = (n - c.2.last).toNat ∧
      ((n - c.2.first).toNat < (n - a.2.first).toNat ∨ (n - a.2.first).toNat = (n - c.2.first).toNat ∧
        (a.2.colMin < c.2.colMin ∨ a.2.colMin = c.2.colMin ∧ a.1 < c.1))) ∧
  ∀ (f : FaceId) (line : Option Word) (i : Insp) (n : Nat), n = (i.face f).blob.openCount →
    ((i.face f).blob.saturated = true → n ≤ 192 → testSaturation f line i =
      (i.onFace f fun z => { z with blob := { z.blob with saturated := false } }).offerStatus (some f)
        (.blobSaturation false n line)) ∧
    (((i.face f).blob.saturated = false ∨ 192 < n) → testSaturation f line i = i)

/-- R76, R77, R79 to R83, R85: a run starts and ends with a flagged column of its polarity and takes its peak from one. On a record
that lists its columns in order the runs stand in column order and do not overlap; every flagged column lies in a run of its
polarity; within a run every column is flagged with its polarity or a bridge, with at most Bg bridges in a row; and no flagged column
of its polarity can be reached past its end. Count, sum, peak fields (of equal peaks the lowest column) and touched mark are those of
its columns. Linking a run: a blob of its polarity connects whose last-line span meets the run widened by one
column on both sides. With no connecting open blob it opens a blob in the free slot with the lowest number; with all 256 slots taken it is discarded and counted, the face becoming blob-saturated, which is reported with its number of open blobs and the line's
index; with exactly one connecting blob it extends that blob and no other, which takes the run's peak fields when its peak is
greater, or equal at a lower column, and else keeps its own. With two or more the oldest of them survives, of equal age the one of lowest column min, then of lowest number: it takes counts, sums, columns, spans and
marks of all of them and of the run, its peak fields from the greatest peak at the lowest column (with peak and column equal, from
one of those: log 45), the others leave their slots, and each is counted as a merge. -/
def Obligations.RunsFormAndLinkToBlobs : Prop :=
  (∀ (r : LineRecord) (bg : Nat) (u : Run), u ∈ r.runs bg →
    u.first ≤ u.last ∧ 1 ≤ u.count ∧ u.count ≤ u.last + 1 - u.first ∧
    (∃ y, (u.first, y) ∈ r.cols ∧ y.flag = some u.polarity) ∧ (∃ y, (u.last, y) ∈ r.cols ∧ y.flag = some u.polarity) ∧
    (∃ y, (u.peakCol, y) ∈ r.cols ∧ y.flag = some u.polarity ∧ u.peak = y.dev.natAbs) ∧
    u.first ≤ u.peakCol ∧ u.peakCol ≤ u.last) ∧
  -- which columns form the runs
  (∀ (r : LineRecord) (bg : Nat) (runs : List Run) (flagged : Polarity → Nat → Prop) (bridge : Nat → Prop),
    (r.cols.map (·.1)).Pairwise (· < ·) → runs = r.runs bg →
    (∀ pol k, flagged pol k ↔ ∃ y, (k, y) ∈ r.cols ∧ y.flag = some pol) →
    (∀ k, bridge k ↔ ∃ y, (k, y) ∈ r.cols ∧ y.flag = none ∧ y.detects = true) →
    runs.Pairwise (fun u v => u.last < v.first) ∧
    (∀ pol k, flagged pol k → ∃ u ∈ runs, u.polarity = pol ∧ u.first ≤ k ∧ k ≤ u.last) ∧
    ∀ u ∈ runs,
      (∀ k, u.first ≤ k → k ≤ u.last → flagged u.polarity k ∨ bridge k) ∧
      (∀ k, u.first ≤ k → k + bg ≤ u.last → ∃ m, k ≤ m ∧ m ≤ k + bg ∧ flagged u.polarity m) ∧
      (∀ k, u.last < k → k ≤ u.last + bg + 1 → flagged u.polarity k → ∃ m, u.last < m ∧ m < k ∧ ¬ bridge m) ∧
      ∀ inside, inside = r.cols.filter (fun e => decide (u.first ≤ e.1 ∧ e.1 ≤ u.last ∧ e.2.flag = some u.polarity)) →
        u.count = inside.length ∧ u.sum = (inside.map fun e => e.2.dev.natAbs).sum ∧
        (∀ e ∈ inside, e.2.dev.natAbs < u.peak ∨ e.2.dev.natAbs = u.peak ∧ u.peakCol ≤ e.1) ∧
        (∃ y, (u.peakCol, y) ∈ inside ∧ u.peak = y.dev.natAbs ∧ u.peakGuard = y.isGuard ∧ u.peakLane = y.lane ∧
          u.tier = r.tiers.getD y.lane 0) ∧
        (u.touched = true ↔ (0 < u.first ∧ ∀ e ∈ r.cols, e.1 ≠ u.first - 1) ∨
          (u.last < 8191 ∧ ∀ e ∈ r.cols, e.1 ≠ u.last + 1))) ∧
  -- connecting, and the union of two spans
  (∀ (u : Run) (b : Blob), connects u b = true ↔ u.polarity = b.polarity ∧
    ∃ lo hi, b.lastSpan = some (lo, hi) ∧ lo ≤ u.last + 1 ∧ u.first ≤ hi + 1) ∧
  (∀ a c : Nat × Nat, spanUnion (some a) (some c) = some (min a.1 c.1, max a.2 c.2)) ∧
  (∀ a : Option (Nat × Nat), spanUnion a none = a ∧ spanUnion none a = a) ∧
  ∀ (f : FaceId) (h : LineHead) (i : Insp) (u : Run) (x : Blobs), x = (i.face f).blob →
    (∀ k, (∀ e ∈ occupied x.open_, connects u e.2 = false) → k < 256 → tget none x.open_ k = none →
      (∀ j < k, tget none x.open_ j ≠ none) →
      (∃ b, linkRun f h i u = i.onFace f (fun z => { z with blob := { x with open_ := tset none x.open_ k (some b) } }) ∧
        tget none ((linkRun f h i u).face f).blob.open_ k = some b ∧ b.polarity = u.polarity ∧ b.first = h.index ∧
        b.last = h.index ∧ b.lastPos = h.pos ∧ b.colMin = u.first ∧ b.colMax = u.last ∧ b.lastSpan = none ∧
        b.pitch = h.pitch ∧ b.lineSpan = some (u.first, u.last) ∧ b.count = min u.count 65535 ∧ b.peak = u.peak ∧
        b.peakCol = u.peakCol ∧ b.peakGuard = u.peakGuard ∧ b.peakLane = u.peakLane ∧ b.tier = u.tier ∧
        b.sum = min u.sum 4294967295 ∧ b.idle = 0 ∧ b.touched = u.touched) ∧
      (∀ j, j ≠ k → tget none ((linkRun f h i u).face f).blob.open_ j = tget none x.open_ j) ∧
      ((linkRun f h i u).out = i.out)) ∧
    ((∀ e ∈ occupied x.open_, connects u e.2 = false) → (∀ k < 256, tget none x.open_ k ≠ none) →
      ((linkRun f h i u).face f).blob = { x with
        discarded := min (x.discarded + 1) 4294967295, saturated := true,
        satEntries := if x.saturated then x.satEntries else min (x.satEntries + 1) 4294967295 } ∧
      (∀ bk : Base, Touches [.blob f, .out] ⟨bk, i⟩ ⟨bk, linkRun f h i u⟩) ∧ (linkRun f h i u).out = if x.saturated then i.out
        else i.out.offer .p2 (.status (some f) (decide ((i.face f).pattern.state = some .lost))
          (.blobSaturation true x.openCount (some h.index)))) ∧
    (∀ k b, x.merges ≤ 4294967295 → (occupied x.open_).filter (fun e => connects u e.2) = [(k, b)] →
      ∃ b', linkRun f h i u = i.onFace f (fun z => { z with blob := { x with open_ := tset none x.open_ k (some b') } }) ∧
        ((linkRun f h i u).face f).blob = { x with open_ := tset none x.open_ k (some b') } ∧
        b'.polarity = b.polarity ∧ b'.first = b.first ∧ b'.last = h.index ∧ b'.lastPos = h.pos ∧
        b'.count = min (b.count + u.count) 65535 ∧ b'.sum = min (b.sum + u.sum) 4294967295 ∧
        b'.colMin = min b.colMin u.first ∧ b'.colMax = max b.colMax u.last ∧ b'.lastSpan = b.lastSpan ∧ b'.idle = 0 ∧
        b'.lineSpan = spanUnion b.lineSpan (some (u.first, u.last)) ∧ b'.pitch = h.pitch ∧
        b'.touched = (b.touched || u.touched) ∧
        ((b.peak < u.peak ∨ b.peak = u.peak ∧ u.peakCol < b.peakCol) → b'.peak = u.peak ∧ b'.peakCol = u.peakCol ∧
          b'.peakGuard = u.peakGuard ∧ b'.peakLane = u.peakLane ∧ b'.tier = u.tier) ∧
        ((u.peak < b.peak ∨ u.peak = b.peak ∧ b.peakCol ≤ u.peakCol) → b'.peak = b.peak ∧ b'.peakCol = b.peakCol ∧
          b'.peakGuard = b.peakGuard ∧ b'.peakLane = b.peakLane ∧ b'.tier = b.tier)) ∧
    (∀ l, l = (occupied x.open_).filter (fun e => connects u e.2) → 2 ≤ l.length → twf none x.open_ = true →
      ∃ (k : Nat) (b b' : Blob) (t : Table (Option Blob)), (k, b) ∈ l ∧
        (∀ e ∈ l, e.1 ≠ k → (h.index - e.2.first).toNat < (h.index - b.first).toNat ∨
          (h.index - e.2.first).toNat = (h.index - b.first).toNat ∧
            (b.colMin < e.2.colMin ∨ b.colMin = e.2.colMin ∧ k < e.1)) ∧
        linkRun f h i u = (i.onFace f fun z => { z with
          blob := { x with open_ := t, merges := min (x.merges + (l.length - 1)) 4294967295 } }) ∧
        tget none t k = some b' ∧ (∀ e ∈ l, e.1 ≠ k → tget none t e.1 = none) ∧
        (∀ j, (∀ e ∈ l, e.1 ≠ j) → tget none t j = tget none x.open_ j) ∧
        b'.polarity = u.polarity ∧ b'.first = b.first ∧ b'.last = h.index ∧ b'.lastPos = h.pos ∧ b'.pitch = h.pitch ∧
        b'.idle = 0 ∧ b'.count = min ((l.map (·.2.count)).sum + u.count) 65535 ∧
        b'.sum = min ((l.map (·.2.sum)).sum + u.sum) 4294967295 ∧
        b'.colMin = (l.map (·.2.colMin)).foldl min u.first ∧ b'.colMax = (l.map (·.2.colMax)).foldl max u.last ∧
        b'.touched = (u.touched || l.any fun e => e.2.touched) ∧
        b'.lastSpan = (l.map (·.2.lastSpan)).foldl spanUnion none ∧
        b'.lineSpan = (l.map (·.2.lineSpan)).foldl spanUnion (some (u.first, u.last)) ∧
        (b'.peak = u.peak ∧ b'.peakCol = u.peakCol ∧ b'.peakGuard = u.peakGuard ∧ b'.peakLane = u.peakLane ∧
            b'.tier = u.tier ∨
          ∃ e ∈ l, b'.peak = e.2.peak ∧ b'.peakCol = e.2.peakCol ∧ b'.peakGuard = e.2.peakGuard ∧
            b'.peakLane = e.2.peakLane ∧ b'.tier = e.2.tier) ∧
        (u.peak < b'.peak ∨ u.peak = b'.peak ∧ b'.peakCol ≤ u.peakCol) ∧
        ∀ e ∈ l, e.2.peak < b'.peak ∨ e.2.peak = b'.peak ∧ b'.peakCol ≤ e.2.peakCol)

/-- R89: classification. A blob closed with reason LENGTH is ELONGATED; any other takes the lowest class rule that is present
and matches polarity, area, width and length, or NONE where no rule does. -/
def Obligations.ClassificationTakesLowestRule : Prop :=
  ∀ (c : Contents) (pol : Polarity) (area width length : Nat),
    ((classify c true pol area width length).code = 8 ∧ (classify c true pol area width length).correlate = false ∧
      (classify c true pol area width length).excerpt = false ∧
      (classify c true pol area width length).counts = c.policy.elongatedCounts ∧
      (classify c true pol area width length).level = c.policy.elongated.level ∧
      (classify c true pol area width length).slot = c.policy.elongated.slot) ∧
    (∀ k < 8, (c.rule k).matchesBlob pol area width length = true →
      (∀ j < k, (c.rule j).matchesBlob pol area width length = false) →
      classify c false pol area width length = {
        code := k, correlate := (c.rule k).correlate, counts := (c.rule k).counts, excerpt := (c.rule k).excerpt,
        level := (c.rule k).level, slot := (c.rule k).slot }) ∧
    ((∀ k < 8, (c.rule k).matchesBlob pol area width length = false) →
      classify c false pol area width length = {
        code := 9, correlate := false, counts := c.policy.unclassedCounts, excerpt := false,
        level := c.policy.unclassed.level, slot := c.policy.unclassed.slot }) ∧
    ∀ (r : ClassRule), r.matchesBlob pol area width length = true ↔
      r.present = true ∧ (r.polarity = .either ∨ r.polarity = .bright ∧ pol = .bright ∨ r.polarity = .dark ∧ pol = .dark) ∧
        r.areaMin ≤ area ∧ area ≤ r.areaMax ∧ r.widthMin ≤ width ∧ width ≤ r.widthMax ∧ r.lengthMin ≤ length ∧
        length ≤ r.lengthMax

/-! ### Streaks -/

/-- R102 to R112: one record at the Streak Tracker. It becomes the last handled line; then, in order, the columns from the
lowest, the closing of streaks without a member, the continue tests; only streaks, the events sent to the Tier Controller and
reports change. On an eligible line a column outside a streak is QUIET when not hot, enters ONSET when hot, is QUIET when hot of
the other polarity, and counts hot lines up to MinLines, where it tries to enter a streak. With no streak of its polarity in
reach it opens one in the lowest free slot, reported, and a counted event unless in a GUARD column; with none free it is held
and counted, the first such saturating the face, with a report. With one in reach it joins it; with several it joins the oldest,
then of lowest number, into which the others are merged, each closing with reason MERGED, the first of them ending saturation; a
join and a merge send no counted event. A member's level counts toward the
streak's peak, on the line it joins too (log 28); held to the release threshold it is in STREAK, else RELEASING, and at
ReleaseLines it leaves (fields without a meaning in a state: log 15). A close frees the slot, is reported and ends saturation,
with a report unless made by STOP, which follows the STREAK_CLOSE report (log 30). A continue test that is due advances by the interval and is reported. Widths, and lengths so
far, saturate (log 46). -/
def Obligations.StreakTrackerHandlesRecord : Prop :=
  (∀ (f : FaceId) (s : State) (r : LineRecord) (rest : List LineRecord) (x : Streaks), x = (s.dev.face f).streak →
    x.inbox = r :: rest →
    ∃ t, exec (.streakTrackerLine f) s = .next t ∧ (t.dev.face f).streak.inbox = rest ∧
      (t.dev.face f).streak.last = some (r.head.index, r.head.pos) ∧
      (∀ e ∈ occupied (t.dev.face f).streak.open_, e.2.members ≠ 0) ∧
      OnlyChanges [.streak f, .tier f, .out] s t ∧
      (∃ l, (t.dev.face f).tier = { (s.dev.face f).tier with
        streakEvents := (s.dev.face f).tier.streakEvents ++ l }) ∧
      (twf (StreakColumn.quiet 0) x.cols = true → ∃ walk : List Nat, walk.Pairwise (· < ·) ∧
        (∀ c, c ∈ walk ↔ (∃ y, (c, y) ∈ r.cols) ∨ x.col c ≠ StreakColumn.quiet 0) ∧
        t.dev.insp = continueTests s.dev.base f r (closeReleased s.dev.base f (some (r.head.index, r.head.pos))
          (walk.foldl (streakColumn s.dev.base f r) (s.dev.insp.onStreaks f fun x =>
            { x with inbox := rest, last := some (r.head.index, r.head.pos) }))))) ∧
  -- a column outside a streak
  (∀ (b : Base) (f : FaceId) (r : LineRecord) (i : Insp) (c : Nat) (y : RecordColumn) (v : StreakColumn) (level : Int) (ts : Nat)
      (k : Compiled), EligibleAt b f r i c y v level ts k → v.state = .quiet ∨ v.state = .onset →
    (-(ts : Int) < level → level < ts →
      streakColumn b f r i c = i.onStreaks f fun x => x.setCol c (StreakColumn.quiet v.acc)) ∧
    ∀ (pol : Polarity) (w : StreakColumn) (j : Insp),
      (match pol with | .bright => (ts : Int) ≤ level | .dark => level < ts ∧ level ≤ -(ts : Int)) →
      w = (if v.state = .onset then
          { v with onsetCount := if v.onsetCount < k.minLines then v.onsetCount + 1 else v.onsetCount }
        else {
          acc := v.acc, state := .onset, onsetPolarity := pol, onsetCount := 1, onsetPos := some r.head.pos, releaseCount := 0,
          number := 0 }) →
      j = (i.onStreaks f fun x => x.setCol c w) →
      (v.state = .onset → v.onsetPolarity ≠ pol →
        streakColumn b f r i c = i.onStreaks f fun x => x.setCol c (StreakColumn.quiet v.acc)) ∧
      ((v.state = .onset → v.onsetPolarity = pol) →
        streakColumn b f r i c = if k.minLines ≤ w.onsetCount then enterStreak b f r c y level j else j)) ∧
  -- entering a streak
  (∀ (b : Base) (f : FaceId) (r : LineRecord) (c : Nat) (y : RecordColumn) (level : Int) (i : Insp) (x : Streaks)
      (p : Contents) (l : List (Nat × Streak)) (v : StreakColumn), x = i.streaks f → v = x.col c → p = b.banks.contents f →
    l = (occupied x.open_).filter (fun e => decide (e.2.polarity = v.onsetPolarity) && x.near c (p.detection.sg + 1) e.1) →
    (∀ n k, x.near c n k = true ↔ ∃ c', c ≤ c' + n ∧ c' ≤ c + n ∧
      ((x.col c').state = .streak ∨ (x.col c').state = .releasing) ∧ (x.col c').number = k) ∧
    (∀ k < 64, l = [] → tget none x.open_ k = none → (∀ m < k, tget none x.open_ m ≠ none) →
      ∀ (g : Streak) (j : Insp),
        g = {
          polarity := v.onsetPolarity, colMin := c, colMax := c, founding := c, lane := y.lane, inGuard := y.isGuard,
          start := v.onsetPos.getD r.head.pos, openPos := r.head.pos, peak := level.natAbs, members := 1,
          lastContinue := v.onsetPos.getD r.head.pos, tierAtOpen := r.tiers.getD y.lane 0 } →
        j = (i.onStreaks f fun _ => { x with
          cols := tset (StreakColumn.quiet 0) x.cols c { StreakColumn.quiet v.acc with state := .streak, number := k },
          open_ := tset none x.open_ k (some g), opened := min (x.opened + 1) 4294967295 }).route p.policy.streakOpen
            (.streak (streakReport .opened f (i.face f).asm.geometry (i.lost f) k g r.head.pos 0 0)) →
        enterStreak b f r c y level i = if y.isGuard = true then j
          else sendEvent f .streakTracker { lane := y.lane, pos := some r.head.pos, index := some r.head.index } j) ∧
    (l = [] → (∀ k < 64, tget none x.open_ k ≠ none) →
      (x.saturated = true → enterStreak b f r c y level i =
        i.onStreaks f fun _ => { x with held := min (x.held + 1) 4294967295 }) ∧
      (x.saturated = false → enterStreak b f r c y level i = (i.onStreaks f fun _ => { x with
        held := min (x.held + 1) 4294967295, saturated := true,
        satEntries := min (x.satEntries + 1) 4294967295 }).offerStatus (some f)
          (.streakSaturation true x.openCount (some r.head.index)))) ∧
    (twf none x.open_ = true → l ≠ [] → ∃ (k : Nat) (e : Streak) (others : List (Nat × Streak)) (j : Insp),
      ((k, e) :: others).Perm l ∧
      ((k, e) :: others).Pairwise (fun a c => a.2.start < c.2.start ∨ a.2.start = c.2.start ∧ a.1 < c.1) ∧
      enterStreak b f r c y level i = j ∧
      (j.streaks f).streak k = some { e with
        colMin := min ((others.map (·.2.colMin)).foldl min e.colMin) c,
        colMax := max ((others.map (·.2.colMax)).foldl max e.colMax) c,
        members := e.members + (others.map (·.2.members)).sum + 1,
        peak := max ((others.map (·.2.peak)).foldl max e.peak) level.natAbs } ∧
      (∀ m, m ≠ k → (j.streaks f).streak m = if m ∈ others.map (·.1) then none else x.streak m) ∧
      (∀ n, (j.streaks f).col n =
        if n = c then { StreakColumn.quiet v.acc with state := .streak, number := k }
        else if ((x.col n).state = .streak ∨ (x.col n).state = .releasing) ∧ (x.col n).number ∈ others.map (·.1) then
          { x.col n with number := k }
        else x.col n) ∧
      (j.streaks f).opened = x.opened ∧ (j.streaks f).held = x.held ∧ (j.streaks f).satEntries = x.satEntries ∧
      (j.streaks f).inbox = x.inbox ∧ (j.streaks f).last = x.last ∧ Touches [.streak f, .out] ⟨b, i⟩ ⟨b, j⟩ ∧
      (others = [] → (j.streaks f).merges = x.merges ∧ (j.streaks f).closed = x.closed ∧
        (j.streaks f).saturated = x.saturated ∧ j.out = i.out) ∧
      (others ≠ [] → (j.streaks f).merges = min (x.merges + others.length) 4294967295 ∧
        (j.streaks f).closed = min (x.closed + others.length) 4294967295 ∧ (j.streaks f).saturated = false ∧
        ∀ close : Out → Nat × Streak → Out,
          (∀ o a, close o a = o.route p.policy.streakClose.level p.policy.streakClose.slot
            (.streak (streakReport (.closed .merged (some k)) f (i.face f).asm.geometry (i.lost f) a.1 a.2 r.head.pos
              (r.head.pos - a.2.start) 0))) →
          (x.saturated = false → j.out = others.foldl close i.out) ∧
          (x.saturated = true → ∀ a more, others = a :: more → j.out = more.foldl close ((close i.out a).offer .p2
            (.status (some f) (i.lost f) (.streakSaturation false (x.openCount - 1) (some r.head.index)))))))) ∧
  -- a member of a streak
  (∀ (b : Base) (f : FaceId) (r : LineRecord) (i : Insp) (c : Nat) (y : RecordColumn) (v : StreakColumn) (level : Int) (ts : Nat)
      (k : Compiled) (g : Streak) (held : Prop) (n : Nat) (change : StreakColumn → Nat → Insp),
    EligibleAt b f r i c y v level ts k → v.state = .streak ∨ v.state = .releasing →
    (i.streaks f).streak v.number = some g →
    held = (match g.polarity with
      | .bright => ((3 * ts / 4 : Nat) : Int) ≤ level
      | .dark => level ≤ -((3 * ts / 4 : Nat) : Int)) →
    n = (if v.state = .releasing then v.releaseCount + 1 else 1) →
    (∀ w m, change w m = i.onStreaks f fun x =>
      (x.setCol c w).setStreak v.number (some { g with peak := max g.peak level.natAbs, members := m })) →
    (held → streakColumn b f r i c = change { v with state := .streak, releaseCount := 0 } g.members) ∧
    (¬ held → n < k.releaseLines →
      streakColumn b f r i c = change { v with state := .releasing, releaseCount := n } g.members) ∧
    (¬ held → k.releaseLines ≤ n → streakColumn b f r i c = change (StreakColumn.quiet v.acc) (g.members - 1))) ∧
  -- closing
  (∀ (b : Base) (f : FaceId) (line : Option (Word × Int)) (i : Insp), closeReleased b f line i =
    ((occupied (i.streaks f).open_).filter fun e => decide (e.2.members = 0)).foldl
      (fun i e => closeStreak b f .released none line e.1 e.2 i) i) ∧
  (∀ (b : Base) (f : FaceId) (reason : StreakReason) (survivor : Option Nat) (n : Word) (p : Int) (k : Nat) (g : Streak)
      (i j : Insp) (x : Streaks) (o : Out), x = i.streaks f → j = closeStreak b f reason survivor (some (n, p)) k g i →
    o = i.out.route (b.banks.contents f).policy.streakClose.level (b.banks.contents f).policy.streakClose.slot
      (.streak (streakReport (.closed reason survivor) f (i.face f).asm.geometry (i.lost f) k g p (p - g.start) 0)) →
    Touches [.streak f, .out] ⟨b, i⟩ ⟨b, j⟩ ∧ j.streaks f = { x with
      open_ := tset none x.open_ k none, closed := min (x.closed + 1) 4294967295, saturated := false } ∧
    j.out = if x.saturated = true ∧ reason ≠ .stop then o.offer .p2 (.status (some f) (i.lost f)
      (.streakSaturation false (j.streaks f).openCount (some n))) else o) ∧
  -- continuing
  (∀ (b : Base) (f : FaceId) (r : LineRecord) (i : Insp) (d : Detection), d = (b.banks.contents f).detection →
    ((d.interval = 0 ∨ r.phase = .idle) → continueTests b f r i = i) ∧
    (0 < d.interval → r.phase ≠ .idle → continueTests b f r i =
      (occupied (i.streaks f).open_).foldl (continueStep b f r (d.interval * 1024000000)) i)) ∧
  (∀ (b : Base) (f : FaceId) (r : LineRecord) (i : Insp) (interval due : Int) (k : Nat) (g g' : Streak),
    due = g.lastContinue + interval → g' = { g with lastContinue := due } →
    (r.head.pos < due → continueStep b f r interval i (k, g) = i) ∧
    (due ≤ r.head.pos → continueStep b f r interval i (k, g) =
      (i.onStreaks f fun x => x.setStreak k (some g')).route (b.banks.contents f).policy.streakContinue
        (.streak (streakReport .continued f (i.face f).asm.geometry (i.lost f) k g' due (due - g.start)
          (r.tiers.getD g.lane 0))))) ∧
  ∀ (kind : StreakKind) (f : FaceId) (q : Geometry) (unsync : Bool) (k : Nat) (g : Streak) (pos length : Int) (tier : Nat),
    streakReport kind f q unsync k g pos length tier = {
      kind := kind, face := f, number := k, polarity := g.polarity, inGuard := g.inGuard, unsync := unsync, lane := g.lane,
      tierAtOpen := g.tierAtOpen, tierNow := tier, founding := g.founding, members := g.members, colMin := g.colMin,
      colMax := g.colMax, start := g.start / 10240, pos := pos / 10240,
      length := (max 0 (min (length / 10240) 4294967295)).toNat,
      width := min 65535 (((g.colMax - g.colMin + 1) * q.pitch + 50) / 100),
      cd := (200 * q.origin + q.sign * (g.colMin + g.colMax : Nat) * q.pitch + 100) / 200, peak := g.peak }

/-- R61, R99 to R101: one column at the Streak Tracker. A column is zeroed by an inspection line that the face does not process in
IDLE, when it is not dark and the plan gives it the kind MARGIN, EXCLUDE or UNMAPPED: so such a column holds on a creep line and in
IDLE, and a dark one always. On a line that is not eligible for it and does not zero it, a column holds all
its state; on an inspection line in RUNNING a MARGIN, EXCLUDE or UNMAPPED column that is not dark is set to QUIET with
accumulator 0, its other fields at their reset values, which R100 does not name (log 15); on an eligible line its accumulator leaks,
takes the deviation clamped to the clip, and is clamped to its bound. -/
def Obligations.StreakColumnAccumulates : Prop :=
  (∀ (r : LineRecord) (c : Nat), zeroes r c = true ↔ r.head.cls = .inspection ∧ r.phase ≠ .idle ∧
    (∃ e ∈ r.lit, e.1 ≤ c ∧ c ≤ e.2) ∧ ∃ p, r.plan = some p ∧
      ((planEntry p c).kind = .margin ∨ (planEntry p c).kind = .exclude ∨ (planEntry p c).kind = .unmapped)) ∧
  (∀ (b : Base) (f : FaceId) (r : LineRecord) (i : Insp) (c : Nat), zeroes r c = false →
    (∀ e ∈ r.cols, e.1 = c → eligible r e.2 = false) → streakColumn b f r i c = i) ∧
  (∀ (b : Base) (f : FaceId) (r : LineRecord) (i : Insp) (c : Nat) (k : PlanKind),
    r.head.cls = .inspection → r.phase ≠ .idle → columnKind r.plan r.lit c = .planned k → k ≠ .lane → k ≠ .guard →
    streakColumn b f r i c = i.onStreaks f fun x => x.setCol c {
      acc := 0, state := .quiet, onsetPolarity := .bright,
      onsetCount := 0, onsetPos := none, releaseCount := 0, number := 0 }) ∧
  (∀ (b : Base) (f : FaceId) (r : LineRecord) (i : Insp) (c : Nat) (y : RecordColumn) (d : Detection),
    zeroes r c = false → r.cols.find? (fun e => decide (e.1 = c)) = some (c, y) → eligible r y = true →
    d = (b.banks.contents f).detection →
    (((streakColumn b f r i c).streaks f).col c).acc =
      max (-134217727) (min (((i.streaks f).col c).acc - (((i.streaks f).col c).acc).tdiv (2 ^ d.leak) +
        max (-(d.clip : Int)) (min y.dev d.clip)) 134217727)) ∧
  ∀ (r : LineRecord) (y : RecordColumn), eligible r y = true ↔
    (∃ e, y.entry = some e ∧ (e.kind = .lane ∨ e.kind = .guard)) ∧ r.zone = some .coated ∧ r.phase = .detecting ∧ y.learned = true ∧ r.head.cls = .inspection

/-! ### Preview -/

/-- R162: one record at the preview path. Under decimation 0 it is not used; short of the decimation it only counts; reaching it,
the counter becomes 0 and the binned line takes the face's slot: an empty one by acceptance, a line not yet picked by
replacement, with its lost-before, which is counted. The value of a bin of b columns is floor((sum + floor(b / 2)) / b), the sum taking
the corrected value of each of its columns in the record, and 0 for a column that the record does not hold, which is void or dark on
the line. -/
def Obligations.PreviewPathTakesRecord : Prop :=
  (∀ (cols : Table RecordColumn) (b n : Nat) (value : Nat → Nat), (cols.map (·.1)).Nodup →
    (∀ k y, (k, y) ∈ cols → value k = y.value) → (∀ k, (∀ e ∈ cols, e.1 ≠ k) → value k = 0) →
    binValue cols b n = (((List.range b).map fun m => value (n * b + m)).sum + b / 2) / b) ∧
  ∀ (f : FaceId) (s : State) (r : LineRecord) (rest : List LineRecord) (x : Preview) (p : PreviewLine) (q : QueueId),
    x = (s.dev.face f).preview → x.inbox = r :: rest →
    q = (match f with | .lead => .previewLead | .trail => .previewTrail) →
    p = {
      face := f, index := r.head.index, pos := r.head.pos / 10240, cls := r.head.cls, binning := x.binning,
      bins := (List.range (8192 / x.binning)).map (binValue r.cols x.binning) } →
    (x.decimation = 0 → exec (.previewLine f) s = .next { s with
      dev := s.dev.onFace f fun y =>
      { y with preview := { x with inbox := rest } } }) ∧
    (x.counter + 1 < x.decimation → exec (.previewLine f) s = .next { s with
      dev := s.dev.onFace f fun y =>
      { y with preview := { x with inbox := rest, counter := x.counter + 1 } } }) ∧
    (0 < x.decimation → x.decimation ≤ x.counter + 1 →
      ((s.dev.insp.out.queue q).entries = [] → exec (.previewLine f) s = .next { s with
        dev :=
        (s.dev.onFace f fun y => { y with preview := { x with inbox := rest, counter := 0 } }).onOut
          fun o => o.offer q (.preview p) }) ∧
      (∀ e tail, (s.dev.insp.out.queue q).entries = e :: tail → exec (.previewLine f) s = .next { s with
        dev :=
        (s.dev.onFace f fun y => { y with
          preview := { x with
          inbox := rest, counter := 0, replaced := min (x.replaced + 1) 4294967295 } }).onOut
          fun o => o.setQueue q { o.queue q with entries := { e with report := .preview p } :: tail } }))

/-! ### The Face Correlator -/

/-- R118: a LEAD candidate. Into a list of fewer than 128 entries it is appended; a full list first loses its head, reported
lead-only with reason EVICTED at the higher of its class level and its LEAD-only level, and counted. -/
def Obligations.LeadCandidateJoinsPendingList : Prop :=
  ∀ (s : State) (c : Candidate) (rest : List Candidate) (x : Corr), x = s.dev.insp.corr → x.leadWork = c :: rest →
    (x.list.length < 128 → exec .leadCandidate s = .next { s with
      dev := { s.dev with
      insp := { s.dev.insp with
      corr := { x with
      leadWork := rest, list := x.list ++ [c], highWater := max x.highWater (x.list.length + 1) } } } }) ∧
    (∀ e tail, x.list = e :: tail → 128 ≤ x.list.length → exec .leadCandidate s = .next { s with
      dev := { s.dev with
      insp :=
      { s.dev.insp with
        corr := { x with
          leadWork := rest, list := tail ++ [c], evicted := min (x.evicted + 1) 4294967295,
          highWater := max x.highWater (tail.length + 1) },
        out := s.dev.insp.out.route (if e.level.rank < e.leadOnlyLevel.rank then e.leadOnlyLevel else e.level) e.slot
          (.defect { e.record with mark := .leadOnly .evicted }) } } })

/-- R119, R121, R122: a TRAIL candidate, no expiry test waiting behind it. The first entry from the head within both tolerances
is removed and a THROUGH report offered under TRAIL's policy, with the distances trail minus lead; with none the candidate is
reported trail-only at its own level. Either outcome is counted. -/
def Obligations.TrailCandidateSearchesPendingList : Prop :=
  ∀ (s : State) (c : Candidate) (rest : List TrailWork) (x : Corr) (md cd : Nat), x = s.dev.insp.corr →
    x.trailWork = .candidate c :: rest → (∀ p m, rest.head? ≠ some (.expiry p m)) →
    md = (s.dev.base.banks.contents .trail).correlation.md → cd = (s.dev.base.banks.contents .trail).correlation.cd →
    (∀ before e after, x.list = before ++ e :: after →
      10 * (c.record.md - e.record.md).natAbs ≤ md → (c.record.cd - e.record.cd).natAbs ≤ cd →
      (∀ b ∈ before, ¬ (10 * (c.record.md - b.record.md).natAbs ≤ md ∧ (c.record.cd - b.record.cd).natAbs ≤ cd)) →
      exec .trailCandidate s = .next { s with
        dev := { s.dev with
        insp := { s.dev.insp with
        corr := { x with
          list := before ++ after, trailWork := rest, matchCount := min (x.matchCount + 1) 4294967295 },
        out := s.dev.insp.out.route (s.dev.base.banks.contents .trail).policy.through.level
          (s.dev.base.banks.contents .trail).policy.through.slot
          (.through e.record c.record (c.record.md - e.record.md) (c.record.cd - e.record.cd)) } } }) ∧
    ((∀ b ∈ x.list, ¬ (10 * (c.record.md - b.record.md).natAbs ≤ md ∧ (c.record.cd - b.record.cd).natAbs ≤ cd)) →
      exec .trailCandidate s = .next { s with
        dev := { s.dev with
        insp := { s.dev.insp with
        corr := { x with trailWork := rest, trailOnly := min (x.trailOnly + 1) 4294967295 },
        out := s.dev.insp.out.route c.level c.slot (.defect { c.record with mark := .trailOnly }) } } })

/-- R122, R123: the expiry test at a TRAIL line position under a margin. The entries whose centre plus the margin lies at or below the
position leave, the others keep their order, and each that leaves is counted and reported lead-only with reason EXPIRED, head first,
at the higher of its class level and its LEAD-only level and by its express slot; the margin is the distance in position units,
rounded up. A record that the Blob Builder handles for TRAIL, with no TRAIL candidate waiting and none closed on it, makes the test at
its position; with a candidate waiting, of this line or an earlier one, the test waits behind the last of them, and is made in the
step that takes that candidate, after its search (log 9). -/
def Obligations.ExpiryRemovesPassedEntries : Prop :=
  (∀ (p m : Int) (i : Insp),
    (expire p m i).corr = { i.corr with
      list := i.corr.list.filter (fun c => decide (p < c.record.md + m)),
      expired := min (i.corr.expired + (i.corr.list.filter fun c => decide (c.record.md + m ≤ p)).length) 4294967295 } ∧
    (expire p m i).out = (i.corr.list.filter fun c => decide (c.record.md + m ≤ p)).foldl (fun o c =>
      o.route (if c.level.rank < c.leadOnlyLevel.rank then c.leadOnlyLevel else c.level) c.slot
        (.defect { c.record with mark := .leadOnly .expired })) i.out ∧
    ∀ b : Base, Touches [.corr, .out] ⟨b, i⟩ ⟨b, expire p m i⟩) ∧
  (∀ (c : Contents) (pitch : Nat) (d : Nat), d = 1024 * c.correlation.md + (513 + c.detection.mb) * pitch →
    (d : Int) ≤ 10240 * expiryMargin c pitch ∧ 10240 * expiryMargin c pitch < (d : Int) + 10240) ∧
  (∀ (s : State) (r : LineRecord) (rest : List LineRecord), (s.dev.face .trail).blob.inbox = r :: rest →
    r.head.cls = .inspection → r.phase ≠ .idle → s.dev.insp.corr.trailWork = [] →
    (s.dev.face .trail).blob.open_ = [] →
    (∀ e ∈ r.cols, e.2.flag = none) →
    ∃ t, exec (.blobBuilderLine .trail) s = .next t ∧
      t.dev.insp.corr.list = s.dev.insp.corr.list.filter fun c =>
        decide (r.head.pos / 10240 < c.record.md + expiryMargin (s.dev.base.banks.contents .trail) r.head.pitch)) ∧
  -- the test waits behind the candidates of its line and of earlier ones
  (∀ (s : State) (r : LineRecord) (rest : List LineRecord) (x : Corr) (p m : Int), (s.dev.face .trail).blob.inbox = r :: rest →
    r.head.cls = .inspection → r.phase ≠ .idle → x = s.dev.insp.corr → (∀ q n, x.trailWork.head? ≠ some (.expiry q n)) →
    p = r.head.pos / 10240 → m = expiryMargin (s.dev.base.banks.contents .trail) r.head.pitch →
    ∃ (t : State) (closed : List Candidate) (i : Insp), exec (.blobBuilderLine .trail) s = .next t ∧
      i.corr = { x with trailWork := x.trailWork ++ closed.map .candidate } ∧
      (i.corr.trailWork = [] → t.dev.insp = expire p m i) ∧
      (i.corr.trailWork ≠ [] →
        t.dev.insp = { i with corr := { x with trailWork := i.corr.trailWork ++ [.expiry p m] } })) ∧
  ∀ (s t : State) (c : Candidate) (tests : List (Int × Int)) (rest : List TrailWork) (i : Insp),
    s.dev.insp.corr.trailWork = .candidate c :: (tests.map (fun e => TrailWork.expiry e.1 e.2) ++ rest) →
    (∀ q n, rest.head? ≠ some (.expiry q n)) →
    exec .trailCandidate { s with
      dev := { s.dev with insp := { s.dev.insp with corr := { s.dev.insp.corr with trailWork := [.candidate c] } } } } = .next t →
    i = tests.foldl (fun i e => expire e.1 e.2 i) t.dev.insp →
    exec .trailCandidate s = .next { t with
      dev := { t.dev with insp := { i with corr := { i.corr with trailWork := rest } } } }

/-! ### Lane tiers, coating pattern -/

/-- R131 to R133, R135 to R137: a counted event. It adds one to the current bucket of its lane, saturating at 255. With a bank active
on the face (else it only fills the bucket: log 40), the lane's window sum at Ne or above, its own tier below its max limit and its
last change absent or Ru metres back (with Ru = 0 at any position: log 42; an event without a position lies no distance on: log 40), the own tier rises by one, the event's position becomes
the last change and the escalation is counted; else nothing more changes. An inspection line makes the bucket boundaries at or below
it, one after another, and becomes the last inspection line. A boundary clears the oldest bucket of every lane, which becomes the
current one; each lane whose window sum then lies below Nd, whose own tier lies above its min limit, and whose last change is absent
or Rd metres back, falls by one tier, which is counted, its last change at the line; after a fall the alert is tested. The next
boundary lies one bucket span on. Each rise and each fall, lane by lane, is one change with the reports of R137: a LANE report of
cause ESCALATE or RELAX for its lane if the effective tier changed, one alert status report if the alert did, a LANE report of cause
ALERT_FLOOR for each other lane whose effective tier changed (under the floor as last loaded: log 27), in lane order; they name the boundary's line, or the event's own line
(log 51). -/
def Obligations.CountedEventFillsBucketAndEscalates : Prop :=
  (∀ (f : FaceId) (src : EventSource) (s : State) (e : CountedEvent) (rest : List CountedEvent) (x : Tier) (l l' : Lane)
    (p : TierPolicy),
    x = (s.dev.face f).tier → (match src with | .blobBuilder => x.blobEvents | .streakTracker => x.streakEvents) = e :: rest →
    l = x.lane e.lane → p = (s.dev.base.banks.contents f).tierPolicy →
    l' = { l with buckets := tset 0 l.buckets x.current (min (l.bucket x.current + 1) 255) } →
    ∃ t, exec (.countedEvent f src) s = .next t ∧
      ((t.dev.face f).tier.events src = rest) ∧
      (∀ j, j ≠ e.lane → (t.dev.face f).tier.lane j = x.lane j) ∧
      (s.dev.base.banks.activeOn f ≠ none → p.ne ≤ l'.windowSum → l.own < l.maxLimit →
        (p.ru = 0 ∨ ∀ q ∈ l.lastChange, ∃ pos, e.pos = some pos ∧ (p.ru : Int) * 1024000000 ≤ pos - q) →
        (t.dev.face f).tier.lane e.lane = { l' with own := l.own + 1, lastChange := e.pos } ∧
        (t.dev.face f).tier.escalations = min (x.escalations + 1) 4294967295 ∧
        (t.dev.face f).tier.alert = decide (p.na ≤ (t.dev.face f).tier.atT2) ∧ OnlyChanges [.tier f, .out] s t ∧
        ∀ y : Tier, y = { x.setEvents src rest with lanes := tset Lane.powerOn x.lanes e.lane l' } →
          t.dev.insp = commitTiers s.dev.base f [e.lane] .escalate (e.index.bind fun n => e.pos.map fun pos => (n, pos))
            { y with
              lanes := tset Lane.powerOn y.lanes e.lane { l' with own := l.own + 1, lastChange := e.pos },
              escalations := min (x.escalations + 1) 4294967295 }
            (s.dev.insp.onFace f fun z => { z with tier := y })) ∧
      ((s.dev.base.banks.activeOn f = none ∨ l'.windowSum < p.ne ∨ l.maxLimit ≤ l.own ∨
          0 < p.ru ∧ ∃ q ∈ l.lastChange, ∀ pos ∈ e.pos, pos - q < (p.ru : Int) * 1024000000) →
        (t.dev.face f).tier = { x.setEvents src rest with lanes := tset Lane.powerOn x.lanes e.lane l' } ∧
        (t.dev.face f).tier.lane e.lane = l' ∧ OnlyChanges [.tier f] s t)) ∧
  (∀ (b : Base) (f : FaceId) (h : LineHead) (i : Insp),
    ((∀ nb ∈ (i.face f).tier.next, h.pos < nb) → tierLineStart b f h i =
      i.onFace f fun x => { x with tier := { x.tier with lastPos := some h.pos, lastLine := some h.index } }) ∧
    (∀ nb, (i.face f).tier.next = some nb → nb ≤ h.pos → 1 ≤ (b.banks.contents f).tierPolicy.w →
      tierLineStart b f h i = tierLineStart b f h (boundaryStep b f h.index h.pos i))) ∧
  (∀ (b : Base) (f : FaceId) (index : Word) (pos : Int) (i j : Insp) (p : TierPolicy) (x y : Tier) (old : Nat → Lane)
      (falls : Nat → Prop),
    p = (b.banks.contents f).tierPolicy → x = (i.face f).tier → twf Lane.powerOn x.lanes = true →
    j = boundaryStep b f index pos i → y = (j.face f).tier →
    (∀ n, old n = { x.lane n with buckets := tset 0 (x.lane n).buckets ((x.current + 1) % 8) 0 }) →
    (∀ n, falls n ↔ n < 16 ∧ (old n).windowSum < p.nd ∧ (old n).minLimit < (old n).own ∧
      ∀ q ∈ (old n).lastChange, (p.rd : Int) * 1024000000 ≤ pos - q) →
    y.current = (x.current + 1) % 8 ∧ y.next = x.next.map (fun q => q + (p.w : Int) * 128000000) ∧
      (∀ n, falls n → y.lane n = { old n with own := (old n).own - 1, lastChange := some pos }) ∧
      (∀ n, ¬ falls n → y.lane n = old n) ∧
      (∀ l : List Nat, l.Nodup → (∀ n, n ∈ l ↔ falls n) → y.relaxations = min (x.relaxations + l.length) 4294967295 ∨
        l = [] ∧ y.relaxations = x.relaxations) ∧
      ((∃ n, falls n) → y.alert = decide (p.na ≤ y.atT2)) ∧ ((∀ n, ¬ falls n) → y.alert = x.alert) ∧
      Touches [.tier f, .out] ⟨b, i⟩ ⟨b, j⟩ ∧
      x.rotate = { x with current := (x.current + 1) % 8, lanes := x.rotate.lanes } ∧ (∀ n, x.rotate.lane n = old n) ∧
      j = ((List.range 16).foldl (relaxLane b f index pos) (i.onFace f fun z => { z with tier := z.tier.rotate })).onFace f
        fun z => { z with tier := { z.tier with next := y.next } }) ∧
  (∀ (b : Base) (f : FaceId) (index : Word) (pos : Int) (i : Insp) (n : Nat) (p : TierPolicy) (x : Tier) (l : Lane) (falls : Prop),
    p = (b.banks.contents f).tierPolicy → x = (i.face f).tier → l = x.lane n →
    falls = (l.windowSum < p.nd ∧ l.minLimit < l.own ∧ ∀ q ∈ l.lastChange, (p.rd : Int) * 1024000000 ≤ pos - q) →
    (¬ falls → relaxLane b f index pos i n = i) ∧
    (falls → relaxLane b f index pos i n = commitTiers b f [n] .relax (some (index, pos))
      { x with
        lanes := tset Lane.powerOn x.lanes n { l with own := l.own - 1, lastChange := some pos },
        relaxations := min (x.relaxations + 1) 4294967295 } i)) ∧
  -- one change with its reports
  (∀ (b : Base) (f : FaceId) (direct : List Nat) (cause : LaneCause) (line : Option (Word × Int)) (changed old new : Tier)
      (i : Insp) (na : Nat),
    na = (b.banks.contents f).tierPolicy.na → old = (i.face f).tier →
    new = { changed with
      alert := decide (na ≤ changed.atT2),
      alerts := if na ≤ changed.atT2 ∧ changed.alert = false then min (changed.alerts + 1) 4294967295 else changed.alerts } →
    commitTiers b f direct cause line changed i =
      offerLanes b f .alertFloor line old new ((List.range 16).filter fun n => decide (n ∉ direct))
        (offerAlert na f line old new
          (offerLanes b f cause line old new direct (i.onFace f fun z => { z with tier := new })))) ∧
  (∀ (b : Base) (f : FaceId) (cause : LaneCause) (line : Option (Word × Int)) (old new : Tier) (n : Nat) (l : List Nat) (i : Insp),
    offerLanes b f cause line old new [] i = i ∧
    offerLanes b f cause line old new (n :: l) i = offerLanes b f cause line old new l
      (if old.effective n = new.effective n then i else i.route (b.banks.contents f).policy.lane (.lane {
        face := f, unsync := decide ((i.face f).pattern.state = some .lost), lane := n, cause := cause,
        oldTier := old.effective n, newTier := new.effective n, own := (new.lane n).own, minLimit := (new.lane n).minLimit,
        maxLimit := (new.lane n).maxLimit, alert := new.alert, windowSum := (new.lane n).windowSum,
        index := line.map fun e => e.1, pos := line.map fun e => e.2 / 10240 }))) ∧
  -- what is read of a lane and of a face
  (∀ (x : Tier) (n : Nat), x.lane n = tget Lane.powerOn x.lanes n ∧
    x.effective n = min (max (x.lane n).own (if x.alert then x.fa else 0)) (x.lane n).maxLimit ∧
    (x.lane n).windowSum = ((List.range 8).map fun k => tget 0 (x.lane n).buckets k).sum ∧
    x.atT2 = ((List.range 16).filter fun m => decide (2 ≤ (x.lane m).own)).length) ∧
  ∀ (f : FaceId) (na : Nat) (line : Option (Word × Int)) (old new : Tier) (i : Insp),
    offerAlert na f line old new i = if old.alert = new.alert then i
      else i.offer .p2 (.status (some f) (decide ((i.face f).pattern.state = some .lost))
        (.alert new.alert ((List.range 16).filter fun n => decide (2 ≤ (new.lane n).own)).length na
          (line.map fun e => e.1) (line.map fun e => e.2 / 10240)))

/-- R64 to R66, R69 to R72: a rising edge on the patch mark line. In STANDBY, or with G = 0 on both faces, it is ignored.
Otherwise a mark at the H of the most recently accepted one is counted as repeated; one that finds 16 entries is dropped; any
other is appended, waiting for both faces, and accepted. The pattern step of a line takes, while one lies at or below the line,
the edge of the face's oldest waiting entry or the synthesis point or seek limit, whichever comes first, the edge of two at one
position. An edge: the entry is handled for the face and leaves the list once both faces have handled it; CONTINUOUS passes it;
SEEKING and LOST begin their patch there; SYNCED and COASTING begin a new patch at or above the end of the old, and only count
it as early below. A synthesis point: a patch is synthesized one repeat on, COASTING, or at the third miss LOST; a seek limit:
LOST. Entries into LOST and departures are reported, marked as the state after the change has it (log 22). The zone of a line
follows from state and edge. -/
def Obligations.PatchMarkEntersMarksList : Prop :=
  (∀ (s : State) (m : Marks) (h : Int), m = s.dev.insp.marks → h = s.dev.base.motion.h →
    ((s.dev.base.banks.running = false ∨
        (s.dev.base.banks.contents .lead).pattern.g = 0 ∧ (s.dev.base.banks.contents .trail).pattern.g = 0) →
      exec .patchMark s = .next s) ∧
    (s.dev.base.banks.running = true →
      (0 < (s.dev.base.banks.contents .lead).pattern.g ∨ 0 < (s.dev.base.banks.contents .trail).pattern.g) →
      (m.lastAccepted = some h → exec .patchMark s = .next { s with
        dev := { s.dev with
        insp := { s.dev.insp with
        marks := { m with repeated := min (m.repeated + 1) 4294967295 } } } }) ∧
      (m.lastAccepted ≠ some h → 16 ≤ m.list.length → exec .patchMark s = .next { s with
        dev := { s.dev with
        insp :=
        { s.dev.insp with marks := { m with dropped := min (m.dropped + 1) 4294967295 } } } }) ∧
      (m.lastAccepted ≠ some h → m.list.length < 16 → exec .patchMark s = .next { s with
        dev := { s.dev with
        insp :=
        { s.dev.insp with
          marks := { m with
          list := m.list ++ [{ h := h, leadHandled := false, trailHandled := false }], lastAccepted := some h,
          accepted := min (m.accepted + 1) 4294967295 } } } }))) ∧
  -- the pattern step: its next event
  (∀ (b : Base) (f : FaceId) (h : LineHead) (i : Insp) (x : Pattern) (p : PatternRecipe) (edge limit : Option Int),
    x = (i.face f).pattern → p = (b.banks.contents f).pattern →
    edge = (i.marks.list.find? fun m => !(match f with | .lead => m.leadHandled | .trail => m.trailHandled)).map (fun m =>
      m.h + 1024 * ((b.motion.setup.die : Int) + (match f with | .lead => 0 | .trail => p.r))) →
    limit = (match x.state with
      | some .synced | some .coasting => x.edge.map fun e => e + 1024 * ((p.c : Int) + p.g) + 1024 * (p.tolerance : Int)
      | some .seeking => x.seek.map fun o => o + 1024 * ((p.c : Int) + p.g) + 1024 * (p.tolerance : Int)
      | some .continuous | some .lost | none => none) →
    ((∀ e ∈ edge, h.pos < e) → (∀ l ∈ limit, h.pos < l) → patternStep b f h i = i) ∧
    (∀ e ∈ edge, e ≤ h.pos → (∀ l ∈ limit, e ≤ l) → patternStep b f h i = patternStep b f h (reachEdge b f h e i)) ∧
    ∀ l ∈ limit, l ≤ h.pos → (∀ e ∈ edge, l < e) → patternStep b f h i = patternStep b f h (reachLimit b f h i)) ∧
  -- an edge
  (∀ (b : Base) (f : FaceId) (h : LineHead) (e : Int) (i j : Insp) (x y : Pattern) (p : PatternRecipe) (before after : List Mark)
      (m m' : Mark),
    x = (i.face f).pattern → p = (b.banks.contents f).pattern → i.marks.list = before ++ m :: after →
    (∀ k ∈ before, (match f with | .lead => k.leadHandled | .trail => k.trailHandled) = true) →
    (match f with | .lead => m.leadHandled | .trail => m.trailHandled) = false →
    m' = (match f with | .lead => { m with leadHandled := true } | .trail => { m with trailHandled := true }) →
    y = { x with state := some .synced, edge := some e, consumed := min (x.consumed + 1) 4294967295 } →
    j = { i with marks := { i.marks with
      list := (before ++ m' :: after).filter fun k => !(k.leadHandled && k.trailHandled) } } →
    ((x.state = some .continuous ∨ x.state = none) → reachEdge b f h e i = j) ∧
    (x.state = some .seeking → reachEdge b f h e i = j.onFace f fun z => { z with pattern := { y with seek := none } }) ∧
    ((x.state = some .synced ∨ x.state = some .coasting) → ∀ old, x.edge = some old →
      (old + 1024 * (p.c : Int) ≤ e →
        reachEdge b f h e i = j.onFace f fun z => { z with pattern := { y with misses := 0 } }) ∧
      (e < old + 1024 * (p.c : Int) → reachEdge b f h e i = j.onFace f fun z => { z with
        pattern := { x with early := min (x.early + 1) 4294967295 } })) ∧
    (x.state = some .lost → reachEdge b f h e i =
      (j.onFace f fun z => { z with pattern := { y with misses := 0 } }).offer .p2
        (.status (some f) false (.pattern .lost .synced .mark h.index (h.pos / 10240) (some (e / 10240)))))) ∧
  -- a synthesis point, a seek limit
  (∀ (b : Base) (f : FaceId) (h : LineHead) (i : Insp) (x y : Pattern) (p : PatternRecipe),
    x = (i.face f).pattern → p = (b.banks.contents f).pattern →
    y = { x with misses := x.misses + 1, missTotal := min (x.missTotal + 1) 4294967295 } →
    ((x.state = some .synced ∨ x.state = some .coasting) → ∀ old, x.edge = some old →
      (x.misses < 2 → reachLimit b f h i = i.onFace f fun z => { z with
        pattern := { y with state := some .coasting, edge := some (old + 1024 * ((p.c : Int) + p.g)) } }) ∧
      (2 ≤ x.misses → reachLimit b f h i = (i.onFace f fun z => { z with
        pattern := { y with state := some .lost, edge := none, lost := min (x.lost + 1) 4294967295 } }).offer .p2
          (.status (some f) true (.pattern .coasting .lost .miss h.index (h.pos / 10240) none)))) ∧
    (x.state = some .seeking → reachLimit b f h i = (i.onFace f fun z => { z with
      pattern := { x with state := some .lost, seek := none, lost := min (x.lost + 1) 4294967295 } }).offer .p2
        (.status (some f) true (.pattern .seeking .lost .seek h.index (h.pos / 10240) none)))) ∧
  -- the zone
  ∀ (x : Pattern) (p : PatternRecipe) (pos : Int),
    ((x.state = some .continuous ∨ x.state = some .lost) → zoneAt x p pos = some .coated) ∧
    (x.state = some .seeking → zoneAt x p pos = some .gap) ∧ (x.state = none → zoneAt x p pos = none) ∧
    ((x.state = some .synced ∨ x.state = some .coasting) → ∀ e, x.edge = some e →
      (pos < e + 1024 * (p.gl : Int) → zoneAt x p pos = some .leadGuard) ∧
      (e + 1024 * (p.gl : Int) ≤ pos → pos < e + 1024 * ((p.c : Int) - p.gt) → zoneAt x p pos = some .coated) ∧
      (e + 1024 * (p.gl : Int) ≤ pos → e + 1024 * ((p.c : Int) - p.gt) ≤ pos → pos < e + 1024 * (p.c : Int) →
        zoneAt x p pos = some .trailGuard) ∧
      (e + 1024 * (p.gl : Int) ≤ pos → e + 1024 * ((p.c : Int) - p.gt) ≤ pos → e + 1024 * (p.c : Int) ≤ pos →
        zoneAt x p pos = some .gap))
/-! ### Closed blobs -/

/-- R87, R88, R90 to R92, R94, R95: one closed blob. Its machine-direction centre is the position of its middle line, counted back
from its last line, its cross-direction centre the middle of its columns in the face's geometry, rounded half up. It is counted as
closed. It is a counted event of its peak lane unless its class
does not count, its peak lies in a GUARD column or it closed with reason CHANGEOVER. Its record goes to the correlator when its
class correlates and to a report queue otherwise. A class with the excerpt flag that correlates, or whose level is not OFF, takes the
free buffer with the lowest number, or is SKIPPED and counted when none is free; closed by STOP it is WITHDRAWN from the start; one
that neither correlates nor is reported captures nothing. The window
of 32 lines and 32 columns is cut from the ring: its columns start 16 below the centre column, its last line is 15 past the
centre line, or the newest line where that is earlier; a cell whose line the ring does not hold, or whose column is void there
or off the face, is 0 and makes the excerpt a partial one. -/
def Obligations.ClosedBlobIsCountedAndDisposed : Prop :=
  ∀ (b : Base) (f : FaceId) (reason : TruncReason) (line : Option (Word × Int)) (i j : Insp) (k : Nat) (x : Blob) (g : Geometry)
    (w len : Nat) (c : Contents) (o : ClassOutcome) (r : Defect) (handed : ExcerptState → Corr) (window : Buffer → Prop),
    c = b.banks.contents f → g = (i.face f).asm.geometry → j = sendBlob b f reason line i (k, x) →
    w = min 65535 (((x.colMax - x.colMin + 1) * g.pitch + 50) / 100) →
    len = min 65535 ((((x.last - x.first).toNat + 1) * x.pitch + 512) / 1024) →
    o = classify c (decide (reason = .length)) x.polarity x.count w len →
    r = {
      face := f, number := k, cls := o.code, polarity := x.polarity, first := x.first, last := x.last,
      md := (x.lastPos - (((x.last - x.first).toNat - (x.last - x.first).toNat / 2) * x.pitch : Nat)) / 10240,
      cd := (200 * g.origin + g.sign * (x.colMin + x.colMax : Nat) * g.pitch + 100) / 200, width := w, length := len, area := x.count, peak := x.peak,
      peakCol := x.peakCol, tier := x.tier, sum := x.sum, lane := x.peakLane, inGuard := x.peakGuard, trunc := reason,
      touched := x.touched, unsync := decide ((i.face f).pattern.state = some .lost), excerpt := .none, mark := .none } →
    (∀ (e : ExcerptState) (y : Candidate),
      y = {
        record := { r with excerpt := e }, bank := b.banks.activeOn f, level := o.level, slot := o.slot,
        leadOnlyLevel := c.policy.leadOnly } →
      handed e = (match f with
        | .lead => { i.corr with leadWork := i.corr.leadWork ++ [y] }
        | .trail => { i.corr with trailWork := i.corr.trailWork ++ [.candidate y] })) →
    (∀ u : Buffer, window u ↔ ∃ (cell : Nat → Option Nat) (centre : Word), u.face = f ∧
      centre = x.first + BitVec.ofNat 32 ((x.last - x.first).toNat / 2) ∧
      u.firstLine = (match (i.face f).blob.ring with
        | [] => centre + 15
        | e :: _ => if (e.index - centre).toNat < 15 then e.index else centre + 15) - 31 ∧
      u.firstCol = ((x.colMin + x.colMax) / 2 : Nat) - 16 ∧
      (∀ q, cell q = if u.firstCol + (q % 32 : Nat) < 0 then none
        else match (i.face f).blob.ring.find? (fun e => decide (e.index = u.firstLine + BitVec.ofNat 32 (q / 32))) with
          | some e => (e.values.find? fun v => decide ((v.1 : Int) = u.firstCol + (q % 32 : Nat))).map (·.2)
          | none => none) ∧
      u.cells = (List.range 1024).map (fun q => (cell q).getD 0) ∧ u.cells.length = 1024 ∧
      (u.partly = true ↔ ∃ q < 1024, cell q = none)) →
    (j.face f).blob.closed = min ((i.face f).blob.closed + 1) 4294967295 ∧
    (j.face f).tier = { (i.face f).tier with
      blobEvents := (i.face f).tier.blobEvents ++
        if o.counts = true ∧ x.peakGuard = false ∧ reason ≠ .changeover then
          [{ lane := x.peakLane, pos := line.map fun e => e.2, index := line.map fun e => e.1 }] else [] } ∧
    (o.excerpt = false ∨ reason = .stop ∨ o.correlate = false ∧ o.level = .off →
      (j.face f).blob.skipped = (i.face f).blob.skipped) ∧
    (o.excerpt = false → o.correlate = true → j.out = i.out ∧ j.corr = handed .none) ∧
    (o.excerpt = false → o.correlate = false → j.out = i.out.route o.level o.slot (.defect r) ∧ j.corr = i.corr) ∧
    (o.excerpt = true → reason = .stop → o.correlate = true → j.out = i.out ∧ j.corr = handed .withdrawn) ∧
    (o.excerpt = true → reason = .stop → o.correlate = false →
      j.out = i.out.route o.level o.slot (.defect { r with excerpt := .withdrawn }) ∧ j.corr = i.corr) ∧
    (o.excerpt = true → reason ≠ .stop → o.correlate = false → o.level = .off → j.out = i.out ∧ j.corr = i.corr) ∧
    (o.excerpt = true → reason ≠ .stop → (o.correlate = true ∨ o.level ≠ .off) →
      (∀ m < 8, tget none i.out.buffers m = none → (∀ q < m, tget none i.out.buffers q ≠ none) →
        ∃ (u : Buffer) (e : ExcerptState) (out : Out), window u ∧ e = (if u.partly then .partly m else .captured m) ∧
          out = { i.out with buffers := tset none i.out.buffers m (some u) } ∧
          (j.face f).blob.skipped = (i.face f).blob.skipped ∧
          (o.correlate = true → j.out = out ∧ j.corr = handed e) ∧
          (o.correlate = false → j.out = out.route o.level o.slot (.defect { r with excerpt := e }) ∧ j.corr = i.corr)) ∧
      ((∀ m < 8, tget none i.out.buffers m ≠ none) →
        (j.face f).blob.skipped = min ((i.face f).blob.skipped + 1) 4294967295 ∧
        (o.correlate = true → j.out = i.out ∧ j.corr = handed .skipped) ∧
        (o.correlate = false →
          j.out = i.out.route o.level o.slot (.defect { r with excerpt := .skipped }) ∧ j.corr = i.corr)))

/-! ### The report queues, the arbiter and the link -/

/-- R157 to R159, with the capacities of the table of section 10.1: a report offered to a queue below its capacity joins at the tail,
takes the pending loss as its lost-before, and the pending loss becomes 0; then the arbiter may pick (R159). One offered to a full
queue is dropped: both losses rise, saturating, and the buffers it holds are freed, and no others (R158). A report with a level and an
express slot (R92, R114, R121, R122, R137) is offered to express queue A or B when it has slot A or B, and else to the queue of its
level; one of level OFF is offered to none, and the buffers it holds are freed, and no others (R124). -/
def Obligations.OfferIsAcceptedOrLost : Prop :=
  (capacity .reply = 8 ∧ capacity .expressA = 8 ∧ capacity .expressB = 8 ∧ capacity .p2 = 32 ∧ capacity .p1 = 64 ∧
    capacity .p0 = 128 ∧ capacity .excerpt = 8 ∧ capacity .previewLead = 1 ∧ capacity .previewTrail = 1) ∧
  (∀ (o : Out) (q : QueueId) (r : Report) (x : Queue), x = o.queue q →
    (x.entries.length < capacity q → o.offer q r = (o.setQueue q {
      entries := x.entries ++ [{ report := r, lostBefore := x.pendingLoss }], pendingLoss := 0,
      totalLost := x.totalLost }).pick) ∧
    (capacity q ≤ x.entries.length → ∃ t, o.offer q r = { o.setQueue q {
        x with pendingLoss := min (x.pendingLoss + 1) 65535, totalLost := min (x.totalLost + 1) 4294967295 } with
        buffers := t } ∧
      (∀ k, r.holds k → tget none t k = none) ∧ ∀ k, ¬ r.holds k → tget none t k = tget none o.buffers k)) ∧
  ∀ (o : Out) (r : Report),
    (∀ slot, ∃ t, o.route .off slot r = { o with buffers := t } ∧ (∀ k, r.holds k → tget none t k = none) ∧
      ∀ k, ¬ r.holds k → tget none t k = tget none o.buffers k) ∧
    (∀ level, level ≠ .off →
      o.route level .a r = o.offer .expressA r ∧ o.route level .b r = o.offer .expressB r) ∧
    o.route .p0 .none r = o.offer .p0 r ∧ o.route .p1 .none r = o.offer .p1 r ∧ o.route .p2 .none r = o.offer .p2 r

/-- R159, R160, R166: a transmit completion counts the frame (saturating at 2^32 - 1: log 17) and lets the arbiter pick the
next; before the pick a DEFECT that holds a buffer appends its EXCERPT entry, a THROUGH the entry of its LEAD record's buffer,
if it holds one, and then that of its TRAIL record's, an EXCERPT frame frees its buffer, a START report is no longer pending
(these two but for a frame that a later STOP or reset has overtaken, which does neither: log 36). The pick: a pending START
report first; then the head of the first non-empty queue in the order of R159; the preview slots by the toggle, which changes
only when both hold a line; nothing while all is empty, the link is DOWN or a frame is in transmission. With nothing in
transmission there is no completion (log 4). -/
def Obligations.TransmitCompletionPicksNext : Prop :=
  (∀ (s : State) (o o' : Out) (t : InFlight), o = s.dev.insp.out → o.tx = some t →
    o' = { o with tx := none, framesSent := min (o.framesSent + 1) 4294967295 } →
    (∀ r, t.report = .defect r →
      (∀ k, r.excerpt = .captured k ∨ r.excerpt = .partly k → exec .transmitCompletion s = .next { s with
        dev := s.dev.onOut fun _ => (o'.offer .excerpt (.excerpt {
          face := r.face, cls := r.cls, first := r.first, last := r.last, buffer := k })).pick }) ∧
      (r.excerpt = .none ∨ r.excerpt = .skipped ∨ r.excerpt = .withdrawn →
        exec .transmitCompletion s = .next { s with
          dev := s.dev.onOut fun _ => o'.pick })) ∧
    (∀ e, t.report = .excerpt e → t.live = true → exec .transmitCompletion s = .next { s with
      dev := s.dev.onOut fun _ => Out.pick { o' with buffers := tset none o.buffers e.buffer none } }) ∧
    (∀ a b c, t.report = .start a b c → t.live = true → exec .transmitCompletion s = .next { s with
      dev := s.dev.onOut fun _ => Out.pick { o' with startPending := false } }) ∧
    (∀ l r md cd k m, t.report = .through l r md cd → l.excerpt = .captured k ∨ l.excerpt = .partly k →
      r.excerpt = .captured m ∨ r.excerpt = .partly m → exec .transmitCompletion s = .next { s with
        dev := s.dev.onOut fun _ => ((o'.offer .excerpt (.excerpt {
          face := l.face, cls := l.cls, first := l.first, last := l.last, buffer := k })).offer .excerpt (.excerpt {
          face := r.face, cls := r.cls, first := r.first, last := r.last, buffer := m })).pick }) ∧
    (∀ l r md cd k, t.report = .through l r md cd → l.excerpt = .captured k ∨ l.excerpt = .partly k →
      r.excerpt = .none ∨ r.excerpt = .skipped ∨ r.excerpt = .withdrawn → exec .transmitCompletion s = .next { s with
        dev := s.dev.onOut fun _ => (o'.offer .excerpt (.excerpt {
          face := l.face, cls := l.cls, first := l.first, last := l.last, buffer := k })).pick }) ∧
    (∀ l r md cd m, t.report = .through l r md cd → l.excerpt = .none ∨ l.excerpt = .skipped ∨ l.excerpt = .withdrawn →
      r.excerpt = .captured m ∨ r.excerpt = .partly m → exec .transmitCompletion s = .next { s with
        dev := s.dev.onOut fun _ => (o'.offer .excerpt (.excerpt {
          face := r.face, cls := r.cls, first := r.first, last := r.last, buffer := m })).pick }) ∧
    (∀ l r md cd, t.report = .through l r md cd → l.excerpt = .none ∨ l.excerpt = .skipped ∨ l.excerpt = .withdrawn →
      r.excerpt = .none ∨ r.excerpt = .skipped ∨ r.excerpt = .withdrawn → exec .transmitCompletion s = .next { s with
        dev := s.dev.onOut fun _ => o'.pick }) ∧
    (t.live = false → (∃ e, t.report = .excerpt e) ∨ (∃ a b c, t.report = .start a b c) →
      exec .transmitCompletion s = .next { s with
        dev := s.dev.onOut fun _ => o'.pick }) ∧
    ((∃ r, t.report = .reply r) ∨ (∃ r, t.report = .streak r) ∨ (∃ r, t.report = .lane r) ∨ (∃ p, t.report = .preview p) ∨
        (∃ f u st, t.report = .status f u st) →
      exec .transmitCompletion s = .next { s with
        dev := s.dev.onOut fun _ => o'.pick })) ∧
  (∀ s : State, s.dev.insp.out.tx = none → exec .transmitCompletion s = .next s) ∧
  ∀ o : Out,
    ((o.linkUp = false ∨ o.tx ≠ none) → o.pick = o) ∧
    (o.linkUp = true → o.tx = none →
      (o.startPending = true → o.pick = { o with
        tx := some {
          queue := none, report := .start o.cause o.tag o.kept,
          words := frameWords o.buffers (.start o.cause o.tag o.kept) 0, live := true } }) ∧
      (o.startPending = false →
        (∀ before q after e rest, before ++ q :: after = [.reply, .expressA, .expressB, .p2, .p1, .p0, .excerpt] →
          (∀ p ∈ before, (o.queue p).entries = []) → (o.queue q).entries = e :: rest →
          o.pick = { o.setQueue q { o.queue q with entries := rest } with
            tx := some {
              queue := some q, report := e.report, words := frameWords o.buffers e.report e.lostBefore, live := true } }) ∧
        ((∀ q ∈ [QueueId.reply, .expressA, .expressB, .p2, .p1, .p0, .excerpt], (o.queue q).entries = []) →
          (∀ f e rest, (o.queue (previewQueue f)).entries = e :: rest →
            ((o.queue (previewQueue (otherFace f))).entries = [] ∨ o.toggle = f) →
            o.pick = { o.setQueue (previewQueue f) { o.queue (previewQueue f) with entries := rest } with
              toggle := if (o.queue (previewQueue (otherFace f))).entries = [] then o.toggle else otherFace f,
              tx := some {
                queue := some (previewQueue f), report := e.report,
                words := frameWords o.buffers e.report e.lostBefore, live := true } }) ∧
          (o.previewLead.entries = [] → o.previewTrail.entries = [] → o.pick = o))))

/-- R164, R165, R169: the link going UP picks at once. Going DOWN it loses the frame in transmission, which is counted against the
queue it was picked from and frees the buffers it holds, and no others (a frame that a later STOP or reset has overtaken is counted and frees none:
log 36), and counts the change (saturating at 2^32 - 1: log 17) and an inbound frame cut short. An inbound frame
while the link is UP is discarded and counted when its check word, its length or its size is wrong; else it is a command, queued
at the tail, answered BUSY, or discarded. Every frame sent opens with its header, carries the fields of its report in the words and
bits of sections 12.3 to 12.7 by the codes of 12.2, every other bit 0, and ends with its check word (R180). Where a record holds no
buffer its buffer field is not fixed (log 12); the lead-only reason is 0 in a record that is not lead-only (log 23); a streak peak is
sent as its low 17 bits (log 50). Events that the link state rules out change nothing (log 4); the kind of an inbound frame is not
tested (log 26). -/
def Obligations.LinkEventsTakeEffect : Prop :=
  (∀ s : State,
    (s.dev.insp.out.linkUp = false → exec .linkUp s = .next { s with
      dev := s.dev.onOut fun o => Out.pick { o with linkUp := true } }) ∧
    (s.dev.insp.out.linkUp = true → exec .linkUp s = .next s) ∧
    ∀ receiving, s.dev.insp.out.linkUp = false → exec (.linkDown receiving) s = .next s) ∧
  (∀ (s : State) (receiving : Bool) (o : Out), o = s.dev.insp.out → o.linkUp = true →
    ∃ o' : Out, exec (.linkDown receiving) s = .next { s with
        dev := s.dev.onOut fun _ => o' } ∧
      o'.linkUp = false ∧ o'.tx = none ∧ o'.linkDowns = min (o.linkDowns + 1) 4294967295 ∧
      o'.inboundErrors = (if receiving then min (o.inboundErrors + 1) 4294967295 else o.inboundErrors) ∧
      o'.startPending = o.startPending ∧ o'.cause = o.cause ∧ o'.tag = o.tag ∧ o'.kept = o.kept ∧ o'.toggle = o.toggle ∧
      o'.framesSent = o.framesSent ∧
      (∀ q, (∀ t ∈ o.tx, t.queue ≠ some q) → o'.queue q = o.queue q) ∧
      (∀ t, o.tx = some t →
        (∀ q, t.queue = some q → o'.queue q = { o.queue q with
          pendingLoss := min ((o.queue q).pendingLoss + 1) 65535, totalLost := min ((o.queue q).totalLost + 1) 4294967295 }) ∧
        (∀ k, t.report.holds k → tget none o'.buffers k = none) ∧
        ((∀ e, t.report ≠ .excerpt e) → ∀ k, ¬ t.report.holds k → tget none o'.buffers k = tget none o.buffers k) ∧
        (∀ e, t.report = .excerpt e → t.live = true → o'.buffers = tset none o.buffers e.buffer none) ∧
        (∀ e, t.report = .excerpt e → t.live = false → o'.buffers = o.buffers) ∧
        ((∀ k, ¬ t.report.holds k) → (∀ e, t.report ≠ .excerpt e) → o'.buffers = o.buffers)) ∧
      (o.tx = none → o'.buffers = o.buffers)) ∧
  (∀ (ws : List Word) (s : State) (c : Command),
    c = {
      code := (ws.getD 1 0).toNat / 16777216, tag := (ws.getD 1 0).toNat / 65536 % 256,
      count := (ws.getD 1 0).toNat % 65536, ops := (ws.drop 2).dropLast } →
    (s.dev.insp.out.linkUp = false → exec (.inboundFrame ws) s = .next s) ∧
    (s.dev.insp.out.linkUp = true →
      (ws.getLast? ≠ some (frameCheck ws.dropLast) ∨ ws.length ≠ (ws.getD 0 0).toNat % 16777216 ∨ ws.length < 3 ∨
          518 < ws.length →
        exec (.inboundFrame ws) s = .next { s with
          dev := s.dev.onOut fun o => { o with inboundErrors := min (o.inboundErrors + 1) 4294967295 } }) ∧
      (ws.getLast? = some (frameCheck ws.dropLast) → ws.length = (ws.getD 0 0).toNat % 16777216 → 3 ≤ ws.length →
        ws.length ≤ 518 →
        (s.dev.base.exec.queue.length < 4 → exec (.inboundFrame ws) s = .next { s with
          dev := s.dev.onExec fun x => { x with queue := x.queue ++ [c] } }) ∧
        (4 ≤ s.dev.base.exec.queue.length → s.dev.canReply = true → exec (.inboundFrame ws) s = .next { s with
          dev := (s.dev.onExec fun x => { x with busy := min (x.busy + 1) 4294967295 }).reply c.code c.tag .busy [] }) ∧
        (4 ≤ s.dev.base.exec.queue.length → s.dev.canReply = false → exec (.inboundFrame ws) s = .next { s with
          dev := s.dev.onExec fun x => { x with discarded := min (x.discarded + 1) 4294967295 } })))) ∧
  (∀ (b : Table (Option Buffer)) (r : Report) (lost : Nat),
    (frameWords b r lost).getLast? = some (frameCheck (frameWords b r lost).dropLast)) ∧
  -- the frames (12.3 to 12.7): header, body, check word
  (∀ (b : Table (Option Buffer)) (lost : Nat) (sent : Nat → Nat → Bool → List Word → List Word) (pairs : List Nat → List Word)
      (block : Defect → Nat → Nat → List Word),
    (∀ kind face unsync body ws,
      ws = BitVec.ofNat 32 (kind * 16777216 + (body.length + 3) % 16777216) ::
        BitVec.ofNat 32 (lost % 65536 * 65536 + face * 16384 + (if unsync then 8192 else 0)) :: body →
      sent kind face unsync body = ws ++ [frameCheck ws]) →
    pairs [] = [] → (∀ x, pairs [x] = [BitVec.ofNat 32 (x % 4096)]) →
    (∀ x y l, pairs (x :: y :: l) = BitVec.ofNat 32 (x % 4096 + y % 4096 * 65536) :: pairs l) →
    (∀ r buffer mark, block r buffer mark = [
      BitVec.ofNat 32 (r.cls % 16 * 268435456 + polarityCode r.polarity * 134217728 + excerptCode r.excerpt * 16777216 +
        buffer * 2097152 + truncCode r.trunc * 262144 + flagCode r.inGuard * 131072 + flagCode r.touched * 65536 +
        corrMarkCode r.mark * 16384 + leadOnlyCode r.mark * 4096 + r.tier % 4 * 1024 + mark * 512),
      BitVec.ofNat 32 (r.number % 256 * 16777216 + r.lane % 16 * 1048576 + r.peakCol % 8192), r.first, r.last, wordI r.md,
      wordI r.cd, BitVec.ofNat 32 (r.width % 65536 * 65536 + r.length % 65536), BitVec.ofNat 32 (r.area % 65536),
      BitVec.ofNat 32 (r.peak % 131072), BitVec.ofNat 32 r.sum]) →
    (∀ r, frameWords b (.reply r) lost = sent 0x10 3 false
      (BitVec.ofNat 32 (r.code % 256 * 16777216 + r.tag % 256 * 65536 + replyCodeOf r.reply * 256) :: r.body)) ∧
    (∀ r, ∃ buffer < 8, (∀ k, r.excerpt = .captured k ∨ r.excerpt = .partly k → buffer = k % 8) ∧
      frameWords b (.defect r) lost = sent 0x20 (faceCode r.face) r.unsync (block r buffer 0) ∧
      ∀ t md cd, ∃ buffer' < 8, (∀ k, t.excerpt = .captured k ∨ t.excerpt = .partly k → buffer' = k % 8) ∧
        frameWords b (.through r t md cd) lost = sent 0x21 2 (r.unsync || t.unsync)
          (block r buffer (flagCode r.unsync) ++ block t buffer' (flagCode t.unsync) ++ [wordI md, wordI cd])) ∧
    (∀ (r : StreakReport) (w : Nat), w = r.number % 64 * 67108864 + polarityCode r.polarity * 33554432 +
        flagCode r.inGuard * 32768 + r.lane % 16 * 2048 →
      (r.kind = .opened → frameWords b (.streak r) lost = sent 0x30 (faceCode r.face) r.unsync [
        BitVec.ofNat 32 (w + r.tierAtOpen % 4 * 512), BitVec.ofNat 32 (r.founding % 8192 * 524288), 0, wordI r.start,
        wordI r.pos, 0, 0, 0, BitVec.ofNat 32 (r.peak % 131072)]) ∧
      (r.kind = .continued → frameWords b (.streak r) lost = sent 0x31 (faceCode r.face) r.unsync [
        BitVec.ofNat 32 (w + r.tierNow % 4 * 128), BitVec.ofNat 32 (r.members % 16384 * 32),
        BitVec.ofNat 32 (r.colMin % 8192 * 65536 + r.colMax % 8192), wordI r.start, wordI r.pos, BitVec.ofNat 32 r.length,
        BitVec.ofNat 32 r.width, wordI r.cd, BitVec.ofNat 32 (r.peak % 131072)]) ∧
      ∀ reason survivor, r.kind = .closed reason survivor → frameWords b (.streak r) lost =
        sent 0x32 (faceCode r.face) r.unsync [
          BitVec.ofNat 32 (w + streakReasonCode reason * 4194304 + survivor.getD 0 % 64 * 65536 + r.tierAtOpen % 4 * 512),
          BitVec.ofNat 32 (r.founding % 8192 * 524288), BitVec.ofNat 32 (r.colMin % 8192 * 65536 + r.colMax % 8192),
          wordI r.start, wordI r.pos, BitVec.ofNat 32 r.length, BitVec.ofNat 32 r.width, wordI r.cd,
          BitVec.ofNat 32 (r.peak % 131072)]) ∧
    (∀ r, frameWords b (.lane r) lost = sent 0x40 (faceCode r.face) r.unsync [
      BitVec.ofNat 32 (r.lane % 16 * 268435456 + laneCauseCode r.cause * 33554432 + r.oldTier % 4 * 8388608 +
        r.newTier % 4 * 2097152 + r.own % 4 * 524288 + r.minLimit % 4 * 131072 + r.maxLimit % 4 * 32768 +
        flagCode r.alert * 16384 + r.windowSum % 2048),
      r.index.getD 0xFFFFFFFF#32, (r.pos.map wordI).getD 0xFFFFFFFF#32]) ∧
    (∀ (f : Option FaceId) (u : Bool) (st : Status) (face : Nat), face = (f.map faceCode).getD 3 →
      frameWords b (.status f u st) lost = sent 0x50 face u (match st with
        | .motion old new h speed => [BitVec.ofNat 32 (16777216 + motionCode old * 4194304 + motionCode new * 1048576),
            wordI h, BitVec.ofNat 32 speed, 0]
        | .rewound h p => [BitVec.ofNat 32 (2 * 16777216), wordI h, wordI p, 0]
        | .head port old new cause line => [BitVec.ofNat 32 (3 * 16777216 + port % 4 * 4194304 + headCode old * 1048576 +
            headCode new * 262144 + headCauseCode cause * 65536), line, 0, 0]
        | .learnDone len index n => [BitVec.ofNat 32 (4 * 16777216 + len % 8192), index, BitVec.ofNat 32 n, 0]
        | .blobSaturation on n index => [BitVec.ofNat 32 (5 * 16777216 + flagCode on * 8388608 + n % 512),
            index.getD 0xFFFFFFFF#32, 0, 0]
        | .streakSaturation on n index => [BitVec.ofNat 32 (6 * 16777216 + flagCode on * 8388608 + n % 128),
            index.getD 0xFFFFFFFF#32, 0, 0]
        | .pattern old new cause index pos edge => [BitVec.ofNat 32 (7 * 16777216 + patternCode old * 2097152 +
            patternCode new * 262144 + patternCauseCode cause * 65536), index, wordI pos, (edge.map wordI).getD 0]
        | .alert on n na index pos => [BitVec.ofNat 32 (8 * 16777216 + flagCode on * 8388608 + n % 32 * 65536 + na % 32),
            index.getD 0xFFFFFFFF#32, (pos.map wordI).getD 0xFFFFFFFF#32, 0]
        | .bankSwitched old new p index pos => [BitVec.ofNat 32 (9 * 16777216 + bankCode old * 8388608 +
            bankCode new * 4194304), wordI p, index, wordI pos])) ∧
    (∀ (e : ExcerptEntry) (u : Buffer), tget none b e.buffer = some u →
      frameWords b (.excerpt e) lost = sent 0x60 (faceCode e.face) false
        (BitVec.ofNat 32 (e.cls % 16 * 268435456 + flagCode u.partly * 134217728 + e.buffer % 8 * 16777216) :: e.first ::
          e.last :: u.firstLine :: wordI u.firstCol :: pairs u.cells)) ∧
    (∀ p : PreviewLine, frameWords b (.preview p) lost = sent 0x70 (faceCode p.face) false
      (BitVec.ofNat 32 ((if p.cls = .creep then 2147483648 else 0) + p.binning % 16) :: p.index :: wordI p.pos ::
        pairs p.bins)) ∧
    ∀ cause tag kept, frameWords b (.start cause tag kept) lost = sent 0x80 3 false
      [BitVec.ofNat 32 (causeCode cause * 1073741824 + flagCode kept * 536870912 +
        (match tag with | some t => 256 + t % 256 | none => 0))]) ∧
  -- the codes (12.2)
  [FaceId.lead, .trail].map faceCode = [0, 1] ∧ [Polarity.bright, .dark].map polarityCode = [0, 1] ∧
  [false, true].map flagCode = [0, 1] ∧ [BankId.bank0, .bank1].map bankCode = [0, 1] ∧
  (∀ k, [ExcerptState.none, .captured k, .partly k, .skipped, .withdrawn].map excerptCode = [0, 1, 2, 3, 4]) ∧
  [TruncReason.none, .length, .pattern, .changeover, .motion, .stop].map truncCode = [0, 1, 2, 3, 4, 5] ∧
  [StreakReason.released, .merged, .changeover, .motion, .stop].map streakReasonCode = [1, 2, 3, 4, 5] ∧
  [LaneCause.escalate, .relax, .alertFloor, .limit, .changeover].map laneCauseCode = [0, 1, 2, 3, 4] ∧
  [MotionState.still, .creep, .moving, .backing].map motionCode = [0, 1, 2, 3] ∧
  [HeadState.off, .active, .silent].map headCode = [0, 1, 2] ∧
  [HeadCause.placement, .missing, .packet].map headCauseCode = [0, 1, 2] ∧
  [PatternState.continuous, .seeking, .synced, .coasting, .lost].map patternCode = [0, 1, 2, 3, 4] ∧
  [PatternCause.miss, .seek, .mark, .changeover].map patternCauseCode = [0, 1, 2, 3] ∧
  [ReplyCode.done, .clamped, .busy, .state, .range, .locked, .overlap, .stale, .tooLate, .unknown, .malformed].map replyCodeOf =
    [0, 1, 2, 3, 4, 5, 6, 7, 8, 9, 10] ∧
  [ResetCause.power, .pin, .command].map causeCode = [0, 1, 2] ∧
  ∀ x : LeadOnlyReason, [CorrMark.none, .leadOnly x, .trailOnly].map corrMarkCode = [0, 1, 2] ∧
    [CorrMark.none, .leadOnly .expired, .leadOnly .evicted, .leadOnly .stop, .trailOnly].map leadOnlyCode = [0, 1, 2, 3, 0]

/-! ### The Command Executor -/

/-- R170, R171, R174, R181: which command a code of 12.3 is, and a QUERY by its kind (of no known kind, or of another length, it is
refused in the row QUERY_STATUS: log 5); and what befalls the head command before its owning rule. An unknown code is answered UNKNOWN whatever its operand
count; a wrong operand count is answered MALFORMED; either changes nothing else but the executor. The operand counts are those of
R181. With the reply queue full nothing is executed, but for a RESET with its operand count right; a malformed RESET waits for a
place like any other command (log 24). A row that is not the head command's does not occur (log 3), and like a command that waits
leaves the part as it is (log 4). -/
def Obligations.RefusedFrameIsAnswered : Prop :=
  (∀ (c : Command) (rest : List Command) (s : State) (d : Dev), s.dev.base.exec.queue = c :: rest →
    d = s.dev.takeCommand rest →
    (s.dev.canReply = true →
      (c.code ∉ [0x01, 0x02, 0x03, 0x04, 0x05, 0x06, 0x10, 0x11, 0x12, 0x13, 0x14, 0x20, 0x21, 0x30, 0x31, 0x32, 0x33, 0x40,
          0x50, 0x51, 0x52, 0xFF] →
        exec .unknownCommand s = .next (answered s c d .unknown [])) ∧
      (rowOf c ≠ .unknownCommand → c.malformed = true → exec (rowOf c) s = .next (answered s c d .malformed []))) ∧
    (s.dev.canReply = false → (c.code ≠ 0xFF ∨ c.malformed = true) → exec (rowOf c) s = .next s) ∧
    (∀ c' : Command, rowOf c' ≠ rowOf c → exec (rowOf c') s = .next s)) ∧
  (∀ c' s, s.dev.base.exec.queue = [] → exec (rowOf c') s = .next s) ∧
  (∀ e ∈ [(0x01, 2), (0x02, 7), (0x03, 4), (0x05, 0), (0x06, 3), (0x10, 2), (0x12, 1), (0x13, 2), (0x14, 0), (0x20, 1), (0x21, 0),
      (0x30, 1), (0x31, 3), (0x32, 3), (0x40, 4), (0x50, 2), (0x51, 0), (0xFF, 0)],
    ∀ c : Command, c.code = e.1 → (c.malformed = false ↔ rightCount c e.2)) ∧
  (∀ c : Command, c.code = 0x04 → (c.malformed = false ↔ rightCount c (3 + 2 * c.nat 2))) ∧
  (∀ c : Command, c.code = 0x33 → (c.malformed = false ↔ rightCount c (3 + c.nat 2))) ∧
  (∀ c : Command, c.code = 0x52 → (c.malformed = false ↔ rightCount c (1 + 2 * c.nat 0))) ∧
  (∀ e ∈ [(0, 6), (1, 6), (2, 13), (3, 17), (4, 3), (5, 10), (6, 6), (7, 11), (8, 2)],
    ∀ c : Command, c.code = 0x11 → c.nat 1 = e.1 → (c.malformed = false ↔ rightCount c (4 + c.nat 3 * e.2))) ∧
  (∀ e ∈ [(0x01, Instr.lineSetup), (0x02, .placementWrite), (0x03, .geometryWrite), (0x04, .flatWrite),
      (0x05, .setCalibrationLock), (0x06, .previewSet), (0x10, .bankOpen), (0x11, .bankWrite), (0x12, .bankCheck),
      (0x13, .bankSchedule), (0x14, .bankCancel), (0x20, .start), (0x21, .stop), (0x30, .baselineLearn), (0x31, .baselineRead),
      (0x32, .baselineReserve), (0x33, .baselinePut), (0x40, .tierLimit), (0x51, .clearCounters), (0x52, .retainWrite),
      (0xFF, .reset)],
    ∀ c : Command, c.code = e.1 → rowOf c = e.2) ∧
  (∀ e ∈ [(0, Instr.queryStatus), (1, .queryCounters), (2, .queryLanes), (3, .queryStreaks), (4, .queryPending),
      (5, .queryRetained)],
    ∀ c : Command, c.code = 0x50 → c.count = 2 → c.ops.length = 2 → c.nat 0 = e.1 → rowOf c = e.2) ∧
  (∀ c : Command, c.code = 0x50 → (c.count ≠ 2 ∨ c.ops.length ≠ 2 ∨ 5 < c.nat 0) → rowOf c = .queryStatus) ∧
  (∀ c : Command, rowOf c = .unknownCommand ↔ c.code ∉ [0x01, 0x02, 0x03, 0x04, 0x05, 0x06, 0x10, 0x11, 0x12, 0x13, 0x14, 0x20,
    0x21, 0x30, 0x31, 0x32, 0x33, 0x40, 0x50, 0x51, 0x52, 0xFF]) ∧
  ∀ c : Command, c.code = 0x11 → 8 < c.nat 1 → (c.malformed = false ↔ c.count = c.ops.length)

/-- R18, R37, R59, R63, R74, R98, R116, R128, R142, R156, R168, R174, R176, R179: the six queries. Each replies DONE with the values
of its kind as they stand when it is executed, and changes nothing else; a face outside LEAD and TRAIL, and a kind outside the six,
is refused with RANGE (log 5). The layout is the model's choice (log 21): one value a word, in the order the rules list them, LEAD's
before TRAIL's, absent values as FFFFFFFFh. Codes that no table gives are free values (log 11). A creep length is sent modulo 2^32
(log 43); the number of queued commands leaves the query out (log 48); the executed count counts the query itself or not (log 13);
the floor of LANES is the Fa that the face loaded last (log 27); a streak record follows R116, not the table of 6.4 (log 58). -/
def Obligations.QueriesAnswerAndChangeNothing : Prop :=
  ∀ (c : Command) (rest : List Command) (s : State) (d : Dev) (opt : Option Nat → Word) (pos : Option Int → Word)
    (flag : Bool → Word) (queues : List QueueId), d = s.dev.takeCommand rest →
    (∀ n, opt n = (n.map word).getD 0xFFFFFFFF#32) → (∀ p, pos p = (p.map fun q => wordI (q / 10240)).getD 0xFFFFFFFF#32) →
    (∀ x, flag x = word (if x then 1 else 0)) →
    queues = [.reply, .expressA, .expressB, .p2, .p1, .p0, .excerpt, .previewLead, .previewTrail] →
    (Ready .queryStatus c rest s →
      (c.nat 0 = 0 → ∀ (m : Motion) (banks : Banks) (out : Out) (columns : List Word),
        m = s.dev.base.motion → banks = s.dev.base.banks → out = s.dev.insp.out →
        columns = ([FaceId.lead, .trail].flatMap fun f =>
          (if (banks.activeOn f).isSome then
            [PlanKind.lane, .guard, .margin, .exclude, .unmapped].map fun k => word ((List.range 8192).filter fun col =>
              decide (columnKind (banks.plan f) (s.dev.base.lit f) col = .planned k)).length
          else []) ++ [word ((List.range 8192).filter (s.dev.base.dark f)).length] ++
          (List.range 16).flatMap fun lane => if (banks.activeOn f).isSome then
            [PlanKind.lane, .guard].map fun k => word ((List.range 8192).filter fun col => !s.dev.base.dark f col &&
              decide (planEntry ((banks.plan f).getD []) col = { kind := k, lane := some lane })).length
          else [0xFFFFFFFF#32, 0xFFFFFFFF#32]) →
        exec .queryStatus s = .next (answered s c d .done (
          -- the Motion Unit
          [word (match m.state with | .still => 0 | .creep => 1 | .moving => 2 | .backing => 3), wordI (m.p / 10240),
            wordI (m.h / 10240), word m.speed] ++
          ([FaceId.lead, .trail].flatMap fun f => [wordI (s.dev.base.facePos f / 10240), (s.dev.face f).grid.index,
            wordI ((s.dev.face f).grid.next / 10240), wordI (((s.dev.face f).grid.creep : Int) / 10240)]) ++
          [word m.setup.e, word m.setup.n, word m.setup.d, word m.setup.die, word m.setup.vmin, word m.setup.backlash,
            word m.setup.reverse, word m.setup.window] ++
          -- ports and assemblers
          ([0, 1, 2, 3].flatMap fun n => [flag (s.dev.base.port n).place.enabled,
            word (faceCode (s.dev.base.port n).place.face), word (s.dev.base.port n).place.first,
            word (s.dev.base.port n).place.last, word (s.dev.base.port n).place.origin,
            flag (s.dev.base.port n).place.descending,
            word (match (s.dev.base.port n).head with | .off => 0 | .active => 1 | .silent => 2),
            word (s.dev.base.port n).missing]) ++
          ([FaceId.lead, .trail].flatMap fun f => [wordI (s.dev.face f).asm.geometry.origin,
            word (s.dev.face f).asm.geometry.pitch, flag (s.dev.face f).asm.geometry.mirrored,
            word ((List.range 8192).filter (s.dev.base.dark f)).length, word (s.dev.face f).asm.slots.length]) ++
          [flag s.dev.base.sens.locked] ++
          -- the Pixel Chains
          ([FaceId.lead, .trail].flatMap fun f =>
            [Config.code .facePhase (match (s.dev.face f).pixel.phase with | .idle => 0 | .learning => 1 | .detecting => 2)] ++
            (if (s.dev.face f).pixel.phase = .learning then
              [word (s.dev.face f).pixel.learnLines, word (s.dev.face f).pixel.learnLength]
            else [0xFFFFFFFF#32, 0xFFFFFFFF#32]) ++ [word (s.dev.face f).pixel.lastClip] ++
            (match (s.dev.face f).pixel.reservation with
              | some r => [word r.first, word r.snapshot.length]
              | none => [0xFFFFFFFF#32, 0xFFFFFFFF#32]) ++
            [if (s.dev.face f).pixel.phase = .idle then 0xFFFFFFFF#32
              else word ((List.range 8192).filter fun col =>
                decide ((planEntry ((banks.plan f).getD []) col).kind = .lane) && !s.dev.base.dark f col &&
                  !((s.dev.face f).pixel.col col).learned).length]) ++
          -- columns, the pattern
          columns ++ [word s.dev.insp.marks.list.length] ++
          ([FaceId.lead, .trail].flatMap fun f => [
            opt ((s.dev.face f).pattern.state.map fun st => match st with
              | .continuous => 0 | .seeking => 1 | .synced => 2 | .coasting => 3 | .lost => 4),
            pos (s.dev.face f).pattern.edge, word (s.dev.face f).pattern.misses, pos (s.dev.face f).pattern.seek,
            ((s.dev.face f).pattern.lastZone.map fun z => Config.code .zone (match z with
              | .coated => 0 | .leadGuard => 1 | .trailGuard => 2 | .gap => 3)).getD 0xFFFFFFFF#32]) ++ columns ++
          -- blobs, streaks, the pending list, tiers
          ([FaceId.lead, .trail].flatMap fun f => [word (s.dev.face f).blob.openCount, flag (s.dev.face f).blob.saturated]) ++
          [word ((List.range 8).filter fun k => (tget none out.buffers k).isNone).length] ++
          ([FaceId.lead, .trail].flatMap fun f => [word (s.dev.face f).streak.openCount, flag (s.dev.face f).streak.saturated] ++
            [ColumnStreak.onset, .streak, .releasing].map fun st =>
              word ((s.dev.face f).streak.cols.filter fun e => decide (e.2.state = st)).length) ++
          [word s.dev.insp.corr.list.length] ++
          ([FaceId.lead, .trail].flatMap fun f => [flag (s.dev.face f).tier.alert,
            word ((List.range 16).filter fun j => decide (2 ≤ ((s.dev.face f).tier.lane j).own)).length]) ++
          -- banks
          [Config.code .partState (if banks.running then 1 else 0)] ++
          ([BankId.bank0, .bank1].flatMap fun k => match (banks.bank k).state with
            | .vacant => [Config.code .bankState 0, 0xFFFFFFFF#32]
            | .opened => [Config.code .bankState 1, 0xFFFFFFFF#32]
            | .checking => [Config.code .bankState 2, 0xFFFFFFFF#32]
            | .checked => [Config.code .bankState 3, 0xFFFFFFFF#32]
            | .scheduled => [Config.code .bankState 4, 0xFFFFFFFF#32]
            | .active fs => [Config.code .bankState 5, word (match fs with | .lead => 0 | .trail => 1 | .both => 2)]) ++
          [pos banks.switchPos, flag banks.isChecking, if banks.bank0.state = .checking then 0
            else if banks.bank1.state = .checking then 1 else 0xFFFFFFFF#32] ++
          ([BankId.bank0, .bank1].flatMap fun k => [opt ((banks.bank k).compiled.map (·.minLines)),
            opt ((banks.bank k).compiled.map (·.releaseLines))]) ++
          -- the link, the executor
          [Config.code .linkState (if out.linkUp then 1 else 0)] ++ queues.map (fun q => word (out.queue q).entries.length) ++
          queues.map (fun q => word (out.queue q).pendingLoss) ++ [flag out.startPending] ++
          ([FaceId.lead, .trail].flatMap fun f => [word (s.dev.face f).preview.decimation, word (s.dev.face f).preview.binning]) ++
          [word rest.length, word (match out.cause with | .power => 0 | .pin => 1 | .command => 2), opt out.tag,
            flag out.kept]))) ∧
      (5 < c.nat 0 → exec .queryStatus s = .next (answered s c d .range []))) ∧
    (Ready .queryCounters c rest s →
      ∃ n : Nat, (n = s.dev.base.exec.executed ∨ n = min (s.dev.base.exec.executed + 1) 4294967295) ∧
        exec .queryCounters s = .next (answered s c d .done (
          [word s.dev.base.motion.encFaults] ++ ([FaceId.lead, .trail].map fun f => word (s.dev.face f).grid.overruns) ++
          ([0, 1, 2, 3].flatMap fun n => [word (s.dev.base.port n).counts.stray, word (s.dev.base.port n).counts.errors,
            word (s.dev.base.port n).counts.short, word (s.dev.base.port n).counts.long,
            word (s.dev.base.port n).counts.truncated, word (s.dev.base.port n).counts.late,
            word (s.dev.base.port n).counts.duplicate, word (s.dev.base.port n).counts.missingLines]) ++
          ([FaceId.lead, .trail].flatMap fun f => [word (s.dev.face f).asm.forced, word (s.dev.face f).asm.abandoned]) ++
          ([FaceId.lead, .trail].flatMap fun f => [word (s.dev.face f).pixel.clipped, word (s.dev.face f).pixel.processed]) ++
          [word s.dev.insp.marks.accepted, word s.dev.insp.marks.repeated, word s.dev.insp.marks.dropped] ++
          ([FaceId.lead, .trail].flatMap fun f => [word (s.dev.face f).pattern.consumed, word (s.dev.face f).pattern.early,
            word (s.dev.face f).pattern.missTotal, word (s.dev.face f).pattern.lost]) ++
          ([FaceId.lead, .trail].flatMap fun f => [word (s.dev.face f).blob.dropped, word (s.dev.face f).blob.discarded,
            word (s.dev.face f).blob.merges, word (s.dev.face f).blob.closed, word (s.dev.face f).blob.skipped,
            word (s.dev.face f).blob.satEntries]) ++
          ([FaceId.lead, .trail].flatMap fun f => [word (s.dev.face f).streak.opened, word (s.dev.face f).streak.closed,
            word (s.dev.face f).streak.merges, word (s.dev.face f).streak.held, word (s.dev.face f).streak.satEntries]) ++
          [word s.dev.insp.corr.matchCount, word s.dev.insp.corr.trailOnly, word s.dev.insp.corr.expired,
            word s.dev.insp.corr.evicted, word s.dev.insp.corr.stopped, word s.dev.insp.corr.highWater] ++
          ([FaceId.lead, .trail].flatMap fun f => [word (s.dev.face f).tier.escalations, word (s.dev.face f).tier.relaxations,
            word (s.dev.face f).tier.alerts]) ++
          queues.map (fun q => word (s.dev.insp.out.queue q).totalLost) ++
          ([FaceId.lead, .trail].map fun f => word (s.dev.face f).preview.replaced) ++
          [word s.dev.insp.out.framesSent, word s.dev.insp.out.inboundErrors, word s.dev.insp.out.linkDowns] ++
          [word n, word s.dev.base.exec.busy, word s.dev.base.exec.discarded]))) ∧
    (Ready .queryLanes c rest s →
      (1 < c.nat 1 → exec .queryLanes s = .next (answered s c d .range [])) ∧
      ∀ f, c.nat 1 = faceCode f → ∃ t : Tier, t = (s.dev.face f).tier ∧ exec .queryLanes s = .next (answered s c d .done
        ([flag t.alert, word (if t.alert then t.fa else 0), pos t.next] ++
          (List.range 16).flatMap fun j =>
            [word (t.lane j).own, word (t.effective j), word (t.lane j).minLimit, word (t.lane j).maxLimit] ++
            (List.range 8).map (fun n => word ((t.lane j).bucket ((t.current + 1 + n) % 8))) ++
            [word (t.lane j).windowSum, pos (t.lane j).lastChange]))) ∧
    (Ready .queryStreaks c rest s →
      (1 < c.nat 1 → exec .queryStreaks s = .next (answered s c d .range [])) ∧
      ∀ f, c.nat 1 = faceCode f → exec .queryStreaks s = .next (answered s c d .done
        (word (occupied (s.dev.face f).streak.open_).length :: (occupied (s.dev.face f).streak.open_).flatMap fun e =>
          [word e.1, word (match e.2.polarity with | .bright => 0 | .dark => 1), word e.2.colMin, word e.2.colMax,
            word e.2.founding, word e.2.lane, flag e.2.inGuard, wordI (e.2.start / 10240), wordI (e.2.openPos / 10240),
            wordI (e.2.lastContinue / 10240), word e.2.peak, word e.2.members, word e.2.tierAtOpen]))) ∧
    (Ready .queryPending c rest s → exec .queryPending s = .next (answered s c d .done
      (word s.dev.insp.corr.list.length :: s.dev.insp.corr.list.flatMap fun e =>
        [e.record.first, e.record.last, wordI e.record.md, wordI e.record.cd, word e.record.cls,
          word (match e.record.polarity with | .bright => 0 | .dark => 1), word e.record.lane] ++
        (match e.record.excerpt with
          | .none => [0, 0xFFFFFFFF#32]
          | .captured k => [1, word k]
          | .partly k => [2, word k]
          | .skipped => [3, 0xFFFFFFFF#32]
          | .withdrawn => [4, 0xFFFFFFFF#32]) ++ [opt (e.bank.map bankCode)]))) ∧
    (Ready .queryRetained c rest s → exec .queryRetained s = .next (answered s c d .done
      ((List.range 8).map s.dev.base.exec.retainedWord ++ [flag s.dev.insp.out.kept])))

/-- R175, R128, R168, R176: CLEAR_COUNTERS sets every count to 0 and leaves the rest, the losses of the queues among it; the
high-water count takes the list's length. RETAIN_WRITE with an index above 7 is refused whole; otherwise the last pair that names
an index gives its word and every other word stays. A list of no pair or of more than 8 is refused with RANGE (log 25). -/
def Obligations.CountersClearAndWordsAreRetained : Prop :=
  (∀ (c : Command) (rest : List Command) (s : State), Ready .clearCounters c rest s → ColumnsDisjoint s → ∃ d : Dev,
    exec .clearCounters s = .next (answered s c d .done []) ∧
    d.base.exec = { queue := rest, retained := s.dev.base.exec.retained, executed := 0, busy := 0, discarded := 0 } ∧
    d.base.motion = { s.dev.base.motion with encFaults := 0 } ∧ d.base.banks = s.dev.base.banks ∧
    d.base.sens.locked = s.dev.base.sens.locked ∧
    (∀ n, d.base.port n = { s.dev.base.port n with
      counts := {
        stray := 0, errors := 0, short := 0, long := 0, truncated := 0, late := 0, duplicate := 0, missingLines := 0 } }) ∧
    (∀ f, ∃ x : Face, x = s.dev.face f ∧ d.face f = {
      grid := { x.grid with overruns := 0, creep := 0 }, asm := { x.asm with forced := 0, abandoned := 0 },
      pixel := { x.pixel with clipped := 0, processed := 0 },
      pattern := { x.pattern with consumed := 0, early := 0, missTotal := 0, lost := 0 },
      blob := { x.blob with dropped := 0, discarded := 0, merges := 0, closed := 0, skipped := 0, satEntries := 0 },
      streak := { x.streak with opened := 0, closed := 0, merges := 0, held := 0, satEntries := 0 },
      tier := { x.tier with escalations := 0, relaxations := 0, alerts := 0 },
      preview := { x.preview with replaced := 0 } }) ∧
    d.insp.marks = { s.dev.insp.marks with accepted := 0, repeated := 0, dropped := 0 } ∧
    d.insp.corr = { s.dev.insp.corr with
      matchCount := 0, trailOnly := 0, expired := 0, evicted := 0, stopped := 0,
      highWater := s.dev.insp.corr.list.length } ∧
    d.insp.out = { s.dev.insp.out with framesSent := 0, inboundErrors := 0, linkDowns := 0 }) ∧
  ∀ (c : Command) (rest : List Command) (s : State), Ready .retainWrite c rest s →
    ((c.nat 0 = 0 ∨ 8 < c.nat 0 ∨ ∃ n < c.nat 0, 7 < c.nat (1 + 2 * n)) →
      exec .retainWrite s = .next (answered s c (s.dev.takeCommand rest) .range [])) ∧
    (1 ≤ c.nat 0 → c.nat 0 ≤ 8 → (∀ n < c.nat 0, c.nat (1 + 2 * n) ≤ 7) → ∃ t : Table Word,
      exec .retainWrite s = .next (answered s c
        ((s.dev.takeCommand rest).onExec fun x => { x with retained := t }) .done []) ∧
      (∀ k, (∀ n < c.nat 0, c.nat (1 + 2 * n) ≠ k) → tget 0 t k = s.dev.base.exec.retainedWord k) ∧
      ∀ n < c.nat 0, (∀ m < c.nat 0, n < m → c.nat (1 + 2 * m) ≠ c.nat (1 + 2 * n)) →
        tget 0 t (c.nat (1 + 2 * n)) = c.op (2 + 2 * n))
/-! ### The Bank Controller -/

/-- R144, R145: BANK_OPEN: the tests in order; a VACANT or CHECKED bank becomes OPEN with the empty contents or a copy of the other
bank's, without plans; nothing else changes. -/
def Obligations.BankOpenSeedsBank : Prop :=
  ∀ (c : Command) (rest : List Command) (s : State) (d : Dev), Ready .bankOpen c rest s → d = s.dev.takeCommand rest →
    ((1 < c.nat 0 ∨ 1 < c.nat 1) → exec .bankOpen s = .next (answered s c d .range [])) ∧
    ∀ i : BankId, c.nat 0 = bankCode i → c.nat 1 ≤ 1 →
      ((s.dev.base.banks.bank i).state = .checking → exec .bankOpen s = .next (answered s c d .busy [])) ∧
      ((s.dev.base.banks.bank i).state = .opened ∨ (s.dev.base.banks.bank i).state = .scheduled ∨
          (∃ fs, (s.dev.base.banks.bank i).state = .active fs) →
        exec .bankOpen s = .next (answered s c d .state [])) ∧
      ((s.dev.base.banks.bank i).state = .vacant ∨ (s.dev.base.banks.bank i).state = .checked →
        exec .bankOpen s = .next (answered s c (d.onBanks fun b => b.setBank i {
          state := .opened, contents := if c.nat 1 = 1 then (s.dev.base.banks.bank i.other).contents else Contents.empty,
          compiled := none }) .done []))

/-- R144, R146: BANK_WRITE: the tests in order; a structural field that names nothing refuses the whole write; otherwise every
entry is stored, each tuning number as the nearest value of its range, with CLAMPED exactly where one was changed; every other
entry, every other table and the other bank stay. -/
def Obligations.BankWriteStoresEntries : Prop :=
  ∀ (c : Command) (rest : List Command) (s : State) (d : Dev), Ready .bankWrite c rest s → d = s.dev.takeCommand rest →
    (1 < c.nat 0 → exec .bankWrite s = .next (answered s c d .range [])) ∧
    ∀ (i : BankId) (x : Contents) (store : Contents → State) (clamped : Contents → State), c.nat 0 = bankCode i →
      x = (s.dev.base.banks.bank i).contents →
      (∀ y, store y = answered s c (d.onBanks fun b => b.setBank i { b.bank i with contents := y }) .done []) →
      (∀ y, clamped y = answered s c (d.onBanks fun b => b.setBank i { b.bank i with contents := y }) .clamped []) →
      ((s.dev.base.banks.bank i).state = .checking → exec .bankWrite s = .next (answered s c d .busy [])) ∧
      ((s.dev.base.banks.bank i).state ≠ .checking → (s.dev.base.banks.bank i).state ≠ .opened →
        exec .bankWrite s = .next (answered s c d .state [])) ∧
      ((s.dev.base.banks.bank i).state = .opened →
        ((8 < c.nat 1 ∨ c.nat 3 = 0 ∨
            (if c.nat 1 ≤ 1 then 32 else if c.nat 1 = 2 then 8 else if c.nat 1 = 4 then 4 else 1) < c.nat 2 + c.nat 3) →
          exec .bankWrite s = .next (answered s c d .range [])) ∧
        -- region maps
        (∀ f : FaceId, c.nat 1 = faceCode f → 1 ≤ c.nat 3 → c.nat 2 + c.nat 3 ≤ 32 →
          ((∃ n < c.nat 3, 1 < c.nat (4 + 6 * n) ∨ 3 < c.nat (5 + 6 * n) ∨ 8191 < c.nat (6 + 6 * n) ∨
              8191 < c.nat (7 + 6 * n) ∨ 16 < c.nat (8 + 6 * n) ∨ 3 < c.nat (9 + 6 * n)) →
            exec .bankWrite s = .next (answered s c d .range [])) ∧
          ((∀ n < c.nat 3, c.nat (4 + 6 * n) ≤ 1 ∧ c.nat (5 + 6 * n) ≤ 3 ∧ c.nat (6 + 6 * n) ≤ 8191 ∧
              c.nat (7 + 6 * n) ≤ 8191 ∧ c.nat (8 + 6 * n) ≤ 16 ∧ c.nat (9 + 6 * n) ≤ 3) →
            ∃ y : Contents, exec .bankWrite s = .next (store y) ∧
              (∀ n < c.nat 3, ∃ r : Region, r = tget Region.empty (y.regions f) (c.nat 2 + n) ∧
                (r.present = true ↔ c.nat (4 + 6 * n) = 1) ∧
                c.nat (5 + 6 * n) = (match r.kind with | .lane => 0 | .guard => 1 | .margin => 2 | .exclude => 3) ∧
                r.first = c.nat (6 + 6 * n) ∧ r.last = c.nat (7 + 6 * n) ∧ r.lane.getD 16 = c.nat (8 + 6 * n) ∧
                r.lane ≠ some 16 ∧ r.priority = c.nat (9 + 6 * n)) ∧
              (∀ k, k < c.nat 2 ∨ c.nat 2 + c.nat 3 ≤ k →
                tget Region.empty (y.regions f) k = tget Region.empty (x.regions f) k) ∧
              y = (match f with
                | .lead => { x with regionsLead := y.regionsLead }
                | .trail => { x with regionsTrail := y.regionsTrail }))) ∧
        -- class rules
        (c.nat 1 = 2 → 1 ≤ c.nat 3 → c.nat 2 + c.nat 3 ≤ 8 →
          ((∃ n < c.nat 3, 1 < c.nat (4 + 13 * n) ∨ 2 < c.nat (5 + 13 * n) ∨ 1 < c.nat (12 + 13 * n) ∨
              1 < c.nat (13 + 13 * n) ∨ 1 < c.nat (14 + 13 * n) ∨ 3 < c.nat (15 + 13 * n) ∨ 2 < c.nat (16 + 13 * n)) →
            exec .bankWrite s = .next (answered s c d .range [])) ∧
          ((∀ n < c.nat 3, c.nat (4 + 13 * n) ≤ 1 ∧ c.nat (5 + 13 * n) ≤ 2 ∧ c.nat (12 + 13 * n) ≤ 1 ∧
              c.nat (13 + 13 * n) ≤ 1 ∧ c.nat (14 + 13 * n) ≤ 1 ∧ c.nat (15 + 13 * n) ≤ 3 ∧ c.nat (16 + 13 * n) ≤ 2) →
            ∃ y : Contents, (exec .bankWrite s = .next (store y) ∧
                (∀ n < c.nat 3, ∀ m < 6, c.nat (6 + m + 13 * n) ≤ 65535) ∨
                exec .bankWrite s = .next (clamped y) ∧ ∃ n < c.nat 3, ∃ m < 6, 65535 < c.nat (6 + m + 13 * n)) ∧
              (∀ n < c.nat 3, ∃ r : ClassRule, r = y.rule (c.nat 2 + n) ∧
                (r.present = true ↔ c.nat (4 + 13 * n) = 1) ∧
                c.nat (5 + 13 * n) = (match r.polarity with | .bright => 0 | .dark => 1 | .either => 2) ∧
                r.areaMin = min (c.nat (6 + 13 * n)) 65535 ∧ r.areaMax = min (c.nat (7 + 13 * n)) 65535 ∧
                r.widthMin = min (c.nat (8 + 13 * n)) 65535 ∧ r.widthMax = min (c.nat (9 + 13 * n)) 65535 ∧
                r.lengthMin = min (c.nat (10 + 13 * n)) 65535 ∧ r.lengthMax = min (c.nat (11 + 13 * n)) 65535 ∧
                (r.correlate = true ↔ c.nat (12 + 13 * n) = 1) ∧ (r.counts = true ↔ c.nat (13 + 13 * n) = 1) ∧
                (r.excerpt = true ↔ c.nat (14 + 13 * n) = 1) ∧ c.nat (15 + 13 * n) = r.level.rank ∧
                c.nat (16 + 13 * n) = (match r.slot with | .none => 0 | .a => 1 | .b => 2)) ∧
              (∀ k, k < c.nat 2 ∨ c.nat 2 + c.nat 3 ≤ k → y.rule k = x.rule k) ∧ y = { x with rules := y.rules })) ∧
        -- the report policy
        (c.nat 1 = 3 → c.nat 2 = 0 → c.nat 3 = 1 →
          (((∃ n < 8, 3 < c.nat (4 + n)) ∨ (∃ n < 7, 2 < c.nat (12 + n)) ∨ 1 < c.nat 19 ∨ 1 < c.nat 20) →
            exec .bankWrite s = .next (answered s c d .range [])) ∧
          (∀ p : Policy,
            [p.unclassed, p.elongated, p.through, { level := p.leadOnly, slot := .none }, p.streakOpen, p.streakContinue,
              p.streakClose, p.lane].map (fun r => r.level.rank) = (List.range 8).map (fun n => c.nat (4 + n)) →
            p.routes.map (fun r => match r.slot with | .none => 0 | .a => 1 | .b => 2) =
              (List.range 7).map (fun n => c.nat (12 + n)) →
            c.nat 19 = flagCode p.unclassedCounts → c.nat 20 = flagCode p.elongatedCounts →
            exec .bankWrite s = .next (store { x with policy := p }))) ∧
        -- tier thresholds
        (c.nat 1 = 4 → 1 ≤ c.nat 3 → c.nat 2 + c.nat 3 ≤ 4 → ∃ y : Contents,
          (exec .bankWrite s = .next (store y) ∧ (∀ n < c.nat 3, 1 ≤ c.nat (4 + 3 * n) ∧ c.nat (4 + 3 * n) ≤ 4095 ∧
              1 ≤ c.nat (5 + 3 * n) ∧ c.nat (5 + 3 * n) ≤ 4095 ∧ 1 ≤ c.nat (6 + 3 * n) ∧ c.nat (6 + 3 * n) ≤ 65535) ∨
            exec .bankWrite s = .next (clamped y) ∧ ∃ n < c.nat 3, c.nat (4 + 3 * n) < 1 ∨ 4095 < c.nat (4 + 3 * n) ∨
              c.nat (5 + 3 * n) < 1 ∨ 4095 < c.nat (5 + 3 * n) ∨ c.nat (6 + 3 * n) < 1 ∨ 65535 < c.nat (6 + 3 * n)) ∧
          (∀ n < c.nat 3, y.tier (c.nat 2 + n) = {
            tb := max 1 (min (c.nat (4 + 3 * n)) 4095), td := max 1 (min (c.nat (5 + 3 * n)) 4095),
            ts := max 1 (min (c.nat (6 + 3 * n)) 65535) }) ∧
          (∀ k, k < c.nat 2 ∨ c.nat 2 + c.nat 3 ≤ k → y.tier k = x.tier k) ∧ y = { x with tiers := y.tiers }) ∧
        -- the tier policy
        (c.nat 1 = 5 → c.nat 2 = 0 → c.nat 3 = 1 →
          ((3 < c.nat 10 ∨ 3 < c.nat 11 ∨ 3 < c.nat 12 ∨ 1 < c.nat 13) →
            exec .bankWrite s = .next (answered s c d .range [])) ∧
          (c.nat 10 ≤ 3 → c.nat 11 ≤ 3 → c.nat 12 ≤ 3 → c.nat 13 ≤ 1 → ∀ y : Contents,
            y = { x with
              tierPolicy := {
                w := max 8 (min (c.nat 4) 8000), ne := max 1 (min (c.nat 5) 255), nd := min (c.nat 6) 254,
                ru := min (c.nat 7) 10000, rd := min (c.nat 8) 10000, na := max 1 (min (c.nat 9) 16),
                fa := c.nat 10, minTier := c.nat 11, maxTier := c.nat 12, learnOnEntry := decide (c.nat 13 = 1) } } →
            exec .bankWrite s = .next (if 8 ≤ c.nat 4 ∧ c.nat 4 ≤ 8000 ∧ 1 ≤ c.nat 5 ∧ c.nat 5 ≤ 255 ∧ c.nat 6 ≤ 254 ∧
              c.nat 7 ≤ 10000 ∧ c.nat 8 ≤ 10000 ∧ 1 ≤ c.nat 9 ∧ c.nat 9 ≤ 16 then store y else clamped y))) ∧
        -- pattern, detection and correlation
        (c.nat 1 = 6 → c.nat 2 = 0 → c.nat 3 = 1 → ∀ y : Contents,
          y = { x with
            pattern := {
              c := max 1000 (min (c.nat 4) 2000000), g := min (c.nat 5) 500000, gl := min (c.nat 6) 50000,
              gt := min (c.nat 7) 50000, r := max (-50000) (min (c.int 8) 50000), tolerance := min (c.nat 9) 100000 } } →
          exec .bankWrite s = .next (if 1000 ≤ c.nat 4 ∧ c.nat 4 ≤ 2000000 ∧ c.nat 5 ≤ 500000 ∧ c.nat 6 ≤ 50000 ∧
            c.nat 7 ≤ 50000 ∧ -50000 ≤ c.int 8 ∧ c.int 8 ≤ 50000 ∧ c.nat 9 ≤ 100000 then store y else clamped y)) ∧
        (c.nat 1 = 7 → c.nat 2 = 0 → c.nat 3 = 1 → ∀ y : Contents,
          y = { x with
            detection := {
              k := if c.nat 4 = 0 then 0 else max 4 (min (c.nat 4) 15), learnLength := max 16 (min (c.nat 5) 4096),
              drift := min (c.nat 6) 4095, bg := min (c.nat 7) 3, mb := min (c.nat 8) 2, leak := max 4 (min (c.nat 9) 10),
              clip := max 16 (min (c.nat 10) 65535), minStreak := min (c.nat 11) 100000000,
              release := min (c.nat 12) 100000000, sg := min (c.nat 13) 7, interval := min (c.nat 14) 1000 } } →
          exec .bankWrite s = .next (if (c.nat 4 = 0 ∨ 4 ≤ c.nat 4 ∧ c.nat 4 ≤ 15) ∧ 16 ≤ c.nat 5 ∧ c.nat 5 ≤ 4096 ∧
            c.nat 6 ≤ 4095 ∧ c.nat 7 ≤ 3 ∧ c.nat 8 ≤ 2 ∧ 4 ≤ c.nat 9 ∧ c.nat 9 ≤ 10 ∧ 16 ≤ c.nat 10 ∧ c.nat 10 ≤ 65535 ∧
            c.nat 11 ≤ 100000000 ∧ c.nat 12 ≤ 100000000 ∧ c.nat 13 ≤ 7 ∧ c.nat 14 ≤ 1000 then store y else clamped y)) ∧
        (c.nat 1 = 8 → c.nat 2 = 0 → c.nat 3 = 1 → ∀ y : Contents,
          y = { x with correlation := { md := min (c.nat 4) 100000, cd := min (c.nat 5) 10000 } } →
          exec .bankWrite s = .next (if c.nat 4 ≤ 100000 ∧ c.nat 5 ≤ 10000 then store y else clamped y)))

/-- R144, R147, R152: BANK_CHECK and BANK_SCHEDULE: the tests in order. A check that is taken makes the bank CHECKING and queues no
reply (its tag is held for the completion: log 33). A schedule that is taken makes the bank SCHEDULED with the switch position of
R152's table, from NEXT or from S extended around LEAD's face position, and replies DONE with the position in position units. -/
def Obligations.BankCheckAndScheduleTakeBank : Prop :=
  (∀ (c : Command) (rest : List Command) (s : State) (d : Dev), Ready .bankCheck c rest s → d = s.dev.takeCommand rest →
    (1 < c.nat 0 → exec .bankCheck s = .next (answered s c d .range [])) ∧
    ∀ i : BankId, c.nat 0 = bankCode i →
      ((∃ j, (s.dev.base.banks.bank j).state = .checking) → exec .bankCheck s = .next (answered s c d .busy [])) ∧
      ((∀ j, (s.dev.base.banks.bank j).state ≠ .checking) → (s.dev.base.banks.bank i).state ≠ .opened →
        exec .bankCheck s = .next (answered s c d .state [])) ∧
      ((∀ j, (s.dev.base.banks.bank j).state ≠ .checking) → (s.dev.base.banks.bank i).state = .opened →
        exec .bankCheck s = .next { s with
          dev := d.onBanks fun b => { b.setState i .checking with checkTag := some c.tag } })) ∧
  ∀ (c : Command) (rest : List Command) (s : State) (d : Dev), Ready .bankSchedule c rest s → d = s.dev.takeCommand rest →
    (1 < c.nat 0 → exec .bankSchedule s = .next (answered s c d .range [])) ∧
    ∀ i : BankId, c.nat 0 = bankCode i →
      ((s.dev.base.banks.bank i).state = .checking → exec .bankSchedule s = .next (answered s c d .busy [])) ∧
      ((s.dev.base.banks.bank i).state ≠ .checking →
        (s.dev.base.banks.running = false ∨ (s.dev.base.banks.bank i).state ≠ .checked ∨
          ∃ j, (s.dev.base.banks.bank j).state = .scheduled) →
        exec .bankSchedule s = .next (answered s c d .state [])) ∧
      (s.dev.base.banks.running = true → (s.dev.base.banks.bank i).state = .checked →
        (∀ j, (s.dev.base.banks.bank j).state ≠ .scheduled) → ∃ x : Int,
        exec .bankSchedule s = .next (answered s c
          (d.onBanks fun b => { b.setState i .scheduled with switchPos := some x }) .done [wordI (x / 10240)]) ∧
        (∀ next : Int, next = (match s.dev.insp.lead.pixel.lastPos with
            | some p => p + s.dev.base.motion.setup.n * s.dev.base.motion.setup.e
            | none => s.dev.base.motion.h) →
          (c.op 1 = 0xFFFFFFFF#32 → x = next) ∧
          ∀ y : Int, c.op 1 ≠ 0xFFFFFFFF#32 → (2 ^ 32 : Int) ∣ y - (c.op 1).toNat →
            s.dev.base.motion.h / 10240 - 2 ^ 31 ≤ y → y < s.dev.base.motion.h / 10240 + 2 ^ 31 →
            ((∀ p ∈ s.dev.insp.lead.pixel.lastPos, p < 10240 * y) → x = 10240 * y) ∧
            (∀ p ∈ s.dev.insp.lead.pixel.lastPos, 10240 * y ≤ p → x = next)))

/-- R155: BANK_CANCEL. It returns a SCHEDULED bank to CHECKED, discards the switch position and replies DONE, neither face
switching; between the two switches of a changeover it is refused with TOO_LATE and the changeover stands; with neither, as
always in STANDBY, it is refused with STATE. -/
def Obligations.BankCancelWithdrawsSchedule : Prop :=
  ∀ (c : Command) (rest : List Command) (s : State) (d : Dev), Ready .bankCancel c rest s → BanksLawful s →
    d = s.dev.takeCommand rest →
    (∀ i, (s.dev.base.banks.bank i).state = .scheduled → exec .bankCancel s = .next (answered s c
      (d.onBanks fun b => { b.setState i .checked with switchPos := none }) .done [])) ∧
    ((∃ i, (s.dev.base.banks.bank i).state = .active .lead) → exec .bankCancel s = .next (answered s c d .tooLate [])) ∧
    ((∀ i, (s.dev.base.banks.bank i).state ≠ .scheduled ∧ (s.dev.base.banks.bank i).state ≠ .active .lead) →
      exec .bankCancel s = .next (answered s c d .state [])) ∧
    (s.dev.base.banks.running = false → exec .bankCancel s = .next (answered s c d .state []))

/-- R60, R148, R149: check completion. The bank that is CHECKING becomes CHECKED with its plans and line counts compiled when no
check fails, and goes back to OPEN without a plan otherwise; its contents stay. The reply DONE carries the tag of the
BANK_CHECK, the code of the first check that fails with the face and item that R148's table names for it, and face none with item
FFFFh when it passes. A plan gives a column the kind
and lane of the one region that covers it at the highest priority, UNMAPPED where none does. With no bank CHECKING there is no
completion (log 4). E = 0 fails STATION_SPAN only under a correlating class rule (log 54). -/
def Obligations.CheckCompletionJudgesBank : Prop :=
  (∀ (s : State) (i : BankId) (x : Bank) (tag : Nat), x = s.dev.base.banks.bank i → x.state = .checking →
    (s.dev.base.banks.bank i.other).state ≠ .checking → s.dev.base.banks.checkTag = some tag →
    ((∀ n, 1 ≤ n → n ≤ 11 → ¬ CheckFails s.dev.base x.contents n) →
      ∃ l : LineSetup, l = s.dev.base.motion.setup ∧ exec .checkCompletion s = .next { s with
        dev := (s.dev.onBanks fun b => { b.setBank i {
            state := .checked, contents := x.contents,
            compiled := some {
              leadPlan := (List.range 8192).map (decodeColumn x.contents.regionsLead),
              trailPlan := (List.range 8192).map (decodeColumn x.contents.regionsTrail),
              minLines := (1024 * x.contents.detection.minStreak + l.n * l.e - 1) / (l.n * l.e),
              releaseLines := (1024 * x.contents.detection.release + l.n * l.e - 1) / (l.n * l.e) } } with
          checkTag := none }).reply 0x12 tag .done [0x00C0FFFF#32] }) ∧
    (∀ n, 1 ≤ n → n ≤ 11 → CheckFails s.dev.base x.contents n →
      (∀ m, 1 ≤ m → m < n → ¬ CheckFails s.dev.base x.contents m) →
      ∃ face item : Nat, CheckNames s.dev.base x.contents n face item ∧ exec .checkCompletion s = .next { s with
        dev := (s.dev.onBanks fun b => { b.setBank i {
            state := .opened, contents := x.contents, compiled := none } with
          checkTag := none }).reply 0x12 tag .done [BitVec.ofNat 32 (n * 16777216 + face * 4194304 + item)] })) ∧
  (∀ s : State, (∀ i, (s.dev.base.banks.bank i).state ≠ .checking) → exec .checkCompletion s = .next s) ∧
  ∀ (t : Table Region) (col : Nat),
    (∀ r, topRegions t col = [r] →
      (decodeColumn t col).kind = (match r.kind with
        | .lane => .lane
        | .guard => .guard
        | .margin => .margin
        | .exclude => .exclude) ∧
      (decodeColumn t col).lane = (match r.kind with
        | .lane | .guard => r.lane
        | .margin | .exclude => none)) ∧
    (topRegions t col = [] → decodeColumn t col = { kind := .unmapped, lane := none })

/-- R46, R47, R68, R115, R135, R136, R139, R144, R150: START: the tests in order. Taken, the bank becomes ACTIVE {both} and the part
RUNNING; each face enters LEARNING with every sum and count 0 and the bank's learn length, the refs and learned flags of all
columns kept (with the column table in its canonical form: log 16); enters CONTINUOUS or SEEKING; has every accumulator 0 and
every streak column QUIET; and loads its tiers and its floor (log 27) from the bank, its last inspection line absent, its counts and
waiting events kept. An alert that comes on is counted. The other bank stays. A face whose alert changes at the load offers
the alert status report, without a line, and no other report (R139; a change to off too: log 37), before the reply; which
face comes first is left open (log 8). -/
def Obligations.StartActivatesBank : Prop :=
  ∀ (c : Command) (rest : List Command) (s : State) (d : Dev), Ready .start c rest s → d = s.dev.takeCommand rest →
    (1 < c.nat 0 → exec .start s = .next (answered s c d .range [])) ∧
    ∀ (i : BankId) (x : Bank), c.nat 0 = bankCode i → x = s.dev.base.banks.bank i →
      ((s.dev.base.banks.running = true ∨ x.state ≠ .checked) → exec .start s = .next (answered s c d .state [])) ∧
      (BanksLawful s → s.dev.base.banks.running = false → x.state = .checked → ∃ d' : Dev,
        exec .start s = .next (answered s c d' .done []) ∧
        d'.base.banks = { s.dev.base.banks.setBank i { x with state := .active .both } with running := true } ∧
        d'.base.exec = d.base.exec ∧
        (∀ f,
          (∃ p : Pixel, p = (s.dev.face f).pixel ∧ ∃ t, (d'.face f).pixel = { p with
            cols := t, phase := .learning, learnLines := 0, learnLength := x.contents.detection.learnLength,
            lastPos := none } ∧
            ∀ k, (tget PixelColumn.fresh t k).sum = 0 ∧ (tget PixelColumn.fresh t k).count = 0 ∧
              (twf PixelColumn.fresh p.cols = true → tget PixelColumn.fresh t k = { p.col k with sum := 0, count := 0 })) ∧
          (d'.face f).pattern = { (s.dev.face f).pattern with
            state := some (if x.contents.pattern.g = 0 then .continuous else .seeking), edge := none, misses := 0,
            seek := if x.contents.pattern.g = 0 then none else some (s.dev.base.motion.h + 1024 *
              (s.dev.base.motion.setup.die + (match f with | .lead => 0 | .trail => x.contents.pattern.r))),
            lastZone := none } ∧
          (d'.face f).streak = { (s.dev.face f).streak with cols := [], saturated := false } ∧
          (∀ j < 16, (d'.face f).tier.lane j = {
            buckets := [], own := x.contents.tierPolicy.minTier, minLimit := x.contents.tierPolicy.minTier,
            maxLimit := x.contents.tierPolicy.maxTier, lastChange := none }) ∧
          (∃ (y z : Tier) (t : Table Lane), y = (s.dev.face f).tier ∧ z = (d'.face f).tier ∧ z = { y with
            lanes := t, current := 0, next := some (s.dev.base.facePos f + x.contents.tierPolicy.w * 128000000),
            fa := x.contents.tierPolicy.fa, lastPos := none, lastLine := none, alert := z.alert,
            alerts := if z.alert = true ∧ y.alert = false then min (y.alerts + 1) 4294967295 else y.alerts }) ∧
          (d'.face f).tier.alert = decide (x.contents.tierPolicy.na ≤ (d'.face f).tier.atT2)) ∧
        (∃ faces, (faces = [FaceId.lead, .trail] ∨ faces = [.trail, .lead]) ∧
          d'.insp.out = faces.foldl (fun o f => if (s.dev.face f).tier.alert = (d'.face f).tier.alert then o
            else o.offer .p2 (.status (some f) false (.alert (d'.face f).tier.alert (d'.face f).tier.atT2
              x.contents.tierPolicy.na none none))) s.dev.insp.out) ∧
        Touches [.banks, .exec, .free, .out, .pixel .lead, .pattern .lead, .streak .lead, .tier .lead, .pixel .trail,
          .pattern .trail, .streak .trail, .tier .trail] s.dev d')

/-- R151, with R34, R52, R73, R96, R97, R113, R126, R161: STOP. In STANDBY it is refused with STATE. In RUNNING no blob, streak,
slot, waiting line, pending entry, mark or buffer is left, every face is IDLE without reservation, pattern state, misses, last zone and
learning sums, the part is STANDBY, a bank that was ACTIVE or SCHEDULED is CHECKED, and the reply is DONE, after the reports.
Open slots are counted as abandoned; every other count stays, and so do refs, learned flags, clip counts and the totals, as the lines
finished first leave them.
The steps: lines and records already handed on are finished (log 7); every buffer is freed, the record of each that waits, in a queue,
in transmission or at the correlator, becomes WITHDRAWN, and the entries of the excerpt queue are lost and counted (before the closes:
log 49); each face closes its blobs with reason STOP in close order under its bank (statement O17 has the order), and the waiting
candidates and counted events are taken (in this order: log 57; logs 7, 53) as their rows take them; then every pending entry leaves
in list order, lead-only with reason STOP at the higher of its two levels, and is counted; each face closes its streaks with reason
STOP, after that (log 56). Which face comes first in a step is left open (log 8). -/
def Obligations.StopEndsInspection : Prop :=
  ∀ (c : Command) (rest : List Command) (s : State) (d : Dev), Ready .stop c rest s → d = s.dev.takeCommand rest →
    (s.dev.base.banks.running = false → exec .stop s = .next (answered s c d .state [])) ∧
    (s.dev.base.banks.running = true → BanksLawful s → ∃ d' : Dev, exec .stop s = .next (answered s c d' .done []) ∧
      d'.base.banks.running = false ∧ d'.base.banks.switchPos = none ∧ d'.base.banks.checkTag = s.dev.base.banks.checkTag ∧
      (∀ i, ∃ x : Bank, x = s.dev.base.banks.bank i ∧ d'.base.banks.bank i = { x with
        state := match x.state with
          | .scheduled | .active _ => .checked
          | .vacant => .vacant
          | .opened => .opened
          | .checking => .checking
          | .checked => .checked }) ∧
      (∀ f, (d'.face f).blob.openCount = 0 ∧ (d'.face f).blob.saturated = false ∧ (d'.face f).blob.ring = [] ∧
        (d'.face f).blob.inbox = [] ∧ (d'.face f).streak.openCount = 0 ∧ (d'.face f).streak.saturated = false ∧
        (d'.face f).streak.inbox = [] ∧ (∀ k, ((d'.face f).streak.col k).state = .quiet) ∧
        (d'.face f).pixel.phase = .idle ∧ (d'.face f).pixel.reservation = none ∧ (d'.face f).pixel.learnLines = 0 ∧
        (d'.face f).asm.slots = [] ∧ (d'.face f).asm.handed = [] ∧ (d'.face f).pattern.state = none ∧
        (d'.face f).pattern.edge = none ∧ (d'.face f).pattern.seek = none ∧ (d'.face f).pattern.misses = 0 ∧
        (d'.face f).pattern.lastZone = none ∧
        (∀ k, ((d'.face f).pixel.col k).sum = 0 ∧ ((d'.face f).pixel.col k).count = 0) ∧ (d'.face f).grid = (s.dev.face f).grid ∧
        (d'.face f).asm.geometry = (s.dev.face f).asm.geometry) ∧
      d'.insp.marks.list = [] ∧ d'.insp.marks.lastAccepted = none ∧ d'.insp.corr.list = [] ∧ d'.insp.corr.leadWork = [] ∧
      d'.insp.corr.trailWork = [] ∧ (∀ k, tget none d'.insp.out.buffers k = none) ∧ d'.insp.out.excerpt.entries = [] ∧
      d'.insp.out.linkUp = s.dev.insp.out.linkUp ∧ d'.insp.out.startPending = s.dev.insp.out.startPending ∧
      d'.base.motion = s.dev.base.motion ∧ d'.base.sens = s.dev.base.sens ∧ d'.base.exec = d.base.exec ∧
      -- the steps
      (∀ (turns : (FaceId → Dev → Dev) → Dev → Dev → Prop) (finish closes streaks : FaceId → Dev → Dev),
        (∀ act x y, turns act x y ↔ ∃ z, z = { x with base := { x.base with free := x.base.free + 1 } } ∧
          (y = act .trail (act .lead z) ∨ y = act .lead (act .trail z))) →
        (∀ f x y, y = (x.face f).asm.handed.foldl (fun z ln => pixelLine f ln z)
            (x.onFace f fun z => { z with asm := { z.asm with handed := [] } }) →
          finish f x = { y with insp := drainStreakLines y.base f (drainBlobLines y.base f y.insp) }) →
        (∀ f x i j, i = closeAllBlobs x.base f .stop (x.face f).tier.lastInspection x.insp →
          j = (match f with | .lead => drainLead i | .trail => drainTrail x.base i) →
          closes f x = { x with insp := drainEvents x.base f .streakTracker (drainEvents x.base f .blobBuilder j) }) →
        (∀ f x, streaks f x = { x with insp := closeAllStreaks x.base f .stop x.insp }) →
        ∃ x y z : Dev, turns finish d x ∧ turns closes { x with insp := withdrawAll x.insp } y ∧
          turns streaks { y with insp := flushPending y.insp } z ∧ d'.insp.out = z.insp.out ∧ d'.insp.corr = z.insp.corr ∧
          d'.insp.marks = { x.insp.marks with list := [], lastAccepted := none } ∧
          ((∀ f, (s.dev.face f).asm.handed = []) → x.insp.marks = s.dev.insp.marks) ∧
          ∀ f, (d'.face f).asm = { (s.dev.face f).asm with
              slots := [], handed := [],
              abandoned := min ((s.dev.face f).asm.abandoned + (s.dev.face f).asm.slots.length) 4294967295 } ∧
            (d'.face f).pattern = { (x.face f).pattern with
              state := none, edge := none, misses := 0, seek := none, lastZone := none } ∧
            (d'.face f).pixel = { (x.face f).pixel with
              cols := (d'.face f).pixel.cols, phase := .idle, learnLines := 0, reservation := none } ∧
            (twf PixelColumn.fresh (x.face f).pixel.cols = true →
              ∀ k, (d'.face f).pixel.col k = { (x.face f).pixel.col k with sum := 0, count := 0 }) ∧
            ((s.dev.face f).asm.handed = [] → (x.face f).pixel = (s.dev.face f).pixel ∧
              (x.face f).pattern = (s.dev.face f).pattern) ∧
            (d'.face f).tier = (z.face f).tier ∧ (d'.face f).preview = (z.face f).preview ∧
            (d'.face f).blob = { (z.face f).blob with saturated := false, ring := [] } ∧
            (d'.face f).streak = { (z.face f).streak with saturated := false })) ∧
  -- lines, records, candidates and events taken as their rows take them
  (∀ (s : State) (f : FaceId),
    (∀ ln rest, (s.dev.face f).asm.handed = ln :: rest → exec (.pixelChainLine f) s = .next { s with
      dev := pixelLine f ln (s.dev.onFace f fun x => { x with asm := { x.asm with handed := rest } }) }) ∧
    (∀ r rest, (s.dev.face f).blob.inbox = r :: rest → exec (.blobBuilderLine f) s = .next { s with
      dev := { s.dev with insp := blobLine s.dev.base f r (s.dev.insp.onFace f fun x =>
        { x with blob := { x.blob with inbox := rest } }) } }) ∧
    (∀ r rest, (s.dev.face f).streak.inbox = r :: rest → exec (.streakTrackerLine f) s = .next { s with
      dev := { s.dev with insp := streakLine s.dev.base f r (s.dev.insp.onStreaks f fun x => { x with inbox := rest }) } }) ∧
    (∀ c rest, s.dev.insp.corr.leadWork = c :: rest → exec .leadCandidate s = .next { s with
      dev := { s.dev with insp := takeLead c { s.dev.insp with corr := { s.dev.insp.corr with leadWork := rest } } } }) ∧
    (∀ c, s.dev.insp.corr.trailWork = [.candidate c] → exec .trailCandidate s = .next { s with
      dev := { s.dev with insp := { takeTrail s.dev.base c s.dev.insp with
        corr := { (takeTrail s.dev.base c s.dev.insp).corr with trailWork := [] } } } }) ∧
    ∀ src e rest, (s.dev.face f).tier.events src = e :: rest → exec (.countedEvent f src) s = .next { s with
      dev := { s.dev with insp := applyEvent s.dev.base f e (s.dev.insp.onFace f fun x =>
        { x with tier := x.tier.setEvents src rest }) } }) ∧
  (∀ (b : Base) (f : FaceId) (src : EventSource) (i : Insp),
    drainBlobLines b f i = (i.face f).blob.inbox.foldl (fun i r => blobLine b f r i)
      (i.onFace f fun x => { x with blob := { x.blob with inbox := [] } }) ∧
    drainStreakLines b f i = (i.streaks f).inbox.foldl (fun i r => streakLine b f r i)
      (i.onStreaks f fun x => { x with inbox := [] }) ∧
    drainLead i = i.corr.leadWork.foldl (fun i c => takeLead c i) { i with corr := { i.corr with leadWork := [] } } ∧
    drainTrail b i = i.corr.trailWork.foldl (fun i w => match w with
      | .candidate c => takeTrail b c i
      | .expiry p m => expire p m i) { i with corr := { i.corr with trailWork := [] } } ∧
    drainEvents b f src i = ((i.face f).tier.events src).foldl (fun i e => applyEvent b f e i)
      (i.onFace f fun x => { x with tier := x.tier.setEvents src [] })) ∧
  -- the flush
  (∀ i j : Insp, j = flushPending i → j.corr = { i.corr with
      list := [], stopped := min (i.corr.stopped + i.corr.list.length) 4294967295 } ∧
    j.out = i.corr.list.foldl (fun o c =>
      o.route (if c.level.rank < c.leadOnlyLevel.rank then c.leadOnlyLevel else c.level) c.slot
        (.defect { c.record with mark := .leadOnly .stop })) i.out ∧ ∀ b : Base, Touches [.corr, .out] ⟨b, i⟩ ⟨b, j⟩) ∧
  -- records withdrawn, buffers freed, the excerpt queue lost
  (∀ i j : Insp, j = withdrawAll i →
    (∀ q ∈ [QueueId.expressA, .expressB, .p2, .p1, .p0], j.out.queue q = { i.out.queue q with
      entries := (i.out.queue q).entries.map fun e => { e with report := e.report.withdraw } }) ∧
    (∀ q ∈ [QueueId.reply, .previewLead, .previewTrail], j.out.queue q = i.out.queue q) ∧
    j.out.excerpt = {
      entries := [], pendingLoss := min (i.out.excerpt.pendingLoss + i.out.excerpt.entries.length) 65535,
      totalLost := min (i.out.excerpt.totalLost + i.out.excerpt.entries.length) 4294967295 } ∧
    (∀ k, tget none j.out.buffers k = none) ∧
    j.out.tx = i.out.tx.map (fun t => { t with
      report := t.report.withdraw, live := t.live && !(match t.report with | .excerpt _ => true | _ => false) }) ∧
    j.corr = { i.corr with
      list := i.corr.list.map fun c => { c with record := c.record.withdraw },
      leadWork := i.corr.leadWork.map fun c => { c with record := c.record.withdraw },
      trailWork := i.corr.trailWork.map fun w => match w with
        | .candidate c => .candidate { c with record := c.record.withdraw }
        | .expiry p m => .expiry p m } ∧
    ∀ b : Base, Touches [.corr, .out] ⟨b, i⟩ ⟨b, j⟩) ∧
  ∀ r : Defect, (∀ k, r.excerpt = .captured k ∨ r.excerpt = .partly k → r.withdraw = { r with excerpt := .withdrawn }) ∧
    ((∀ k, r.excerpt ≠ .captured k ∧ r.excerpt ≠ .partly k) → r.withdraw = r) ∧
    (Report.defect r).withdraw = .defect r.withdraw ∧
    (∀ t md cd, (Report.through r t md cd).withdraw = .through r.withdraw t.withdraw md cd) ∧
    ∀ x : Report, (∀ y, x ≠ .defect y) → (∀ y t md cd, x ≠ .through y t md cd) → x.withdraw = x

/-! ### Baselines, tier limits, preview settings -/

/-- R47, R54, R55, R56: BASELINE_LEARN, BASELINE_READ and BASELINE_RESERVE: the tests; LEARN has each named face enter LEARNING
with the learn length of the bank active on it, its reservation kept, and the refs and learned flags of all columns (with the
column table in its canonical form: log 16); READ and RESERVE reply with ref and learned flag of each column of the span; READ
changes nothing, RESERVE the face's reservation alone. -/
def Obligations.BaselinesAreLearnedReadAndReserved : Prop :=
  (∀ (c : Command) (rest : List Command) (s : State) (d : Dev), Ready .baselineLearn c rest s → d = s.dev.takeCommand rest →
    (2 < c.nat 0 → exec .baselineLearn s = .next (answered s c d .range [])) ∧
    (c.nat 0 ≤ 2 → s.dev.base.banks.running = false → exec .baselineLearn s = .next (answered s c d .state [])) ∧
    (c.nat 0 ≤ 2 → s.dev.base.banks.running = true → ∃ d' : Dev,
      exec .baselineLearn s = .next (answered s c d' .done []) ∧ d'.base = d.base ∧
      Touches [.exec, .pixel .lead, .pixel .trail] s.dev d' ∧
      ∀ f, ∃ p : Pixel, p = (s.dev.face f).pixel ∧
        (c.nat 0 ≠ 2 → c.nat 0 ≠ faceCode f → (d'.face f).pixel = p) ∧
        ((c.nat 0 = 2 ∨ c.nat 0 = faceCode f) → ∃ t, (d'.face f).pixel = { p with
          cols := t, phase := .learning, learnLines := 0,
          learnLength := (s.dev.base.banks.contents f).detection.learnLength } ∧
          ∀ k, (tget PixelColumn.fresh t k).sum = 0 ∧ (tget PixelColumn.fresh t k).count = 0 ∧
            (twf PixelColumn.fresh p.cols = true → tget PixelColumn.fresh t k = { p.col k with sum := 0, count := 0 })))) ∧
  ∀ (c : Command) (rest : List Command) (s : State) (d : Dev) (bad : Prop) (f : FaceId) (ws : List Word),
    d = s.dev.takeCommand rest →
    bad = (1 < c.nat 0 ∨ c.nat 2 = 0 ∨ 64 < c.nat 2 ∨ 8192 < c.nat 1 + c.nat 2) →
    ws = ((List.range (c.nat 2)).flatMap fun n => [word ((s.dev.face f).pixel.col (c.nat 1 + n)).ref,
      word (if ((s.dev.face f).pixel.col (c.nat 1 + n)).learned then 1 else 0)]) →
    (Ready .baselineRead c rest s →
      (bad → exec .baselineRead s = .next (answered s c d .range [])) ∧
      (¬ bad → c.nat 0 = faceCode f → exec .baselineRead s = .next (answered s c d .done ws))) ∧
    (Ready .baselineReserve c rest s →
      (bad → exec .baselineReserve s = .next (answered s c d .range [])) ∧
      (¬ bad → c.nat 0 = faceCode f → exec .baselineReserve s = .next (answered s c
        (d.onFace f fun x => { x with
          pixel := { x.pixel with
            reservation := some {
              first := c.nat 1,
              snapshot := (List.range (c.nat 2)).map fun n => (x.pixel.col (c.nat 1 + n)).ref } } }) .done ws)))

/-- R57: BASELINE_PUT: the tests in order; a refused put writes no ref and keeps the reservation, and STALE for drift names the
lowest column that failed. A put that passes writes every column of the span, clamped to 65,520 (a value above 65,535 too: log
32), sets its learned flag, leaves every other column, and clears the reservation. -/
def Obligations.BaselinePutWritesReservedSpan : Prop :=
  ∀ (c : Command) (rest : List Command) (s : State) (d : Dev), Ready .baselinePut c rest s → d = s.dev.takeCommand rest →
    ((1 < c.nat 0 ∨ c.nat 2 = 0 ∨ 64 < c.nat 2 ∨ 8192 < c.nat 1 + c.nat 2) →
      exec .baselinePut s = .next (answered s c d .range [])) ∧
    ∀ (f : FaceId) (x : Pixel), c.nat 0 = faceCode f → x = (s.dev.face f).pixel → 1 ≤ c.nat 2 → c.nat 2 ≤ 64 →
      c.nat 1 + c.nat 2 ≤ 8192 →
      (x.reservation = none → exec .baselinePut s = .next (answered s c d .state [])) ∧
      ∀ (r : Reservation) (drift : Nat), x.reservation = some r →
        drift = (match s.dev.base.banks.activeOn f with
          | some i => (s.dev.base.banks.bank i).contents.detection.drift
          | none => 0) →
        ((c.nat 1 ≠ r.first ∨ c.nat 2 ≠ r.snapshot.length) → exec .baselinePut s = .next (answered s c d .stale [])) ∧
        (c.nat 1 = r.first → c.nat 2 = r.snapshot.length →
          (∀ n < c.nat 2, drift < (((x.col (c.nat 1 + n)).ref : Int) - r.snapshot.getD n 0).natAbs →
            (∀ m < n, (((x.col (c.nat 1 + m)).ref : Int) - r.snapshot.getD m 0).natAbs ≤ drift) →
            exec .baselinePut s = .next (answered s c d .stale [word (c.nat 1 + n)])) ∧
          ((∀ n < c.nat 2, (((x.col (c.nat 1 + n)).ref : Int) - r.snapshot.getD n 0).natAbs ≤ drift) → ∃ t,
            exec .baselinePut s = .next (answered s c
              (d.onFace f fun y => { y with pixel := { x with cols := t, reservation := none } })
              (if ∃ n < c.nat 2, 65520 < c.nat (3 + n) then .clamped else .done) []) ∧
            (∀ n < c.nat 2, tget PixelColumn.fresh t (c.nat 1 + n) = { x.col (c.nat 1 + n) with
              ref := min (c.nat (3 + n)) 65520, learned := true }) ∧
            ∀ k, k < c.nat 1 ∨ c.nat 1 + c.nat 2 ≤ k → tget PixelColumn.fresh t k = x.col k))

/-- R137, R138, R163: TIER_LIMIT: the tests in order; each named lane of each named face takes the limits, its own tier clamped into
them, a lane that moved taking the last inspection position; buckets and boundaries stay, and the alert is tested. On each face
this is one change of the named lanes, with cause LIMIT and the last inspection line, whose reports are those of R137 (O42 states
them), before the reply (log 52); with BOTH, which face comes first is left open (log 8). PREVIEW_SET:
the tests; each named face takes the settings with its counter 0; a decimation of 0 empties its slot without a loss, the
lost-before of the line removed going back to the pending loss. Up to the reply that is queued, every other queue, the buffers, the
preview toggle, the frame in transmission and the link are kept. -/
def Obligations.TierLimitAndPreviewSetTakeEffect : Prop :=
  (∀ (c : Command) (rest : List Command) (s : State) (d : Dev), Ready .tierLimit c rest s → d = s.dev.takeCommand rest →
    ((2 < c.nat 0 ∨ 16 < c.nat 1 ∨ 3 < c.nat 2 ∨ 3 < c.nat 3 ∨ c.nat 3 < c.nat 2) →
      exec .tierLimit s = .next (answered s c d .range [])) ∧
    (c.nat 0 ≤ 2 → c.nat 1 ≤ 16 → c.nat 2 ≤ c.nat 3 → c.nat 3 ≤ 3 →
      (s.dev.base.banks.running = false → exec .tierLimit s = .next (answered s c d .state [])) ∧
      (s.dev.base.banks.running = true → ∃ d' : Dev, exec .tierLimit s = .next (answered s c d' .done []) ∧
        (∀ f, c.nat 0 ≠ 2 → c.nat 0 ≠ faceCode f → (d'.face f).tier = (s.dev.face f).tier) ∧
        (∀ f, (c.nat 0 = 2 ∨ c.nat 0 = faceCode f) → ∃ x y : Tier, x = (s.dev.face f).tier ∧ y = (d'.face f).tier ∧
          (∀ j < 16, y.lane j = if c.nat 1 = 16 ∨ c.nat 1 = j then { x.lane j with
              minLimit := c.nat 2, maxLimit := c.nat 3, own := max (c.nat 2) (min (x.lane j).own (c.nat 3)),
              lastChange := if c.nat 2 ≤ (x.lane j).own ∧ (x.lane j).own ≤ c.nat 3 then (x.lane j).lastChange else x.lastPos }
            else x.lane j) ∧
          y.current = x.current ∧ y.next = x.next ∧ y.escalations = x.escalations ∧ y.relaxations = x.relaxations ∧
          y.alert = decide ((s.dev.base.banks.contents f).tierPolicy.na ≤ y.atT2)) ∧
        (∀ (lanes : List Nat) (limit : FaceId → Insp → Insp), lanes = (if c.nat 1 = 16 then List.range 16 else [c.nat 1]) →
          (∀ f i x, x = (i.face f).tier → limit f i = commitTiers s.dev.base f lanes .limit
            (match x.lastLine, x.lastPos with
              | some n, some p => some (n, p)
              | _, _ => none)
            (lanes.foldl (fun y n => y.setLane n ((y.lane n).limit (c.nat 2) (c.nat 3) y.lastPos)) x) i) →
          (∀ f, c.nat 0 = faceCode f → d'.insp = limit f s.dev.insp) ∧
          (c.nat 0 = 2 → d'.insp = limit .trail (limit .lead s.dev.insp) ∨ d'.insp = limit .lead (limit .trail s.dev.insp))) ∧
        d'.base.exec = d.base.exec ∧ Touches [.exec, .free, .out, .tier .lead, .tier .trail] s.dev d'))) ∧
  ∀ (c : Command) (rest : List Command) (s : State) (d : Dev), Ready .previewSet c rest s → d = s.dev.takeCommand rest →
    ((2 < c.nat 0 ∨ 1024 < c.nat 1 ∨ c.nat 2 ∉ [1, 2, 4, 8]) → exec .previewSet s = .next (answered s c d .range [])) ∧
    (c.nat 0 ≤ 2 → c.nat 1 ≤ 1024 → c.nat 2 ∈ [1, 2, 4, 8] → ∃ d' : Dev,
      exec .previewSet s = .next (answered s c d' .done []) ∧ d'.base = d.base ∧
      d'.insp.out = { s.dev.insp.out with previewLead := d'.insp.out.previewLead, previewTrail := d'.insp.out.previewTrail } ∧
      ∀ (f : FaceId) (q : QueueId), q = (match f with | .lead => .previewLead | .trail => .previewTrail) →
        (c.nat 0 ≠ 2 → c.nat 0 ≠ faceCode f → (d'.face f).preview = (s.dev.face f).preview ∧
          d'.insp.out.queue q = s.dev.insp.out.queue q) ∧
        ((c.nat 0 = 2 ∨ c.nat 0 = faceCode f) →
          (d'.face f).preview = { (s.dev.face f).preview with decimation := c.nat 1, binning := c.nat 2, counter := 0 } ∧
          (0 < c.nat 1 → d'.insp.out.queue q = s.dev.insp.out.queue q) ∧
          (c.nat 1 = 0 → ∃ x : Queue, x = s.dev.insp.out.queue q ∧ d'.insp.out.queue q = { x with
            entries := [], pendingLoss := min (x.pendingLoss + (x.entries.map (·.lostBefore)).sum) 65535 })) ∧
        Touches [.exec, .out, .preview .lead, .preview .trail] s.dev d')
end

