-- ==== Sys2Proof/Laws/Tables.lean ====
section
/-! SUPPORT. Sparse tables: what is read after a write, the canonical form, and properties of every listed value. -/

namespace Sys2Proof.Machine

open Sys2Proof

variable {α : Type}

theorem tget_tinsert_same (d : α) (t : Table α) (k : Nat) (v : α) : tget d (tinsert t k v) k = v := by
  induction t with
  | nil => simp [tinsert, tget]
  | cons e rest ih =>
    obtain ⟨k', v'⟩ := e
    simp only [tinsert]
    split
    · simp [tget]
    · split
      · simp [tget]
      · rename_i h; simp [tget, h, ih]

theorem tget_tinsert_other (d : α) (t : Table α) (k j : Nat) (v : α) (h : j ≠ k) : tget d (tinsert t k v) j = tget d t j := by
  induction t with
  | nil => simp [tinsert, tget, h]
  | cons e rest ih =>
    obtain ⟨k', v'⟩ := e
    simp only [tinsert]
    split
    · simp [tget, h]
    · split
      · rename_i h'; subst h'; simp [tget, h]
      · simp [tget, ih]

theorem tget_erase_same (d : α) (t : Table α) (k : Nat) : tget d (t.filter fun e => e.1 != k) k = d := by
  induction t with
  | nil => simp [tget]
  | cons e rest ih =>
    obtain ⟨k', v'⟩ := e
    by_cases h : k' = k
    · simp [h, ih]
    · simp [h, tget, ih, Ne.symm h]

theorem tget_erase_other (d : α) (t : Table α) (k j : Nat) (h : j ≠ k) :
    tget d (t.filter fun e => e.1 != k) j = tget d t j := by
  induction t with
  | nil => simp [tget]
  | cons e rest ih =>
    obtain ⟨k', v'⟩ := e
    by_cases h' : k' = k
    · subst h'; simp [ih, tget, h]
    · simp [h', tget, ih]

/-- A write is read back at its key. -/
@[simp] theorem tget_tset_same [DecidableEq α] (d : α) (t : Table α) (k : Nat) (v : α) : tget d (tset d t k v) k = v := by
  unfold tset
  split
  · rename_i h; rw [tget_erase_same, h]
  · exact tget_tinsert_same d t k v

/-- A write leaves the other keys. -/
theorem tget_tset_other [DecidableEq α] (d : α) (t : Table α) (k j : Nat) (v : α) (h : j ≠ k) :
    tget d (tset d t k v) j = tget d t j := by
  unfold tset
  split
  · exact tget_erase_other d t k j h
  · exact tget_tinsert_other d t k j v h

/-- What is read after a write. -/
theorem tget_tset [DecidableEq α] (d : α) (t : Table α) (k j : Nat) (v : α) :
    tget d (tset d t k v) j = if j = k then v else tget d t j := by
  split
  · rename_i h; subst h; simp
  · rename_i h; exact tget_tset_other d t k j v h

/-! ### The canonical form -/

theorem twf_tail [DecidableEq α] {d : α} {e : Nat × α} {t : Table α} (h : twf d (e :: t) = true) : twf d t = true := by
  cases t with
  | nil => rfl
  | cons e' rest => simp only [twf, Bool.and_eq_true] at h; exact h.2

theorem twf_head [DecidableEq α] {d : α} {e : Nat × α} {t : Table α} (h : twf d (e :: t) = true) : e.2 ≠ d := by
  cases t with
  | nil => simpa [twf] using h
  | cons e' rest => simp only [twf, Bool.and_eq_true, decide_eq_true_eq] at h; exact h.1.1

theorem twf_lt [DecidableEq α] {d : α} {e e' : Nat × α} {t : Table α} (h : twf d (e :: e' :: t) = true) : e.1 < e'.1 := by
  simp only [twf, Bool.and_eq_true, decide_eq_true_eq] at h; exact h.1.2

theorem twf_cons [DecidableEq α] {d : α} {k : Nat} {v : α} {t : Table α} (hv : v ≠ d) (ht : twf d t = true)
    (hk : ∀ e ∈ t.head?, k < e.1) : twf d ((k, v) :: t) = true := by
  cases t with
  | nil => simp [twf, hv]
  | cons e' rest => simp [twf, hv, ht]; exact hk e' rfl

theorem twf_all_gt [DecidableEq α] {d : α} {e : Nat × α} {t : Table α} (h : twf d (e :: t) = true) :
    ∀ e' ∈ t, e.1 < e'.1 := by
  induction t generalizing e with
  | nil => simp
  | cons e1 rest ih =>
    intro e' he'
    have h1 := twf_lt h
    rcases List.mem_cons.mp he' with rfl | hm
    · exact h1
    · exact Nat.lt_trans h1 (ih (twf_tail h) e' hm)

theorem twf_filter [DecidableEq α] {d : α} (p : Nat × α → Bool) {t : Table α} (h : twf d t = true) :
    twf d (t.filter p) = true := by
  induction t with
  | nil => rfl
  | cons e rest ih =>
    have hr := ih (twf_tail h)
    by_cases hp : p e = true
    · rw [List.filter_cons_of_pos hp]
      refine twf_cons (twf_head h) hr ?_
      intro e' he'
      exact twf_all_gt h e' (List.mem_of_mem_filter (List.mem_of_mem_head? he'))
    · rw [List.filter_cons_of_neg hp]; exact hr

theorem twf_tinsert [DecidableEq α] {d : α} {t : Table α} (k : Nat) {v : α} (hv : v ≠ d) (h : twf d t = true) :
    twf d (tinsert t k v) = true := by
  induction t with
  | nil => simp [tinsert, twf, hv]
  | cons e rest ih =>
    obtain ⟨k', v'⟩ := e
    simp only [tinsert]
    split
    · rename_i hk; exact twf_cons hv h (by simpa using hk)
    · split
      · rename_i hk; subst hk
        refine twf_cons hv (twf_tail h) ?_
        intro e' he'; exact twf_all_gt h e' (List.mem_of_mem_head? he')
      · rename_i h1 h2
        refine twf_cons (twf_head h) (ih (twf_tail h)) ?_
        intro e' he'
        have hkk : k' < k := by omega
        cases rest with
        | nil => simp [tinsert] at he'; subst he'; exact hkk
        | cons e1 r1 =>
          obtain ⟨k1, v1⟩ := e1
          have h3 : k' < k1 := twf_lt h
          simp only [tinsert] at he'
          split at he'
          · simp at he'; subst he'; exact hkk
          · split at he'
            · simp at he'; subst he'; exact hkk
            · simp at he'; subst he'; exact h3

/-- A write keeps the canonical form. -/
theorem twf_tset [DecidableEq α] {d : α} {t : Table α} (k : Nat) (v : α) (h : twf d t = true) : twf d (tset d t k v) = true := by
  unfold tset
  split
  · exact twf_filter _ h
  · rename_i hv; exact twf_tinsert k hv h

theorem twf_tmap [DecidableEq α] {d : α} (g : α → α) {t : Table α} (h : twf d t = true) : twf d (tmap d g t) = true := by
  induction t with
  | nil => rfl
  | cons e rest ih =>
    have hr := ih (twf_tail h)
    simp only [tmap, List.map_cons] at hr ⊢
    by_cases hg : g e.2 = d
    · rw [List.filter_cons_of_neg (by simp [hg])]; exact hr
    · rw [List.filter_cons_of_pos (by simp [hg])]
      refine twf_cons hg hr ?_
      intro e' he'
      have hm := List.mem_of_mem_filter (List.mem_of_mem_head? he')
      obtain ⟨e0, h0, rfl⟩ := List.mem_map.mp hm
      exact twf_all_gt h e0 h0

theorem tget_of_lt [DecidableEq α] {d : α} {t : Table α} {k : Nat} (h : ∀ e ∈ t, k < e.1) : tget d t k = d := by
  induction t with
  | nil => rfl
  | cons e rest ih =>
    obtain ⟨k', v'⟩ := e
    have h1 : k < k' := h _ (List.mem_cons_self)
    rw [tget, if_neg (by omega)]
    exact ih fun e he => h e (List.mem_cons_of_mem _ he)

/-- What is read after a map that keeps the default. -/
theorem tget_tmap [DecidableEq α] {d : α} (g : α → α) (hg : g d = d) {t : Table α} (h : twf d t = true) (k : Nat) :
    tget d (tmap d g t) k = g (tget d t k) := by
  induction t with
  | nil => simp [tmap, tget, hg]
  | cons e rest ih =>
    obtain ⟨k', v'⟩ := e
    have hr := ih (twf_tail h)
    simp only [tmap, List.map_cons] at hr ⊢
    by_cases hv : g v' = d
    · rw [List.filter_cons_of_neg (by simp [hv]), hr]
      by_cases hk : k = k'
      · subst hk
        rw [tget_of_lt (twf_all_gt h), hg, tget, if_pos rfl, hv]
      · rw [tget, if_neg hk]
    · rw [List.filter_cons_of_pos (by simp [hv])]
      by_cases hk : k = k'
      · simp [tget, hk]
      · simp only [tget, if_neg hk]; exact hr

/-! ### Every listed value -/

theorem AllListed.nil (p : α → Prop) : AllListed p [] := by intro e he; cases he

/-- What is read has the property, when the default has it. -/
theorem AllListed.tget {p : α → Prop} {d : α} (hd : p d) {t : Table α} (h : AllListed p t) (k : Nat) : p (tget d t k) := by
  induction t with
  | nil => exact hd
  | cons e rest ih =>
    obtain ⟨k', v'⟩ := e
    unfold Machine.tget
    split
    · exact h (k', v') List.mem_cons_self
    · exact ih fun e he => h e (List.mem_cons_of_mem _ he)

theorem AllListed.tinsert {p : α → Prop} {t : Table α} (h : AllListed p t) (k : Nat) {v : α} (hv : p v) :
    AllListed p (tinsert t k v) := by
  induction t with
  | nil => intro e he; simp [Machine.tinsert] at he; subst he; exact hv
  | cons e rest ih =>
    obtain ⟨k', v'⟩ := e
    have hr : AllListed p rest := fun e he => h e (List.mem_cons_of_mem _ he)
    unfold Machine.tinsert
    split
    · intro e he
      rcases List.mem_cons.mp he with rfl | hm
      · exact hv
      · exact h e hm
    · split
      · intro e he
        rcases List.mem_cons.mp he with rfl | hm
        · exact hv
        · exact hr e hm
      · intro e he
        rcases List.mem_cons.mp he with rfl | hm
        · exact h _ List.mem_cons_self
        · exact ih hr e hm

theorem AllListed.filter {p : α → Prop} {t : Table α} (h : AllListed p t) (q : Nat × α → Bool) : AllListed p (t.filter q) :=
  fun e he => h e (List.mem_of_mem_filter he)

theorem AllListed.tset [DecidableEq α] {p : α → Prop} {d : α} {t : Table α} (h : AllListed p t) (k : Nat) {v : α} (hv : p v) :
    AllListed p (tset d t k v) := by
  unfold Machine.tset
  split
  · exact h.filter _
  · exact h.tinsert k hv

theorem AllListed.tmap [DecidableEq α] {p : α → Prop} {d : α} {g : α → α} {t : Table α} (h : AllListed p t)
    (hg : ∀ v, p v → p (g v)) : AllListed p (tmap d g t) := by
  intro e he
  have hm := List.mem_of_mem_filter he
  obtain ⟨e0, h0, rfl⟩ := List.mem_map.mp hm
  exact hg _ (h e0 h0)

/-- A fold keeps what each of its steps keeps. -/
theorem foldl_keeps {σ β : Type} {p : σ → Prop} {f : σ → β → σ} (hf : ∀ s x, p s → p (f s x)) (l : List β) {s : σ} (h : p s) :
    p (l.foldl f s) := by
  induction l generalizing s with
  | nil => exact h
  | cons x xs ih => exact ih (hf s x h)

/-- A fold leaves what each of its steps leaves. -/
theorem foldl_same {σ β γ : Type} {π : σ → γ} {f : σ → β → σ} (hf : ∀ s x, π (f s x) = π s) (l : List β) (s : σ) :
    π (l.foldl f s) = π s := by
  induction l generalizing s with
  | nil => rfl
  | cons x xs ih => rw [List.foldl_cons, ih, hf]

end Sys2Proof.Machine
end

