-- ==== Sys2Proof/Laws/Orders.lean ====
section
/-! SUPPORT. Ordered lists and slot tables: what orderBy gives, what occupied and lowestFree say of a slot table. -/

namespace Sys2Proof.Machine

open Sys2Proof

variable {α : Type}

/-! ### Order -/

theorem orderedInsert_perm (before : α → α → Bool) (x : α) (l : List α) : (orderedInsert before x l).Perm (x :: l) := by
  induction l with
  | nil => exact .refl _
  | cons y ys ih =>
    unfold orderedInsert
    split
    · exact .refl _
    · exact ((ih.cons y).trans (.swap x y ys))

theorem foldl_insert_perm (before : α → α → Bool) (l acc : List α) :
    (l.foldl (fun acc x => orderedInsert before x acc) acc).Perm (l ++ acc) := by
  induction l generalizing acc with
  | nil => exact .refl _
  | cons x xs ih =>
    rw [List.foldl_cons]
    refine (ih _).trans ?_
    refine ((orderedInsert_perm before x acc).append_left xs).trans ?_
    exact List.perm_middle

/-- Sorting keeps the elements. -/
theorem orderBy_perm (before : α → α → Bool) (l : List α) : (orderBy before l).Perm l := by
  have h := foldl_insert_perm before l []
  rwa [List.append_nil] at h

theorem mem_orderBy (before : α → α → Bool) (l : List α) (x : α) : x ∈ orderBy before l ↔ x ∈ l :=
  (orderBy_perm before l).mem_iff

/-- Under a strict order that decides between any two elements of the list, sorting orders every pair. -/
theorem orderBy_pairwise (before : α → α → Bool) (l : List α)
    (htrans : ∀ a b c, before a b = true → before b c = true → before a c = true)
    (htotal : l.Pairwise fun a b => before a b = true ∨ before b a = true) :
    (orderBy before l).Pairwise fun a b => before a b = true := by
  have key : ∀ (l acc : List α), acc.Pairwise (fun a b => before a b = true) →
      (∀ x ∈ l, ∀ y ∈ acc, before x y = true ∨ before y x = true) →
      l.Pairwise (fun a b => before a b = true ∨ before b a = true) →
      (l.foldl (fun acc x => orderedInsert before x acc) acc).Pairwise fun a b => before a b = true := by
    intro l
    induction l with
    | nil => intro acc h _ _; exact h
    | cons x xs ih =>
      intro acc hacc hx hl
      rw [List.foldl_cons]
      rw [List.pairwise_cons] at hl
      have hins : ∀ acc : List α, acc.Pairwise (fun a b => before a b = true) →
          (∀ y ∈ acc, before x y = true ∨ before y x = true) →
          (orderedInsert before x acc).Pairwise fun a b => before a b = true := by
        intro acc
        induction acc with
        | nil => intro _ _; exact List.pairwise_singleton _ _
        | cons y ys ih =>
          intro h hx
          rw [List.pairwise_cons] at h
          unfold orderedInsert
          split
          · rename_i hxy
            refine List.pairwise_cons.mpr ⟨?_, List.pairwise_cons.mpr h⟩
            intro z hz
            rcases List.mem_cons.mp hz with rfl | hz
            · exact hxy
            · exact htrans _ _ _ hxy (h.1 z hz)
          · rename_i hxy
            refine List.pairwise_cons.mpr ⟨?_, ih h.2 fun z hz => hx z (List.mem_cons_of_mem _ hz)⟩
            intro z hz
            rcases List.mem_cons.mp ((orderedInsert_perm before x ys).mem_iff.mp hz) with rfl | hz
            · exact (hx y (List.mem_cons_self ..)).resolve_left hxy
            · exact h.1 z hz
      refine ih _ (hins acc hacc (hx x (List.mem_cons_self ..))) ?_ hl.2
      intro z hz y hy
      rcases List.mem_cons.mp ((orderedInsert_perm before x acc).mem_iff.mp hy) with rfl | hy
      · exact (hl.1 z hz).symm
      · exact hx z (List.mem_cons_of_mem _ hz) y hy
  exact key l [] List.Pairwise.nil (fun _ _ _ h => absurd h (List.not_mem_nil)) htotal

/-! ### Slot tables -/

/-- The keys of a canonical table rise. -/
theorem twf_keys [DecidableEq α] {d : α} {t : Table α} (h : twf d t = true) : t.Pairwise fun a b => a.1 < b.1 := by
  induction t with
  | nil => exact List.Pairwise.nil
  | cons e t ih => exact List.pairwise_cons.mpr ⟨twf_all_gt h, ih (twf_tail h)⟩

/-- A listed entry of a canonical table is what its key reads as. -/
theorem tget_of_mem [DecidableEq α] {d : α} {t : Table α} (h : twf d t = true) {k : Nat} {v : α} (hm : (k, v) ∈ t) :
    tget d t k = v := by
  induction t with
  | nil => cases hm
  | cons e t ih =>
    rcases List.mem_cons.mp hm with rfl | hm
    · simp [tget]
    · have := twf_all_gt h _ hm
      have hne : k ≠ e.1 := by simp only at this; omega
      rw [show tget d (e :: t) k = tget d t k by simp [tget, hne]]
      exact ih (twf_tail h) hm

theorem mem_of_tget [DecidableEq α] {d : α} {t : Table α} {k : Nat} (h : tget d t k ≠ d) : (k, tget d t k) ∈ t := by
  induction t with
  | nil => exact absurd rfl h
  | cons e t ih =>
    by_cases hk : k = e.1
    · subst hk; simp [tget]
    · have he : tget d (e :: t) k = tget d t k := by simp [tget, hk]
      rw [he] at h ⊢
      exact List.mem_cons_of_mem _ (ih h)

theorem mem_occupied_iff (t : Table (Option α)) (e : Nat × α) : e ∈ occupied t ↔ (e.1, some e.2) ∈ t := by
  induction t with
  | nil => simp [occupied]
  | cons x t ih =>
    rcases x with ⟨k, v⟩
    cases v with
    | none => simp only [occupied, ih, List.mem_cons, Prod.mk.injEq, reduceCtorEq, and_false, false_or]
    | some v =>
      simp only [occupied, List.mem_cons, ih, Prod.mk.injEq, Option.some.injEq]
      constructor
      · rintro (rfl | h)
        · exact .inl ⟨rfl, rfl⟩
        · exact .inr h
      · rintro (⟨h1, h2⟩ | h)
        · exact .inl (Prod.ext h1 h2)
        · exact .inr h

/-- A slot of a canonical table is occupied by what it reads as. -/
theorem mem_occupied [DecidableEq α] {t : Table (Option α)} (h : twf none t = true) {k : Nat} {v : α} :
    (k, v) ∈ occupied t ↔ tget none t k = some v := by
  rw [mem_occupied_iff]
  constructor
  · exact tget_of_mem h
  · intro hk
    have := mem_of_tget (d := none) (t := t) (k := k) (by rw [hk]; exact Option.some_ne_none v)
    rwa [hk] at this

/-- The occupied slots of a canonical table come in order of number. -/
theorem occupied_pairwise [DecidableEq α] {t : Table (Option α)} (h : twf none t = true) :
    (occupied t).Pairwise fun a b => a.1 < b.1 := by
  have hp := twf_keys h
  clear h
  induction t with
  | nil => exact List.Pairwise.nil
  | cons x t ih =>
    rw [List.pairwise_cons] at hp
    rcases x with ⟨k, v⟩
    cases v with
    | none => exact ih hp.2
    | some v =>
      refine List.pairwise_cons.mpr ⟨?_, ih hp.2⟩
      intro e he
      exact hp.1 _ ((mem_occupied_iff t e).mp he)

/-- The lowest free slot below a capacity. -/
theorem lowestFree_some {cap k : Nat} {t : Table (Option α)} (hk : k < cap) (h : tget none t k = none)
    (hl : ∀ m < k, tget none t m ≠ none) : lowestFree cap t = some k := by
  unfold lowestFree
  rw [List.find?_range_eq_some]
  refine ⟨by rw [h]; rfl, List.mem_range.mpr hk, ?_⟩
  intro m hm
  have := hl m hm
  cases hv : tget none t m
  · exact absurd hv this
  · rfl

theorem lowestFree_lt {cap k : Nat} {t : Table (Option α)} (h : lowestFree cap t = some k) : k < cap :=
  List.mem_range.mp (List.mem_of_find?_eq_some h)

theorem lowestFree_none {cap : Nat} {t : Table (Option α)} (h : ∀ k < cap, tget none t k ≠ none) : lowestFree cap t = none := by
  unfold lowestFree
  rw [List.find?_eq_none]
  intro k hk
  have := h k (List.mem_range.mp hk)
  cases hv : tget none t k
  · exact absurd hv this
  · simp

/-! ### Tables of numbered slots -/

theorem SlotTable.nil [DecidableEq α] (n : Nat) : SlotTable n ([] : Table (Option α)) :=
  ⟨rfl, fun _ h => absurd h (List.not_mem_nil)⟩

theorem mem_tinsert {t : Table α} {k : Nat} {v : α} {e : Nat × α} (h : e ∈ tinsert t k v) : e = (k, v) ∨ e ∈ t := by
  induction t with
  | nil => exact .inl (by simpa [tinsert] using h)
  | cons x t ih =>
    unfold tinsert at h
    split at h
    · rcases List.mem_cons.mp h with rfl | h
      · exact .inl rfl
      · exact .inr h
    · split at h
      · rcases List.mem_cons.mp h with rfl | h
        · exact .inl rfl
        · exact .inr (List.mem_cons_of_mem _ h)
      · rcases List.mem_cons.mp h with rfl | h
        · exact .inr (List.mem_cons_self ..)
        · exact (ih h).imp_right (List.mem_cons_of_mem _)

/-- A slot below `n` may be taken or freed, any other freed. -/
theorem SlotTable.set [DecidableEq α] {n : Nat} {t : Table (Option α)} (h : SlotTable n t) (k : Nat) (v : Option α)
    (hk : v ≠ none → k < n) : SlotTable n (tset none t k v) := by
  refine ⟨twf_tset k v h.1, fun e he => ?_⟩
  unfold tset at he
  split at he
  · exact h.2 e (List.mem_of_mem_filter he)
  · rename_i hv
    rcases mem_tinsert he with rfl | he
    · exact hk hv
    · exact h.2 e he

theorem SlotTable.free [DecidableEq α] {n : Nat} {t : Table (Option α)} (h : SlotTable n t) (k : Nat) :
    SlotTable n (tset none t k none) := h.set k none fun hv => absurd rfl hv

theorem SlotTable.lt [DecidableEq α] {n : Nat} {t : Table (Option α)} (h : SlotTable n t) {e : Nat × α}
    (he : e ∈ occupied t) : e.1 < n := h.2 _ ((mem_occupied_iff t e).mp he)

theorem SlotTable.lt_of_tget [DecidableEq α] {n : Nat} {t : Table (Option α)} (h : SlotTable n t) {k : Nat}
    (hk : tget none t k ≠ none) : k < n := h.2 _ (mem_of_tget hk)

/-- No more slots are occupied than there are. -/
theorem SlotTable.length_le [DecidableEq α] {n : Nat} {t : Table (Option α)} (h : SlotTable n t) : (occupied t).length ≤ n := by
  have hnd : ((occupied t).map (·.1)).Nodup := (List.pairwise_map.mpr (occupied_pairwise h.1)).imp Nat.ne_of_lt
  have hsub : (occupied t).map (·.1) ⊆ List.range n := fun k hk => by
    obtain ⟨e, he, rfl⟩ := List.mem_map.mp hk
    exact List.mem_range.mpr (h.lt he)
  have := (hnd.subperm hsub).length_le
  simpa using this

/-- A fold over listed elements keeps what each of its steps keeps. -/
theorem foldl_keeps_mem {σ β : Type} {p : σ → Prop} {f : σ → β → σ} (l : List β) (hf : ∀ s, ∀ x ∈ l, p s → p (f s x)) {s : σ}
    (h : p s) : p (l.foldl f s) := by
  induction l generalizing s with
  | nil => exact h
  | cons x xs ih =>
    exact ih (fun s y hy => hf s y (List.mem_cons_of_mem _ hy)) (hf s x (List.mem_cons_self ..) h)

end Sys2Proof.Machine
end

