-- ==== Sys2Proof/Laws/State.lean ====
section
/-! SUPPORT. What each small update of the state reads back as: one lemma per field per update. -/

namespace Sys2Proof.Machine

open Sys2Proof

/-! ### A face of the line side -/

@[simp] theorem face_lead (i : Insp) : i.face .lead = i.lead := rfl
@[simp] theorem face_trail (i : Insp) : i.face .trail = i.trail := rfl
@[simp] theorem setFace_marks (i : Insp) (f : FaceId) (x : Face) : (i.setFace f x).marks = i.marks := by cases f <;> rfl
@[simp] theorem setFace_corr (i : Insp) (f : FaceId) (x : Face) : (i.setFace f x).corr = i.corr := by cases f <;> rfl
@[simp] theorem setFace_out (i : Insp) (f : FaceId) (x : Face) : (i.setFace f x).out = i.out := by cases f <;> rfl
@[simp] theorem setFace_face (i : Insp) (f : FaceId) (x : Face) : (i.setFace f x).face f = x := by cases f <;> rfl
@[simp] theorem onFace_marks (i : Insp) (f : FaceId) (g : Face → Face) : (i.onFace f g).marks = i.marks := by cases f <;> rfl
@[simp] theorem onFace_corr (i : Insp) (f : FaceId) (g : Face → Face) : (i.onFace f g).corr = i.corr := by cases f <;> rfl
@[simp] theorem onFace_out (i : Insp) (f : FaceId) (g : Face → Face) : (i.onFace f g).out = i.out := by cases f <;> rfl
@[simp] theorem onFace_face (i : Insp) (f : FaceId) (g : Face → Face) : (i.onFace f g).face f = g (i.face f) := by
  cases f <;> rfl

/-- A face other than the one changed. -/
theorem onFace_other (i : Insp) {f f' : FaceId} (g : Face → Face) (h : f' ≠ f) : (i.onFace f g).face f' = i.face f' := by
  cases f <;> cases f' <;> first | rfl | exact absurd rfl h

/-- Both faces after a change of one. -/
theorem onFace_face_ite (i : Insp) (f f' : FaceId) (g : Face → Face) :
    (i.onFace f g).face f' = if f' = f then g (i.face f) else i.face f' := by
  cases f <;> cases f' <;> rfl

@[simp] theorem withOut_face (i : Insp) (o : Out) (f : FaceId) : Insp.face { i with out := o } f = i.face f := by
  cases f <;> rfl
@[simp] theorem withCorr_face (i : Insp) (c : Corr) (f : FaceId) : Insp.face { i with corr := c } f = i.face f := by
  cases f <;> rfl
@[simp] theorem withMarks_face (i : Insp) (m : Marks) (f : FaceId) : Insp.face { i with marks := m } f = i.face f := by
  cases f <;> rfl

@[simp] theorem offer_face (i : Insp) (q : QueueId) (r : Report) (f : FaceId) : (i.offer q r).face f = i.face f := by
  cases f <;> rfl
@[simp] theorem offer_marks (i : Insp) (q : QueueId) (r : Report) : (i.offer q r).marks = i.marks := rfl
@[simp] theorem offer_corr (i : Insp) (q : QueueId) (r : Report) : (i.offer q r).corr = i.corr := rfl
@[simp] theorem offer_out (i : Insp) (q : QueueId) (r : Report) : (i.offer q r).out = i.out.offer q r := rfl
@[simp] theorem route_face (i : Insp) (t : Route) (r : Report) (f : FaceId) : (i.route t r).face f = i.face f := by
  cases f <;> rfl
@[simp] theorem route_marks (i : Insp) (t : Route) (r : Report) : (i.route t r).marks = i.marks := rfl
@[simp] theorem route_corr (i : Insp) (t : Route) (r : Report) : (i.route t r).corr = i.corr := rfl
@[simp] theorem route_out (i : Insp) (t : Route) (r : Report) : (i.route t r).out = i.out.route t.level t.slot r := rfl
@[simp] theorem offerStatus_face (i : Insp) (g : Option FaceId) (st : Status) (f : FaceId) :
    (i.offerStatus g st).face f = i.face f := by cases f <;> rfl
@[simp] theorem offerStatus_marks (i : Insp) (g : Option FaceId) (st : Status) : (i.offerStatus g st).marks = i.marks := rfl
@[simp] theorem offerStatus_corr (i : Insp) (g : Option FaceId) (st : Status) : (i.offerStatus g st).corr = i.corr := rfl

/-! ### The part -/

@[simp] theorem dev_onFace_base (d : Dev) (f : FaceId) (g : Face → Face) : (d.onFace f g).base = d.base := rfl
@[simp] theorem dev_onFace_insp (d : Dev) (f : FaceId) (g : Face → Face) : (d.onFace f g).insp = d.insp.onFace f g := rfl
@[simp] theorem dev_onFace_face (d : Dev) (f : FaceId) (g : Face → Face) : (d.onFace f g).face f = g (d.face f) :=
  onFace_face d.insp f g
@[simp] theorem dev_offerStatus_base (d : Dev) (f : Option FaceId) (st : Status) : (d.offerStatus f st).base = d.base := rfl
@[simp] theorem dev_offerStatus_face (d : Dev) (g : Option FaceId) (st : Status) (f : FaceId) :
    (d.offerStatus g st).face f = d.face f := offerStatus_face d.insp g st f
@[simp] theorem dev_offerStatus_insp (d : Dev) (g : Option FaceId) (st : Status) :
    (d.offerStatus g st).insp = d.insp.offerStatus g st := rfl
@[simp] theorem onSlots_base (d : Dev) (f : FaceId) (g : List Slot → List Slot) : (d.onSlots f g).base = d.base := rfl
@[simp] theorem onMotion_insp (d : Dev) (g : Motion → Motion) : (d.onMotion g).insp = d.insp := rfl
@[simp] theorem onMotion_motion (d : Dev) (g : Motion → Motion) : (d.onMotion g).base.motion = g d.base.motion := rfl
@[simp] theorem onMotion_sens (d : Dev) (g : Motion → Motion) : (d.onMotion g).base.sens = d.base.sens := rfl
@[simp] theorem onMotion_banks (d : Dev) (g : Motion → Motion) : (d.onMotion g).base.banks = d.base.banks := rfl
@[simp] theorem onMotion_exec (d : Dev) (g : Motion → Motion) : (d.onMotion g).base.exec = d.base.exec := rfl
@[simp] theorem onBanks_insp (d : Dev) (g : Banks → Banks) : (d.onBanks g).insp = d.insp := rfl
@[simp] theorem onBanks_banks (d : Dev) (g : Banks → Banks) : (d.onBanks g).base.banks = g d.base.banks := rfl
@[simp] theorem onBanks_motion (d : Dev) (g : Banks → Banks) : (d.onBanks g).base.motion = d.base.motion := rfl
@[simp] theorem onBanks_sens (d : Dev) (g : Banks → Banks) : (d.onBanks g).base.sens = d.base.sens := rfl
@[simp] theorem onBanks_exec (d : Dev) (g : Banks → Banks) : (d.onBanks g).base.exec = d.base.exec := rfl
@[simp] theorem onExec_insp (d : Dev) (g : Exec → Exec) : (d.onExec g).insp = d.insp := rfl
@[simp] theorem onExec_exec (d : Dev) (g : Exec → Exec) : (d.onExec g).base.exec = g d.base.exec := rfl
@[simp] theorem onExec_banks (d : Dev) (g : Exec → Exec) : (d.onExec g).base.banks = d.base.banks := rfl
@[simp] theorem onExec_sens (d : Dev) (g : Exec → Exec) : (d.onExec g).base.sens = d.base.sens := rfl
@[simp] theorem onExec_motion (d : Dev) (g : Exec → Exec) : (d.onExec g).base.motion = d.base.motion := rfl
@[simp] theorem onOut_base (d : Dev) (g : Out → Out) : (d.onOut g).base = d.base := rfl
@[simp] theorem onOut_face (d : Dev) (g : Out → Out) (f : FaceId) : (d.onOut g).face f = d.face f := by cases f <;> rfl
@[simp] theorem onOut_out (d : Dev) (g : Out → Out) : (d.onOut g).insp.out = g d.insp.out := rfl
@[simp] theorem reply_base (d : Dev) (c t : Nat) (r : ReplyCode) (ws : List Word) : (d.reply c t r ws).base = d.base := rfl
@[simp] theorem reply_face (d : Dev) (c t : Nat) (r : ReplyCode) (ws : List Word) (f : FaceId) :
    (d.reply c t r ws).face f = d.face f := by cases f <;> rfl
@[simp] theorem reply_marks (d : Dev) (c t : Nat) (r : ReplyCode) (ws : List Word) :
    (d.reply c t r ws).insp.marks = d.insp.marks := rfl
@[simp] theorem reply_corr (d : Dev) (c t : Nat) (r : ReplyCode) (ws : List Word) :
    (d.reply c t r ws).insp.corr = d.insp.corr := rfl
@[simp] theorem takeCommand_insp (d : Dev) (l : List Command) : (d.takeCommand l).insp = d.insp := rfl
@[simp] theorem takeCommand_face (d : Dev) (l : List Command) (f : FaceId) : (d.takeCommand l).face f = d.face f := rfl
@[simp] theorem takeCommand_motion (d : Dev) (l : List Command) : (d.takeCommand l).base.motion = d.base.motion := rfl
@[simp] theorem takeCommand_sens (d : Dev) (l : List Command) : (d.takeCommand l).base.sens = d.base.sens := rfl
@[simp] theorem takeCommand_banks (d : Dev) (l : List Command) : (d.takeCommand l).base.banks = d.base.banks := rfl
@[simp] theorem takeCommand_queue (d : Dev) (l : List Command) : (d.takeCommand l).base.exec.queue = l := rfl

/-! ### Ports -/

@[simp] theorem setPort_insp (d : Dev) (p : Nat) (x : Port) : (d.setPort p x).insp = d.insp := rfl
@[simp] theorem setPort_face (d : Dev) (p : Nat) (x : Port) (f : FaceId) : (d.setPort p x).face f = d.face f := rfl
@[simp] theorem setPort_motion (d : Dev) (p : Nat) (x : Port) : (d.setPort p x).base.motion = d.base.motion := rfl
@[simp] theorem setPort_banks (d : Dev) (p : Nat) (x : Port) : (d.setPort p x).base.banks = d.base.banks := rfl
@[simp] theorem setPort_exec (d : Dev) (p : Nat) (x : Port) : (d.setPort p x).base.exec = d.base.exec := rfl
@[simp] theorem setPort_free (d : Dev) (p : Nat) (x : Port) : (d.setPort p x).base.free = d.base.free := rfl

/-! ### Banks -/

@[simp] theorem other_ne (i : BankId) : i.other ≠ i := by cases i <;> simp [BankId.other]
@[simp] theorem other_other (i : BankId) : i.other.other = i := by cases i <;> rfl
@[simp] theorem setBank_bank (b : Banks) (i : BankId) (x : Bank) : (b.setBank i x).bank i = x := by cases i <;> rfl
@[simp] theorem setBank_other (b : Banks) (i : BankId) (x : Bank) : (b.setBank i x).bank i.other = b.bank i.other := by
  cases i <;> rfl
@[simp] theorem setBank_running (b : Banks) (i : BankId) (x : Bank) : (b.setBank i x).running = b.running := by
  cases i <;> rfl
@[simp] theorem setBank_switchPos (b : Banks) (i : BankId) (x : Bank) : (b.setBank i x).switchPos = b.switchPos := by
  cases i <;> rfl
@[simp] theorem setBank_checkTag (b : Banks) (i : BankId) (x : Bank) : (b.setBank i x).checkTag = b.checkTag := by
  cases i <;> rfl

/-- Both banks after one is set. -/
theorem setBank_ite (b : Banks) (i j : BankId) (x : Bank) : (b.setBank i x).bank j = if j = i then x else b.bank j := by
  cases i <;> cases j <;> rfl

/-- A property of every bank is one of a bank and the other. -/
theorem forall_bank (i : BankId) (p : BankId → Prop) : (∀ j, p j) ↔ p i ∧ p i.other := by
  constructor
  · intro h; exact ⟨h i, h i.other⟩
  · intro ⟨h, h'⟩ j; cases i <;> cases j <;> first | exact h | exact h'

end Sys2Proof.Machine
end

