-- ==== Sys2Proof/Laws/Outbound.lean ====
section
/-! SUPPORT. What the arbiter's operations can do: queue bounds, and the fields they leave. -/

namespace Sys2Proof.Machine

open Sys2Proof

/-! ### Queues -/

@[simp] theorem queue_setQueue_same (o : Out) (q : QueueId) (x : Queue) : (o.setQueue q x).queue q = x := by cases q <;> rfl

theorem queue_setQueue_other (o : Out) {q p : QueueId} (x : Queue) (h : p ≠ q) : (o.setQueue q x).queue p = o.queue p := by
  cases q <;> cases p <;> first | rfl | exact absurd rfl h

/-- Every queue after one is set. -/
theorem queue_setQueue (o : Out) (q p : QueueId) (x : Queue) :
    (o.setQueue q x).queue p = if p = q then x else o.queue p := by
  split
  · rename_i h; subst h; simp
  · rename_i h; exact queue_setQueue_other o x h

@[simp] theorem setQueue_linkUp (o : Out) (q : QueueId) (x : Queue) : (o.setQueue q x).linkUp = o.linkUp := by cases q <;> rfl
@[simp] theorem setQueue_tx (o : Out) (q : QueueId) (x : Queue) : (o.setQueue q x).tx = o.tx := by cases q <;> rfl
@[simp] theorem setQueue_startPending (o : Out) (q : QueueId) (x : Queue) :
    (o.setQueue q x).startPending = o.startPending := by cases q <;> rfl
@[simp] theorem setQueue_buffers (o : Out) (q : QueueId) (x : Queue) : (o.setQueue q x).buffers = o.buffers := by
  cases q <;> rfl

@[simp] theorem freeBuffer_queue (o : Out) (b : Nat) (q : QueueId) : (o.freeBuffer b).queue q = o.queue q := by
  cases q <;> rfl

@[simp] theorem freeRecord_queue (o : Out) (r : Defect) (q : QueueId) : (o.freeRecord r).queue q = o.queue q := by
  unfold Out.freeRecord; split <;> simp

/-- Releasing a report's buffers changes no queue. -/
@[simp] theorem release_queue (o : Out) (r : Report) (q : QueueId) : (o.release r).queue q = o.queue q := by
  cases r <;> simp [Out.release]

theorem OutBounded.setQueue {o : Out} (h : OutBounded o) {q : QueueId} {x : Queue}
    (hx : x.entries.length ≤ capacity q) : OutBounded (o.setQueue q x) := by
  refine ⟨fun p => ?_, by rw [setQueue_buffers]; exact h.2⟩
  rw [queue_setQueue]
  split
  · rename_i hp; subst hp; exact hx
  · exact h.1 p

theorem OutBounded.of_queues {o o' : Out} (h : OutBounded o) (e : ∀ q, o'.queue q = o.queue q)
    (eb : SlotTable 8 o.buffers → SlotTable 8 o'.buffers := by exact fun h => h) : OutBounded o' :=
  ⟨fun q => by rw [e]; exact h.1 q, eb h.2⟩

theorem OutBounded.freeBuffer {o : Out} (h : OutBounded o) (b : Nat) : OutBounded (o.freeBuffer b) :=
  h.of_queues (by simp) fun hb => hb.free b

theorem OutBounded.freeRecord {o : Out} (h : OutBounded o) (r : Defect) : OutBounded (o.freeRecord r) := by
  unfold Out.freeRecord
  split
  · exact h.freeBuffer _
  · exact h

theorem OutBounded.release {o : Out} (h : OutBounded o) (r : Report) : OutBounded (o.release r) := by
  unfold Out.release
  split
  · exact h.freeRecord _
  · exact (h.freeRecord _).freeRecord _
  all_goals exact h

theorem OutBounded.pickFrom {o : Out} (h : OutBounded o) (q : QueueId) (t : FaceId) : OutBounded (o.pickFrom q t) := by
  unfold Out.pickFrom
  split
  · exact h
  · rename_i e rest he
    have hq := h.1 q
    rw [he] at hq
    have := h.setQueue (q := q) (x := { o.queue q with entries := rest }) (by simp at hq ⊢; omega)
    exact this.of_queues (fun p => by cases p <;> rfl)

/-- A pick only takes from a queue. -/
theorem OutBounded.pick {o : Out} (h : OutBounded o) : OutBounded o.pick := by
  unfold Out.pick
  split
  · split
    · exact h.of_queues (fun q => by cases q <;> rfl)
    · split
      · exact h.pickFrom _ _
      · exact h
  · exact h

@[simp] theorem lose_entries (q : Queue) : q.lose.entries = q.entries := rfl
@[simp] theorem accept_entries (q : Queue) (r : Report) :
    (q.accept r).entries = q.entries ++ [{ report := r, lostBefore := q.pendingLoss }] := rfl

/-- R157: an offer keeps every queue within its capacity. -/
theorem OutBounded.offer {o : Out} (h : OutBounded o) (q : QueueId) (r : Report) : OutBounded (o.offer q r) := by
  unfold Out.offer
  split
  · rename_i hlt
    exact (h.setQueue (by rw [accept_entries, List.length_append]; simp; omega)).pick
  · exact (h.setQueue (by rw [lose_entries]; exact h.1 q)).release r

theorem OutBounded.route {o : Out} (h : OutBounded o) (l : Level) (s : ExpressSlot) (r : Report) :
    OutBounded (o.route l s r) := by
  unfold Out.route
  split
  · exact h.offer _ _
  · exact h.release _

theorem OutBounded.appendExcerpt {o : Out} (h : OutBounded o) (r : Defect) : OutBounded (o.appendExcerpt r) := by
  unfold Out.appendExcerpt
  split
  · exact h.offer _ _
  · exact h

theorem OutBounded.sent {o : Out} (h : OutBounded o) (t : InFlight) : OutBounded (o.sent t) := by
  unfold Out.sent
  split
  · exact h.appendExcerpt _
  · exact (h.appendExcerpt _).appendExcerpt _
  · split
    · exact h.freeBuffer _
    · exact h
  · split
    · exact h.of_queues (fun q => by cases q <;> rfl)
    · exact h
  all_goals exact h

theorem OutBounded.complete {o : Out} (h : OutBounded o) : OutBounded o.complete := by
  unfold Out.complete
  split
  · exact h
  · rename_i t _
    exact ((h.of_queues (o' := { o with tx := none, framesSent := count32 o.framesSent })
      (fun q => by cases q <;> rfl)).sent t).pick

theorem OutBounded.up {o : Out} (h : OutBounded o) : OutBounded o.up := by
  unfold Out.up
  split
  · exact h
  · exact (h.of_queues (o' := { o with linkUp := true }) (fun q => by cases q <;> rfl)).pick

theorem OutBounded.countLost {o : Out} (h : OutBounded o) (t : InFlight) : OutBounded (o.countLost t) := by
  unfold Out.countLost
  split
  · exact h.setQueue (by rw [lose_entries]; exact h.1 _)
  · exact h

theorem OutBounded.loseFrame {o : Out} (h : OutBounded o) (t : InFlight) : OutBounded (o.loseFrame t) := by
  have h' := h.countLost t
  unfold Out.loseFrame
  split
  · exact h'.release _
  · exact h'.release _
  · split
    · exact h'.freeBuffer _
    · exact h'
  all_goals exact h'

theorem OutBounded.down {o : Out} (h : OutBounded o) (r : Bool) : OutBounded (o.down r) := by
  unfold Out.down
  split
  · have h' : OutBounded { o with
        linkUp := false, linkDowns := count32 o.linkDowns,
        inboundErrors := if r then count32 o.inboundErrors else o.inboundErrors, tx := none } :=
      h.of_queues (fun q => by cases q <;> rfl)
    dsimp only
    split
    · exact h'.loseFrame _
    · exact h'
  · exact h

theorem withdraw_length (q : Queue) : q.withdraw.entries.length = q.entries.length := by simp [Queue.withdraw]

theorem OutBounded.stop {o : Out} (h : OutBounded o) : OutBounded o.stop := by
  refine ⟨fun q => ?_, SlotTable.nil 8⟩
  have hq := h.1 q
  cases q <;> first | exact Nat.zero_le _ | simpa [Out.stop, Out.queue, withdraw_length, capacity] using hq

theorem outBounded_powerOn : OutBounded Out.powerOn := by
  refine ⟨fun q => ?_, SlotTable.nil 8⟩; cases q <;> simp [Out.powerOn, Out.queue, Queue.empty, capacity]

theorem OutBounded.recordReset {o : Out} (h : OutBounded o) (c : ResetCause) (t : Option Nat) :
    OutBounded (o.recordReset c t) := h.of_queues (fun q => by cases q <;> rfl)

/-! ### What an offer leaves alone -/

@[simp] theorem pickFrom_startPending (o : Out) (q : QueueId) (t : FaceId) :
    (o.pickFrom q t).startPending = o.startPending := by unfold Out.pickFrom; split <;> simp
@[simp] theorem pick_startPending (o : Out) : o.pick.startPending = o.startPending := by
  unfold Out.pick; split <;> (try split) <;> (try split) <;> simp
@[simp] theorem pick_linkUp (o : Out) : o.pick.linkUp = o.linkUp := by
  unfold Out.pick Out.pickFrom; split <;> (try split) <;> (try split) <;> (try split) <;> simp
@[simp] theorem pick_buffers (o : Out) : o.pick.buffers = o.buffers := by
  unfold Out.pick Out.pickFrom; split <;> (try split) <;> (try split) <;> (try split) <;> simp
@[simp] theorem release_linkUp (o : Out) (r : Report) : (o.release r).linkUp = o.linkUp := by
  cases r <;> simp only [Out.release] <;> (unfold Out.freeRecord Out.freeBuffer; split <;> (try split) <;> rfl)
@[simp] theorem release_startPending (o : Out) (r : Report) : (o.release r).startPending = o.startPending := by
  cases r <;> simp only [Out.release] <;> (unfold Out.freeRecord Out.freeBuffer; split <;> (try split) <;> rfl)
@[simp] theorem offer_linkUp (o : Out) (q : QueueId) (r : Report) : (o.offer q r).linkUp = o.linkUp := by
  unfold Out.offer; split <;> simp
@[simp] theorem offer_startPending (o : Out) (q : QueueId) (r : Report) :
    (o.offer q r).startPending = o.startPending := by unfold Out.offer; split <;> simp

end Sys2Proof.Machine
end

