-- ==== Sys2Proof/Laws/Lines.lean ====
section
/-! SUPPORT. The bounds that the line side keeps, one lemma per operation of the blocks. A bound is named by a concern, so that
each of them can be had alone. -/

namespace Sys2Proof.Machine

open Sys2Proof

/-- The bounds of the line side. -/
inductive Concern where | queues | pending | marks | slots | ring | columns | accs | lanes | tables

/-- The chosen bounds of a face. -/
def FaceLawful (w : Concern → Prop) (x : Face) : Prop :=
  (w .slots → x.asm.slots.length ≤ 4) ∧ (w .ring → x.blob.ring.length ≤ 64) ∧ (w .columns → AllListed ColumnLaw x.pixel.cols) ∧
    (w .accs → AllListed AccLaw x.streak.cols) ∧ (w .lanes → AllListed LaneLaw x.tier.lanes) ∧
    (w .tables → FaceCanonical x)

/-- The chosen bounds of the line side. -/
def Lawful (w : Concern → Prop) (i : Insp) : Prop :=
  (w .queues → OutBounded i.out) ∧ (w .pending → i.corr.list.length ≤ 128) ∧ (w .marks → i.marks.list.length ≤ 16) ∧
    ∀ f, FaceLawful w (i.face f)

variable {w : Concern → Prop} {i : Insp} {f : FaceId}

theorem Lawful.face (h : Lawful w i) (f : FaceId) : FaceLawful w (i.face f) := h.2.2.2 f

theorem Lawful.onFace {g : Face → Face} (h : Lawful w i) (hg : FaceLawful w (i.face f) → FaceLawful w (g (i.face f))) :
    Lawful w (i.onFace f g) := by
  refine ⟨by simpa using h.1, by simpa using h.2.1, by simpa using h.2.2.1, fun f' => ?_⟩
  rw [onFace_face_ite]
  split
  · exact hg (h.face f)
  · exact h.face f'

theorem Lawful.withOut {o : Out} (h : Lawful w i) (ho : OutBounded i.out → OutBounded o) :
    Lawful w { i with out := o } :=
  ⟨fun hw => ho (h.1 hw), h.2.1, h.2.2.1, fun f => by simpa using h.face f⟩

theorem Lawful.withCorr {c : Corr} (h : Lawful w i) (hc : i.corr.list.length ≤ 128 → c.list.length ≤ 128) :
    Lawful w { i with corr := c } :=
  ⟨h.1, fun hw => hc (h.2.1 hw), h.2.2.1, fun f => by simpa using h.face f⟩

theorem Lawful.withMarks {m : Marks} (h : Lawful w i) (hm : i.marks.list.length ≤ 16 → m.list.length ≤ 16) :
    Lawful w { i with marks := m } :=
  ⟨h.1, h.2.1, fun hw => hm (h.2.2.1 hw), fun f => by simpa using h.face f⟩

theorem Lawful.offer (h : Lawful w i) (q : QueueId) (r : Report) : Lawful w (i.offer q r) := h.withOut fun ho => ho.offer q r

theorem Lawful.route (h : Lawful w i) (t : Route) (r : Report) : Lawful w (i.route t r) :=
  h.withOut fun ho => ho.route _ _ r

theorem Lawful.offerStatus (h : Lawful w i) (g : Option FaceId) (st : Status) : Lawful w (i.offerStatus g st) := h.offer _ _

/-! ### Tiers -/

theorem laneLaw_powerOn : LaneLaw Lane.powerOn := ⟨Nat.le_refl _, by decide⟩

theorem Tier.laneLaw {t : Tier} (h : AllListed LaneLaw t.lanes) (j : Nat) : LaneLaw (t.lane j) := h.tget laneLaw_powerOn j

theorem Tier.lanes_setLane {t : Tier} (h : AllListed LaneLaw t.lanes) (j : Nat) {l : Lane} (hl : LaneLaw l) :
    AllListed LaneLaw (t.setLane j l).lanes := h.tset j hl

theorem Lawful.offerLanes (b : Base) (f : FaceId) (c : LaneCause) (line : Option (Word × Int)) (old new : Tier)
    (l : List Nat) (h : Lawful w i) : Lawful w (offerLanes b f c line old new l i) := by
  refine foldl_keeps (p := Lawful w) (fun s x hs => ?_) l h
  split
  · exact hs
  · exact hs.route _ _

theorem Lawful.offerAlert (na : Nat) (f : FaceId) (line : Option (Word × Int)) (old new : Tier) (h : Lawful w i) :
    Lawful w (offerAlert na f line old new i) := by
  unfold Machine.offerAlert
  split
  · exact h
  · exact h.offerStatus _ _

/-- A face's Tier Controller is replaced by one whose lanes are lawful. -/
theorem Lawful.withTier {t : Tier} (h : Lawful w i)
    (ht : w .lanes → AllListed LaneLaw (i.face f).tier.lanes → AllListed LaneLaw t.lanes)
    (hc : twf Lane.powerOn (i.face f).tier.lanes = true → twf Lane.powerOn t.lanes = true) :
    Lawful w (i.onFace f fun x => { x with tier := t }) :=
  h.onFace fun ⟨h1, h2, h3, h4, h5, h6⟩ => ⟨h1, h2, h3, h4, fun hw => ht hw (h5 hw), fun hw =>
    have ⟨a, b, c, d, e, g⟩ := h6 hw; ⟨a, b, c, d, hc e, g⟩⟩

theorem Lawful.commitTiers (b : Base) (f : FaceId) (l : List Nat) (c : LaneCause) (line : Option (Word × Int)) {t : Tier}
    (h : Lawful w i) (ht : w .lanes → AllListed LaneLaw (i.face f).tier.lanes → AllListed LaneLaw t.lanes)
    (hc : twf Lane.powerOn (i.face f).tier.lanes = true → twf Lane.powerOn t.lanes = true) :
    Lawful w (commitTiers b f l c line t i) :=
  (((h.withTier (t := t.testAlert (b.na f)) ht hc).offerLanes b f c line _ _ l).offerAlert _ f line _ _).offerLanes b f _ line _ _ _

theorem Tier.lanes_addEvent {t : Tier} (h : AllListed LaneLaw t.lanes) (j : Nat) : AllListed LaneLaw (t.addEvent j).lanes :=
  Tier.lanes_setLane h j (Tier.laneLaw h j)

theorem escalates_below {p : TierPolicy} {l : Lane} {pos : Option Int} (h : escalates p l pos = true) : l.own < l.maxLimit := by
  simp only [escalates, Bool.and_eq_true, decide_eq_true_eq] at h; exact h.1.2

theorem relaxes_above {p : TierPolicy} {l : Lane} {y : Int} (h : relaxes p l y = true) : l.minLimit < l.own := by
  simp only [relaxes, Bool.and_eq_true, decide_eq_true_eq] at h; exact h.1.2

theorem Lawful.applyEvent (b : Base) (f : FaceId) (ev : CountedEvent) (h : Lawful w i) :
    Lawful w (applyEvent b f ev i) := by
  unfold Machine.applyEvent
  have h1 : Lawful w (i.onFace f fun x => { x with tier := (i.face f).tier.addEvent ev.lane }) :=
    h.withTier (fun _ hl => Tier.lanes_addEvent hl _) fun hc => twf_tset _ _ hc
  dsimp only
  split
  · rename_i hc
    have he := escalates_below (Bool.and_eq_true _ _ ▸ hc).2
    refine h1.commitTiers b f _ _ _ (fun _ hl => ?_) fun hc => ?_
    rotate_left
    · rw [onFace_face] at hc; exact twf_tset _ _ hc
    rw [onFace_face] at hl
    have hj := Tier.laneLaw hl ev.lane
    exact Tier.lanes_setLane hl _ ⟨by have := hj.1; dsimp only at this ⊢; omega, by dsimp only at he ⊢; omega⟩
  · exact h1

theorem Lawful.withEvents (src : EventSource) (l : List CountedEvent) (h : Lawful w i) :
    Lawful w (i.onFace f fun x => { x with tier := x.tier.setEvents src l }) :=
  h.onFace fun hx => by cases src <;> exact hx

theorem Lawful.takeEvent (b : Base) (f : FaceId) (src : EventSource) (h : Lawful w i) : Lawful w (takeEvent b f src i) := by
  unfold Machine.takeEvent
  split
  · exact h
  · exact (h.withEvents src _).applyEvent b f _

theorem Lawful.drainEvents (b : Base) (f : FaceId) (src : EventSource) (h : Lawful w i) :
    Lawful w (drainEvents b f src i) :=
  foldl_keeps (p := Lawful w) (fun _ ev hs => hs.applyEvent b f ev) _ (h.withEvents src [])

theorem Lawful.sendEvent (f : FaceId) (src : EventSource) (ev : CountedEvent) (h : Lawful w i) :
    Lawful w (sendEvent f src ev i) := h.onFace fun hx => by cases src <;> exact hx

theorem Lawful.relaxLane (b : Base) (f : FaceId) (n : Word) (y : Int) (j : Nat) (h : Lawful w i) :
    Lawful w (relaxLane b f n y i j) := by
  unfold Machine.relaxLane
  dsimp only
  split
  · rename_i hr
    have ha := relaxes_above hr
    refine h.commitTiers b f _ _ _ (fun _ hl => ?_) fun hc => twf_tset _ _ hc
    have hj := Tier.laneLaw hl j
    exact Tier.lanes_setLane hl _ ⟨by dsimp only at ha ⊢; omega, by have := hj.2; dsimp only at this ⊢; omega⟩
  · exact h

theorem Tier.lanes_rotate {t : Tier} (h : AllListed LaneLaw t.lanes) : AllListed LaneLaw t.rotate.lanes := by
  show AllListed LaneLaw (tmap Lane.powerOn (fun l => { l with buckets := tset 0 l.buckets ((t.current + 1) % 8) 0 }) t.lanes)
  exact h.tmap fun _ hv => hv

theorem twf_rotate {t : Tier} (h : twf Lane.powerOn t.lanes = true) : twf Lane.powerOn t.rotate.lanes = true := by
  show twf Lane.powerOn (tmap Lane.powerOn (fun l => { l with buckets := tset 0 l.buckets ((t.current + 1) % 8) 0 }) t.lanes) = true
  exact twf_tmap _ h

theorem Lawful.boundaryStep (b : Base) (f : FaceId) (n : Word) (y : Int) (h : Lawful w i) :
    Lawful w (boundaryStep b f n y i) := by
  have h1 : Lawful w (i.onFace f fun x => { x with tier := x.tier.rotate }) :=
    h.onFace fun ⟨a, b, c, d, e, g⟩ => ⟨a, b, c, d, fun hw => Tier.lanes_rotate (e hw), fun hw =>
      have ⟨g1, g2, g3, g4, g5, g6⟩ := g hw; ⟨g1, g2, g3, g4, twf_rotate g5, g6⟩⟩
  exact Lawful.onFace (foldl_keeps (p := Lawful w) (fun _ j hs => hs.relaxLane b f n y j) laneNumbers h1) fun hx => hx

theorem Lawful.boundarySteps (b : Base) (f : FaceId) (n : Word) (y : Int) (k : Nat) (h : Lawful w i) :
    Lawful w (boundarySteps b f n y k i) := by
  induction k generalizing i with
  | zero => exact h
  | succ k ih =>
    unfold Machine.boundarySteps
    split
    · split
      · exact ih (h.boundaryStep b f n y)
      · exact h
    · exact h

theorem Lawful.tierLineStart (b : Base) (f : FaceId) (hd : LineHead) (h : Lawful w i) : Lawful w (tierLineStart b f hd i) :=
  Lawful.onFace (h.boundarySteps b f _ _ _) fun hx => hx

/-- The lanes that a policy loads are lawful when its default limits are. -/
theorem lanes_load {t : Tier} {p : TierPolicy} (hp : p.minTier ≤ p.maxTier) (y : Int) : AllListed LaneLaw (t.load p y).lanes := by
  have hl : LaneLaw p.lane := ⟨Nat.le_refl _, hp⟩
  exact foldl_keeps (p := AllListed LaneLaw) (fun _ j hs => hs.tset j hl) laneNumbers (AllListed.nil _)

theorem twf_load (t : Tier) (p : TierPolicy) (y : Int) : twf Lane.powerOn (t.load p y).lanes = true :=
  foldl_keeps (p := fun ls => twf Lane.powerOn ls = true) (fun _ j hs => twf_tset j _ hs) laneNumbers rfl

/-- R129's law for the policy of the bank active on a face. -/
def PolicyOk (w : Concern → Prop) (b : Base) (f : FaceId) : Prop :=
  w .lanes → (b.banks.contents f).tierPolicy.minTier ≤ (b.banks.contents f).tierPolicy.maxTier

theorem Lawful.loadTiersAtStart (b : Base) (f : FaceId) (hp : PolicyOk w b f) (h : Lawful w i) :
    Lawful w (loadTiersAtStart b f i) := by
  unfold Machine.loadTiersAtStart
  exact Lawful.offerAlert _ f _ _ _ (h.withTier (fun hw _ => lanes_load (t := (i.face f).tier) (hp hw) (b.facePos f))
    fun _ => twf_load (i.face f).tier _ (b.facePos f))

theorem Lawful.loadTiersAtSwitch (b : Base) (f : FaceId) (hd : LineHead) (hp : PolicyOk w b f) (h : Lawful w i) :
    Lawful w (loadTiersAtSwitch b f hd i) := by
  unfold Machine.loadTiersAtSwitch
  exact Lawful.offerAlert _ f _ _ _ (Lawful.offerLanes b f _ _ _ _ _
    (h.withTier (fun hw _ => lanes_load (t := (i.face f).tier) (hp hw) hd.pos) fun _ => twf_load (i.face f).tier _ hd.pos))

theorem laneLaw_limit {l : Lane} {lo hi : Nat} (h : lo ≤ hi) (y : Option Int) : LaneLaw (l.limit lo hi y) := by
  simp only [LaneLaw, Lane.limit, clampNat]; omega

theorem Lawful.limitLanes (b : Base) (f : FaceId) (l : List Nat) {lo hi : Nat} (hlo : lo ≤ hi) (h : Lawful w i) :
    Lawful w (limitLanes b f l lo hi i) :=
  h.commitTiers b f l _ _ (fun _ hl => foldl_keeps (p := fun t : Tier => AllListed LaneLaw t.lanes)
    (fun _ j hs => Tier.lanes_setLane hs j (laneLaw_limit hlo _)) l hl)
    fun hc => foldl_keeps (p := fun t : Tier => twf Lane.powerOn t.lanes = true) (fun _ j hs => twf_tset j _ hs) l hc

/-! ### Patch marks and pattern states -/

theorem handleFirst_length (f : FaceId) (l : List Mark) : (handleFirst f l).length = l.length := by
  induction l with
  | nil => rfl
  | cons m rest ih => unfold handleFirst; split <;> simp [ih]

theorem consume_length (ms : Marks) (f : FaceId) : (ms.consume f).list.length ≤ ms.list.length := by
  unfold Marks.consume
  exact Nat.le_trans (List.length_filter_le _ _) (Nat.le_of_eq (handleFirst_length f _))

theorem Lawful.withPattern {x : Face → Pattern} (h : Lawful w i) :
    Lawful w (i.onFace f fun y => { y with pattern := x y }) := h.onFace fun hx => hx

theorem Lawful.offerPattern (f : FaceId) (old new : PatternState) (c : PatternCause) (hd : LineHead) (e : Option Int)
    (h : Lawful w i) : Lawful w (offerPattern f old new c hd e i) := h.offerStatus _ _

theorem Lawful.reachEdge (b : Base) (f : FaceId) (hd : LineHead) (e : Int) (h : Lawful w i) :
    Lawful w (reachEdge b f hd e i) := by
  have h1 : Lawful w { i with marks := i.marks.consume f } :=
    h.withMarks fun hm => Nat.le_trans (consume_length _ _) hm
  unfold Machine.reachEdge
  dsimp only
  split
  · exact h1
  · exact h1
  · exact h1.withPattern
  · split
    · exact h1.withPattern
    · exact h1.withPattern
  · split
    · exact h1.withPattern
    · exact h1.withPattern
  · exact h1.withPattern.offerPattern f _ _ _ _ _

theorem Lawful.reachLimit (b : Base) (f : FaceId) (hd : LineHead) (h : Lawful w i) : Lawful w (reachLimit b f hd i) := by
  unfold Machine.reachLimit
  dsimp only
  split
  · exact h.withPattern.offerPattern f _ _ _ _ _
  · split
    · exact h.withPattern
    · exact h.withPattern.offerPattern f _ _ _ _ _
  · split
    · exact h.withPattern
    · exact h.withPattern.offerPattern f _ _ _ _ _
  all_goals exact h

theorem Lawful.patternSteps (b : Base) (f : FaceId) (hd : LineHead) (n : Nat) (h : Lawful w i) :
    Lawful w (patternSteps b f hd n i) := by
  induction n generalizing i with
  | zero => exact h
  | succ n ih =>
    unfold Machine.patternSteps
    dsimp only
    split
    · split
      · split
        · exact ih (h.reachEdge b f hd _)
        · exact h
      · split
        · exact ih (h.reachLimit b f hd)
        · exact h
    · split
      · exact ih (h.reachEdge b f hd _)
      · exact h
    · split
      · exact ih (h.reachLimit b f hd)
      · exact h
    · exact h

theorem Lawful.patternStep (b : Base) (f : FaceId) (hd : LineHead) (h : Lawful w i) : Lawful w (patternStep b f hd i) :=
  h.patternSteps b f hd _

theorem marksEvent_length (ms : Marks) (p : Int) (h : ms.list.length ≤ 16) : (ms.event p).list.length ≤ 16 := by
  unfold Marks.event
  split
  · exact h
  · split
    · exact h
    · rename_i h2
      simp only [Config.maxMarks] at h2
      simp; omega

/-! ### The Face Correlator -/

theorem Lawful.reportLeadOnly (r : LeadOnlyReason) (c : Candidate) (h : Lawful w i) : Lawful w (reportLeadOnly r c i) :=
  h.route _ _

theorem Lawful.takeLead (c : Candidate) (h : Lawful w i) : Lawful w (takeLead c i) := by
  unfold Machine.takeLead
  cases hl : i.corr.list with
  | nil =>
    dsimp only
    refine h.withCorr fun _ => ?_
    simp [hl]
  | cons head rest =>
    dsimp only
    split
    · have h1 := (h.withCorr (c := { i.corr with list := rest, evicted := count32 i.corr.evicted })
        (fun hc => by rw [hl] at hc; simp at hc ⊢; omega)).reportLeadOnly .evicted head
      refine ⟨h1.1, fun hw => ?_, h1.2.2.1, h1.2.2.2⟩
      have hc := h.2.1 hw
      rw [hl] at hc
      simp [Machine.reportLeadOnly] at hc ⊢
      omega
    · rename_i hlt
      refine h.withCorr fun _ => ?_
      rw [hl]
      simp [Config.maxPending] at hlt ⊢
      omega

theorem takeFirst_length {α : Type} {p : α → Bool} {l : List α} {x : α} {rest : List α} (h : takeFirst p l = some (x, rest)) :
    rest.length ≤ l.length := by
  induction l generalizing rest with
  | nil => simp [takeFirst] at h
  | cons y ys ih =>
    unfold takeFirst at h
    split at h
    · simp at h; rw [← h.2]; simp
    · cases hr : takeFirst p ys with
      | none => simp [hr] at h
      | some q =>
        obtain ⟨z, r⟩ := q
        simp [hr] at h
        obtain ⟨rfl, rfl⟩ := h
        have := ih hr
        simp; exact this

theorem Lawful.takeTrail (b : Base) (c : Candidate) (h : Lawful w i) : Lawful w (takeTrail b c i) := by
  unfold Machine.takeTrail
  split
  · rename_i e rest he
    exact (h.withCorr (c := { i.corr with list := rest, matchCount := count32 i.corr.matchCount })
      (fun hc => Nat.le_trans (takeFirst_length he) hc)).route _ _
  · exact (h.withCorr (c := { i.corr with trailOnly := count32 i.corr.trailOnly }) (fun hc => hc)).route _ _

theorem Lawful.expire (p m : Int) (h : Lawful w i) : Lawful w (expire p m i) :=
  foldl_keeps (p := Lawful w) (fun _ c hs => hs.reportLeadOnly _ c) _
    (h.withCorr fun hc => Nat.le_trans (List.length_filter_le _ _) hc)

theorem Lawful.withTrailWork (l : List TrailWork) (h : Lawful w i) :
    Lawful w { i with corr := { i.corr with trailWork := l } } := h.withCorr fun hc => hc

theorem Lawful.settleTrail (l : List TrailWork) (h : Lawful w i) : Lawful w (settleTrail l i) := by
  induction l generalizing i with
  | nil => exact h.withTrailWork []
  | cons x rest ih =>
    cases x with
    | candidate c => exact h.withTrailWork _
    | expiry p m => exact ih (h.expire p m)

theorem Lawful.takeNextTrail (b : Base) (h : Lawful w i) : Lawful w (takeNextTrail b i) := by
  unfold Machine.takeNextTrail
  split
  · exact (h.takeTrail b _).settleTrail _
  · exact h.settleTrail _
  · exact h

theorem Lawful.takeNextLead (h : Lawful w i) : Lawful w (takeNextLead i) := by
  unfold Machine.takeNextLead
  split
  · exact Lawful.takeLead _ (h.withCorr fun hc => hc)
  · exact h

theorem Lawful.drainTrail (b : Base) (h : Lawful w i) : Lawful w (drainTrail b i) :=
  foldl_keeps (p := Lawful w) (fun s x hs => by cases x with
    | candidate c => exact hs.takeTrail b c
    | expiry p m => exact hs.expire p m) _ (h.withTrailWork [])

theorem Lawful.drainLead (h : Lawful w i) : Lawful w (drainLead i) :=
  foldl_keeps (p := Lawful w) (fun _ c hs => hs.takeLead c) _
    (h.withCorr (c := { i.corr with leadWork := [] }) fun hc => hc)

theorem Lawful.flushPending (h : Lawful w i) : Lawful w (flushPending i) :=
  foldl_keeps (p := Lawful w) (fun _ c hs => hs.reportLeadOnly _ c) _ (h.withCorr fun _ => by simp)

/-! ### The Blob Builder -/

/-- A change of a face's blob table that keeps the ring's bound. -/
theorem Lawful.withBlob {g : Face → Blobs} (h : Lawful w i)
    (hr : (i.face f).blob.ring.length ≤ 64 → (g (i.face f)).ring.length ≤ 64)
    (ho : SlotTable 256 (i.face f).blob.open_ → SlotTable 256 (g (i.face f)).open_ := by exact fun h => h) :
    Lawful w (i.onFace f fun x => { x with blob := g x }) :=
  h.onFace fun ⟨a, b, c, d, e, k⟩ => ⟨a, fun hw => hr (b hw), c, d, e, fun hw =>
    have ⟨k1, k2, k3, k4, k5, k6⟩ := k hw; ⟨k1, ho k2, k3, k4, k5, k6⟩⟩

theorem Lawful.offerBlobSaturation (f : FaceId) (on : Bool) (l : Option Word) (h : Lawful w i) :
    Lawful w (offerBlobSaturation f on l i) := h.offerStatus _ _

theorem Lawful.discardRun (f : FaceId) (hd : LineHead) (h : Lawful w i) : Lawful w (discardRun f hd i) := by
  unfold Machine.discardRun
  dsimp only
  split
  · exact h.withBlob fun hr => hr
  · exact Lawful.offerBlobSaturation f _ _ (h.withBlob fun hr => hr)

theorem Lawful.linkRun (f : FaceId) (hd : LineHead) (u : Run) (h : Lawful w i) : Lawful w (linkRun f hd i u) := by
  unfold Machine.linkRun
  dsimp only
  split
  · split
    · rename_i k hk
      exact h.withBlob (fun hr => hr) fun ho => ho.set k (some (newBlob hd u)) fun _ => lowestFree_lt hk
    · exact h.discardRun f hd
  · rename_i k b younger hl
    refine h.withBlob (fun hr => hr) fun ho => ?_
    have hk : (k, b) ∈ occupied (i.face f).blob.open_ :=
      List.mem_of_mem_filter ((mem_orderBy _ _ _).mp (by rw [hl]; exact List.mem_cons_self ..))
    exact (foldl_keeps (p := SlotTable 256) (fun _ (e : Nat × Blob) hs => hs.free e.1) younger ho).set k
      (some ((younger.foldl (fun b e => b.absorb hd.index e.2) b).extend hd u)) fun _ => ho.lt hk

theorem Lawful.capture (f : FaceId) (b : Blob) (r : Defect) (h : Lawful w i) : Lawful w (capture f b r i).2 := by
  unfold Machine.capture
  split
  · rename_i k hk
    exact h.withOut fun ho => ho.of_queues (fun q => by cases q <;> rfl) fun hb =>
      hb.set k (some (cutWindow f (i.face f).blob.ring b)) fun _ => lowestFree_lt hk
  · exact h.withBlob fun hr => hr

theorem Lawful.excerptAtClose (f : FaceId) (b : Blob) (o : ClassOutcome) (r : Defect) (h : Lawful w i) :
    Lawful w (excerptAtClose f b o r i).2 := by
  unfold Machine.excerptAtClose
  split
  · split
    · exact h
    · split
      · exact h.capture f b r
      · exact h
  · exact h

theorem Lawful.dispose (b : Base) (f : FaceId) (o : ClassOutcome) (r : Defect) (h : Lawful w i) :
    Lawful w (dispose b f o r i) := by
  unfold Machine.dispose
  split
  · cases f with
    | lead => exact h.withCorr fun hc => hc
    | trail => exact h.withCorr fun hc => hc
  · exact h.route _ _

theorem Lawful.sendBlob (b : Base) (f : FaceId) (t : TruncReason) (l : Option (Word × Int)) (e : Nat × Blob)
    (h : Lawful w i) : Lawful w (sendBlob b f t l i e) := by
  unfold Machine.sendBlob
  have h1 : Lawful w (i.onFace f fun x => { x with blob := { x.blob with closed := count32 x.blob.closed } }) :=
    h.withBlob fun hr => hr
  dsimp only
  refine Lawful.dispose b f _ _ (Lawful.excerptAtClose f _ _ _ ?_)
  split
  · exact h1.sendEvent f _ _
  · exact h1

theorem Lawful.testSaturation (f : FaceId) (l : Option Word) (h : Lawful w i) : Lawful w (testSaturation f l i) := by
  unfold Machine.testSaturation
  split
  · exact Lawful.offerBlobSaturation f _ _ (h.withBlob fun hr => hr)
  · exact h

theorem Lawful.closeAllBlobs (b : Base) (f : FaceId) (t : TruncReason) (l : Option (Word × Int)) (h : Lawful w i) :
    Lawful w (closeAllBlobs b f t l i) :=
  foldl_keeps (p := Lawful w) (fun _ e hs => hs.sendBlob b f t l e) _ (h.withBlob (fun hr => hr) fun _ => SlotTable.nil 256)

theorem twf_staying (mb : Nat) {t : Table (Option Blob)} (h : twf none t = true) : twf none (staying mb t) = true := by
  induction t with
  | nil => rfl
  | cons e rest ih =>
    have hr := ih (twf_tail h)
    have hk : ∀ e' ∈ staying mb rest, e.1 < e'.1 := by
      intro e' he'
      obtain ⟨e0, h0, h1⟩ := List.mem_filterMap.mp he'
      have hlt := twf_all_gt h e0 h0
      split at h1
      · split at h1
        · cases h1; exact hlt
        · cases h1
      · cases h1
    show twf none (List.filterMap _ (e :: rest)) = true
    rw [List.filterMap_cons]
    split
    · exact hr
    · rename_i v hv
      have hv' : v.1 = e.1 ∧ v.2 ≠ none := by
        split at hv
        · split at hv
          · cases hv; exact ⟨rfl, by simp⟩
          · cases hv
        · cases hv
      exact twf_cons (k := v.1) hv'.2 hr fun e' he' => by rw [hv'.1]; exact hk e' (List.mem_of_mem_head? he')

theorem slotTable_staying (mb : Nat) {n : Nat} {t : Table (Option Blob)} (h : SlotTable n t) : SlotTable n (staying mb t) := by
  refine ⟨twf_staying mb h.1, fun e he => ?_⟩
  obtain ⟨e0, h0, h1⟩ := List.mem_filterMap.mp he
  have := h.2 e0 h0
  split at h1
  · split at h1
    · cases h1; exact this
    · cases h1
  · cases h1

theorem Lawful.endLine (b : Base) (f : FaceId) (hd : LineHead) (h : Lawful w i) : Lawful w (endLine b f hd i) :=
  foldl_keeps (p := Lawful w) (fun _ _ hs => hs.sendBlob b f _ _ _) _ (h.withBlob (fun hr => hr) fun ho => slotTable_staying _ ho)

theorem Lawful.handleBlobLine (b : Base) (f : FaceId) (r : LineRecord) (h : Lawful w i) :
    Lawful w (handleBlobLine b f r i) := by
  unfold Machine.handleBlobLine
  have h1 : Lawful w (i.onFace f fun x => { x with blob := { x.blob with lastLine := some r.head.index } }) :=
    h.withBlob fun hr => hr
  dsimp only
  refine Lawful.testSaturation f _ (Lawful.endLine b f _ (foldl_keeps (p := Lawful w) (fun _ u hs => hs.linkRun f _ u) _
    (Lawful.withBlob ?_ fun hr => hr)))
  split
  · exact (h1.closeAllBlobs b f _ _).testSaturation f _
  · exact h1

theorem Lawful.queueExpiry (b : Base) (r : LineRecord) (h : Lawful w i) : Lawful w (queueExpiry b r i) := h.settleTrail _

theorem enterRing_length (r : LineRecord) (l : List RingEntry) : (enterRing r l).length ≤ 64 := by
  simp [enterRing, Config.ringLines]

theorem Lawful.blobLine (b : Base) (f : FaceId) (r : LineRecord) (h : Lawful w i) : Lawful w (blobLine b f r i) := by
  unfold Machine.blobLine
  have h1 : Lawful w (i.onFace f fun x => { x with blob := { x.blob with ring := enterRing r x.blob.ring } }) :=
    h.withBlob fun _ => enterRing_length _ _
  dsimp only
  split
  · exact h1
  · cases f with
    | lead => exact h1.handleBlobLine b _ r
    | trail => exact (h1.handleBlobLine b _ r).queueExpiry b r

theorem Lawful.takeBlobLine (b : Base) (f : FaceId) (h : Lawful w i) : Lawful w (takeBlobLine b f i) := by
  unfold Machine.takeBlobLine
  split
  · exact h
  · exact Lawful.blobLine b f _ (h.withBlob fun hr => hr)

theorem Lawful.drainBlobLines (b : Base) (f : FaceId) (h : Lawful w i) : Lawful w (drainBlobLines b f i) :=
  foldl_keeps (p := Lawful w) (fun _ r hs => hs.blobLine b f r) _ (h.withBlob fun hr => hr)

/-! ### The Streak Tracker -/

/-- The streak tables of a face in canonical form. -/
def StreaksCanonical (x : Streaks) : Prop := SlotTable 64 x.open_ ∧ twf (StreakColumn.quiet 0) x.cols = true

theorem StreaksCanonical.setCol {x : Streaks} (h : StreaksCanonical x) (c : Nat) (v : StreakColumn) :
    StreaksCanonical (x.setCol c v) := ⟨h.1, twf_tset c v h.2⟩

theorem StreaksCanonical.setStreak {x : Streaks} (h : StreaksCanonical x) (k : Nat) (v : Option Streak)
    (hk : v ≠ none → k < 64) : StreaksCanonical (x.setStreak k v) := ⟨h.1.set k v hk, h.2⟩

theorem StreaksCanonical.freeStreak {x : Streaks} (h : StreaksCanonical x) (k : Nat) :
    StreaksCanonical (x.setStreak k none) := ⟨h.1.free k, h.2⟩

theorem StreaksCanonical.onStreak {x : Streaks} (h : StreaksCanonical x) (k : Nat) (g : Streak → Streak) :
    StreaksCanonical (x.onStreak k g) := by
  unfold Streaks.onStreak
  split
  · rename_i hs
    exact h.setStreak _ _ fun _ => h.1.lt_of_tget (by unfold Streaks.streak at hs; rw [hs]; exact Option.some_ne_none _)
  · exact h

theorem twf_renumber (k k' : Nat) {t : Table StreakColumn} (h : twf (StreakColumn.quiet 0) t = true) :
    twf (StreakColumn.quiet 0) (renumber k k' t) = true := by
  induction t with
  | nil => rfl
  | cons e rest ih =>
    have hk : ∀ e' ∈ renumber k k' rest, e.1 < e'.1 := by
      intro e' he'
      obtain ⟨e0, h0, rfl⟩ := List.mem_map.mp he'
      have := twf_all_gt h e0 h0
      split <;> exact this
    have hd : (if e.2.memberOf k' then (e.1, { e.2 with number := k }) else e).2 ≠ StreakColumn.quiet 0 := by
      split
      · rename_i hm
        intro hq
        simp only [StreakColumn.memberOf, StreakColumn.member, Bool.and_eq_true] at hm
        have hs : e.2.state = .quiet := congrArg StreakColumn.state hq
        rw [hs] at hm
        exact absurd hm.1 (by decide)
      · exact twf_head h
    have h1 : (if e.2.memberOf k' then (e.1, { e.2 with number := k }) else e).1 = e.1 := by split <;> rfl
    exact twf_cons (k := (if e.2.memberOf k' then (e.1, { e.2 with number := k }) else e).1) hd (ih (twf_tail h))
      fun e' he' => by rw [h1]; exact hk e' (List.mem_of_mem_head? he')

/-- A change of a face's streak state that keeps the accumulators' bound, and the tables where they are a concern. -/
theorem Lawful.onStreaksIf {g : Streaks → Streaks} (h : Lawful w i)
    (ha : AllListed AccLaw (i.face f).streak.cols → AllListed AccLaw (g (i.face f).streak).cols)
    (hc : w .tables → StreaksCanonical (i.face f).streak → StreaksCanonical (g (i.face f).streak)) :
    Lawful w (i.onStreaks f g) :=
  h.onFace fun ⟨a, b, c, d, e, k⟩ => ⟨a, b, c, fun hw => ha (d hw), e, fun hw =>
    have ⟨k1, k2, k3, k4, k5, k6⟩ := k hw; have ⟨n1, n2⟩ := hc hw ⟨k3, k4⟩; ⟨k1, k2, n1, n2, k5, k6⟩⟩

/-- A change of a face's streak state that keeps the accumulators' bound. -/
theorem Lawful.onStreaks {g : Streaks → Streaks} (h : Lawful w i)
    (ha : AllListed AccLaw (i.face f).streak.cols → AllListed AccLaw (g (i.face f).streak).cols)
    (hc : StreaksCanonical (i.face f).streak → StreaksCanonical (g (i.face f).streak) := by exact fun h => h) :
    Lawful w (i.onStreaks f g) := h.onStreaksIf ha fun _ => hc

theorem accLaw_zero : AccLaw (StreakColumn.quiet 0) := ⟨by decide, by decide⟩

theorem Streaks.accLaw {x : Streaks} (h : AllListed AccLaw x.cols) (c : Nat) : AccLaw (x.col c) := h.tget accLaw_zero c

theorem Streaks.cols_setCol {x : Streaks} (h : AllListed AccLaw x.cols) (c : Nat) {v : StreakColumn} (hv : AccLaw v) :
    AllListed AccLaw (x.setCol c v).cols := h.tset c hv

@[simp] theorem onStreak_cols (x : Streaks) (k : Nat) (g : Streak → Streak) : (x.onStreak k g).cols = x.cols := by
  unfold Streaks.onStreak; split <;> rfl

theorem accLaw_accumulate (a d : Int) (l c : Nat) : -134217727 ≤ accumulate a d l c ∧ accumulate a d l c ≤ 134217727 := by
  simp only [accumulate, clampInt, Config.accLimit]; omega

theorem Lawful.offerStreakSaturation (f : FaceId) (on : Bool) (l : Option Word) (h : Lawful w i) :
    Lawful w (offerStreakSaturation f on l i) := h.offerStatus _ _

theorem Lawful.closeStreak (b : Base) (f : FaceId) (t : StreakReason) (s : Option Nat) (l : Option (Word × Int)) (k : Nat)
    (x : Streak) (h : Lawful w i) : Lawful w (closeStreak b f t s l k x i) := by
  unfold Machine.closeStreak
  have h1 : Lawful w (i.onStreaks f fun _ =>
      { (i.streaks f).setStreak k none with closed := count32 (i.streaks f).closed }) :=
    h.onStreaks (fun ha => ha) fun hc => hc.freeStreak k
  have h2 := h1.route (b.banks.contents f).policy.streakClose (.streak (streakReport (.closed t s) f
    (i.face f).asm.geometry (i.lost f) k x ((l.map (·.2)).getD x.start) ((l.map (·.2)).getD x.start - x.start) 0))
  dsimp only
  split
  · have h3 := h2.onStreaks (f := f) (g := fun y => { y with saturated := false }) fun ha => ha
    split
    · exact h3
    · exact h3.offerStreakSaturation f _ _
  · exact h2

theorem renumber_accs (k k' : Nat) {t : Table StreakColumn} (h : AllListed AccLaw t) : AllListed AccLaw (renumber k k' t) := by
  intro e he
  obtain ⟨e0, h0, rfl⟩ := List.mem_map.mp he
  split
  · exact h e0 h0
  · exact h e0 h0

theorem Lawful.mergeStreak (b : Base) (f : FaceId) (l : Option (Word × Int)) (k : Nat) (y : Nat × Streak) (h : Lawful w i) :
    Lawful w (mergeStreak b f l k i y) :=
  Lawful.closeStreak b f _ _ l _ _ (h.onStreaks (fun ha => by rw [onStreak_cols]; exact renumber_accs _ _ ha)
    fun hc => StreaksCanonical.onStreak (x := { (i.face f).streak with
      cols := renumber k y.1 (i.face f).streak.cols, merges := count32 (i.face f).streak.merges })
      ⟨hc.1, twf_renumber k y.1 hc.2⟩ _ _)

theorem Lawful.openStreak (b : Base) (f : FaceId) (r : LineRecord) (c : Nat) (p : RecordColumn) (v : Int) (k : Nat) (hk : k < 64)
    (h : Lawful w i) : Lawful w (openStreak b f r c p v k i) := by
  unfold Machine.openStreak
  dsimp only
  have h1 : ∀ rt rp, Lawful w ((i.onStreaks f fun _ =>
      { ((i.streaks f).setStreak k (some (newStreak r c p ((i.streaks f).col c) v))).setCol c
          { StreakColumn.quiet ((i.streaks f).col c).acc with state := .streak, number := k } with
        opened := count32 (i.streaks f).opened }).route rt rp) := fun rt rp =>
    (h.onStreaks (fun ha => Streaks.cols_setCol (x := (i.streaks f).setStreak k _)
      (v := { StreakColumn.quiet ((i.streaks f).col c).acc with state := .streak, number := k }) ha c
      (Streaks.accLaw (x := i.streaks f) ha c)) fun hc =>
        (hc.setStreak k (some (newStreak r c p ((i.streaks f).col c) v)) fun _ => hk).setCol c
          { StreakColumn.quiet ((i.streaks f).col c).acc with state := .streak, number := k }).route rt rp
  split
  · exact h1 _ _
  · exact (h1 _ _).sendEvent f _ _

theorem Lawful.holdOnset (f : FaceId) (hd : LineHead) (h : Lawful w i) : Lawful w (holdOnset f hd i) := by
  unfold Machine.holdOnset
  dsimp only
  split
  · exact h.onStreaks fun ha => ha
  · exact Lawful.offerStreakSaturation f _ _ (h.onStreaks fun ha => ha)

theorem join_accs {x : Streaks} (h : AllListed AccLaw x.cols) (c k : Nat) (v : Int) : AllListed AccLaw (x.join c k v).cols := by
  unfold Streaks.join
  rw [onStreak_cols]
  exact Streaks.cols_setCol h c (Streaks.accLaw h c)

theorem Lawful.enterStreak (b : Base) (f : FaceId) (r : LineRecord) (c : Nat) (p : RecordColumn) (v : Int) (h : Lawful w i) :
    Lawful w (enterStreak b f r c p v i) := by
  unfold Machine.enterStreak
  dsimp only
  split
  · split
    · rename_i hk
      exact h.openStreak b f r c p v _ (lowestFree_lt hk)
    · exact h.holdOnset f _
  · exact Lawful.onStreaks (foldl_keeps (p := Lawful w) (fun _ y hs => hs.mergeStreak b f _ _ y) _ h)
      (fun ha => join_accs ha _ _ _) fun hc => (hc.setCol _ _).onStreak _ _

theorem memberStep_acc (v : StreakColumn) (held : Bool) (n : Nat) : (memberStep v held n).1.acc = v.acc := by
  unfold memberStep; dsimp only; split <;> (try split) <;> (try split) <;> rfl

theorem onsetStep_acc (v : StreakColumn) (hot : Option Polarity) (n : Nat) (y : Int) : (onsetStep v hot n y).1.acc = v.acc := by
  unfold onsetStep; dsimp only; split <;> (try split) <;> (try split) <;> rfl

theorem Lawful.eligibleStep (b : Base) (f : FaceId) (r : LineRecord) (c : Nat) (p : RecordColumn) (h : Lawful w i) :
    Lawful w (eligibleStep b f r c p i) := by
  unfold Machine.eligibleStep
  dsimp only
  split
  · refine h.onStreaks (fun ha => ?_) fun hc => (hc.setCol _ _).onStreak _ _
    rw [onStreak_cols]
    refine Streaks.cols_setCol ha c ?_
    unfold AccLaw
    rw [memberStep_acc]
    exact accLaw_accumulate _ _ _ _
  · have ho : ∀ (hot : Option Polarity), AccLaw (onsetStep { (i.streaks f).col c with
        acc := (accumulate ((i.streaks f).col c).acc p.dev (b.banks.contents f).detection.leak
          (b.banks.contents f).detection.clip) } hot (b.minLines f) r.head.pos).1 := fun hot => by
      unfold AccLaw; rw [onsetStep_acc]; exact accLaw_accumulate _ _ _ _
    have h2 := h.onStreaks (f := f) (g := fun x => x.setCol c _) (fun ha => Streaks.cols_setCol ha c (ho (hotOf (streakLevel
      (accumulate ((i.streaks f).col c).acc p.dev (b.banks.contents f).detection.leak (b.banks.contents f).detection.clip)
      (b.banks.contents f).detection.leak) ((b.banks.contents f).tier (r.tierOf p.lane)).ts))) fun hc => hc.setCol c _
    split
    · exact Lawful.enterStreak b f r c p _ h2
    · exact h2

theorem Lawful.streakColumn (b : Base) (f : FaceId) (r : LineRecord) (c : Nat) (h : Lawful w i) :
    Lawful w (streakColumn b f r i c) := by
  unfold Machine.streakColumn
  split
  · exact h.onStreaks (fun ha => Streaks.cols_setCol ha c accLaw_zero) fun hc => hc.setCol c _
  · split
    · split
      · exact h.eligibleStep b f r c _
      · exact h
    · exact h

theorem Lawful.closeReleased (b : Base) (f : FaceId) (l : Option (Word × Int)) (h : Lawful w i) :
    Lawful w (closeReleased b f l i) :=
  foldl_keeps (p := Lawful w) (fun _ _ hs => hs.closeStreak b f _ _ l _ _) _ h

theorem Lawful.continueStep (b : Base) (f : FaceId) (r : LineRecord) (n : Int) (e : Nat × Streak)
    (he : w .tables → e.1 < 64) (h : Lawful w i) :
    Lawful w (continueStep b f r n i e) := by
  unfold Machine.continueStep
  dsimp only
  split
  · exact (h.onStreaksIf (fun ha => ha) fun hw hc => hc.setStreak _ _ fun _ => he hw).route _ _
  · exact h

theorem Lawful.continueTests (b : Base) (f : FaceId) (r : LineRecord) (h : Lawful w i) :
    Lawful w (continueTests b f r i) := by
  unfold Machine.continueTests
  dsimp only
  split
  · exact h
  · exact foldl_keeps_mem (p := Lawful w) _ (fun _ e he hs => hs.continueStep b f r _ e fun hw =>
      ((h.face f).2.2.2.2.2 hw).2.2.1.lt he) h

theorem Lawful.streakLine (b : Base) (f : FaceId) (r : LineRecord) (h : Lawful w i) : Lawful w (streakLine b f r i) := by
  unfold Machine.streakLine
  dsimp only
  exact Lawful.continueTests b f r (Lawful.closeReleased b f _ (foldl_keeps (p := Lawful w)
    (fun _ c hs => hs.streakColumn b f r c) _ (h.onStreaks fun ha => ha)))

theorem Lawful.takeStreakLine (b : Base) (f : FaceId) (h : Lawful w i) : Lawful w (takeStreakLine b f i) := by
  unfold Machine.takeStreakLine
  split
  · exact h
  · exact Lawful.streakLine b f _ (h.onStreaks fun ha => ha)

theorem Lawful.drainStreakLines (b : Base) (f : FaceId) (h : Lawful w i) : Lawful w (drainStreakLines b f i) :=
  foldl_keeps (p := Lawful w) (fun _ r hs => hs.streakLine b f r) _ (h.onStreaks fun ha => ha)

theorem quietAll_accs {x : Streaks} (h : AllListed AccLaw x.cols) : AllListed AccLaw x.quietAll.cols := by
  show AllListed AccLaw (tmap (StreakColumn.quiet 0) (fun v => StreakColumn.quiet v.acc) x.cols)
  exact h.tmap fun _ hv => hv

theorem Lawful.closeAllStreaks (b : Base) (f : FaceId) (t : StreakReason) (h : Lawful w i) :
    Lawful w (closeAllStreaks b f t i) :=
  Lawful.onStreaks (foldl_keeps (p := Lawful w) (fun _ _ hs => hs.closeStreak b f t _ _ _ _) _ h)
    (fun ha => quietAll_accs ha) fun hc => ⟨hc.1, twf_tmap (fun v => StreakColumn.quiet v.acc) hc.2⟩

/-! ### The Pixel Chain -/

/-- A change of a face's Pixel Chain that keeps the columns' bounds. -/
theorem Lawful.withPixel {g : Face → Pixel} (h : Lawful w i)
    (hc : AllListed ColumnLaw (i.face f).pixel.cols → AllListed ColumnLaw (g (i.face f)).cols)
    (ht : twf PixelColumn.fresh (i.face f).pixel.cols = true → twf PixelColumn.fresh (g (i.face f)).cols = true := by
      exact fun h => h) :
    Lawful w (i.onFace f fun x => { x with pixel := g x }) :=
  h.onFace fun ⟨a, b, c, d, e, k⟩ => ⟨a, b, fun hw => hc (c hw), d, e, fun hw =>
    have ⟨k1, k2, k3, k4, k5, k6⟩ := k hw; ⟨ht k1, k2, k3, k4, k5, k6⟩⟩

theorem columnLaw_fresh : ColumnLaw PixelColumn.fresh := ⟨by decide, by decide, by decide⟩

theorem Pixel.columnLaw {x : Pixel} (h : AllListed ColumnLaw x.cols) (c : Nat) : ColumnLaw (x.col c) :=
  h.tget columnLaw_fresh c

theorem clearSums_cols {x : Pixel} (h : AllListed ColumnLaw x.cols) : AllListed ColumnLaw x.clearSums.cols := by
  show AllListed ColumnLaw (tmap PixelColumn.fresh (fun v => { v with sum := 0, count := 0 }) x.cols)
  exact h.tmap fun v hv => ⟨hv.1, Nat.zero_le _, Nat.zero_le _⟩

theorem Lawful.enterLearning (b : Base) (f : FaceId) (h : Lawful w i) : Lawful w (enterLearning b f i) :=
  h.withPixel (fun hc => clearSums_cols hc) fun ht => twf_tmap (fun v : PixelColumn => { v with sum := 0, count := 0 }) ht

/-- R49: a learned mean is at most 65,520. -/
theorem learnedMean_le {sum count : Nat} (hs : sum ≤ 4095 * count) (hc : 0 < count) : learnedMean sum count ≤ 65520 := by
  unfold learnedMean
  have h1 : 16 * sum + count / 2 < 65521 * count := by omega
  have := (Nat.div_lt_iff_lt_mul hc).mpr h1
  omega

theorem columnLaw_learn {v : PixelColumn} (h : ColumnLaw v) : ColumnLaw v.learn := by
  unfold PixelColumn.learn
  split
  · rename_i hc; exact ⟨learnedMean_le h.2.1 hc, h.2.1, h.2.2⟩
  · exact h

theorem Lawful.endLearning (b : Base) (f : FaceId) (hd : LineHead) (h : Lawful w i) : Lawful w (endLearning b f hd i) := by
  unfold Machine.endLearning
  dsimp only
  exact Lawful.offerStatus (h.withPixel (fun hc => AllListed.tmap hc fun v hv => columnLaw_learn hv)
    fun ht => twf_tmap PixelColumn.learn ht) _ _

/-- R40: a corrected value is at most 4095. -/
theorem corrected_le (s : Nat) (e : FlatEntry) : corrected s e ≤ 4095 := by
  unfold corrected clampInt
  split <;> omega

/-- R45: a tracked ref lies between the old ref and 16c. -/
theorem tracked_le {ref c k : Nat} (hr : ref ≤ 65520) (hc : c ≤ 4095) : tracked ref (deviation c ref) k ≤ 65520 := by
  unfold tracked trackStep deviation
  have hk : (0 : Int) < ((2 ^ k : Nat) : Int) := by exact_mod_cast Nat.pos_of_ne_zero (by positivity)
  rcases Int.le_total 0 (16 * (c : Int) - ref) with h | h
  · have h1 : (16 * (c : Int) - ref).tdiv ((2 ^ k : Nat) : Int) ≤ 16 * (c : Int) - ref := Int.tdiv_le_self _ h
    omega
  · have h1 : (16 * (c : Int) - ref).tdiv ((2 ^ k : Nat) : Int) ≤ 0 := by
      have := Int.tdiv_nonneg (a := -(16 * (c : Int) - ref)) (b := ((2 ^ k : Nat) : Int)) (by omega) (by omega)
      rw [Int.neg_tdiv] at this
      omega
    omega

theorem columnLaw_adapt (x : LineContext) {v : PixelColumn} (h : ColumnLaw v) (e : Option PlanEntry) (fl : Option Polarity)
    (s : Nat) (fe : FlatEntry) : ColumnLaw (x.adapt v e fl (corrected s fe) (deviation (corrected s fe) v.ref)) := by
  have hc := corrected_le s fe
  unfold LineContext.adapt
  split
  · exact h
  · split
    · rename_i ha
      have hlt : v.count < 4096 := by
        have := (Bool.and_eq_true _ _ ▸ ha).2; simpa using this
      refine ⟨h.1, ?_, ?_⟩
      · have := h.2.1; dsimp only; omega
      · dsimp only; omega
    · exact h
  · split
    · exact ⟨tracked_le h.1 hc, h.2.1, h.2.2⟩
    · exact h

theorem pixelAfter_cols (x : LineContext) (b : Base) {px : Pixel} (raw : Table Sample) (h : AllListed ColumnLaw px.cols) :
    AllListed ColumnLaw (pixelAfter x b px raw).cols := by
  unfold pixelAfter
  dsimp only
  have hall : ∀ e ∈ x.columns b px raw, ColumnLaw e.2.2 := by
    intro e he
    obtain ⟨e0, _, rfl⟩ := List.mem_map.mp he
    exact columnLaw_adapt x (Pixel.columnLaw h _) _ _ _ _
  have gen : ∀ (l : List (Nat × RecordColumn × PixelColumn)) (t : Table PixelColumn), (∀ e ∈ l, ColumnLaw e.2.2) →
      AllListed ColumnLaw t → AllListed ColumnLaw (l.foldl (fun t e => tset PixelColumn.fresh t e.1 e.2.2) t) := by
    intro l
    induction l with
    | nil => intro t _ ht; exact ht
    | cons e rest ih =>
      intro t hl ht
      exact ih _ (fun e' he' => hl e' (List.mem_cons_of_mem _ he')) (ht.tset _ (hl e List.mem_cons_self))
  exact gen _ _ hall h

theorem Lawful.lineStart (b : Base) (f : FaceId) (hd : LineHead) (h : Lawful w i) : Lawful w (lineStart b f hd i) := by
  unfold Machine.lineStart
  split
  · exact (h.tierLineStart b f hd).patternStep b f hd
  · exact h

theorem Lawful.keepZone (f : FaceId) (hd : LineHead) (z : Option Zone) (h : Lawful w i) : Lawful w (keepZone f hd z i) := by
  unfold Machine.keepZone
  split
  · exact h.onFace fun hx => hx
  · exact h

theorem Lawful.handOn (f : FaceId) (r : LineRecord) (h : Lawful w i) : Lawful w (handOn f r i) := h.onFace fun hx => hx

theorem Lawful.processLine (b : Base) (f : FaceId) (ln : HandedLine) (h : Lawful w i) : Lawful w (processLine b f ln i) := by
  unfold Machine.processLine
  dsimp only
  have h2 := Lawful.lineStart b f ln.head (h.withPixel (f := f) (g := fun x => { x.pixel with
      lastPos := if b.banks.running then some ln.head.pos else x.pixel.lastPos }) fun hc => hc)
  revert h2
  generalize Machine.lineStart b f ln.head _ = i2
  intro h2
  have h4 := h2.withPixel (f := f) (g := fun _ => pixelAfter (lineContext b f ln.head i2) b (i2.face f).pixel (b.litSamples f ln.raw))
    (fun hc => pixelAfter_cols _ b _ hc) fun ht => foldl_keeps (p := fun t => twf PixelColumn.fresh t = true)
      (fun _ (e : Nat × RecordColumn × PixelColumn) hs => twf_tset e.1 e.2.2 hs)
      ((lineContext b f ln.head i2).columns b (i2.face f).pixel (b.litSamples f ln.raw)) ht
  split
  · exact Lawful.endLearning b f _ (Lawful.handOn f _ (Lawful.keepZone f _ _ h4))
  · exact Lawful.handOn f _ (Lawful.keepZone f _ _ h4)

theorem Lawful.switchCloses (b : Base) (f : FaceId) (h : Lawful w i) : Lawful w (switchCloses b f i) := by
  unfold Machine.switchCloses
  dsimp only
  have h1 := Lawful.closeAllBlobs b f .changeover none ((h.drainBlobLines b f).drainStreakLines b f)
  revert h1
  generalize Machine.closeAllBlobs b f .changeover none _ = i1
  intro h1
  have h2 := (((h1.testSaturation f (i1.face f).blob.lastLine).closeAllStreaks b f .changeover).drainEvents b f
    .blobBuilder).drainEvents b f .streakTracker
  cases f with
  | lead => exact h2
  | trail => exact h2.drainTrail b

theorem Lawful.switchPattern (b : Base) (f : FaceId) (hd : LineHead) (h : Lawful w i) : Lawful w (switchPattern b f hd i) := by
  unfold Machine.switchPattern
  dsimp only
  split
  · exact Lawful.offerPattern f _ _ _ _ _ (h.onFace fun hx => hx)
  · exact h.onFace fun hx => hx

theorem Lawful.switchLearning (b : Base) (f : FaceId) (h : Lawful w i) : Lawful w (switchLearning b f i) := by
  unfold Machine.switchLearning
  dsimp only
  split
  · exact h.enterLearning b f
  · split
    · exact h.withPixel fun hc => hc
    · exact h

/-- The line side after a face's switch, when the new bank's policy is lawful. -/
theorem Lawful.switchFace (f : FaceId) (hd : LineHead) (new : BankId) {d : Dev}
    (hp : PolicyOk w { d.base with banks := d.base.banks.switched f new } f) (h : Lawful w d.insp) :
    Lawful w (switchFace f hd new d).insp := by
  have h1 := (h.switchCloses d.base f).withPixel (f := f) (g := fun x => { x.pixel with reservation := none }) fun hc => hc
  have h2 := Lawful.switchPattern { d.base with banks := d.base.banks.switched f new } f hd h1
  have h3 := Lawful.switchLearning { d.base with banks := d.base.banks.switched f new } f
    (Lawful.loadTiersAtSwitch _ f hd hp h2)
  exact Lawful.offerStatus h3 _ _

/-! ### Preview -/

theorem Lawful.takeSlot (f : FaceId) (p : PreviewLine) (h : Lawful w i) : Lawful w (takeSlot f p i) := by
  unfold Machine.takeSlot
  split
  · exact h.offer _ _
  · rename_i e rest he
    refine Lawful.onFace (h.withOut fun ho => ho.setQueue ?_) fun hx => hx
    have := ho.1 (previewQueue f)
    rw [he] at this
    simpa using this

theorem Lawful.previewLine (f : FaceId) (r : LineRecord) (h : Lawful w i) : Lawful w (previewLine f r i) := by
  unfold Machine.previewLine
  dsimp only
  split
  · exact h
  · split
    · exact h.onFace fun hx => hx
    · exact Lawful.takeSlot f _ (h.onFace fun hx => hx)

theorem Lawful.takePreviewLine (f : FaceId) (h : Lawful w i) : Lawful w (takePreviewLine f i) := by
  unfold Machine.takePreviewLine
  split
  · exact h
  · exact Lawful.previewLine f _ (h.onFace fun hx => hx)

end Sys2Proof.Machine
end

