-- ==== Sys2Proof/Laws/Assembly.lean ====
section
/-! SUPPORT. What the Motion Unit's and the Line Assemblers' operations keep: the bounds of the line side, the placements, the
banks and the executor; and which slots leave, with what accounts and reports, when they are tested or one is opened. -/

namespace Sys2Proof.Machine

open Sys2Proof

variable {w : Concern → Prop}

/-- The placements are those of before, and the port table keeps its form. -/
def PlacesKept (b b' : Base) : Prop :=
  (twf Port.powerOn b.sens.ports = true → twf Port.powerOn b'.sens.ports = true) ∧
    ∀ p, (b'.port p).place = (b.port p).place

/-- A change that keeps the bounds of the line side and leaves placements, banks and executor. -/
def Quiet (w : Concern → Prop) (d d' : Dev) : Prop :=
  (Lawful w d.insp → Lawful w d'.insp) ∧ PlacesKept d.base d'.base ∧ d'.base.banks = d.base.banks ∧
    d'.base.exec = d.base.exec

theorem PlacesKept.refl (b : Base) : PlacesKept b b := ⟨id, fun _ => rfl⟩

theorem PlacesKept.trans {a b c : Base} (h : PlacesKept a b) (h' : PlacesKept b c) : PlacesKept a c :=
  ⟨fun x => h'.1 (h.1 x), fun p => (h'.2 p).trans (h.2 p)⟩

theorem Quiet.refl (d : Dev) : Quiet w d d := ⟨id, PlacesKept.refl _, rfl, rfl⟩

theorem Quiet.trans {a b c : Dev} (h : Quiet w a b) (h' : Quiet w b c) : Quiet w a c :=
  ⟨fun x => h'.1 (h.1 x), h.2.1.trans h'.2.1, h'.2.2.1.trans h.2.2.1, h'.2.2.2.trans h.2.2.2⟩

theorem Quiet.foldl {β : Type} {g : Dev → β → Dev} (hg : ∀ d x, Quiet w d (g d x)) (l : List β) (d : Dev) :
    Quiet w d (l.foldl g d) := by
  induction l generalizing d with
  | nil => exact Quiet.refl d
  | cons x xs ih => exact (hg d x).trans (ih _)

/-- A change of the line side alone. -/
theorem Quiet.of_insp {d : Dev} {i : Insp} (h : Lawful w d.insp → Lawful w i) : Quiet w d { d with insp := i } :=
  ⟨h, PlacesKept.refl _, rfl, rfl⟩

theorem Quiet.onFace {d : Dev} {f : FaceId} {g : Face → Face} (h : FaceLawful w (d.face f) → FaceLawful w (g (d.face f))) :
    Quiet w d (d.onFace f g) := Quiet.of_insp fun hl => hl.onFace h

theorem Quiet.offerStatus (d : Dev) (f : Option FaceId) (st : Status) : Quiet w d (d.offerStatus f st) :=
  Quiet.of_insp fun hl => hl.offerStatus f st

theorem Quiet.onMotion (d : Dev) (g : Motion → Motion) : Quiet w d (d.onMotion g) := ⟨id, PlacesKept.refl _, rfl, rfl⟩

theorem Quiet.bothFaces {d : Dev} {act : FaceId → Dev → Dev} (h : ∀ f d, Quiet w d (act f d)) : Quiet w d (d.bothFaces act) := by
  have h0 : Quiet w d { d with base := { d.base with free := d.base.free + 1 } } := ⟨id, PlacesKept.refl _, rfl, rfl⟩
  unfold Dev.bothFaces
  dsimp only
  split
  · exact h0.trans ((h _ _).trans (h _ _))
  · exact h0.trans ((h _ _).trans (h _ _))

/-! ### Ports -/

theorem port_setPort (b : Base) (p q : Nat) (x : Port) : (b.setPort p x).port q = if q = p then x else b.port q :=
  tget_tset _ _ _ _ _

@[simp] theorem port_setPort_same (b : Base) (p : Nat) (x : Port) : (b.setPort p x).port p = x := tget_tset_same _ _ _ _

/-- Writing a port with its own placement. -/
theorem Quiet.setPort {d : Dev} {p : Nat} {x : Port} (h : x.place = (d.base.port p).place) : Quiet w d (d.setPort p x) := by
  refine ⟨id, ⟨fun ht => twf_tset p x ht, fun q => ?_⟩, rfl, rfl⟩
  show ((d.base.setPort p x).port q).place = _
  rw [port_setPort]
  split
  · rename_i hq; rw [hq]; exact h
  · rfl

theorem Quiet.onCounts (d : Dev) (p : Nat) (g : PortCounts → PortCounts) : Quiet w d (d.onCounts p g) := Quiet.setPort rfl

/-! ### Slots -/

/-- R27: the expected set of every slot lists its ports once, rising. -/
def SlotsRise (l : List Slot) : Prop := ∀ o ∈ l, o.expected.Pairwise (· < ·)

/-- Slots with the expected sets of before, or parts of them. -/
theorem SlotsRise.map {l : List Slot} (h : SlotsRise l) {g : Slot → Slot} (hg : ∀ o, (g o).expected.Sublist o.expected) :
    SlotsRise (l.map g) := fun o ho => by
  obtain ⟨o0, h0, rfl⟩ := List.mem_map.mp ho
  exact (h o0 h0).sublist (hg o0)

/-- A change of a face's assembly slots that lengthens nothing. -/
theorem Quiet.onSlots {d : Dev} {f : FaceId} {g : List Slot → List Slot}
    (h : (d.face f).asm.slots.length ≤ 4 → (g (d.face f).asm.slots).length ≤ 4)
    (hr : SlotsRise (d.face f).asm.slots → SlotsRise (g (d.face f).asm.slots)) : Quiet w d (d.onSlots f g) :=
  Quiet.onFace fun ⟨a, b, c, e, l, k⟩ => ⟨fun hw => h (a hw), b, c, e, l, fun hw =>
    have ⟨k1, k2, k3, k4, k5, k6⟩ := k hw; ⟨k1, k2, k3, k4, k5, hr k6⟩⟩

theorem Quiet.silencePort (f : FaceId) (p : Nat) (l : Word) (d : Dev) : Quiet w d (silencePort f p l d) := by
  have h1 : Quiet w d (d.setPort p { d.base.port p with head := .silent, missing := 16 }) := by
    refine Quiet.setPort ?_; rfl
  have h2 : ∀ d : Dev, Quiet w d (d.onSlots f fun l =>
      l.map fun s => if s.delivered.contains p then s else { s with expected := s.expected.filter (· ≠ p) }) := fun d =>
    Quiet.onSlots (fun h => by rw [List.length_map]; exact h) fun hr => hr.map fun o => by
      split
      · exact List.Sublist.refl _
      · exact List.filter_sublist
  exact (h1.trans (h2 _)).trans (Quiet.offerStatus _ _ _)

theorem Quiet.accountPort (f : FaceId) (s : Slot) (d : Dev) (p : Nat) : Quiet w d (accountPort f s d p) := by
  unfold Machine.accountPort
  dsimp only
  split
  · split
    · exact Quiet.refl d
    · exact Quiet.setPort rfl
  · split
    · exact Quiet.setPort rfl
    · split
      · exact Quiet.setPort rfl
      · refine Quiet.trans ?_ (Quiet.silencePort f p _ _)
        exact Quiet.setPort rfl

theorem Quiet.leaveSlot {f : FaceId} {s : Slot} {rest : List Slot} {d : Dev}
    (h : (d.face f).asm.slots.length ≤ 4 → rest.length ≤ 4) (hr : rest ⊆ (d.face f).asm.slots) :
    Quiet w d (leaveSlot f s rest d) := by
  unfold Machine.leaveSlot
  refine Quiet.trans (Quiet.onFace (w := w) fun ⟨a, b, c, e, l, k⟩ => ⟨fun hw => h (a hw), b, c, e, l, fun hw =>
    have ⟨k1, k2, k3, k4, k5, k6⟩ := k hw; ⟨k1, k2, k3, k4, k5, fun o ho => k6 o (hr ho)⟩⟩)
    (Quiet.foldl (fun d p => Quiet.accountPort f s d p) _ _)

theorem Quiet.leaveReady (f : FaceId) (n : Nat) (d : Dev) : Quiet w d (leaveReady f n d) := by
  induction n generalizing d with
  | zero => exact Quiet.refl d
  | succ n ih =>
    unfold Machine.leaveReady
    split
    · exact Quiet.refl d
    · rename_i s rest hs
      split
      · exact (Quiet.leaveSlot (fun h => by rw [hs] at h; simp at h; omega)
          (by rw [hs]; exact List.subset_cons_self _ _)).trans (ih _)
      · exact Quiet.refl d

theorem Quiet.settleSlots (f : FaceId) (d : Dev) : Quiet w d (settleSlots f d) := Quiet.leaveReady f _ d

/-! ### How many slots stay open -/

/-- The number of open slots of a face. -/
def Dev.slotCount (d : Dev) (f : FaceId) : Nat := (d.face f).asm.slots.length

@[simp] theorem silencePort_slotCount (f : FaceId) (p : Nat) (l : Word) (d : Dev) :
    (silencePort f p l d).slotCount f = d.slotCount f := by
  unfold silencePort offerHead Dev.slotCount
  rw [dev_offerStatus_face]
  unfold Dev.onSlots
  rw [dev_onFace_face]
  simp

@[simp] theorem accountPort_slotCount (f : FaceId) (s : Slot) (d : Dev) (p : Nat) :
    (accountPort f s d p).slotCount f = d.slotCount f := by
  unfold accountPort
  dsimp only
  split
  · split <;> rfl
  · split
    · rfl
    · split
      · rfl
      · rw [silencePort_slotCount]; rfl

theorem leaveSlot_slotCount (f : FaceId) (s : Slot) (rest : List Slot) (d : Dev) :
    (leaveSlot f s rest d).slotCount f = rest.length := by
  unfold leaveSlot
  rw [foldl_same (π := fun d : Dev => d.slotCount f) (fun d p => accountPort_slotCount f s d p)]
  simp [Dev.slotCount]

theorem leaveReady_slotCount (f : FaceId) (n : Nat) (d : Dev) : (leaveReady f n d).slotCount f ≤ d.slotCount f := by
  induction n generalizing d with
  | zero => exact Nat.le_refl _
  | succ n ih =>
    unfold leaveReady
    split
    · exact Nat.le_refl _
    · rename_i s rest hs
      split
      · refine Nat.le_trans (ih _) ?_
        rw [leaveSlot_slotCount]
        unfold Dev.slotCount
        rw [hs]
        simp
      · exact Nat.le_refl _

theorem forceOldest_slotCount (f : FaceId) (d : Dev) : (forceOldest f d).slotCount f ≤ d.slotCount f - 1 := by
  unfold forceOldest
  split
  · rename_i h; unfold Dev.slotCount; rw [h]; simp
  · rename_i s rest hs
    refine Nat.le_trans (leaveReady_slotCount f _ _) ?_
    rw [leaveSlot_slotCount]
    unfold Dev.slotCount
    rw [hs]
    simp

theorem Quiet.forceOldest (f : FaceId) (d : Dev) : Quiet w d (forceOldest f d) := by
  unfold Machine.forceOldest
  split
  · exact Quiet.refl d
  · rename_i s rest hs
    refine (Quiet.onFace (w := w) (f := f) (g := fun x => { x with asm := { x.asm with forced := count32 x.asm.forced } })
      fun hx => hx).trans ((Quiet.leaveSlot (fun h => ?_) ?_).trans (Quiet.settleSlots f _))
    rotate_left
    · rw [dev_onFace_face]; dsimp only; rw [hs]; exact List.subset_cons_self _ _
    rw [dev_onFace_face] at h
    dsimp only at h
    rw [hs] at h
    simp at h; omega

theorem Quiet.openSlot (f : FaceId) (h : LineHead) (d : Dev) : Quiet w d (openSlot f h d) := by
  have key : ∀ d1 : Dev, Quiet w d d1 → (d.slotCount f ≤ 4 → d1.slotCount f ≤ 3) →
      Quiet w d (d1.onSlots f fun l => l ++ [{ head := h, expected := d1.base.expectedPorts f, delivered := [], raw := [] }]) := by
    intro d1 hq hc
    refine ⟨fun hl => (hq.1 hl).onFace fun ⟨_, b, c, e, l, k⟩ => ⟨fun hw => ?_, b, c, e, l, fun hw =>
      have ⟨k1, k2, k3, k4, k5, k6⟩ := k hw; ⟨k1, k2, k3, k4, k5, fun o ho => ?_⟩⟩, hq.2⟩
    rotate_left
    · rcases List.mem_append.mp ho with ho | ho
      · exact k6 o ho
      · rw [List.mem_singleton.mp ho]
        exact List.Pairwise.sublist List.filter_sublist (by decide : portNumbers.Pairwise (· < ·))
    have h3 := hc ((hl.face f).1 hw)
    unfold Dev.slotCount Dev.face at h3
    simp
    omega
  unfold Machine.openSlot
  dsimp only
  refine Quiet.trans ?_ (Quiet.settleSlots f _)
  split
  · refine key _ (Quiet.forceOldest f d) fun h4 => ?_
    have := forceOldest_slotCount f d
    omega
  · rename_i hlt
    refine key _ (Quiet.refl d) fun _ => ?_
    simp [Config.maxSlots] at hlt
    unfold Dev.slotCount
    omega

/-! ### The slots that leave -/

/-- R31: accounting ports that have delivered changes their missing counts alone. -/
theorem accountPorts_delivered (f : FaceId) (o : Slot) (l : List Nat) (d : Dev) (h : ∀ p ∈ l, p ∈ o.delivered) :
    (l.foldl (accountPort f o) d).insp = d.insp ∧ ∀ q, (l.foldl (accountPort f o) d).base.port q = { d.base.port q with
      missing := if q ∈ l ∧ o.head.cls = .inspection then 0 else (d.base.port q).missing } := by
  induction l generalizing d with
  | nil => exact ⟨rfl, fun q => by simp⟩
  | cons p l ih =>
    have hp : o.delivered.contains p = true := List.contains_iff_mem.mpr (h p List.mem_cons_self)
    obtain ⟨i, k⟩ := ih (accountPort f o d p) fun q hq => h q (List.mem_cons_of_mem _ hq)
    refine ⟨?_, fun q => ?_⟩
    · rw [List.foldl_cons, i, accountPort, if_pos hp]
      split <;> rfl
    · rw [List.foldl_cons, k, accountPort, if_pos hp]
      cases hc : o.head.cls
      · have e : (d.setPort p { d.base.port p with missing := 0 }).base.port q =
            if q = p then { d.base.port p with missing := 0 } else d.base.port q := port_setPort _ _ _ _
        simp only [reduceCtorEq, decide_false, Bool.false_eq_true, if_false, e, List.mem_cons, and_true]
        by_cases hq : q = p
        · subst hq; simp
        · simp [hq]
      · simp

/-- No slot leaves while the oldest is incomplete. -/
theorem SlotsLeft.stay {f : FaceId} {a : Assembler} {d : Dev} (ha : (d.face f).asm = a)
    (h : ∀ o ∈ a.slots.head?, o.complete = false) : SlotsLeft f a d.base.port a.slots d :=
  ⟨[], a.slots, rfl, by simp, fun o ho => by simpa [Slot.complete] using h o ho, by rw [ha]; simp, fun p => by simp⟩

/-- R29: the complete lines at the front of a face's slots leave, and no report is made. -/
theorem leaveReady_left (f : FaceId) (n : Nat) (d : Dev) (hn : (d.face f).asm.slots.length ≤ n) :
    SlotsLeft f (d.face f).asm d.base.port (d.face f).asm.slots (leaveReady f n d) ∧ (leaveReady f n d).insp.out = d.insp.out := by
  induction n generalizing d with
  | zero =>
    have h0 := List.length_eq_zero_iff.mp (Nat.le_zero.mp hn)
    exact ⟨.stay rfl (by simp [h0]), rfl⟩
  | succ n ih =>
    unfold leaveReady
    split
    · rename_i h0
      exact ⟨.stay rfl (by simp [h0]), rfl⟩
    · rename_i o rest hs
      split
      · rename_i hc
        have hd : ∀ p ∈ o.expected, p ∈ o.delivered := by simpa [Slot.complete] using hc
        obtain ⟨i, k⟩ := accountPorts_delivered f o o.expected (d.onFace f fun x =>
          { x with asm := { x.asm with slots := rest, handed := x.asm.handed ++ [{ head := o.head, raw := o.raw }] } }) hd
        have e : ((leaveSlot f o rest d).face f).asm = { (d.face f).asm with
            slots := rest, handed := (d.face f).asm.handed ++ [{ head := o.head, raw := o.raw }] } := by
          unfold leaveSlot Dev.face
          rw [i]
          simp
        obtain ⟨⟨before, after, hl, hb, ha, hasm, hports⟩, hout⟩ := ih (leaveSlot f o rest d)
          (by rw [e]; simp [hs] at hn; exact hn)
        rw [e] at hl hasm
        refine ⟨⟨o :: before, after, by rw [hs, List.cons_append, ← hl], ?_, ha, ?_, fun p => ?_⟩, ?_⟩
        · intro o' ho'
          rcases List.mem_cons.mp ho' with rfl | h
          · exact hd
          · exact hb o' h
        · rw [hasm]; simp
        · rw [hports]
          unfold leaveSlot
          rw [k]
          simp only [dev_onFace_base, List.any_cons]
          by_cases h1 : p ∈ o.expected ∧ o.head.cls = .inspection
          · simp [h1]
          · simp [h1]
        · rw [hout]; unfold leaveSlot; rw [i]; simp
      · rename_i hc
        exact ⟨.stay rfl (by simpa [hs] using hc), rfl⟩

/-- R29: testing a face's slots. -/
theorem settleSlots_left (f : FaceId) (d : Dev) :
    SlotsLeft f (d.face f).asm d.base.port (d.face f).asm.slots (settleSlots f d) ∧ (settleSlots f d).insp.out = d.insp.out :=
  leaveReady_left f _ d (Nat.le_refl _)

/-- R31: the port that an expected port becomes when a line that expects it leaves. -/
def accounted (o : Slot) (p : Nat) (x : Port) : Port :=
  let z := { x with counts := { x.counts with missingLines := count32 x.counts.missingLines } }
  if p ∈ o.delivered then if o.head.cls = .creep then x else { x with missing := 0 }
  else if o.head.cls = .creep then z
  else if 15 ≤ x.missing then { z with head := .silent, missing := 16 }
  else { z with missing := x.missing + 1 }

/-- R31: the expected ports of `l` that fall SILENT when a line leaves. -/
def fallSilent (o : Slot) (port : Nat → Port) (l : List Nat) : List Nat :=
  l.filter fun p => decide (p ∉ o.delivered ∧ o.head.cls = .inspection ∧ 15 ≤ (port p).missing)

/-- R31: ports that have fallen SILENT leave the expected set of a slot that has not their packets. -/
def Slot.without (o : Slot) (l : List Nat) : Slot :=
  { o with expected := o.expected.filter fun p => decide (p ∈ o.delivered ∨ p ∉ l) }

@[simp] theorem Slot.without_nil (o : Slot) : o.without [] = o := by simp [Slot.without]

theorem dev_port_setPort (d : Dev) (p q : Nat) (x : Port) :
    (d.setPort p x).base.port q = if q = p then x else d.base.port q := port_setPort _ _ _ _

/-- R31, R33: everything a port's fall to SILENT does to the ports, the slots, the pattern and the reports. -/
theorem silencePort_spec (f : FaceId) (p : Nat) (line : Word) (d : Dev) :
    (∀ q, (silencePort f p line d).base.port q =
      if q = p then { d.base.port p with head := .silent, missing := 16 } else d.base.port q) ∧
    ((silencePort f p line d).face f).asm = { (d.face f).asm with
      slots := (d.face f).asm.slots.map fun o' => o'.without [p] } ∧
    ((silencePort f p line d).face f).pattern = (d.face f).pattern ∧
    (silencePort f p line d).insp.out = d.insp.out.offer .p2 (.status (some f)
      (decide ((d.face f).pattern.state = some .lost)) (.head p (d.base.port p).head .silent .missing line)) := by
  refine ⟨fun q => dev_port_setPort d p q _, ?_, ?_, ?_⟩
  · unfold silencePort offerHead
    rw [dev_offerStatus_face]
    simp only [Dev.onSlots, dev_onFace_face, setPort_face]
    congr 1
    refine List.map_congr_left fun o' _ => ?_
    by_cases h : p ∈ o'.delivered
    · rw [if_pos (List.contains_iff_mem.mpr h), Slot.without, List.filter_eq_self.mpr]
      intro q _
      by_cases hq : q = p
      · rw [hq]; simp [h]
      · simp [hq]
    · rw [if_neg (by simpa using h), Slot.without]
      congr 1
      refine List.filter_congr fun q _ => ?_
      by_cases hq : q = p
      · rw [hq]; simp [h]
      · simp [hq]
  · unfold silencePort offerHead
    rw [dev_offerStatus_face]
    simp [Dev.onSlots]
  · unfold silencePort offerHead
    have e (g : Face → Face) (h : (g (d.insp.face f)).pattern = (d.insp.face f).pattern) :
        (d.insp.onFace f g).lost f = decide ((d.face f).pattern.state = some .lost) := by
      unfold Insp.lost; rw [onFace_face, h]; rfl
    simp only [Dev.onSlots, dev_offerStatus_insp, Insp.offerStatus, dev_onFace_insp, setPort_insp, Option.map_some,
      Option.getD_some]
    rw [e _ rfl]
    simp [Insp.offer]

/-- R31: everything that accounting one port does to the ports, the slots, the pattern and the reports. -/
theorem accountPort_spec (f : FaceId) (o : Slot) (d : Dev) (p : Nat) :
    (∀ q, (accountPort f o d p).base.port q = if q = p then accounted o p (d.base.port p) else d.base.port q) ∧
    ((accountPort f o d p).face f).asm = { (d.face f).asm with
      slots := (d.face f).asm.slots.map fun o' => o'.without (fallSilent o d.base.port [p]) } ∧
    ((accountPort f o d p).face f).pattern = (d.face f).pattern ∧
    (accountPort f o d p).insp.out = (fallSilent o d.base.port [p]).foldl (fun w p => w.offer .p2 (.status (some f)
      (decide ((d.face f).pattern.state = some .lost))
      (.head p (d.base.port p).head .silent .missing o.head.index))) d.insp.out := by
  unfold accountPort accounted fallSilent
  dsimp only
  by_cases hd : p ∈ o.delivered
  · cases hc : o.head.cls
    · simp [hd, dev_port_setPort]
    · simp only [List.contains_iff_mem.mpr hd, hd]
      refine ⟨fun q => ?_, by simp, rfl, by simp⟩
      by_cases h : q = p <;> simp [h]
  · cases hc : o.head.cls
    · by_cases hm : 15 ≤ (d.base.port p).missing
      · obtain ⟨a, b, c, e⟩ := silencePort_spec f p o.head.index (d.setPort p { d.base.port p with
          counts := { (d.base.port p).counts with missingLines := count32 (d.base.port p).counts.missingLines } })
        have hm' : ¬ (d.base.port p).missing + 1 < 16 := by omega
        simp only [dev_port_setPort, setPort_face, setPort_insp, if_true] at a b c e
        refine ⟨fun q => ?_, ?_, ?_, ?_⟩
        · by_cases h : q = p <;> simp [hd, hm, hm', a, h]
        · simp [hd, hm, hm', b]
        · simp [hd, hm', c]
        · simp [hd, hm, hm', e]; rfl
      · have hm' : (d.base.port p).missing + 1 < 16 := by omega
        simp [hd, hm, hm', dev_port_setPort]
    · simp [hd, dev_port_setPort]

theorem Slot.without_append (o : Slot) (l l' : List Nat) : (o.without l).without l' = o.without (l ++ l') := by
  unfold Slot.without
  simp only [List.filter_filter, List.mem_append]
  congr 1
  refine List.filter_congr fun q _ => ?_
  by_cases h : q ∈ o.delivered <;> simp [h, Bool.and_comm]

theorem fallSilent_congr (o : Slot) {a b : Nat → Port} {l : List Nat} (h : ∀ p ∈ l, a p = b p) :
    fallSilent o a l = fallSilent o b l := List.filter_congr fun p hp => by rw [h p hp]

/-- R31: everything that accounting the expected ports of a line does to the ports, the slots, the pattern and the reports. -/
theorem accountPorts_spec (f : FaceId) (o : Slot) (l : List Nat) (d : Dev) (h : l.Pairwise (· < ·)) :
    (∀ q, (l.foldl (accountPort f o) d).base.port q = if q ∈ l then accounted o q (d.base.port q) else d.base.port q) ∧
    ((l.foldl (accountPort f o) d).face f).asm = { (d.face f).asm with
      slots := (d.face f).asm.slots.map fun o' => o'.without (fallSilent o d.base.port l) } ∧
    ((l.foldl (accountPort f o) d).face f).pattern = (d.face f).pattern ∧
    (l.foldl (accountPort f o) d).insp.out = (fallSilent o d.base.port l).foldl (fun w p => w.offer .p2 (.status (some f)
      (decide ((d.face f).pattern.state = some .lost))
      (.head p (d.base.port p).head .silent .missing o.head.index))) d.insp.out := by
  induction l generalizing d with
  | nil => exact ⟨fun q => by simp, by simp [fallSilent], rfl, rfl⟩
  | cons p l ih =>
    obtain ⟨hp, hl⟩ := List.pairwise_cons.mp h
    have hne : ∀ q ∈ l, q ≠ p := fun q hq => Nat.ne_of_gt (hp q hq)
    obtain ⟨a, b, c, e⟩ := accountPort_spec f o d p
    obtain ⟨a', b', c', e'⟩ := ih (accountPort f o d p) hl
    have hport : ∀ q ∈ l, (accountPort f o d p).base.port q = d.base.port q := fun q hq => by rw [a, if_neg (hne q hq)]
    have hs : fallSilent o d.base.port (p :: l) = fallSilent o d.base.port [p] ++ fallSilent o d.base.port l :=
      List.filter_append [p] l
    rw [List.foldl_cons]
    refine ⟨fun q => ?_, ?_, c'.trans c, ?_⟩
    · rw [a', a]
      by_cases hq : q = p
      · have : p ∉ l := fun hm => hne p hm rfl
        simp [hq, this]
      · simp [hq]
    · rw [b', b, hs, fallSilent_congr o hport]
      simp [Slot.without_append]
    · rw [e', e, c, hs, List.foldl_append, fallSilent_congr o hport]
      refine List.foldl_ext _ _ _ fun w q hq => ?_
      rw [hport q (List.mem_filter.mp hq).1]

/-- R29: slots that left, and then more of those behind them. -/
theorem SlotsLeft.more {f : FaceId} {a : Assembler} {ports : Nat → Port} {l l' : List Slot} {d d' d'' : Dev}
    (h : SlotsLeft f a ports l d) (hp : d'.base.port = d.base.port)
    (ha : (d'.face f).asm = { (d.face f).asm with slots := (d.face f).asm.slots ++ l' })
    (h' : SlotsLeft f (d'.face f).asm d'.base.port (d'.face f).asm.slots d'') : SlotsLeft f a ports (l ++ l') d'' := by
  obtain ⟨b, c, h1, h2, h3, h4, h5⟩ := h
  obtain ⟨b', c', h1', h2', h3', h4', h5'⟩ := h'
  rw [ha, h4] at h1' h4'
  simp only at h1' h4'
  refine ⟨b ++ b', c', by rw [h1, List.append_assoc, h1', List.append_assoc], fun o ho => ?_, h3', ?_, fun p => ?_⟩
  · rcases List.mem_append.mp ho with ho | ho
    · exact h2 o ho
    · exact h2' o ho
  · rw [h4']; simp
  · rw [h5', hp, h5, List.any_append]
    cases h : b.any fun o => decide (p ∈ o.expected ∧ o.head.cls = .inspection) <;> simp

/-- R27: the ports a line is expected from, in ports that differ in their heads alone. -/
theorem expectedPorts_filter {b b' : Base} {l : List Nat} (f : FaceId) (hp : ∀ p, (b'.port p).place = (b.port p).place)
    (hh : ∀ p, ((b'.port p).head = .active ↔ (b.port p).head = .active ∧ p ∉ l)) :
    b'.expectedPorts f = (b.expectedPorts f).filter fun p => decide (p ∉ l) := by
  unfold Base.expectedPorts
  rw [List.filter_filter]
  refine List.filter_congr fun p _ => ?_
  rw [hp p]
  simp only [hh p, Bool.decide_and]
  cases decide (p ∉ l) <;> simp

/-- R27, R29 to R31: everything that opening a slot for an issued line does. -/
theorem openSlot_opened (f : FaceId) (head : LineHead) (d : Dev) : SlotOpened f head d (openSlot f head d) := by
  intro x new hx hnew
  subst hx
  unfold openSlot
  have hx : d.base.expectedPorts f = new.expected := by rw [hnew]; rfl
  refine ⟨fun hlt => ?_, fun o rest silenced ports hs h3 hr hsil hports => ?_⟩
  · rw [if_neg (by simp [Config.maxSlots]; omega)]
    dsimp only
    have hnew' : ({ head := head, expected := d.base.expectedPorts f, delivered := [], raw := [] } : Slot) = new := by
      rw [hx, hnew]
    rw [hnew']
    obtain ⟨h, k⟩ := settleSlots_left f (d.onSlots f fun l => l ++ [new])
    refine ⟨?_, k.trans (by simp [Dev.onSlots])⟩
    simp only [Dev.onSlots, dev_onFace_face, dev_onFace_base] at h
    exact h
  · rw [if_pos (by simp [Config.maxSlots, hs]; omega)]
    dsimp only
    obtain ⟨hp, ha, _, ho⟩ := accountPorts_spec f o o.expected (((d.onFace f fun x =>
      { x with asm := { x.asm with forced := count32 x.asm.forced } })).onFace f fun x =>
        { x with asm := { x.asm with slots := rest, handed := x.asm.handed ++ [{ head := o.head, raw := o.raw }] } }) hr
    have hf : forceOldest f d = settleSlots f (leaveSlot f o rest (d.onFace f fun x =>
      { x with asm := { x.asm with forced := count32 x.asm.forced } })) := by unfold forceOldest; rw [hs]
    have hfs : fallSilent o d.base.port o.expected = silenced := hsil.symm
    have hsame : ∀ p, ports p = if p ∈ o.expected then accounted o p (d.base.port p) else d.base.port p := fun p => by
      rw [hports p _ _ rfl rfl, hsil]
      unfold accounted count32 satAdd
      by_cases h1 : p ∈ o.expected
      · by_cases h2 : p ∈ o.delivered
        · simp [h1, h2]
        · cases hc : o.head.cls
          · by_cases h3 : 15 ≤ (d.base.port p).missing <;> simp [h1, h2, h3]
          · simp [h1, h2]
      · simp [h1]
    have hplace : ∀ p, (ports p).place = (d.base.port p).place := fun p => by
      rw [hsame]; unfold accounted
      split
      · dsimp only; repeat' split
        all_goals rfl
      · rfl
    have hhead : ∀ p, ((ports p).head = .active ↔ (d.base.port p).head = .active ∧ p ∉ silenced) := fun p => by
      rw [hports p _ _ rfl rfl]
      by_cases h1 : p ∈ o.expected
      · by_cases h2 : p ∈ o.delivered
        · have : p ∉ silenced := by rw [hsil]; simp [h2]
          simp only [h1, h2, not_true_eq_false, if_false, if_true, this, not_false_eq_true, and_true]
          split <;> rfl
        · cases hc : o.head.cls
          · by_cases h3 : p ∈ silenced <;> simp [h1, h2, h3]
          · have : p ∉ silenced := by rw [hsil]; simp [hc]
            simp [h1, h2, this]
      · have : p ∉ silenced := by rw [hsil]; simp [h1]
        simp [h1, this]
    have hleft : (leaveSlot f o rest (d.onFace f fun x =>
        { x with asm := { x.asm with forced := count32 x.asm.forced } })).base.port = ports := funext fun p => by
      rw [hsame]; exact hp p
    obtain ⟨hl, hout⟩ := settleSlots_left f (leaveSlot f o rest (d.onFace f fun x =>
      { x with asm := { x.asm with forced := count32 x.asm.forced } }))
    rw [← hf] at hl hout
    unfold leaveSlot at hl hout hleft
    simp only [dev_onFace_face, dev_onFace_base] at ha ho hleft
    rw [hfs] at ha ho
    rw [ha, hleft] at hl
    have hnew' : ({ head := head, expected := (forceOldest f d).base.expectedPorts f, delivered := [], raw := [] } : Slot) =
        { new with expected := new.expected.filter fun p => decide (p ∉ silenced) } := by
      have hk : ∀ p, ((forceOldest f d).base.port p).place = (ports p).place ∧
          ((forceOldest f d).base.port p).head = (ports p).head := fun p => by
        obtain ⟨_, _, _, _, _, _, h5⟩ := hl
        rw [h5]; exact ⟨rfl, rfl⟩
      rw [expectedPorts_filter (b := d.base) (l := silenced) f (fun p => (hk p).1.trans (hplace p))
        (fun p => by rw [(hk p).2]; exact hhead p), hx, hnew]
    rw [hnew']
    obtain ⟨h, k⟩ := settleSlots_left f ((forceOldest f d).onSlots f fun l => l ++
      [{ new with expected := new.expected.filter fun p => decide (p ∉ silenced) }])
    refine ⟨hl.more (d' := (forceOldest f d).onSlots f fun l => l ++
      [{ new with expected := new.expected.filter fun p => decide (p ∉ silenced) }]) rfl (by simp [Dev.onSlots]) h, ?_⟩
    rw [k]
    simp only [Dev.onSlots, dev_onFace_insp, onFace_out]
    rw [hout, ho]
    simp

/-! ### Packets -/

theorem Quiet.matchPacket (f : FaceId) (p tag : Nat) (l : List (Nat × Sample)) (d : Dev) : Quiet w d (matchPacket f p tag l d) := by
  unfold Machine.matchPacket
  split
  · exact Quiet.onCounts _ _ _
  · split
    · exact Quiet.onCounts _ _ _
    · exact (Quiet.onSlots (fun h => by rw [List.length_map]; exact h) fun hr => hr.map fun o => by
        split <;> exact List.Sublist.refl _).trans (Quiet.settleSlots f _)

theorem Quiet.recoverPort (f : FaceId) (p tag : Nat) (d : Dev) : Quiet w d (recoverPort f p tag d) := by
  unfold Machine.recoverPort
  dsimp only
  split
  · refine Quiet.trans (Quiet.setPort ?_) (Quiet.offerStatus _ _ _); rfl
  · exact Quiet.refl d

theorem Quiet.packetArrival (p tag n : Nat) (l : List Nat) (x : Bool) (d : Dev) : Quiet w d (packetArrival p tag n l x d) := by
  unfold Machine.packetArrival
  dsimp only
  split
  · exact Quiet.onCounts _ _ _
  · split
    · exact Quiet.onCounts _ _ _
    · exact ((Quiet.recoverPort _ p tag d).trans (Quiet.onCounts _ _ _)).trans (Quiet.matchPacket _ p tag _ _)

/-! ### The Motion Unit -/

theorem Quiet.enterMotion (m : MotionState) (d : Dev) : Quiet w d (enterMotion m d) := by
  unfold Machine.enterMotion
  dsimp only
  split
  · exact Quiet.onMotion _ _
  · exact (Quiet.onMotion _ _).trans (Quiet.offerStatus _ _ _)

theorem Quiet.lineTest (f : FaceId) (d : Dev) : Quiet w d (lineTest f d) := by
  unfold Machine.lineTest
  dsimp only
  split
  · exact Quiet.trans (Quiet.onFace fun hx => hx) (Quiet.openSlot f _ _)
  · exact Quiet.refl d

theorem Quiet.rewindFace (f : FaceId) (d : Dev) : Quiet w d (rewindFace f d) := by
  unfold Machine.rewindFace
  dsimp only
  refine Quiet.of_insp fun h => ?_
  have h1 := ((h.drainBlobLines d.base f).drainStreakLines d.base f)
  revert h1
  generalize drainStreakLines d.base f (drainBlobLines d.base f d.insp) = i1
  intro h1
  have h2 := h1.closeAllBlobs d.base f .motion (i1.face f).tier.lastInspection
  revert h2
  generalize closeAllBlobs d.base f .motion (i1.face f).tier.lastInspection i1 = i2
  intro h2
  have h3 := ((h2.testSaturation f (i2.face f).blob.lastLine).closeAllStreaks d.base f .motion).withPixel (f := f)
    (g := fun x => { x.pixel with reservation := none }) fun hc => hc
  split
  · exact h3
  · exact h3.enterLearning d.base f

theorem Quiet.raiseRewound (d : Dev) : Quiet w d (raiseRewound d) :=
  ((Quiet.onMotion _ _).trans (Quiet.offerStatus _ _ _)).trans (Quiet.bothFaces fun f d => Quiet.rewindFace f d)

theorem Quiet.forwardCount (d : Dev) : Quiet w d (forwardCount d) := by
  unfold Machine.forwardCount
  dsimp only
  split
  · split
    · exact (Quiet.onMotion _ _).trans (Quiet.bothFaces fun f d => Quiet.lineTest f d)
    · exact Quiet.onMotion _ _
  · exact Quiet.onMotion _ _

theorem Quiet.backwardCount (d : Dev) : Quiet w d (backwardCount d) := by
  unfold Machine.backwardCount
  dsimp only
  split
  · have h1 : Quiet w d (d.onMotion fun m => { m with p := m.p - m.setup.e }) := Quiet.onMotion _ _
    generalize d.onMotion (fun m => { m with p := m.p - m.setup.e }) = d1 at h1 ⊢
    have h2 : Quiet w d1 (if d1.base.motion.state ≠ .backing ∧ d1.base.motion.behind = true then
        Machine.enterMotion .backing (d1.onMotion fun m => { m with rewound := false }) else d1) := by
      split
      · exact (Quiet.onMotion _ _).trans (Quiet.enterMotion _ _)
      · exact Quiet.refl _
    generalize (if d1.base.motion.state ≠ .backing ∧ d1.base.motion.behind = true then
        Machine.enterMotion .backing (d1.onMotion fun m => { m with rewound := false }) else d1) = d2 at h2 ⊢
    split
    · exact h1.trans (h2.trans (Quiet.raiseRewound _))
    · exact h1.trans h2
  · exact Quiet.onMotion _ _

theorem Quiet.encoderCount (a b : Bool) (d : Dev) : Quiet w d (encoderCount a b d) := by
  unfold Machine.encoderCount
  dsimp only
  have h1 : Quiet w d (d.onMotion fun m => { m with encA := a, encB := b }) := Quiet.onMotion _ _
  split
  · exact h1
  · split
    · exact h1.trans (Quiet.forwardCount _)
    · split
      · exact h1.trans (Quiet.backwardCount _)
      · exact h1.trans (Quiet.onMotion _ _)

theorem Quiet.speedWindow (d : Dev) : Quiet w d (speedWindow d) := (Quiet.onMotion _ _).trans (Quiet.enterMotion _ _)

theorem Quiet.rebase (d : Dev) : Quiet w d (rebase d) := (Quiet.onFace fun hx => hx).trans (Quiet.onFace fun hx => hx)

end Sys2Proof.Machine
end

