-- ==== Sys2Proof/Laws/Whole.lean ====
section
/-! SUPPORT. What every command keeps: the bounds of the line side together with the bank laws, and what runCommand can do. -/

namespace Sys2Proof.Machine

open Sys2Proof

variable {w : Concern → Prop}

/-! ### One command at the head of the queue -/

/-- A ready command is executed and answered. -/
theorem runCommand_ready {row : Instr} {c : Command} {rest : List Command} {s : State} (h : Ready row c rest s)
    (act : Command → Dev → Dev × Answer) :
    runCommand row act s = .next { s with dev := answerWith c (act c (s.dev.takeCommand rest)) } := by
  obtain ⟨h1, h2, h3, h4⟩ := h
  unfold runCommand executeCommand
  rw [h1]
  simp [h2, h3, h4]

/-- R170: with no place in the reply queue the head command waits. -/
theorem runCommand_waits {row : Instr} {s : State} (act : Command → Dev → Dev × Answer) (h : s.dev.canReply = false) :
    runCommand row act s = .next s := by
  unfold runCommand
  split
  · rfl
  · simp [h]

/-- With an empty command queue nothing happens. -/
theorem runCommand_empty {row : Instr} {s : State} (act : Command → Dev → Dev × Answer) (h : s.dev.base.exec.queue = []) :
    runCommand row act s = .next s := by
  unfold runCommand; rw [h]

/-- R171: a command whose operand count is wrong is refused. -/
theorem runCommand_malformed {row : Instr} {c : Command} {rest : List Command} {s : State} (h1 : s.dev.base.exec.queue = c :: rest)
    (h2 : rowOf c = row) (h3 : c.malformed = true) (h4 : s.dev.canReply = true) (act : Command → Dev → Dev × Answer) :
    runCommand row act s = .next (answered s c (s.dev.takeCommand rest) .malformed []) := by
  unfold runCommand executeCommand
  rw [h1]
  simp [h2, h3, h4, answerWith, refuse, answered]

/-- A property of the part that taking a command, answering and the owning rule keep is kept by the row. -/
theorem runCommand_keeps {P : Dev → Prop} {row : Instr} {act : Command → Dev → Dev × Answer} {s t : State}
    (ht : ∀ d c rest, d.base.exec.queue = c :: rest → P d → P (d.takeCommand rest))
    (hr : ∀ d c tag r ws, P d → P (d.reply c tag r ws)) (ha : ∀ c d, P d → P (act c d).1) (h : P s.dev)
    (he : runCommand row act s = .next t) : P t.dev := by
  unfold runCommand at he
  split at he
  · cases he; exact h
  · rename_i c rest hq
    split at he
    · cases he
      have h1 := ht _ _ _ hq h
      have h2 : P (if c.malformed then refuse (s.dev.takeCommand rest) .malformed else act c (s.dev.takeCommand rest)).1 := by
        split
        · exact h1
        · exact ha _ _ h1
      show P (answerWith c (if c.malformed then refuse (s.dev.takeCommand rest) .malformed else act c (s.dev.takeCommand rest)))
      unfold answerWith
      split
      · exact hr _ _ _ _ _ h2
      · exact h2
    · cases he; exact h

/-- Taking a command leaves the waiting commands alone. -/
theorem runCommand_pending {row : Instr} {act : Command → Dev → Dev × Answer} {s t : State}
    (he : runCommand row act s = .next t) : t.pending = s.pending := by
  unfold runCommand at he
  split at he
  · cases he; rfl
  · split at he <;> cases he <;> rfl

/-- A row that runs a command always answers a next state. -/
theorem runCommand_next (row : Instr) (act : Command → Dev → Dev × Answer) (s : State) :
    ∃ t, runCommand row act s = .next t ∧ t.pending = s.pending := by
  unfold runCommand
  split
  · exact ⟨_, rfl, rfl⟩
  · split <;> exact ⟨_, rfl, rfl⟩

/-! ### The whole of it -/

/-- The laws of the banks that the lanes are loaded from. -/
def BanksOk (b : Banks) : Prop := BankLaw b ∧ ∀ i, PolicyLaw (b.bank i)

/-- The chosen bounds of the line side, with the bank laws where the lanes are among them. -/
def Whole (w : Concern → Prop) (d : Dev) : Prop := Lawful w d.insp ∧ (w .lanes → BanksOk d.base.banks)

theorem Whole.quiet {d d' : Dev} (h : Whole w d) (q : Quiet w d d') : Whole w d' := ⟨q.1 h.1, by rw [q.2.2.1]; exact h.2⟩

theorem Whole.of_insp {d : Dev} {i : Insp} (h : Whole w d) (hi : Lawful w d.insp → Lawful w i) : Whole w { d with insp := i } :=
  ⟨hi h.1, h.2⟩

theorem Whole.onFace {d : Dev} {f : FaceId} {g : Face → Face} (h : Whole w d)
    (hg : FaceLawful w (d.face f) → FaceLawful w (g (d.face f))) : Whole w (d.onFace f g) := h.of_insp fun hl => hl.onFace hg

theorem Whole.reply {d : Dev} (h : Whole w d) (c t : Nat) (r : ReplyCode) (ws : List Word) : Whole w (d.reply c t r ws) :=
  h.of_insp fun hl => hl.offer _ _

theorem Whole.takeCommand {d : Dev} (h : Whole w d) (l : List Command) : Whole w (d.takeCommand l) := h

theorem Whole.setPort {d : Dev} (h : Whole w d) (p : Nat) (x : Port) : Whole w (d.setPort p x) := h

theorem Whole.onBanks {d : Dev} (h : Whole w d) {g : Banks → Banks} (hb : BanksOk d.base.banks → BanksOk (g d.base.banks)) :
    Whole w (d.onBanks g) := ⟨h.1, fun hw => hb (h.2 hw)⟩

theorem Whole.bothFaces {d : Dev} {act : FaceId → Dev → Dev} (hact : ∀ f d, Whole w d → Whole w (act f d)) (h : Whole w d) :
    Whole w (d.bothFaces act) := by
  have h0 : Whole w { d with base := { d.base with free := d.base.free + 1 } } := h
  unfold Dev.bothFaces
  dsimp only
  split
  · exact hact _ _ (hact _ _ h0)
  · exact hact _ _ (hact _ _ h0)

/-- A row that runs a command keeps the laws when its owning rule does. -/
theorem Whole.runCommand {row : Instr} {act : Command → Dev → Dev × Answer} {s t : State}
    (ha : ∀ c d, Whole w d → Whole w (act c d).1) (h : Whole w s.dev) (he : runCommand row act s = .next t) : Whole w t.dev :=
  runCommand_keeps (fun _ _ _ _ h => h.takeCommand _) (fun _ _ _ _ _ h => h.reply _ _ _ _) ha h he

/-! ### Bank states -/

theorem activeOn_passed {s : BankState} {f : FaceId} (h : s.activeOn f = true) : s.passed = true := by
  cases s <;> first | rfl | simp [BankState.activeOn] at h

/-- R129's law for the policy of the bank active on a face. -/
theorem policyOk_of {b : Base} (h : ∀ i, PolicyLaw (b.banks.bank i)) (f : FaceId) : PolicyOk w b f := by
  intro _
  unfold Banks.contents Banks.activeOn
  split
  · rename_i i hi
    split at hi
    · rename_i h0; cases hi; exact h .bank0 (activeOn_passed h0)
    · split at hi
      · rename_i h1; cases hi; exact h .bank1 (activeOn_passed h1)
      · cases hi
  · decide

theorem PolicyLaw.of_state {b : Bank} {st : BankState} (h : PolicyLaw b) (hp : b.state.passed = true) :
    PolicyLaw { b with state := st } := fun _ => h hp

theorem PolicyLaw.of_open {b : Bank} (h : b.state.passed = false) : PolicyLaw b := fun hp => by rw [h] at hp; cases hp

/-- A bank set to a state of rest, at rest before, keeps R144. -/
theorem BankLaw.setBank {b : Banks} {i : BankId} {x : Bank} (h : BankLaw b) (hx : x.state.atRest = true)
    (ho : (b.bank i).state.atRest = true) : BankLaw (b.setBank i x) := by
  unfold BankLaw at h ⊢
  rw [setBank_running]
  split
  · rename_i hr
    rw [if_pos hr] at h
    obtain ⟨j, hj⟩ := h
    have hji : j ≠ i := by
      rintro rfl
      rcases hj with ⟨h1, _⟩ | ⟨h1, _⟩ <;> rw [h1] at ho <;> cases ho
    have hij : i = j.other := by cases i <;> cases j <;> first | rfl | exact absurd rfl hji
    refine ⟨j, ?_⟩
    rw [setBank_ite, setBank_ite, if_neg hji, if_pos hij.symm]
    rcases hj with ⟨h1, _⟩ | ⟨_, h2⟩
    · exact Or.inl ⟨h1, Or.inl hx⟩
    · rw [← hij] at h2; rw [h2] at ho; cases ho
  · rename_i hr
    rw [if_neg hr] at h
    intro j
    rw [setBank_ite]
    split
    · exact hx
    · exact h j

/-- R144 does not look at the switch position or the check tag. -/
theorem BankLaw.congr {b b' : Banks} (h : BankLaw b) (h0 : b'.bank0.state = b.bank0.state) (h1 : b'.bank1.state = b.bank1.state)
    (hr : b'.running = b.running) : BankLaw b' := by
  have hs : ∀ i, (b'.bank i).state = (b.bank i).state := fun i => by cases i <;> assumption
  unfold BankLaw at h ⊢
  simp only [hr, hs]
  exact h

theorem BanksOk.setBank {b : Banks} {i : BankId} {x : Bank} (h : BanksOk b) (hx : x.state.atRest = true)
    (ho : (b.bank i).state.atRest = true) (hp : PolicyLaw x) : BanksOk (b.setBank i x) :=
  ⟨h.1.setBank hx ho, fun j => by rw [setBank_ite]; split; exact hp; exact h.2 j⟩

/-- A field other than the banks' states and contents. -/
theorem BanksOk.congr {b b' : Banks} (h : BanksOk b) (h0 : b'.bank0 = b.bank0) (h1 : b'.bank1 = b.bank1)
    (hr : b'.running = b.running) : BanksOk b' :=
  ⟨h.1.congr (by rw [h0]) (by rw [h1]) hr, fun i => by
    cases i with
    | bank0 => show PolicyLaw b'.bank0; rw [h0]; exact h.2 .bank0
    | bank1 => show PolicyLaw b'.bank1; rw [h1]; exact h.2 .bank1⟩

theorem banksOk_powerOn : BanksOk Banks.powerOn := by
  refine ⟨?_, fun i => ?_⟩
  · unfold BankLaw
    rw [if_neg (by decide)]
    intro i; cases i <;> rfl
  · cases i <;> exact PolicyLaw.of_open rfl

/-! ### The Pixel Chain and the switch -/

theorem scheduled_state {b : Banks} {i : BankId} (h : b.scheduled = some i) : (b.bank i).state = .scheduled := by
  unfold Banks.scheduled at h
  split at h
  · rename_i h0; cases h; exact h0
  · split at h
    · rename_i h1; cases h; exact h1
    · cases h

theorem midChange_state {b : Banks} {i : BankId} (h : b.midChange = some i) : (b.bank i).state = .active .lead := by
  unfold Banks.midChange at h
  split at h
  · rename_i h0; cases h; exact h0
  · split at h
    · rename_i h1; cases h; exact h1
    · cases h

/-- The bank a face switches to stands SCHEDULED, or for TRAIL ACTIVE {LEAD}. -/
theorem switchTarget_state {b : Base} {f : FaceId} {y : Int} {i : BankId} (h : switchTarget b f y = some i) :
    (f = .lead ∧ (b.banks.bank i).state = .scheduled) ∨ (f = .trail ∧ (b.banks.bank i).state = .active .lead) := by
  unfold switchTarget at h
  split at h
  · cases h
  · split at h
    · cases f with
      | lead => exact Or.inl ⟨rfl, scheduled_state h⟩
      | trail => exact Or.inr ⟨rfl, midChange_state h⟩
    · cases h

theorem switched_bank (b : Banks) (f : FaceId) (i j : BankId) :
    ((b.switched f i).bank j).contents = (b.bank j).contents := by
  cases f <;> cases i <;> cases j <;> rfl

theorem switched_running (b : Banks) (f : FaceId) (i : BankId) : (b.switched f i).running = b.running := by
  cases f <;> cases i <;> rfl

theorem switched_new (b : Banks) (f : FaceId) (i : BankId) :
    ((b.switched f i).bank i).state = if f = .lead then .active .lead else .active .both := by
  cases f <;> cases i <;> rfl

theorem switched_old (b : Banks) (f : FaceId) (i : BankId) :
    ((b.switched f i).bank i.other).state = if f = .lead then .active .trail else .checked := by
  cases f <;> cases i <;> rfl

/-- R144: a SCHEDULED bank stands beside one ACTIVE {both}; an ACTIVE {LEAD} one beside one ACTIVE {TRAIL}. -/
theorem BankLaw.beside {b : Banks} (h : BankLaw b) {i : BankId}
    (hi : (b.bank i).state = .scheduled ∨ (b.bank i).state = .active .lead) :
    b.running = true ∧ (((b.bank i).state = .scheduled ∧ (b.bank i.other).state = .active .both) ∨
      ((b.bank i).state = .active .lead ∧ (b.bank i.other).state = .active .trail)) := by
  unfold BankLaw at h
  split at h
  · rename_i hr
    refine ⟨hr, ?_⟩
    obtain ⟨j, hj⟩ := h
    by_cases hij : i = j
    · subst hij
      rcases hj with ⟨h1, _⟩ | h2
      · rcases hi with hi | hi <;> rw [hi] at h1 <;> cases h1
      · exact Or.inr h2
    · have hio : i = j.other := by cases i <;> cases j <;> first | rfl | exact absurd rfl hij
      subst hio
      rw [other_other]
      rcases hj with ⟨h1, h2⟩ | ⟨_, h2⟩
      · rcases hi with hi | hi
        · exact Or.inl ⟨hi, h1⟩
        · rw [hi] at h2; rcases h2 with h2 | h2 <;> cases h2
      · rcases hi with hi | hi <;> rw [hi] at h2 <;> cases h2
  · have := h i
    rcases hi with hi | hi <;> rw [hi] at this <;> cases this

theorem BanksOk.switched {b : Banks} (h : BanksOk b) {f : FaceId} {i : BankId}
    (hi : (f = .lead ∧ (b.bank i).state = .scheduled) ∨ (f = .trail ∧ (b.bank i).state = .active .lead)) :
    BanksOk (b.switched f i) := by
  have hb := h.1.beside (i := i) (by rcases hi with ⟨_, h1⟩ | ⟨_, h1⟩; exact Or.inl h1; exact Or.inr h1)
  have hpass : ∀ j, (b.bank j).state.passed = true := by
    intro j
    have h1 : (b.bank i).state.passed = true := by
      rcases hb.2 with ⟨h1, _⟩ | ⟨h1, _⟩ <;> rw [h1] <;> rfl
    have h2 : (b.bank i.other).state.passed = true := by
      rcases hb.2 with ⟨_, h2⟩ | ⟨_, h2⟩ <;> rw [h2] <;> rfl
    cases i <;> cases j <;> first | exact h1 | exact h2
  refine ⟨?_, fun j _ => by rw [switched_bank]; exact h.2 j (hpass j)⟩
  unfold BankLaw
  rw [switched_running, if_pos hb.1]
  refine ⟨i, ?_⟩
  rw [switched_new, switched_old]
  cases f with
  | lead => exact Or.inr ⟨rfl, rfl⟩
  | trail => exact Or.inl ⟨rfl, Or.inl rfl⟩

theorem Whole.pixelLine (f : FaceId) (ln : HandedLine) {d : Dev} (h : Whole w d) : Whole w (pixelLine f ln d) := by
  unfold Machine.pixelLine
  dsimp only
  split
  · rename_i i hi
    have hs := switchTarget_state hi
    have hb : w .lanes → BanksOk (d.base.banks.switched f i) := fun hw => (h.2 hw).switched hs
    refine ⟨Lawful.processLine _ f ln (Lawful.switchFace f _ i (fun hw => ?_) h.1), hb⟩
    exact policyOk_of (w := w) (b := { d.base with banks := d.base.banks.switched f i }) (hb hw).2 f hw
  · exact h.of_insp fun hl => hl.processLine _ f ln

theorem Whole.takePixelLine (f : FaceId) {d : Dev} (h : Whole w d) : Whole w (takePixelLine f d) := by
  unfold Machine.takePixelLine
  split
  · exact h
  · exact Whole.pixelLine f _ (h.onFace fun hx => hx)

theorem Whole.drainPixelLines (f : FaceId) {d : Dev} (h : Whole w d) : Whole w (drainPixelLines f d) :=
  foldl_keeps (p := Whole w) (fun _ ln hs => hs.pixelLine f ln) _ (h.onFace fun hx => hx)

end Sys2Proof.Machine
end

