-- ==== Sys2Proof/Laws/Commands.lean ====
section
/-! SUPPORT. What a command answers and what its operands read as: with the runCommand lemmas of Laws/Whole, those by which a
statement about one management row is brought to its owning rule. -/

namespace Sys2Proof.Machine

open Sys2Proof

/-- R170: with another row's command at the head, the row's step does not occur. -/
theorem runCommand_otherHead {row : Instr} {act : Command → Dev → Dev × Answer} {c : Command} {rest : List Command} {s : State}
    (hq : s.dev.base.exec.queue = c :: rest) (h : rowOf c ≠ row) : runCommand row act s = .next s := by
  simp only [runCommand, hq, if_neg fun x : rowOf c = row ∧ _ => h x.1]

/-! ### Answers -/

@[simp] theorem answer_refuse (s : State) (c : Command) (d : Dev) (r : ReplyCode) :
    ({ s with dev := answerWith c (refuse d r) } : State) = answered s c d r [] := rfl
@[simp] theorem answer_taken (s : State) (c : Command) (d : Dev) (body : List Word) :
    ({ s with dev := answerWith c (taken d body) } : State) = answered s c d .done body := rfl
theorem answer_takenClamped (s : State) (c : Command) (d : Dev) (b : Bool) :
    ({ s with dev := answerWith c (takenClamped d b) } : State) = answered s c d (if b then .clamped else .done) [] := rfl

/-! ### The part once a command has left the queue -/

@[simp] theorem takeCommand_port (d : Dev) (rest : List Command) (p : Nat) :
    (d.takeCommand rest).base.port p = d.base.port p := rfl

/-! ### Operands -/

theorem bankOf_code (i : BankId) : bankOf (bankCode i) = some i := by cases i <;> rfl
theorem bankOf_above {n : Nat} (h : 1 < n) : bankOf n = none := by
  match n, h with
  | _ + 2, _ => rfl
theorem faceOf_code (f : FaceId) : faceOf (faceCode f) = some f := by cases f <;> rfl
theorem faceOf_above {n : Nat} (h : 1 < n) : faceOf n = none := by
  match n, h with
  | _ + 2, _ => rfl
theorem facesOf_above {n : Nat} (h : 2 < n) : facesOf n = none := by
  match n, h with
  | _ + 3, _ => rfl
theorem yesNo_above {n : Nat} (h : 1 < n) : yesNo n = none := by
  match n, h with
  | _ + 2, _ => rfl
theorem yesNo_within {n : Nat} (h : n ≤ 1) : yesNo n = some (decide (n = 1)) := by
  interval_cases n <;> rfl

/-- A command whose operand count is right has as many operand words as its frame says, and as its row requires. -/
theorem Command.length_of_required {c : Command} {n : Nat} (h : c.malformed = false) (hr : c.required = some n) :
    c.ops.length = n ∧ c.count = n := by
  simp [Command.malformed, hr] at h
  omega

end Sys2Proof.Machine
end

