-- ==== Sys2Proof/Laws/Frames.lean ====
section
/-! SUPPORT. Which parts of the state each operation of the blocks can change: one lemma per operation. -/

set_option Elab.async false

namespace Sys2Proof.Machine

open Sys2Proof

/-- `Touches` for a change of the line side alone. -/
def Within (parts : List Part) (i i' : Insp) : Prop := ∀ b : Base, Touches parts ⟨b, i⟩ ⟨b, i'⟩

theorem Touches.refl (l : List Part) (d : Dev) : Touches l d d := fun p _ => by cases p <;> rfl

theorem Part.same_trans {a b c : Dev} {p : Part} (h : p.same a b) (h' : p.same b c) : p.same a c := by
  cases p <;> exact Eq.trans h' h

theorem Touches.trans {l : List Part} {a b c : Dev} (h : Touches l a b) (h' : Touches l b c) : Touches l a c :=
  fun p hp => Part.same_trans (h p hp) (h' p hp)

theorem Touches.mono {l l' : List Part} {a b : Dev} (h : Touches l a b) (hl : l ⊆ l') : Touches l' a b :=
  fun p hp => h p fun hm => hp (hl hm)

theorem Touches.foldl {β : Type} {l : List Part} {g : Dev → β → Dev} (hg : ∀ d x, Touches l d (g d x)) (xs : List β) (d : Dev) :
    Touches l d (xs.foldl g d) := by
  induction xs generalizing d with
  | nil => exact Touches.refl l d
  | cons x xs ih => exact (hg d x).trans (ih _)

theorem Within.refl (l : List Part) (i : Insp) : Within l i i := fun _ => Touches.refl _ _

theorem Within.trans {l : List Part} {i j k : Insp} (h : Within l i j) (h' : Within l j k) : Within l i k :=
  fun b => (h b).trans (h' b)

theorem Within.mono {l l' : List Part} {i j : Insp} (h : Within l i j) (hl : l ⊆ l') : Within l' i j := fun b => (h b).mono hl

theorem Within.foldl {β : Type} {l : List Part} {g : Insp → β → Insp} (hg : ∀ i x, Within l i (g i x)) (xs : List β) (i : Insp) :
    Within l i (xs.foldl g i) := by
  induction xs generalizing i with
  | nil => exact Within.refl l i
  | cons x xs ih => exact (hg i x).trans (ih _)

theorem Within.touches {l : List Part} {d : Dev} {i : Insp} (h : Within l d.insp i) : Touches l d { d with insp := i } := h d.base

/-- The parts a blob's close can change. -/
def blobParts (f : FaceId) : List Part := [.blob f, .tier f, .corr, .out]

/-- The parts a streak line can change. -/
def streakParts (f : FaceId) : List Part := [.streak f, .tier f, .out]

/-- The parts of the line side that one line at the Pixel Chain can change, short of a switch. -/
def lineParts (f : FaceId) : List Part :=
  [.pixel f, .pattern f, .blob f, .streak f, .tier f, .preview f, .marks, .out]

/-- An operation that changes some of the listed parts, after changes of listed parts. -/
theorem Within.after {l l' : List Part} {i j k : Insp} (h : Within l' j k) (h' : Within l i j)
    (hl : l' ⊆ l := by simp [blobParts, streakParts, lineParts]) : Within l i k := h'.trans (h.mono hl)

theorem Within.ite {l : List Part} {i j k : Insp} {c : Prop} [Decidable c] (h : Within l i j) (h' : Within l i k) :
    Within l i (if c then j else k) := by
  split
  · exact h
  · exact h'

/-! ### The leaves -/

theorem Within.withOut (i : Insp) (o : Out) : Within [.out] i { i with out := o } := fun b p hp => by
  cases p with
  | out => exact absurd (List.mem_singleton.mpr rfl) hp
  | motion | sens | banks | exec | free | marks | corr => rfl
  | grid f | asm f | pixel f | pattern f | blob f | streak f | tier f | preview f => cases f <;> rfl

theorem Within.withCorr (i : Insp) (c : Corr) : Within [.corr] i { i with corr := c } := fun b p hp => by
  cases p with
  | corr => exact absurd (List.mem_singleton.mpr rfl) hp
  | motion | sens | banks | exec | free | marks | out => rfl
  | grid f | asm f | pixel f | pattern f | blob f | streak f | tier f | preview f => cases f <;> rfl

theorem Within.withMarks (i : Insp) (m : Marks) : Within [.marks] i { i with marks := m } := fun b p hp => by
  cases p with
  | marks => exact absurd (List.mem_singleton.mpr rfl) hp
  | motion | sens | banks | exec | free | corr | out => rfl
  | grid f | asm f | pixel f | pattern f | blob f | streak f | tier f | preview f => cases f <;> rfl

theorem Within.offer (i : Insp) (q : QueueId) (r : Report) : Within [.out] i (i.offer q r) := Within.withOut _ _

theorem Within.route (i : Insp) (t : Route) (r : Report) : Within [.out] i (i.route t r) := Within.withOut _ _

theorem Within.offerStatus (i : Insp) (f : Option FaceId) (st : Status) : Within [.out] i (i.offerStatus f st) := Within.withOut _ _

/-- A change of one part of a face. -/
theorem Within.onFace {i : Insp} {f : FaceId} {g : Face → Face} {l : List Part}
    (h : ∀ p ∈ Part.ofFace f, p ∉ l → ∀ b, p.same ⟨b, i⟩ ⟨b, i.onFace f g⟩) : Within l i (i.onFace f g) := fun b p hp => by
  by_cases hf : p ∈ Part.ofFace f
  · exact h p hf hp b
  · cases p with
    | motion | sens | banks | exec | free => rfl
    | marks | corr | out => cases f <;> rfl
    | grid f' | asm f' | pixel f' | pattern f' | blob f' | streak f' | tier f' | preview f' =>
      cases f <;> cases f' <;> first | rfl | exact absurd (by decide) hf

theorem Within.grid (i : Insp) (f : FaceId) (g : Face → Grid) :
    Within [.grid f] i (i.onFace f fun x => { x with grid := g x }) :=
  Within.onFace fun p hp hl b => by
    cases f <;> cases p <;> first | rfl | exact absurd hp (by decide) | (rename_i f'; cases f' <;> first | rfl | exact absurd hp (by decide) | exact absurd (by decide) hl)

theorem Within.asm (i : Insp) (f : FaceId) (g : Face → Assembler) :
    Within [.asm f] i (i.onFace f fun x => { x with asm := g x }) :=
  Within.onFace fun p hp hl b => by
    cases f <;> cases p <;> first | rfl | exact absurd hp (by decide) | (rename_i f'; cases f' <;> first | rfl | exact absurd hp (by decide) | exact absurd (by decide) hl)

theorem Within.pixel (i : Insp) (f : FaceId) (g : Face → Pixel) :
    Within [.pixel f] i (i.onFace f fun x => { x with pixel := g x }) :=
  Within.onFace fun p hp hl b => by
    cases f <;> cases p <;> first | rfl | exact absurd hp (by decide) | (rename_i f'; cases f' <;> first | rfl | exact absurd hp (by decide) | exact absurd (by decide) hl)

theorem Within.pattern (i : Insp) (f : FaceId) (g : Face → Pattern) :
    Within [.pattern f] i (i.onFace f fun x => { x with pattern := g x }) :=
  Within.onFace fun p hp hl b => by
    cases f <;> cases p <;> first | rfl | exact absurd hp (by decide) | (rename_i f'; cases f' <;> first | rfl | exact absurd hp (by decide) | exact absurd (by decide) hl)

theorem Within.blob (i : Insp) (f : FaceId) (g : Face → Blobs) :
    Within [.blob f] i (i.onFace f fun x => { x with blob := g x }) :=
  Within.onFace fun p hp hl b => by
    cases f <;> cases p <;> first | rfl | exact absurd hp (by decide) | (rename_i f'; cases f' <;> first | rfl | exact absurd hp (by decide) | exact absurd (by decide) hl)

theorem Within.streak (i : Insp) (f : FaceId) (g : Face → Streaks) :
    Within [.streak f] i (i.onFace f fun x => { x with streak := g x }) :=
  Within.onFace fun p hp hl b => by
    cases f <;> cases p <;> first | rfl | exact absurd hp (by decide) | (rename_i f'; cases f' <;> first | rfl | exact absurd hp (by decide) | exact absurd (by decide) hl)

theorem Within.tier (i : Insp) (f : FaceId) (g : Face → Tier) :
    Within [.tier f] i (i.onFace f fun x => { x with tier := g x }) :=
  Within.onFace fun p hp hl b => by
    cases f <;> cases p <;> first | rfl | exact absurd hp (by decide) | (rename_i f'; cases f' <;> first | rfl | exact absurd hp (by decide) | exact absurd (by decide) hl)

theorem Within.preview (i : Insp) (f : FaceId) (g : Face → Preview) :
    Within [.preview f] i (i.onFace f fun x => { x with preview := g x }) :=
  Within.onFace fun p hp hl b => by
    cases f <;> cases p <;> first | rfl | exact absurd hp (by decide) | (rename_i f'; cases f' <;> first | rfl | exact absurd hp (by decide) | exact absurd (by decide) hl)

/-! ### Tiers -/

variable {b : Base} {f : FaceId}

theorem Within.offerLanes (c : LaneCause) (l : Option (Word × Int)) (o n : Tier) (lanes : List Nat) (i : Insp) :
    Within [.out] i (Machine.offerLanes b f c l o n lanes i) := by
  unfold Machine.offerLanes
  refine Within.foldl (fun i j => ?_) _ _
  split
  · exact Within.refl _ _
  · exact Within.route _ _ _

theorem Within.offerAlert (na : Nat) (l : Option (Word × Int)) (o n : Tier) (i : Insp) :
    Within [.out] i (Machine.offerAlert na f l o n i) := by
  unfold Machine.offerAlert
  split
  · exact Within.refl _ _
  · exact Within.offerStatus _ _ _

theorem Within.commitTiers (direct : List Nat) (c : LaneCause) (l : Option (Word × Int)) (t : Tier) (i : Insp) :
    Within [.tier f, .out] i (Machine.commitTiers b f direct c l t i) := by
  unfold Machine.commitTiers
  exact Within.after (Within.offerLanes _ _ _ _ _ _) <| Within.after (Within.offerAlert _ _ _ _ _) <|
    Within.after (Within.offerLanes _ _ _ _ _ _) <| Within.after (Within.tier _ f _) <| Within.refl _ _

theorem Within.applyEvent (e : CountedEvent) (i : Insp) : Within [.tier f, .out] i (Machine.applyEvent b f e i) := by
  unfold Machine.applyEvent
  dsimp only
  split
  · exact Within.after (Within.commitTiers _ _ _ _ _) <| Within.after (Within.tier _ f _) <| Within.refl _ _
  · exact Within.after (Within.tier _ f _) <| Within.refl _ _

theorem Within.sendEvent (src : EventSource) (e : CountedEvent) (i : Insp) : Within [.tier f] i (Machine.sendEvent f src e i) :=
  Within.tier i f _

theorem Within.takeEvent (src : EventSource) (i : Insp) : Within [.tier f, .out] i (Machine.takeEvent b f src i) := by
  unfold Machine.takeEvent
  split
  · exact Within.refl _ _
  · exact Within.after (Within.applyEvent _ _) <| Within.after (Within.tier _ f _) <| Within.refl _ _

theorem Within.drainEvents (src : EventSource) (i : Insp) : Within [.tier f, .out] i (Machine.drainEvents b f src i) := by
  unfold Machine.drainEvents
  exact Within.after (Within.foldl (fun i e => Within.applyEvent e i) _ _) <| Within.after (Within.tier _ f _) <| Within.refl _ _

theorem Within.relaxLane (n : Word) (y : Int) (i : Insp) (j : Nat) : Within [.tier f, .out] i (Machine.relaxLane b f n y i j) := by
  unfold Machine.relaxLane
  dsimp only
  split
  · exact Within.commitTiers _ _ _ _ _
  · exact Within.refl _ _

theorem Within.boundaryStep (n : Word) (y : Int) (i : Insp) : Within [.tier f, .out] i (Machine.boundaryStep b f n y i) := by
  unfold Machine.boundaryStep
  exact Within.after (Within.tier _ f _) <| Within.after (Within.foldl (fun i j => Within.relaxLane n y i j) _ _) <|
    Within.after (Within.tier _ f _) <| Within.refl _ _

theorem Within.boundarySteps (n : Word) (y : Int) (k : Nat) (i : Insp) :
    Within [.tier f, .out] i (Machine.boundarySteps b f n y k i) := by
  induction k generalizing i with
  | zero => exact Within.refl _ _
  | succ k ih =>
    unfold Machine.boundarySteps
    split
    · split
      · exact (Within.boundaryStep n y i).trans (ih _)
      · exact Within.refl _ _
    · exact Within.refl _ _

theorem Within.tierLineStart (h : LineHead) (i : Insp) : Within [.tier f, .out] i (Machine.tierLineStart b f h i) := by
  unfold Machine.tierLineStart
  exact Within.after (Within.tier _ f _) <| Within.boundarySteps _ _ _ i

theorem Within.loadTiersAtStart (i : Insp) : Within [.tier f, .out] i (Machine.loadTiersAtStart b f i) := by
  unfold Machine.loadTiersAtStart
  exact Within.after (Within.offerAlert _ _ _ _ _) <| Within.after (Within.tier _ f _) <| Within.refl _ _

theorem Within.loadTiersAtSwitch (h : LineHead) (i : Insp) : Within [.tier f, .out] i (Machine.loadTiersAtSwitch b f h i) := by
  unfold Machine.loadTiersAtSwitch
  exact Within.after (Within.offerAlert _ _ _ _ _) <| Within.after (Within.offerLanes _ _ _ _ _ _) <|
    Within.after (Within.tier _ f _) <| Within.refl _ _

theorem Within.limitLanes (lanes : List Nat) (lo hi : Nat) (i : Insp) :
    Within [.tier f, .out] i (Machine.limitLanes b f lanes lo hi i) := Within.commitTiers _ _ _ _ _

/-! ### The coating pattern -/

theorem Within.offerPattern (o n : PatternState) (c : PatternCause) (h : LineHead) (e : Option Int) (i : Insp) :
    Within [.out] i (Machine.offerPattern f o n c h e i) := Within.offerStatus _ _ _

theorem Within.reachEdge (h : LineHead) (e : Int) (i : Insp) :
    Within [.pattern f, .marks, .out] i (Machine.reachEdge b f h e i) := by
  unfold Machine.reachEdge
  dsimp only
  have h0 : Within [.pattern f, .marks, .out] i { i with marks := i.marks.consume f } :=
    Within.after (Within.withMarks _ _) <| Within.refl _ _
  split
  · exact h0
  · exact h0
  · exact Within.after (Within.pattern _ f _) h0
  · split <;> exact Within.after (Within.pattern _ f _) h0
  · split <;> exact Within.after (Within.pattern _ f _) h0
  · exact Within.after (Within.offerPattern _ _ _ _ _ _) <| Within.after (Within.pattern _ f _) h0

theorem Within.reachLimit (h : LineHead) (i : Insp) : Within [.pattern f, .marks, .out] i (Machine.reachLimit b f h i) := by
  unfold Machine.reachLimit
  dsimp only
  split
  · exact Within.after (Within.offerPattern _ _ _ _ _ _) <| Within.after (Within.pattern _ f _) <| Within.refl _ _
  · split
    · exact Within.after (Within.pattern _ f _) <| Within.refl _ _
    · exact Within.after (Within.offerPattern _ _ _ _ _ _) <| Within.after (Within.pattern _ f _) <| Within.refl _ _
  · split
    · exact Within.after (Within.pattern _ f _) <| Within.refl _ _
    · exact Within.after (Within.offerPattern _ _ _ _ _ _) <| Within.after (Within.pattern _ f _) <| Within.refl _ _
  all_goals exact Within.refl _ _

theorem Within.patternSteps (h : LineHead) (n : Nat) (i : Insp) :
    Within [.pattern f, .marks, .out] i (Machine.patternSteps b f h n i) := by
  induction n generalizing i with
  | zero => exact Within.refl _ _
  | succ n ih =>
    unfold Machine.patternSteps
    dsimp only
    split
    · split
      · split
        · exact (Within.reachEdge _ _ _).trans (ih _)
        · exact Within.refl _ _
      · split
        · exact (Within.reachLimit _ _).trans (ih _)
        · exact Within.refl _ _
    · split
      · exact (Within.reachEdge _ _ _).trans (ih _)
      · exact Within.refl _ _
    · split
      · exact (Within.reachLimit _ _).trans (ih _)
      · exact Within.refl _ _
    · exact Within.refl _ _

theorem Within.patternStep (h : LineHead) (i : Insp) : Within [.pattern f, .marks, .out] i (Machine.patternStep b f h i) :=
  Within.patternSteps _ _ _

theorem Within.switchPattern (h : LineHead) (i : Insp) : Within [.pattern f, .out] i (Machine.switchPattern b f h i) := by
  unfold Machine.switchPattern
  dsimp only
  split
  · exact Within.after (Within.offerPattern _ _ _ _ _ _) <| Within.after (Within.pattern _ f _) <| Within.refl _ _
  · exact Within.after (Within.pattern _ f _) <| Within.refl _ _

/-! ### The Face Correlator -/

theorem Within.reportLeadOnly (r : LeadOnlyReason) (c : Candidate) (i : Insp) : Within [.out] i (Machine.reportLeadOnly r c i) :=
  Within.route _ _ _

theorem Within.takeLead (c : Candidate) (i : Insp) : Within [.corr, .out] i (Machine.takeLead c i) := by
  unfold Machine.takeLead
  refine Within.after (Within.withCorr _ _) ?_
  split
  · split
    · exact Within.after (Within.reportLeadOnly _ _ _) <| Within.after (Within.withCorr _ _) <| Within.refl _ _
    · exact Within.refl _ _
  · exact Within.refl _ _

theorem Within.takeTrail (c : Candidate) (i : Insp) : Within [.corr, .out] i (Machine.takeTrail b c i) := by
  unfold Machine.takeTrail
  split <;> exact Within.after (Within.route _ _ _) <| Within.after (Within.withCorr _ _) <| Within.refl _ _

theorem Within.expire (p m : Int) (i : Insp) : Within [.corr, .out] i (Machine.expire p m i) := by
  unfold Machine.expire
  exact Within.after (Within.foldl (fun i c => Within.reportLeadOnly .expired c i) _ _) <|
    Within.after (Within.withCorr _ _) <| Within.refl _ _

theorem Within.settleTrail (l : List TrailWork) (i : Insp) : Within [.corr, .out] i (Machine.settleTrail l i) := by
  induction l generalizing i with
  | nil => exact Within.after (Within.withCorr i _) <| Within.refl _ _
  | cons w rest ih =>
    cases w with
    | candidate c => exact Within.after (Within.withCorr i _) <| Within.refl _ _
    | expiry p m => exact (Within.expire p m i).trans (ih _)

theorem Within.takeNextTrail (i : Insp) : Within [.corr, .out] i (Machine.takeNextTrail b i) := by
  unfold Machine.takeNextTrail
  split
  · exact (Within.takeTrail _ _).trans (Within.settleTrail _ _)
  · exact Within.settleTrail _ _
  · exact Within.refl _ _

theorem Within.takeNextLead (i : Insp) : Within [.corr, .out] i (Machine.takeNextLead i) := by
  unfold Machine.takeNextLead
  split
  · exact Within.after (Within.takeLead _ _) <| Within.after (Within.withCorr i _) <| Within.refl _ _
  · exact Within.refl _ _

theorem Within.drainTrail (i : Insp) : Within [.corr, .out] i (Machine.drainTrail b i) := by
  unfold Machine.drainTrail
  refine Within.after (Within.foldl (l := [.corr, .out]) (fun i w => ?_) _ _) <| Within.after (Within.withCorr i _) <| Within.refl _ _
  cases w with
  | candidate c => exact Within.takeTrail _ _
  | expiry p m => exact Within.expire _ _ _

theorem Within.drainLead (i : Insp) : Within [.corr, .out] i (Machine.drainLead i) := by
  unfold Machine.drainLead
  exact Within.after (Within.foldl (fun i c => Within.takeLead c i) _ _) <| Within.after (Within.withCorr i _) <| Within.refl _ _

theorem Within.flushPending (i : Insp) : Within [.corr, .out] i (Machine.flushPending i) := by
  unfold Machine.flushPending
  exact Within.after (Within.foldl (fun i c => Within.reportLeadOnly .stop c i) _ _) <|
    Within.after (Within.withCorr i _) <| Within.refl _ _

/-! ### Blobs -/

theorem Within.offerBlobSaturation (on : Bool) (l : Option Word) (i : Insp) :
    Within [.out] i (Machine.offerBlobSaturation f on l i) := Within.offerStatus _ _ _

theorem Within.linkRun (h : LineHead) (i : Insp) (u : Run) : Within [.blob f, .out] i (Machine.linkRun f h i u) := by
  unfold Machine.linkRun Machine.discardRun
  dsimp only
  split
  · split
    · exact Within.after (Within.blob i f _) <| Within.refl _ _
    · split
      · exact Within.after (Within.blob i f _) <| Within.refl _ _
      · exact Within.after (Within.offerBlobSaturation _ _ _) <| Within.after (Within.blob i f _) <| Within.refl _ _
  · exact Within.after (Within.blob i f _) <| Within.refl _ _

theorem Within.excerptAtClose (x : Blob) (o : ClassOutcome) (r : Defect) (i : Insp) :
    Within [.blob f, .out] i (Machine.excerptAtClose f x o r i).2 := by
  unfold Machine.excerptAtClose Machine.capture
  dsimp only
  split
  · split
    · exact Within.refl _ _
    · split
      · split
        · exact Within.after (Within.withOut i _) <| Within.refl _ _
        · exact Within.after (Within.blob i f _) <| Within.refl _ _
      · exact Within.refl _ _
  · exact Within.refl _ _

theorem Within.dispose (o : ClassOutcome) (r : Defect) (i : Insp) : Within [.corr, .out] i (Machine.dispose b f o r i) := by
  unfold Machine.dispose
  split
  · cases f <;> exact Within.after (Within.withCorr i _) <| Within.refl _ _
  · exact Within.after (Within.route _ _ _) <| Within.refl _ _

theorem Within.sendBlob (r : TruncReason) (l : Option (Word × Int)) (i : Insp) (e : Nat × Blob) :
    Within (blobParts f) i (Machine.sendBlob b f r l i e) := by
  unfold Machine.sendBlob
  refine Within.after (Within.dispose _ _ _) <| Within.after (Within.excerptAtClose _ _ _ _) ?_
  split
  · exact Within.after (Within.sendEvent _ _ _) <| Within.after (Within.blob i f _) <| Within.refl _ _
  · exact Within.after (Within.blob i f _) <| Within.refl _ _

theorem Within.testSaturation (l : Option Word) (i : Insp) : Within [.blob f, .out] i (Machine.testSaturation f l i) := by
  unfold Machine.testSaturation
  split
  · exact Within.after (Within.offerBlobSaturation _ _ _) <| Within.after (Within.blob i f _) <| Within.refl _ _
  · exact Within.refl _ _

theorem Within.closeAllBlobs (r : TruncReason) (l : Option (Word × Int)) (i : Insp) :
    Within (blobParts f) i (Machine.closeAllBlobs b f r l i) := by
  unfold Machine.closeAllBlobs
  exact Within.after (Within.foldl (fun i e => Within.sendBlob r l i e) _ _) <| Within.after (Within.blob i f _) <| Within.refl _ _

theorem Within.endLine (h : LineHead) (i : Insp) : Within (blobParts f) i (Machine.endLine b f h i) := by
  unfold Machine.endLine
  exact Within.after (Within.foldl (fun i e => Within.sendBlob _ _ i _) _ _) <| Within.after (Within.blob i f _) <| Within.refl _ _

theorem Within.handleBlobLine (r : LineRecord) (i : Insp) : Within (blobParts f) i (Machine.handleBlobLine b f r i) := by
  unfold Machine.handleBlobLine
  refine Within.after (Within.testSaturation _ _) <| Within.after (Within.endLine _ _) <|
    Within.after (Within.foldl (fun i u => Within.linkRun _ i u) _ _) <| Within.after (Within.blob _ f _) ?_
  split
  · exact Within.after (Within.testSaturation _ _) <| Within.after (Within.closeAllBlobs _ _ _) <|
      Within.after (Within.blob i f _) <| Within.refl _ _
  · exact Within.after (Within.blob i f _) <| Within.refl _ _

theorem Within.blobLine (r : LineRecord) (i : Insp) : Within (blobParts f) i (Machine.blobLine b f r i) := by
  unfold Machine.blobLine
  dsimp only
  split
  · exact Within.after (Within.blob i f _) <| Within.refl _ _
  · cases f with
    | lead => exact Within.after (Within.handleBlobLine _ _) <| Within.after (Within.blob i .lead _) <| Within.refl _ _
    | trail =>
      exact Within.after (Within.settleTrail _ _) <| Within.after (Within.handleBlobLine _ _) <|
        Within.after (Within.blob i .trail _) <| Within.refl _ _

theorem Within.takeBlobLine (i : Insp) : Within (blobParts f) i (Machine.takeBlobLine b f i) := by
  unfold Machine.takeBlobLine
  split
  · exact Within.refl _ _
  · exact Within.after (Within.blobLine _ _) <| Within.after (Within.blob i f _) <| Within.refl _ _

theorem Within.drainBlobLines (i : Insp) : Within (blobParts f) i (Machine.drainBlobLines b f i) := by
  unfold Machine.drainBlobLines
  exact Within.after (Within.foldl (fun i r => Within.blobLine r i) _ _) <| Within.after (Within.blob i f _) <| Within.refl _ _

/-! ### Streaks -/

theorem Within.onStreaks (i : Insp) (f : FaceId) (g : Streaks → Streaks) : Within [.streak f] i (i.onStreaks f g) :=
  Within.streak i f _

theorem Within.closeStreak (r : StreakReason) (sv : Option Nat) (l : Option (Word × Int)) (k : Nat) (s : Streak) (i : Insp) :
    Within [.streak f, .out] i (Machine.closeStreak b f r sv l k s i) := by
  unfold Machine.closeStreak
  dsimp only
  split
  · split
    · exact Within.after (Within.onStreaks _ f _) <| Within.after (Within.route _ _ _) <|
        Within.after (Within.onStreaks _ f _) <| Within.refl _ _
    · exact Within.after (Within.offerStatus _ _ _) <| Within.after (Within.onStreaks _ f _) <|
        Within.after (Within.route _ _ _) <| Within.after (Within.onStreaks _ f _) <| Within.refl _ _
  · exact Within.after (Within.route _ _ _) <| Within.after (Within.onStreaks _ f _) <| Within.refl _ _

theorem Within.mergeStreak (l : Option (Word × Int)) (k : Nat) (i : Insp) (y : Nat × Streak) :
    Within [.streak f, .out] i (Machine.mergeStreak b f l k i y) := by
  unfold Machine.mergeStreak
  exact Within.after (Within.closeStreak _ _ _ _ _ _) <| Within.after (Within.onStreaks i f _) <| Within.refl _ _

theorem Within.openStreak (r : LineRecord) (c : Nat) (x : RecordColumn) (v : Int) (k : Nat) (i : Insp) :
    Within (streakParts f) i (Machine.openStreak b f r c x v k i) := by
  unfold Machine.openStreak
  dsimp only
  split
  · exact Within.after (Within.route _ _ _) <| Within.after (Within.onStreaks i f _) <| Within.refl _ _
  · exact Within.after (Within.sendEvent _ _ _) <| Within.after (Within.route _ _ _) <|
      Within.after (Within.onStreaks i f _) <| Within.refl _ _

theorem Within.holdOnset (h : LineHead) (i : Insp) : Within [.streak f, .out] i (Machine.holdOnset f h i) := by
  unfold Machine.holdOnset
  dsimp only
  split
  · exact Within.after (Within.onStreaks i f _) <| Within.refl _ _
  · exact Within.after (Within.offerStatus _ _ _) <| Within.after (Within.onStreaks i f _) <| Within.refl _ _

theorem Within.enterStreak (r : LineRecord) (c : Nat) (x : RecordColumn) (v : Int) (i : Insp) :
    Within (streakParts f) i (Machine.enterStreak b f r c x v i) := by
  unfold Machine.enterStreak
  dsimp only
  split
  · split
    · exact Within.openStreak _ _ _ _ _ _
    · exact Within.after (Within.holdOnset _ _) <| Within.refl _ _
  · exact Within.after (Within.onStreaks _ f _) <|
      Within.after (Within.foldl (fun i y => Within.mergeStreak _ _ i y) _ _) <| Within.refl _ _

theorem Within.streakColumn (r : LineRecord) (i : Insp) (c : Nat) : Within (streakParts f) i (Machine.streakColumn b f r i c) := by
  unfold Machine.streakColumn Machine.eligibleStep
  dsimp only
  split
  · exact Within.after (Within.onStreaks i f _) <| Within.refl _ _
  · split
    · split
      · split
        · exact Within.after (Within.onStreaks i f _) <| Within.refl _ _
        · split
          · exact Within.after (Within.enterStreak _ _ _ _ _) <| Within.after (Within.onStreaks i f _) <| Within.refl _ _
          · exact Within.after (Within.onStreaks i f _) <| Within.refl _ _
      · exact Within.refl _ _
    · exact Within.refl _ _

theorem Within.continueStep (r : LineRecord) (n : Int) (i : Insp) (e : Nat × Streak) :
    Within [.streak f, .out] i (Machine.continueStep b f r n i e) := by
  unfold Machine.continueStep
  dsimp only
  split
  · exact Within.after (Within.route _ _ _) <| Within.after (Within.onStreaks i f _) <| Within.refl _ _
  · exact Within.refl _ _

theorem Within.continueTests (r : LineRecord) (i : Insp) : Within [.streak f, .out] i (Machine.continueTests b f r i) := by
  unfold Machine.continueTests
  dsimp only
  split
  · exact Within.refl _ _
  · exact Within.foldl (fun i e => Within.continueStep _ _ i e) _ _

theorem Within.closeReleased (l : Option (Word × Int)) (i : Insp) : Within [.streak f, .out] i (Machine.closeReleased b f l i) :=
  Within.foldl (fun i _ => Within.closeStreak _ _ _ _ _ i) _ _

theorem Within.streakLine (r : LineRecord) (i : Insp) : Within (streakParts f) i (Machine.streakLine b f r i) := by
  unfold Machine.streakLine
  exact Within.after (Within.continueTests _ _) <| Within.after (Within.closeReleased _ _) <|
    Within.after (Within.foldl (fun i c => Within.streakColumn _ i c) _ _) <| Within.after (Within.onStreaks i f _) <|
      Within.refl _ _

theorem Within.takeStreakLine (i : Insp) : Within (streakParts f) i (Machine.takeStreakLine b f i) := by
  unfold Machine.takeStreakLine
  split
  · exact Within.refl _ _
  · exact Within.after (Within.streakLine _ _) <| Within.after (Within.onStreaks i f _) <| Within.refl _ _

theorem Within.drainStreakLines (i : Insp) : Within (streakParts f) i (Machine.drainStreakLines b f i) := by
  unfold Machine.drainStreakLines
  exact Within.after (Within.foldl (fun i r => Within.streakLine r i) _ _) <|
    Within.after (Within.onStreaks i f _) <| Within.refl _ _

theorem Within.closeAllStreaks (r : StreakReason) (i : Insp) : Within [.streak f, .out] i (Machine.closeAllStreaks b f r i) := by
  unfold Machine.closeAllStreaks
  exact Within.after (Within.onStreaks _ f _) <| Within.foldl (fun i e => Within.closeStreak _ _ _ _ _ i) _ _

/-! ### The Pixel Chain -/

theorem Within.enterLearning (i : Insp) : Within [.pixel f] i (Machine.enterLearning b f i) := Within.pixel i f _

theorem Within.endLearning (h : LineHead) (i : Insp) : Within [.pixel f, .out] i (Machine.endLearning b f h i) := by
  unfold Machine.endLearning
  exact Within.after (Within.offerStatus _ _ _) <| Within.after (Within.pixel i f _) <| Within.refl _ _

theorem Within.switchCloses (i : Insp) : Within (.streak f :: blobParts f) i (Machine.switchCloses b f i) := by
  unfold Machine.switchCloses
  dsimp only
  have h : Within (.streak f :: blobParts f) i (Machine.drainEvents b f .streakTracker (Machine.drainEvents b f .blobBuilder
      (Machine.closeAllStreaks b f .changeover (Machine.testSaturation f ((Machine.closeAllBlobs b f .changeover none
        (Machine.drainStreakLines b f (Machine.drainBlobLines b f i))).face f).blob.lastLine
        (Machine.closeAllBlobs b f .changeover none (Machine.drainStreakLines b f (Machine.drainBlobLines b f i))))))) :=
    Within.after (Within.drainEvents _ _) <| Within.after (Within.drainEvents _ _) <|
      Within.after (Within.closeAllStreaks _ _) <| Within.after (Within.testSaturation _ _) <|
        Within.after (Within.closeAllBlobs _ _ _) <| Within.after (Within.drainStreakLines _) <|
          Within.after (Within.drainBlobLines _) <| Within.refl _ _
  cases f with
  | lead => exact h
  | trail => exact Within.after (Within.drainTrail _) h

theorem Within.switchLearning (i : Insp) : Within [.pixel f] i (Machine.switchLearning b f i) := by
  unfold Machine.switchLearning
  dsimp only
  split
  · exact Within.enterLearning i
  · split
    · exact Within.pixel i f _
    · exact Within.refl _ _

theorem Within.lineStart (h : LineHead) (i : Insp) : Within [.pattern f, .tier f, .marks, .out] i (Machine.lineStart b f h i) := by
  unfold Machine.lineStart
  split
  · exact Within.after (Within.patternStep _ _) <| Within.after (Within.tierLineStart _ _) <| Within.refl _ _
  · exact Within.refl _ _

theorem Within.keepZone (h : LineHead) (z : Option Zone) (i : Insp) : Within [.pattern f] i (Machine.keepZone f h z i) := by
  unfold Machine.keepZone
  split
  · exact Within.pattern i f _
  · exact Within.refl _ _

theorem handOn_split (f : FaceId) (r : LineRecord) (i : Insp) : Machine.handOn f r i =
    ((i.onFace f fun x => { x with blob := { x.blob with inbox := x.blob.inbox ++ [r] } }).onFace f
      fun x => { x with streak := { x.streak with inbox := x.streak.inbox ++ [r] } }).onFace f
      fun x => { x with preview := { x.preview with inbox := x.preview.inbox ++ [r] } } := by cases f <;> rfl

theorem Within.handOn (r : LineRecord) (i : Insp) : Within [.blob f, .streak f, .preview f] i (Machine.handOn f r i) := by
  rw [handOn_split]
  exact Within.after (Within.preview _ f _) <| Within.after (Within.streak _ f _) <| Within.after (Within.blob _ f _) <|
    Within.refl _ _

theorem Within.processLine (l : HandedLine) (i : Insp) : Within (lineParts f) i (Machine.processLine b f l i) := by
  unfold Machine.processLine
  refine Within.ite ?_ ?_
  · exact Within.after (Within.endLearning _ _) <| Within.after (Within.handOn _ _) <| Within.after (Within.keepZone _ _ _) <|
      Within.after (Within.pixel _ f _) <| Within.after (Within.lineStart _ _) <| Within.after (Within.pixel _ f _) <|
        Within.refl _ _
  · exact Within.after (Within.handOn _ _) <| Within.after (Within.keepZone _ _ _) <|
      Within.after (Within.pixel _ f _) <| Within.after (Within.lineStart _ _) <| Within.after (Within.pixel _ f _) <|
        Within.refl _ _

theorem Within.takePreviewLine (i : Insp) : Within [.preview f, .out] i (Machine.takePreviewLine f i) := by
  unfold Machine.takePreviewLine Machine.previewLine Machine.takeSlot
  dsimp only
  split
  · exact Within.refl _ _
  · split
    · exact Within.after (Within.preview _ f _) <| Within.refl _ _
    · split
      · exact Within.after (Within.preview _ f _) <| Within.after (Within.preview _ f _) <| Within.refl _ _
      · split
        · exact Within.after (Within.offer _ _ _) <| Within.after (Within.preview _ f _) <|
            Within.after (Within.preview _ f _) <| Within.refl _ _
        · exact Within.after (Within.preview _ f _) <| Within.after (Within.withOut _ _) <|
            Within.after (Within.preview _ f _) <| Within.after (Within.preview _ f _) <| Within.refl _ _

/-! ### The Line Assemblers and the Motion Unit -/

/-- An operation that changes some of the listed parts, after changes of listed parts. -/
theorem Touches.after {l l' : List Part} {a c d : Dev} (h : Touches l' c d) (h' : Touches l a c)
    (hl : l' ⊆ l := by simp [blobParts, streakParts, lineParts]) : Touches l a d := h'.trans (h.mono hl)

/-- A change of the line side alone. -/
theorem Touches.insp {l : List Part} {d : Dev} {i : Insp} (h : Within l d.insp i) : Touches l d { d with insp := i } := h d.base

/-- A change of one face. -/
theorem Touches.onFace {l : List Part} {d : Dev} {g : Face → Face} (h : Within l d.insp (d.insp.onFace f g)) :
    Touches l d (d.onFace f g) := Touches.insp h

theorem Touches.setPort (d : Dev) (p : Nat) (x : Port) : Touches [.sens] d (d.setPort p x) := fun q hq => by
  cases q with
  | sens => exact absurd (by decide) hq
  | motion | banks | exec | free | marks | corr | out => rfl
  | grid f | asm f | pixel f | pattern f | blob f | streak f | tier f | preview f => cases f <;> rfl

theorem Touches.onMotion (d : Dev) (g : Motion → Motion) : Touches [.motion] d (d.onMotion g) := fun q hq => by
  cases q with
  | motion => exact absurd (by decide) hq
  | sens | banks | exec | free | marks | corr | out => rfl
  | grid f | asm f | pixel f | pattern f | blob f | streak f | tier f | preview f => cases f <;> rfl

theorem Touches.onBanks (d : Dev) (g : Banks → Banks) : Touches [.banks] d (d.onBanks g) := fun q hq => by
  cases q with
  | banks => exact absurd (by decide) hq
  | motion | sens | exec | free | marks | corr | out => rfl
  | grid f | asm f | pixel f | pattern f | blob f | streak f | tier f | preview f => cases f <;> rfl

theorem Touches.countFree (d : Dev) (n : Nat) : Touches [.free] d { d with base := { d.base with free := n } } := fun q hq => by
  cases q with
  | free => exact absurd (by decide) hq
  | motion | sens | banks | exec | marks | corr | out => rfl
  | grid f | asm f | pixel f | pattern f | blob f | streak f | tier f | preview f => cases f <;> rfl

theorem Touches.offerStatus (d : Dev) (f : Option FaceId) (st : Status) : Touches [.out] d (d.offerStatus f st) :=
  Touches.insp (Within.offerStatus _ _ _)

theorem Touches.bothFaces {l : List Part} {d : Dev} {act : FaceId → Dev → Dev} (h : ∀ f d, Touches l d (act f d))
    (hl : .free ∈ l) : Touches l d (d.bothFaces act) := by
  have h0 : Touches l d { d with base := { d.base with free := d.base.free + 1 } } :=
    (Touches.countFree d _).mono (by simpa using hl)
  unfold Dev.bothFaces
  dsimp only
  split
  · exact h0.trans ((h _ _).trans (h _ _))
  · exact h0.trans ((h _ _).trans (h _ _))

theorem Touches.onSlots (d : Dev) (f : FaceId) (g : List Slot → List Slot) : Touches [.asm f] d (d.onSlots f g) :=
  Touches.onFace (Within.asm _ _ _)

theorem Touches.silencePort (p : Nat) (n : Word) (d : Dev) : Touches [.sens, .asm f, .out] d (Machine.silencePort f p n d) := by
  unfold Machine.silencePort Machine.offerHead
  exact Touches.after (Touches.offerStatus _ _ _) <| Touches.after (Touches.onSlots _ _ _) <|
    Touches.after (Touches.setPort _ _ _) <| Touches.refl _ _

theorem Touches.accountPort (s : Slot) (d : Dev) (p : Nat) : Touches [.sens, .asm f, .out] d (Machine.accountPort f s d p) := by
  unfold Machine.accountPort
  dsimp only
  split
  · split
    · exact Touches.refl _ _
    · exact Touches.after (Touches.setPort _ _ _) <| Touches.refl _ _
  · split
    · exact Touches.after (Touches.setPort _ _ _) <| Touches.refl _ _
    · split
      · exact Touches.after (Touches.setPort _ _ _) <| Touches.refl _ _
      · exact Touches.after (Touches.silencePort _ _ _) <| Touches.after (Touches.setPort _ _ _) <| Touches.refl _ _

theorem Touches.leaveSlot (s : Slot) (rest : List Slot) (d : Dev) :
    Touches [.sens, .asm f, .out] d (Machine.leaveSlot f s rest d) := by
  unfold Machine.leaveSlot
  exact Touches.after (Touches.foldl (fun d p => Touches.accountPort s d p) _ _) <|
    Touches.after (Touches.onFace (Within.asm _ _ _)) <| Touches.refl _ _

theorem Touches.leaveReady (n : Nat) (d : Dev) : Touches [.sens, .asm f, .out] d (Machine.leaveReady f n d) := by
  induction n generalizing d with
  | zero => exact Touches.refl _ _
  | succ n ih =>
    unfold Machine.leaveReady
    split
    · exact Touches.refl _ _
    · split
      · exact (Touches.leaveSlot _ _ d).trans (ih _)
      · exact Touches.refl _ _

theorem Touches.settleSlots (d : Dev) : Touches [.sens, .asm f, .out] d (Machine.settleSlots f d) := Touches.leaveReady _ _

theorem Touches.forceOldest (d : Dev) : Touches [.sens, .asm f, .out] d (Machine.forceOldest f d) := by
  unfold Machine.forceOldest
  split
  · exact Touches.refl _ _
  · exact Touches.after (Touches.settleSlots _) <| Touches.after (Touches.leaveSlot _ _ _) <|
      Touches.after (Touches.onFace (Within.asm _ _ _)) <| Touches.refl _ _

theorem Touches.openSlot (h : LineHead) (d : Dev) : Touches [.sens, .asm f, .out] d (Machine.openSlot f h d) := by
  unfold Machine.openSlot
  refine Touches.after (Touches.settleSlots _) <| Touches.after (Touches.onSlots _ _ _) ?_
  split
  · exact Touches.forceOldest _
  · exact Touches.refl _ _

theorem Touches.lineTest (d : Dev) : Touches [.sens, .grid f, .asm f, .out] d (Machine.lineTest f d) := by
  unfold Machine.lineTest
  dsimp only
  split
  · exact Touches.after (Touches.openSlot _ _) <| Touches.after (Touches.onFace (Within.grid _ _ _)) <| Touches.refl _ _
  · exact Touches.refl _ _

theorem Touches.rewindFace (d : Dev) :
    Touches [.pixel f, .blob f, .streak f, .tier f, .corr, .out] d (Machine.rewindFace f d) := by
  unfold Machine.rewindFace
  dsimp only
  refine Touches.insp ?_
  have h : Within [.pixel f, .blob f, .streak f, .tier f, .corr, .out] d.insp
      (closeAllStreaks d.base f .motion (testSaturation f ((closeAllBlobs d.base f .motion
        (((drainStreakLines d.base f (drainBlobLines d.base f d.insp)).face f).tier.lastInspection)
        (drainStreakLines d.base f (drainBlobLines d.base f d.insp))).face f).blob.lastLine
        (closeAllBlobs d.base f .motion
        (((drainStreakLines d.base f (drainBlobLines d.base f d.insp)).face f).tier.lastInspection)
        (drainStreakLines d.base f (drainBlobLines d.base f d.insp))))) :=
    Within.after (Within.closeAllStreaks _ _) <| Within.after (Within.testSaturation _ _) <|
      Within.after (Within.closeAllBlobs _ _ _) <| Within.after (Within.drainStreakLines _) <|
        Within.after (Within.drainBlobLines _) <| Within.refl _ _
  refine Within.ite (Within.after (Within.pixel _ f _) h) (Within.after (Within.enterLearning _) <|
    Within.after (Within.pixel _ f _) h)

end Sys2Proof.Machine
end

