-- ==== Sys2Proof/Laws/Pattern.lean ====
section
/-! SUPPORT. The pattern step (R71), event by event: what is left to do shrinks with every event, so the bound on the number of
events is never met, and the step is its next event followed by the step from there. -/

namespace Sys2Proof.Machine

open Sys2Proof

/-- The next edge of a face, and the point where it stops waiting for one. -/
def nextEdge (b : Base) (f : FaceId) (i : Insp) : Option Int := (i.marks.waiting f).map (b.edgeOf f)
def nextLimit (b : Base) (f : FaceId) (i : Insp) : Option Int := (i.face f).pattern.limit (b.banks.contents f).pattern

/-- The entries a face has still to handle. -/
def waitingCount (f : FaceId) (l : List Mark) : Nat := (l.filter fun m => !m.handledBy f).length

/-- A bound on the synthesis points and seek limits that a state can reach before its next edge. -/
def Pattern.limitsLeft (x : Pattern) : Nat :=
  match x.state with
  | some .synced | some .coasting => 2 - x.misses + 1
  | some .seeking => 1
  | some .continuous | some .lost | none => 0

/-- A bound on the events of a step. -/
def eventsLeft (f : FaceId) (i : Insp) : Nat := 4 * waitingCount f i.marks.list + (i.face f).pattern.limitsLeft

theorem Pattern.limitsLeft_le (x : Pattern) : x.limitsLeft ≤ 3 := by
  unfold Pattern.limitsLeft
  split <;> omega

theorem eventsLeft_lt_fuel (f : FaceId) (i : Insp) : eventsLeft f i < patternFuel i.marks := by
  have h := (i.face f).pattern.limitsLeft_le
  have hw : waitingCount f i.marks.list ≤ i.marks.list.length := List.length_filter_le _ _
  unfold eventsLeft patternFuel
  omega

/-! ### What an event leaves -/

theorem waiting_isSome {f : FaceId} {ms : Marks} (h : (ms.waiting f).isSome) : 0 < waitingCount f ms.list := by
  unfold Marks.waiting at h
  obtain ⟨m, hm⟩ := Option.isSome_iff_exists.mp h
  exact List.length_pos_of_mem (List.mem_filter.mpr ⟨List.mem_of_find?_eq_some hm, by simpa using List.find?_some hm⟩)

theorem handledBy_handle (m : Mark) (f : FaceId) : (m.handle f).handledBy f = true := by cases f <;> rfl

theorem waitingCount_consume (f : FaceId) (l : List Mark) (h : (l.find? fun m => !m.handledBy f).isSome) :
    waitingCount f ((handleFirst f l).filter fun m => !(m.leadHandled && m.trailHandled)) + 1 ≤ waitingCount f l := by
  have hle : ∀ l : List Mark, waitingCount f (l.filter fun m => !(m.leadHandled && m.trailHandled)) ≤ waitingCount f l := by
    intro l
    exact ((List.filter_sublist (p := fun m : Mark => !(m.leadHandled && m.trailHandled))).filter _).length_le
  refine Nat.le_trans (Nat.add_le_add_right (hle _) 1) ?_
  clear hle
  induction l with
  | nil => simp at h
  | cons m rest ih =>
    unfold handleFirst
    cases hm : m.handledBy f
    · simp only [waitingCount, List.filter_cons, handledBy_handle, hm, Bool.not_true, Bool.not_false,
        if_true, Bool.false_eq_true, if_false, List.length_cons]
      exact Nat.le_refl _
    · rw [List.find?_cons] at h
      simp only [hm, Bool.not_true] at h
      have := ih h
      simpa only [waitingCount, List.filter_cons, hm, if_true, Bool.not_true, Bool.false_eq_true, if_false] using this

/-- The entry that is handled first is the first one that waits. -/
theorem handleFirst_split (f : FaceId) (before after : List Mark) (m : Mark) (h : ∀ k ∈ before, k.handledBy f = true)
    (hm : m.handledBy f = false) : handleFirst f (before ++ m :: after) = before ++ m.handle f :: after := by
  induction before with
  | nil => simp [handleFirst, hm]
  | cons k rest ih =>
    simp only [List.cons_append, handleFirst, h k (by simp), if_true]
    rw [ih (fun k hk => h k (List.mem_cons_of_mem _ hk))]

theorem reachEdge_marks (b : Base) (f : FaceId) (h : LineHead) (e : Int) (i : Insp) :
    (reachEdge b f h e i).marks = i.marks.consume f := by
  unfold reachEdge offerPattern
  dsimp only
  cases (Insp.face { i with marks := i.marks.consume f } f).pattern.state with
  | none => rfl
  | some x =>
    cases x <;> dsimp only
    case lost => simp only [offerStatus_marks, onFace_marks]
    case seeking => simp only [onFace_marks]
    case synced => split <;> simp only [onFace_marks]
    case coasting => split <;> simp only [onFace_marks]

theorem reachLimit_marks (b : Base) (f : FaceId) (h : LineHead) (i : Insp) : (reachLimit b f h i).marks = i.marks := by
  unfold reachLimit offerPattern
  dsimp only
  cases (i.face f).pattern.state with
  | none => rfl
  | some x =>
    cases x <;> dsimp only
    case seeking => simp only [offerStatus_marks, onFace_marks]
    case synced => split <;> simp only [offerStatus_marks, onFace_marks]
    case coasting => split <;> simp only [offerStatus_marks, onFace_marks]

/-- An edge leaves one entry fewer to handle. -/
theorem eventsLeft_reachEdge (b : Base) (f : FaceId) (h : LineHead) (e : Int) (i : Insp) (hw : (i.marks.waiting f).isSome) :
    eventsLeft f (reachEdge b f h e i) < eventsLeft f i := by
  have h1 : waitingCount f (reachEdge b f h e i).marks.list + 1 ≤ waitingCount f i.marks.list := by
    rw [reachEdge_marks]
    exact waitingCount_consume f i.marks.list hw
  have h2 := ((reachEdge b f h e i).face f).pattern.limitsLeft_le
  unfold eventsLeft
  omega

/-- A synthesis point or seek limit leaves one limit fewer before the next edge. -/
theorem eventsLeft_reachLimit (b : Base) (f : FaceId) (h : LineHead) (i : Insp) (hl : (nextLimit b f i).isSome) :
    eventsLeft f (reachLimit b f h i) < eventsLeft f i := by
  unfold eventsLeft
  rw [reachLimit_marks]
  refine Nat.add_lt_add_left ?_ _
  unfold nextLimit Pattern.limit at hl
  unfold reachLimit offerPattern Pattern.limitsLeft
  cases hs : (i.face f).pattern.state with
  | none => simp [hs] at hl
  | some s =>
    cases s <;> simp only [hs] at hl ⊢
    case seeking => simp only [offerStatus_face, onFace_face]; omega
    case continuous => simp at hl
    case lost => simp at hl
    all_goals
      by_cases hm : (i.face f).pattern.misses + 1 < 3
      · simp only [if_pos hm, onFace_face]; omega
      · simp only [if_neg hm, offerStatus_face, onFace_face]; omega

/-! ### The step is its next event, then the rest -/

/-- What the next event of a step at a line leaves, when there is one. -/
def nextEvent (b : Base) (f : FaceId) (h : LineHead) (i : Insp) : Option Insp :=
  match nextEdge b f i, nextLimit b f i with
  | some e, some l =>
    if e ≤ l then if e ≤ h.pos then some (reachEdge b f h e i) else none
    else if l ≤ h.pos then some (reachLimit b f h i) else none
  | some e, none => if e ≤ h.pos then some (reachEdge b f h e i) else none
  | none, some l => if l ≤ h.pos then some (reachLimit b f h i) else none
  | none, none => none

theorem patternSteps_succ (b : Base) (f : FaceId) (h : LineHead) (n : Nat) (i : Insp) :
    patternSteps b f h (n + 1) i = match nextEvent b f h i with
      | some j => patternSteps b f h n j
      | none => i := by
  rw [patternSteps]
  unfold nextEvent
  change (match nextEdge b f i, nextLimit b f i with
    | some e, some l =>
      if e ≤ l then
        if e ≤ h.pos then patternSteps b f h n (reachEdge b f h e i) else i
      else if l ≤ h.pos then patternSteps b f h n (reachLimit b f h i) else i
    | some e, none => if e ≤ h.pos then patternSteps b f h n (reachEdge b f h e i) else i
    | none, some l => if l ≤ h.pos then patternSteps b f h n (reachLimit b f h i) else i
    | none, none => i) = _
  cases nextEdge b f i <;> cases nextLimit b f i <;> dsimp only <;> repeat' split
  all_goals first | rfl | contradiction | (rename_i h; cases h; rfl)

theorem eventsLeft_nextEvent {b : Base} {f : FaceId} {h : LineHead} {i j : Insp} (he : nextEvent b f h i = some j) :
    eventsLeft f j < eventsLeft f i := by
  have hE : ∀ e, nextEdge b f i = some e → (i.marks.waiting f).isSome := by
    intro e h; unfold nextEdge at h
    cases hw : i.marks.waiting f
    · rw [hw] at h; cases h
    · rfl
  unfold nextEvent at he
  split at he
  · rename_i e l h1 h2
    split at he
    · split at he
      · cases he; exact eventsLeft_reachEdge b f h e i (hE e h1)
      · cases he
    · split at he
      · cases he; exact eventsLeft_reachLimit b f h i (by rw [h2]; rfl)
      · cases he
  · rename_i e h1 h2
    split at he
    · cases he; exact eventsLeft_reachEdge b f h e i (hE e h1)
    · cases he
  · rename_i l h1 h2
    split at he
    · cases he; exact eventsLeft_reachLimit b f h i (by rw [h2]; rfl)
    · cases he
  · cases he

/-- Bounds at or above the events left give the same step. -/
theorem patternSteps_enough (b : Base) (f : FaceId) (h : LineHead) : ∀ (n m : Nat) (i : Insp), eventsLeft f i ≤ n →
    eventsLeft f i ≤ m → patternSteps b f h n i = patternSteps b f h m i := by
  have none_ : ∀ m i, nextEvent b f h i = none → patternSteps b f h m i = i := by
    intro m i hn
    cases m with
    | zero => rfl
    | succ m => rw [patternSteps_succ, hn]
  intro n
  induction n with
  | zero =>
    intro m i h0 _
    cases he : nextEvent b f h i with
    | none => rw [none_ m i he]; rfl
    | some j => exact absurd (eventsLeft_nextEvent he) (by omega)
  | succ n ih =>
    intro m i hn hm
    cases he : nextEvent b f h i with
    | none => rw [none_ _ i he, none_ m i he]
    | some j =>
      have hlt := eventsLeft_nextEvent he
      cases m with
      | zero => omega
      | succ m => rw [patternSteps_succ, patternSteps_succ, he]; exact ih m j (by omega) (by omega)

/-- R71: the step is its next event followed by the step from what that leaves; without a next event it changes nothing. -/
theorem patternStep_next (b : Base) (f : FaceId) (h : LineHead) (i : Insp) :
    patternStep b f h i = match nextEvent b f h i with
      | some j => patternStep b f h j
      | none => i := by
  unfold patternStep
  cases hf : patternFuel i.marks with
  | zero => have := eventsLeft_lt_fuel f i; omega
  | succ n =>
    rw [patternSteps_succ]
    cases he : nextEvent b f h i with
    | none => rfl
    | some j =>
      have h1 := eventsLeft_nextEvent he
      have h2 := eventsLeft_lt_fuel f i
      exact patternSteps_enough b f h _ _ j (by omega) (Nat.le_of_lt (eventsLeft_lt_fuel f j))

end Sys2Proof.Machine
end

