-- ==== Sys2Proof/Laws/PerInstr.lean ====
section
/-! SUPPORT. Delivery: which commands the part's surroundings can deliver, constructor by constructor (section 2.5). -/

namespace Sys2Proof.Laws.Delivery

open Sys2Proof

/-- Every command but a scan packet is well-formed; a scan packet is when it comes from one of four ports with a 16-bit tag and
12-bit samples. -/
def Statement (i : Instr) : Prop :=
  match i with
  | .scanPacket port tag _ samples _ =>
    i.wellFormed = true ↔ port < 4 ∧ tag < 65536 ∧ ∀ s ∈ samples, s < 4096
  | _ => i.wellFormed = true

theorem encoderCount (a : Bool) (b : Bool) : Statement (.encoderCount a b) := rfl
theorem triggerWordEnd (f : FaceId) : Statement (.triggerWordEnd f) := rfl
theorem speedWindowExpiry : Statement .speedWindowExpiry := rfl
theorem scanPacket (port : Nat) (tag : Nat) (declared : Nat) (samples : List Nat) (damaged : Bool) :
    Statement (.scanPacket port tag declared samples damaged) := by
  simp [Statement, Instr.wellFormed, portInRange, tagInRange, samplesInRange, and_assoc]
theorem pixelChainLine (f : FaceId) : Statement (.pixelChainLine f) := rfl
theorem blobBuilderLine (f : FaceId) : Statement (.blobBuilderLine f) := rfl
theorem streakTrackerLine (f : FaceId) : Statement (.streakTrackerLine f) := rfl
theorem previewLine (f : FaceId) : Statement (.previewLine f) := rfl
theorem leadCandidate : Statement .leadCandidate := rfl
theorem trailCandidate : Statement .trailCandidate := rfl
theorem countedEvent (f : FaceId) (src : EventSource) : Statement (.countedEvent f src) := rfl
theorem patchMark : Statement .patchMark := rfl
theorem checkCompletion : Statement .checkCompletion := rfl
theorem transmitCompletion : Statement .transmitCompletion := rfl
theorem linkUp : Statement .linkUp := rfl
theorem linkDown (r : Bool) : Statement (.linkDown r) := rfl
theorem inboundFrame (ws : List Word) : Statement (.inboundFrame ws) := rfl
theorem unknownCommand : Statement .unknownCommand := rfl
theorem lineSetup : Statement .lineSetup := rfl
theorem placementWrite : Statement .placementWrite := rfl
theorem geometryWrite : Statement .geometryWrite := rfl
theorem flatWrite : Statement .flatWrite := rfl
theorem setCalibrationLock : Statement .setCalibrationLock := rfl
theorem previewSet : Statement .previewSet := rfl
theorem bankOpen : Statement .bankOpen := rfl
theorem bankWrite : Statement .bankWrite := rfl
theorem bankCheck : Statement .bankCheck := rfl
theorem bankSchedule : Statement .bankSchedule := rfl
theorem bankCancel : Statement .bankCancel := rfl
theorem start : Statement .start := rfl
theorem stop : Statement .stop := rfl
theorem baselineLearn : Statement .baselineLearn := rfl
theorem baselineRead : Statement .baselineRead := rfl
theorem baselineReserve : Statement .baselineReserve := rfl
theorem baselinePut : Statement .baselinePut := rfl
theorem tierLimit : Statement .tierLimit := rfl
theorem queryStatus : Statement .queryStatus := rfl
theorem queryCounters : Statement .queryCounters := rfl
theorem queryLanes : Statement .queryLanes := rfl
theorem queryStreaks : Statement .queryStreaks := rfl
theorem queryPending : Statement .queryPending := rfl
theorem queryRetained : Statement .queryRetained := rfl
theorem clearCounters : Statement .clearCounters := rfl
theorem retainWrite : Statement .retainWrite := rfl
theorem reset : Statement .reset := rfl
theorem powerOnReset (a : Bool) (b : Bool) : Statement (.powerOnReset a b) := rfl
theorem pinReset (a : Bool) (b : Bool) : Statement (.pinReset a b) := rfl

end Sys2Proof.Laws.Delivery
end

