-- ==== Sys2Proof/Laws/Steps.lean ====
section
/-! SUPPORT. Every command keeps the bounds of the line side and the bank laws: one lemma per command, and the step. -/

namespace Sys2Proof.Machine

open Sys2Proof

variable {w : Concern → Prop}

/-! ### Sensor and motion commands -/

theorem Whole.emptySlots (f : Option FaceId) {d : Dev} (h : Whole w d) : Whole w (emptySlots f d) := by
  unfold Machine.emptySlots
  split
  · exact h.onFace fun ⟨_, b, c, e, l, k⟩ => ⟨fun _ => Nat.zero_le _, b, c, e, l, fun hw =>
      have ⟨k1, k2, k3, k4, k5, _⟩ := k hw; ⟨k1, k2, k3, k4, k5, fun _ ho => absurd ho (List.not_mem_nil)⟩⟩
  · exact h

theorem Whole.place (n : Nat) (p : Placement) {d : Dev} (h : Whole w d) : Whole w (place n p d) := by
  have h1 : Whole w (Machine.emptySlots p.bound
      (if (d.base.port n).place.bound = p.bound then d else Machine.emptySlots (d.base.port n).place.bound d)) := by
    refine Whole.emptySlots _ ?_
    split
    · exact h
    · exact h.emptySlots _
  unfold Machine.place
  dsimp only
  generalize Machine.emptySlots p.bound _ = d1 at h1 ⊢
  split
  · split
    · exact h1.setPort _ _
    · exact (h1.setPort _ _).quiet (Quiet.offerStatus _ _ _)
  · split
    · exact h1.setPort _ _
    · exact (h1.setPort _ _).quiet (Quiet.offerStatus _ _ _)

theorem Whole.placementWrite (c : Command) {d : Dev} (h : Whole w d) : Whole w (placementWrite c d).1 := by
  unfold Machine.placementWrite
  split
  · exact h
  · split
    · exact h
    · split
      · exact h
      · split
        · exact h
        · split
          · exact h
          · split
            · exact h
            · exact Whole.place _ _ h

theorem Whole.geometryWrite (c : Command) {d : Dev} (h : Whole w d) : Whole w (geometryWrite c d).1 := by
  unfold Machine.geometryWrite
  split
  · exact h
  · split
    · exact h
    · split
      · exact h.onFace fun hx => hx
      · exact h
      · exact h

theorem Whole.flatWrite (c : Command) {d : Dev} (h : Whole w d) : Whole w (flatWrite c d).1 := by
  unfold Machine.flatWrite
  dsimp only
  split
  · exact h
  · split
    · exact h
    · split
      · exact h
      · exact h.setPort _ _

theorem Whole.lineSetup (c : Command) {d : Dev} (h : Whole w d) : Whole w (lineSetup c d).1 := by
  unfold Machine.lineSetup
  split
  · exact h
  · split
    · exact h
    · dsimp only
      show Whole w (if c.nat 0 ≤ 2 then Machine.rebase _ else _)
      split
      · exact (h.quiet (Quiet.onMotion _ _)).quiet (Quiet.rebase _)
      · exact h.quiet (Quiet.onMotion _ _)

/-! ### Bank commands -/

theorem withBank_keeps {P : Dev → Prop} {n : Nat} {d : Dev} {k : BankId → Dev × Answer} (h : P d) (hk : ∀ i, P (k i).1) :
    P (withBank n d k).1 := by
  unfold withBank
  split
  · exact hk _
  · exact h

theorem Whole.openBank (i : BankId) (b : Bool) {d : Dev} (h : Whole w d) : Whole w (openBank i b d).1 := by
  unfold Machine.openBank
  split
  · exact h
  · exact h
  · exact h
  · exact h
  · rename_i hs
    exact h.onBanks fun hb => hb.setBank rfl (by rw [hs]; rfl) (PolicyLaw.of_open rfl)
  · rename_i hs
    exact h.onBanks fun hb => hb.setBank rfl (by rw [hs]; rfl) (PolicyLaw.of_open rfl)

theorem Whole.bankOpen (c : Command) {d : Dev} (h : Whole w d) : Whole w (bankOpen c d).1 :=
  withBank_keeps (P := Whole w) h fun i => by
    split
    · exact h.openBank _ _
    · exact h

theorem Whole.writeOpenBank (i : BankId) (c : Command) {d : Dev} (hs : (d.base.banks.bank i).state = .opened) (h : Whole w d) :
    Whole w (writeOpenBank i c d).1 := by
  unfold Machine.writeOpenBank
  split
  · exact h
  · split
    · exact h
    · dsimp only
      split
      · exact h
      · exact h.onBanks fun hb => hb.setBank (by show (d.base.banks.bank i).state.atRest = true; rw [hs]; rfl) (by rw [hs]; rfl)
          (PolicyLaw.of_open (by show (d.base.banks.bank i).state.passed = false; rw [hs]; rfl))

theorem Whole.bankWrite (c : Command) {d : Dev} (h : Whole w d) : Whole w (bankWrite c d).1 :=
  withBank_keeps (P := Whole w) h fun i => by
    split
    · exact h
    · exact h
    · exact h
    · exact h
    · exact h
    · rename_i hs; exact h.writeOpenBank i c hs

theorem Whole.bankCheck (c : Command) {d : Dev} (h : Whole w d) : Whole w (bankCheck c d).1 :=
  withBank_keeps (P := Whole w) h fun i => by
    split
    · exact h
    · split
      · exact h
      · rename_i hs
        have hs : (d.base.banks.bank i).state = .opened := by simpa using hs
        exact h.onBanks fun hb =>
          (hb.setBank (x := { d.base.banks.bank i with state := .checking }) rfl (by rw [hs]; rfl)
            (PolicyLaw.of_open rfl)).congr rfl rfl rfl

theorem firstVerdict_mem {l : List (Option Verdict)} (h : firstVerdict l = none) : ∀ v ∈ l, v = none := by
  induction l with
  | nil => simp
  | cons x xs ih =>
    cases x with
    | none =>
      intro v hv
      rcases List.mem_cons.mp hv with rfl | hm
      · rfl
      · exact ih h v hm
    | some v => simp [firstVerdict] at h

/-- R129: a bank that passes has its default min tier at or below its default max tier. -/
theorem judge_policy {b : Base} {c : Contents} (h : judge b c = none) : c.tierPolicy.minTier ≤ c.tierPolicy.maxTier := by
  have ht : tierVerdict c = none := firstVerdict_mem h _ (by simp)
  unfold tierVerdict at ht
  split at ht
  · cases ht
  · split at ht
    · cases ht
    · rename_i hn; omega

theorem checkingBank_state {b : Banks} {i : BankId} (h : b.checkingBank = some i) : (b.bank i).state = .checking := by
  unfold Banks.checkingBank at h
  split at h
  · rename_i h0; cases h; exact h0
  · split at h
    · rename_i h1; cases h; exact h1
    · cases h

theorem Whole.completeCheck {d : Dev} (h : Whole w d) : Whole w (completeCheck d) := by
  unfold Machine.completeCheck
  split
  · exact h
  · rename_i i hi
    have hs := checkingBank_state hi
    dsimp only
    refine Whole.reply (h.onBanks fun hb => ?_) _ _ _ _
    refine BanksOk.congr (b := d.base.banks.setBank i ((d.base.banks.bank i).judged d.base.motion.setup
      (judge d.base (d.base.banks.bank i).contents))) (hb.setBank ?_ (by rw [hs]; rfl) ?_) rfl rfl rfl
    · unfold Bank.judged; split <;> rfl
    · unfold Bank.judged
      split
      · exact PolicyLaw.of_open rfl
      · rename_i hv; exact fun _ => judge_policy hv

theorem Whole.bankSchedule (c : Command) {d : Dev} (h : Whole w d) : Whole w (bankSchedule c d).1 :=
  withBank_keeps (P := Whole w) h fun i => by
    dsimp only
    split
    · exact h
    · split
      · exact h
      · rename_i hn
        have hr : d.base.banks.running = true := by
          cases hr : d.base.banks.running with
          | true => rfl
          | false => exact absurd (Or.inl hr) hn
        have hs : (d.base.banks.bank i).state = .checked := by
          by_contra hs; exact hn (Or.inr (Or.inl hs))
        refine h.onBanks fun hb => BanksOk.congr (b := d.base.banks.setState i .scheduled) ⟨?_, fun j => ?_⟩ rfl rfl rfl
        · have hl := hb.1
          unfold BankLaw at hl ⊢
          rw [if_pos hr] at hl
          unfold Banks.setState
          rw [setBank_running, if_pos hr]
          obtain ⟨j, hj⟩ := hl
          have hji : j ≠ i := by
            rintro rfl
            rcases hj with ⟨h1, _⟩ | ⟨h1, _⟩ <;> rw [h1] at hs <;> cases hs
          have hij : i = j.other := by cases i <;> cases j <;> first | rfl | exact absurd rfl hji
          refine ⟨j, ?_⟩
          rw [setBank_ite, setBank_ite, if_neg hji, if_pos hij.symm]
          rcases hj with ⟨h1, _⟩ | ⟨_, h2⟩
          · exact Or.inl ⟨h1, Or.inr rfl⟩
          · rw [← hij, hs] at h2; cases h2
        · unfold Banks.setState
          rw [setBank_ite]
          split
          · exact (hb.2 i).of_state (by rw [hs]; rfl)
          · exact hb.2 j

theorem Whole.bankCancel (c : Command) {d : Dev} (h : Whole w d) : Whole w (bankCancel c d).1 := by
  unfold Machine.bankCancel
  split
  · rename_i i hi
    have hs := scheduled_state hi
    refine h.onBanks fun hb => BanksOk.congr (b := d.base.banks.setState i .checked) ⟨?_, fun j => ?_⟩ rfl rfl rfl
    · have hb2 := hb.1.beside (Or.inl hs)
      unfold BankLaw Banks.setState
      rw [setBank_running, if_pos hb2.1]
      refine ⟨i.other, ?_⟩
      rw [other_other, setBank_bank, setBank_other]
      rcases hb2.2 with ⟨_, h2⟩ | ⟨h2, _⟩
      · exact Or.inl ⟨h2, Or.inl rfl⟩
      · rw [hs] at h2; cases h2
    · unfold Banks.setState
      rw [setBank_ite]
      split
      · exact (hb.2 i).of_state (by rw [hs]; rfl)
      · exact hb.2 j
  · exact h

/-! ### START and STOP -/

theorem Lawful.startFace (f : FaceId) {d : Dev} (hp : PolicyOk w d.base f) (h : Lawful w d.insp) :
    Lawful w (startFace f d).insp := by
  unfold Machine.startFace
  dsimp only
  refine Lawful.loadTiersAtStart d.base f hp (Lawful.onFace (h.enterLearning d.base f) ?_)
  intro ⟨a, b, c, _, l, k⟩
  exact ⟨a, b, c, fun _ => AllListed.nil _, l, fun hw => have ⟨k1, k2, k3, _, k5, k6⟩ := k hw; ⟨k1, k2, k3, rfl, k5, k6⟩⟩

theorem Whole.startFace (f : FaceId) {d : Dev} (h : Whole w d) : Whole w (startFace f d) :=
  ⟨Lawful.startFace f (fun hw => policyOk_of (w := w) (h.2 hw).2 f hw) h.1, h.2⟩

theorem Whole.startCommand (c : Command) {d : Dev} (h : Whole w d) : Whole w (startCommand c d).1 :=
  withBank_keeps (P := Whole w) h fun i => by
    split
    · exact h
    · rename_i hn
      have hr : d.base.banks.running = false := by
        cases hr : d.base.banks.running with
        | false => rfl
        | true => exact absurd (Or.inl hr) hn
      have hs : (d.base.banks.bank i).state = .checked := by by_contra hs; exact hn (Or.inr hs)
      refine Whole.bothFaces (fun f d hd => hd.startFace f) (h.onBanks fun hb => ?_)
      refine ⟨?_, fun j => ?_⟩
      · have hl := hb.1
        unfold BankLaw at hl ⊢
        rw [if_neg (by rw [hr]; decide)] at hl
        rw [if_pos rfl]
        refine ⟨i, Or.inl ?_⟩
        show ((d.base.banks.setState i (.active .both)).bank i).state = _ ∧
          (((d.base.banks.setState i (.active .both)).bank i.other).state.atRest = true ∨
            ((d.base.banks.setState i (.active .both)).bank i.other).state = .scheduled)
        unfold Banks.setState
        rw [setBank_bank, setBank_other]
        exact ⟨rfl, Or.inl (hl i.other)⟩
      · show PolicyLaw ((d.base.banks.setState i (.active .both)).bank j)
        unfold Banks.setState
        rw [setBank_ite]
        split
        · exact (hb.2 i).of_state (by rw [hs]; rfl)
        · exact hb.2 j

theorem Whole.finishFace (f : FaceId) {d : Dev} (h : Whole w d) : Whole w (finishFace f d) :=
  Whole.of_insp (h.drainPixelLines f) fun hl => (hl.drainBlobLines _ f).drainStreakLines _ f

theorem Lawful.withdrawAll {i : Insp} (h : Lawful w i) : Lawful w (withdrawAll i) :=
  Lawful.withCorr (Lawful.withOut h fun ho => ho.stop) fun hc => by simpa using hc

theorem Whole.stopBlobs (f : FaceId) {d : Dev} (h : Whole w d) : Whole w (stopBlobs f d) := by
  refine h.of_insp fun hl => ?_
  have h1 := hl.closeAllBlobs d.base f .stop (d.face f).tier.lastInspection
  cases f with
  | lead => exact (h1.drainLead.drainEvents d.base _ _).drainEvents d.base _ _
  | trail => exact ((h1.drainTrail d.base).drainEvents d.base _ _).drainEvents d.base _ _

theorem Whole.stopStreaks (f : FaceId) {d : Dev} (h : Whole w d) : Whole w (stopStreaks f d) :=
  h.of_insp fun hl => hl.closeAllStreaks d.base f .stop

theorem FaceLawful.stop {x : Face} (h : FaceLawful w x) : FaceLawful w x.stop :=
  ⟨fun _ => Nat.zero_le _, fun _ => Nat.zero_le _, fun hw => clearSums_cols (h.2.2.1 hw), h.2.2.2.1, h.2.2.2.2.1, fun hw =>
    have ⟨k1, k2, k3, k4, k5, _⟩ := h.2.2.2.2.2 hw
    ⟨twf_tmap (fun v : PixelColumn => { v with sum := 0, count := 0 }) k1, k2, k3, k4, k5, fun _ ho => absurd ho (List.not_mem_nil)⟩⟩

theorem bankStop_atRest (b : Bank) : b.stop.state.atRest = true := by
  obtain ⟨st, c, k⟩ := b
  cases st <;> rfl

theorem PolicyLaw.stop {b : Bank} (h : PolicyLaw b) : PolicyLaw b.stop := by
  obtain ⟨st, c, k⟩ := b
  cases st <;> exact h

theorem BanksOk.stop {b : Banks} (h : BanksOk b) : BanksOk b.stop := by
  refine ⟨?_, fun i => ?_⟩
  · unfold BankLaw
    rw [if_neg (by show ¬ false = true; decide)]
    intro i
    cases i <;> exact bankStop_atRest _
  · cases i with
    | bank0 => exact (h.2 .bank0).stop
    | bank1 => exact (h.2 .bank1).stop

theorem Whole.clearAtStop {d : Dev} (h : Whole w d) : Whole w (clearAtStop d) := by
  refine ⟨⟨h.1.1, h.1.2.1, fun _ => Nat.zero_le _, fun f => ?_⟩, fun hw => (h.2 hw).stop⟩
  cases f with
  | lead => exact (h.1.face .lead).stop
  | trail => exact (h.1.face .trail).stop

theorem Whole.stopCommand (c : Command) {d : Dev} (h : Whole w d) : Whole w (stopCommand c d).1 := by
  unfold Machine.stopCommand
  split
  · have h1 := Whole.bothFaces (fun f d hd => hd.finishFace f) h
    have h2 := Whole.bothFaces (fun f d hd => hd.stopBlobs f) (h1.of_insp fun hl => hl.withdrawAll)
    have h3 := Whole.bothFaces (fun f d hd => hd.stopStreaks f) (h2.of_insp fun hl => hl.flushPending)
    exact h3.clearAtStop
  · exact h

/-! ### Baselines, limits, preview -/

theorem Whole.baselineLearn (c : Command) {d : Dev} (h : Whole w d) : Whole w (baselineLearn c d).1 := by
  unfold Machine.baselineLearn
  split
  · exact h
  · split
    · exact h.of_insp fun hl => foldl_keeps (p := Lawful w) (fun _ f hs => hs.enterLearning _ f) _ hl
    · exact h

theorem Whole.baselineReserve (c : Command) {d : Dev} (h : Whole w d) : Whole w (baselineReserve c d).1 := by
  unfold Machine.baselineReserve
  split
  · exact h
  · split
    · exact h.onFace fun hx => hx
    · exact h

theorem Whole.baselineRead (c : Command) {d : Dev} (h : Whole w d) : Whole w (baselineRead c d).1 := by
  unfold Machine.baselineRead
  split
  · exact h
  · split <;> exact h

theorem putSpan_cols (l : List Nat) (c : Nat) {x : Pixel} (h : AllListed ColumnLaw x.cols) :
    AllListed ColumnLaw (putSpan l c x).cols := by
  induction l generalizing c x with
  | nil => exact h
  | cons v rest ih =>
    unfold putSpan
    refine ih (c + 1) ?_
    have hc := Pixel.columnLaw h c
    exact h.tset c ⟨by show min v 65520 ≤ 65520; omega, hc.2.1, hc.2.2⟩

theorem putSpan_twf (l : List Nat) (c : Nat) {x : Pixel} (h : twf PixelColumn.fresh x.cols = true) :
    twf PixelColumn.fresh (putSpan l c x).cols = true := by
  induction l generalizing c x with
  | nil => exact h
  | cons v rest ih => exact ih (c + 1) (twf_tset c _ h)

theorem Whole.putFace (f : FaceId) (first : Nat) (l : List Nat) {d : Dev} (h : Whole w d) : Whole w (putFace f first l d).1 := by
  unfold Machine.putFace
  split
  · exact h
  · split
    · exact h
    · split
      · exact h
      · exact h.onFace fun ⟨a, b, c, e, l, k⟩ => ⟨a, b, fun hw => putSpan_cols _ _ (c hw), e, l, fun hw =>
          have ⟨k1, k2, k3, k4, k5, k6⟩ := k hw; ⟨putSpan_twf _ _ k1, k2, k3, k4, k5, k6⟩⟩

theorem Whole.baselinePut (c : Command) {d : Dev} (h : Whole w d) : Whole w (baselinePut c d).1 := by
  unfold Machine.baselinePut
  split
  · exact h
  · split
    · exact h.putFace _ _ _
    · exact h

theorem Whole.tierLimit (c : Command) {d : Dev} (h : Whole w d) : Whole w (tierLimit c d).1 := by
  unfold Machine.tierLimit
  split
  · split
    · exact h
    · rename_i hn
      split
      · exact h
      · have hle : c.nat 2 ≤ c.nat 3 := by omega
        have hact : ∀ l f d, Whole w d → Whole w { d with insp := limitLanes d.base f l (c.nat 2) (c.nat 3) d.insp } :=
          fun l f d hd => hd.of_insp fun hl => hl.limitLanes d.base f l hle
        show Whole w (Dev.onFaces _ _ _)
        unfold Dev.onFaces
        split
        · exact hact _ _ _ h
        · exact hact _ _ _ h
        · exact Whole.bothFaces (hact _) h
  · exact h
  · exact h

theorem Lawful.setPreview (x n : Nat) (f : FaceId) {i : Insp} (h : Lawful w i) : Lawful w (setPreview x n i f) := by
  have h1 : Lawful w (i.onFace f fun y => { y with preview := { y.preview with decimation := x, binning := n, counter := 0 } }) :=
    h.onFace fun hx => hx
  unfold Machine.setPreview
  dsimp only
  split
  · exact h1.withOut fun ho => ho.setQueue (Nat.zero_le _)
  · exact h1

theorem Whole.previewSet (c : Command) {d : Dev} (h : Whole w d) : Whole w (previewSet c d).1 := by
  unfold Machine.previewSet
  split
  · exact h
  · split
    · exact h
    · exact h.of_insp fun hl => foldl_keeps (p := Lawful w) (fun _ f hs => hs.setPreview _ _ f) _ hl

/-! ### Counters, retained words, resets -/

theorem clearCounters_length (c : Corr) : c.clearCounters.list = c.list := rfl

theorem Whole.clearAll {d : Dev} (h : Whole w d) : Whole w (clearAll d) := by
  refine ⟨⟨fun hw => ⟨fun q => ?_, (h.1.1 hw).2⟩, h.1.2.1, h.1.2.2.1, fun f => ?_⟩, h.2⟩
  · have := (h.1.1 hw).1 q
    cases q <;> exact this
  · cases f with
    | lead => exact h.1.face .lead
    | trail => exact h.1.face .trail

theorem faceCanonical_powerOn : FaceCanonical Face.powerOn :=
  ⟨rfl, SlotTable.nil 256, SlotTable.nil 64, rfl, rfl, fun _ ho => absurd ho (List.not_mem_nil)⟩

theorem faceLawful_powerOn : FaceLawful w Face.powerOn :=
  ⟨fun _ => Nat.zero_le _, fun _ => Nat.zero_le _, fun _ => AllListed.nil _, fun _ => AllListed.nil _, fun _ => AllListed.nil _,
    fun _ => faceCanonical_powerOn⟩

theorem whole_powerOn (a b : Bool) (n : Nat) : Whole w (Dev.powerOn a b n) :=
  ⟨⟨fun _ => outBounded_powerOn, fun _ => Nat.zero_le _, fun _ => Nat.zero_le _,
    fun f => by cases f <;> exact faceLawful_powerOn⟩, fun _ => banksOk_powerOn⟩

theorem whole_pinReset (a b : Bool) (d : Dev) : Whole w (pinReset a b d) := by
  refine ⟨⟨fun _ => ?_, fun _ => Nat.zero_le _, fun _ => Nat.zero_le _,
    fun f => by cases f <;> exact faceLawful_powerOn⟩, fun _ => banksOk_powerOn⟩
  exact OutBounded.recordReset (outBounded_powerOn.of_queues fun q => by cases q <;> rfl) _ _

theorem whole_commandReset (t : Nat) (d : Dev) : Whole w (commandReset t d) := by
  refine ⟨⟨fun _ => ?_, fun _ => Nat.zero_le _, fun _ => Nat.zero_le _, fun f => ?_⟩, fun _ => banksOk_powerOn⟩
  · exact OutBounded.pick (OutBounded.recordReset (outBounded_powerOn.of_queues fun q => by cases q <;> rfl) _ _)
  · cases f <;> exact ⟨fun _ => Nat.zero_le _, fun _ => Nat.zero_le _, fun _ => AllListed.nil _, fun _ => AllListed.nil _,
      fun _ => AllListed.nil _, fun _ => faceCanonical_powerOn⟩

/-! ### Arrival and the row of a reset -/

theorem Whole.onExec {d : Dev} (h : Whole w d) (g : Exec → Exec) : Whole w (d.onExec g) := h

theorem Whole.onOut {d : Dev} {g : Out → Out} (h : Whole w d) (hg : OutBounded d.insp.out → OutBounded (g d.insp.out)) :
    Whole w (d.onOut g) := h.of_insp fun hl => hl.withOut hg

theorem Whole.inboundFrame (ws : List Word) {d : Dev} (h : Whole w d) : Whole w (inboundFrame ws d) := by
  unfold Machine.inboundFrame commandArrival
  split
  · exact h
  · split
    · split
      · exact h
      · split
        · exact (h.onExec _).reply _ _ _ _
        · exact h
    · exact h.onOut fun ho => ho.of_queues fun q => by cases q <;> rfl

theorem Whole.execReset {s t : State} (h : Whole w s.dev) (he : execReset s = .next t) : Whole w t.dev := by
  unfold Machine.execReset at he
  split at he
  · cases he; exact h
  · split at he
    · cases he; exact whole_commandReset _ _
    · exact Whole.runCommand (fun _ _ h => h) h he

theorem Whole.execUnknown {s t : State} (h : Whole w s.dev) (he : execUnknownCommand s = .next t) : Whole w t.dev := by
  unfold execUnknownCommand at he
  split at he
  · cases he; exact h
  · split at he
    · cases he; exact (h.takeCommand _).reply _ _ _ _
    · cases he; exact h

theorem withFace_keeps {P : Dev → Prop} {n : Nat} {d : Dev} {k : FaceId → Dev × Answer} (h : P d) (hk : ∀ f, P (k f).1) :
    P (withFace n d k).1 := by
  unfold withFace
  split
  · exact hk _
  · exact h

/-! ### Every command -/

/-- Every command keeps the bounds of the line side and the bank laws. -/
theorem exec_whole {i : Instr} {s t : State} (h : Whole w s.dev) (he : exec i s = .next t) : Whole w t.dev := by
  cases i with
  | encoderCount a b => cases he; exact h.quiet (Quiet.encoderCount a b _)
  | triggerWordEnd f => cases he; exact h.onFace fun hx => hx
  | speedWindowExpiry => cases he; exact h.quiet (Quiet.speedWindow _)
  | scanPacket p tag n l x =>
    simp only [exec, execScanPacket] at he
    split at he
    · cases he; exact h.quiet (Quiet.packetArrival p tag n l x _)
    · cases he
  | pixelChainLine f => cases he; exact h.takePixelLine f
  | blobBuilderLine f => cases he; exact h.of_insp fun hl => hl.takeBlobLine _ f
  | streakTrackerLine f => cases he; exact h.of_insp fun hl => hl.takeStreakLine _ f
  | previewLine f => cases he; exact h.of_insp fun hl => hl.takePreviewLine f
  | leadCandidate => cases he; exact h.of_insp fun hl => hl.takeNextLead
  | trailCandidate => cases he; exact h.of_insp fun hl => hl.takeNextTrail _
  | countedEvent f src => cases he; exact h.of_insp fun hl => hl.takeEvent _ f src
  | patchMark =>
    simp only [exec, execPatchMark] at he
    split at he
    · cases he; exact h.of_insp fun hl => hl.withMarks fun hm => marksEvent_length _ _ hm
    · cases he; exact h
  | checkCompletion => cases he; exact h.completeCheck
  | transmitCompletion => cases he; exact h.onOut fun ho => ho.complete
  | linkUp => cases he; exact h.onOut fun ho => ho.up
  | linkDown r => cases he; exact h.onOut fun ho => ho.down r
  | inboundFrame ws => cases he; exact h.inboundFrame ws
  | unknownCommand => exact h.execUnknown he
  | lineSetup => exact h.runCommand (fun c _ hd => hd.lineSetup c) he
  | placementWrite => exact h.runCommand (fun c _ hd => hd.placementWrite c) he
  | geometryWrite => exact h.runCommand (fun c _ hd => hd.geometryWrite c) he
  | flatWrite => exact h.runCommand (fun c _ hd => hd.flatWrite c) he
  | setCalibrationLock => exact h.runCommand (fun _ _ hd => hd) he
  | previewSet => exact h.runCommand (fun c _ hd => hd.previewSet c) he
  | bankOpen => exact h.runCommand (fun c _ hd => hd.bankOpen c) he
  | bankWrite => exact h.runCommand (fun c _ hd => hd.bankWrite c) he
  | bankCheck => exact h.runCommand (fun c _ hd => hd.bankCheck c) he
  | bankSchedule => exact h.runCommand (fun c _ hd => hd.bankSchedule c) he
  | bankCancel => exact h.runCommand (fun c _ hd => hd.bankCancel c) he
  | start => exact h.runCommand (fun c _ hd => hd.startCommand c) he
  | stop => exact h.runCommand (fun c _ hd => hd.stopCommand c) he
  | baselineLearn => exact h.runCommand (fun c _ hd => hd.baselineLearn c) he
  | baselineRead => exact h.runCommand (fun c _ hd => hd.baselineRead c) he
  | baselineReserve => exact h.runCommand (fun c _ hd => hd.baselineReserve c) he
  | baselinePut => exact h.runCommand (fun c _ hd => hd.baselinePut c) he
  | tierLimit => exact h.runCommand (fun c _ hd => hd.tierLimit c) he
  | queryStatus => exact h.runCommand (fun c d hd => by unfold queryStatus; split <;> exact hd) he
  | queryCounters => exact h.runCommand (fun _ _ hd => hd) he
  | queryLanes => exact h.runCommand (fun _ _ hd => withFace_keeps (P := Whole w) hd fun _ => hd) he
  | queryStreaks => exact h.runCommand (fun _ _ hd => withFace_keeps (P := Whole w) hd fun _ => hd) he
  | queryPending => exact h.runCommand (fun _ _ hd => hd) he
  | queryRetained => exact h.runCommand (fun _ _ hd => hd) he
  | clearCounters => exact h.runCommand (fun _ _ hd => hd.clearAll) he
  | retainWrite =>
    refine h.runCommand (fun c d hd => ?_) he
    unfold retainWrite
    dsimp only
    split
    · exact hd
    · exact hd.onExec _
  | reset => exact h.execReset he
  | powerOnReset a b => cases he; exact whole_powerOn a b _
  | pinReset a b => cases he; exact whole_pinReset a b _

end Sys2Proof.Machine
end

