-- ==== Sys2Proof/Laws/Ports.lean ====
section
/-! SUPPORT. Every command keeps R20 and the command queue's capacity. -/

namespace Sys2Proof.Machine

open Sys2Proof

/-- What R20 and the command queue's bound say together. -/
def Side (d : Dev) : Prop := PortsLaw d.base ∧ d.base.exec.queue.length ≤ 4

/-- The sensors and the executor are those of before. -/
def SideSame (d d' : Dev) : Prop := d'.base.sens = d.base.sens ∧ d'.base.exec = d.base.exec

theorem SideSame.refl (d : Dev) : SideSame d d := ⟨rfl, rfl⟩

theorem SideSame.trans {a b c : Dev} (h : SideSame a b) (h' : SideSame b c) : SideSame a c :=
  ⟨h'.1.trans h.1, h'.2.trans h.2⟩

theorem SideSame.foldl {β : Type} {g : Dev → β → Dev} (hg : ∀ d x, SideSame d (g d x)) (l : List β) (d : Dev) :
    SideSame d (l.foldl g d) := by
  induction l generalizing d with
  | nil => exact SideSame.refl d
  | cons x xs ih => exact (hg d x).trans (ih _)

theorem SideSame.bothFaces {d : Dev} {act : FaceId → Dev → Dev} (h : ∀ f d, SideSame d (act f d)) :
    SideSame d (d.bothFaces act) := by
  have h0 : SideSame d { d with base := { d.base with free := d.base.free + 1 } } := ⟨rfl, rfl⟩
  unfold Dev.bothFaces
  dsimp only
  split
  · exact h0.trans ((h _ _).trans (h _ _))
  · exact h0.trans ((h _ _).trans (h _ _))

theorem PortsLaw.congr {b b' : Base} (h : PortsLaw b) (e : b'.sens = b.sens) : PortsLaw b' := by
  have hp : ∀ p, b'.port p = b.port p := fun p => by unfold Base.port; rw [e]
  unfold PortsLaw at h ⊢
  simp only [hp, e]
  exact h

theorem PortsLaw.kept {b b' : Base} (h : PortsLaw b) (k : PlacesKept b b') : PortsLaw b' := by
  refine ⟨k.1 h.1, ?_⟩
  intro m hm n hn hmn
  rw [k.2 m, k.2 n]
  exact h.2 m hm n hn hmn

theorem Side.same {d d' : Dev} (h : Side d) (e : SideSame d d') : Side d' := ⟨h.1.congr e.1, by rw [e.2]; exact h.2⟩

theorem Side.quiet {d d' : Dev} (h : Side d) (q : Quiet (fun _ => False) d d') : Side d' :=
  ⟨h.1.kept q.2.1, by rw [q.2.2.2]; exact h.2⟩

theorem pixelLine_side (f : FaceId) (ln : HandedLine) (d : Dev) : SideSame d (pixelLine f ln d) := by
  unfold pixelLine
  dsimp only
  split
  · exact ⟨rfl, rfl⟩
  · exact ⟨rfl, rfl⟩

theorem takePixelLine_side (f : FaceId) (d : Dev) : SideSame d (takePixelLine f d) := by
  unfold takePixelLine
  split
  · exact SideSame.refl d
  · exact SideSame.trans (b := d.onFace f _) ⟨rfl, rfl⟩ (pixelLine_side f _ _)

theorem finishFace_side (f : FaceId) (d : Dev) : SideSame d (finishFace f d) := by
  have h1 : SideSame d (drainPixelLines f d) :=
    SideSame.trans (b := d.onFace f _) ⟨rfl, rfl⟩ (SideSame.foldl (fun d ln => pixelLine_side f ln d) _ _)
  exact h1.trans ⟨rfl, rfl⟩

theorem startFace_side (f : FaceId) (d : Dev) : SideSame d (startFace f d) := ⟨rfl, rfl⟩

theorem startPart_side (i : BankId) (d : Dev) : SideSame d (startPart i d) :=
  SideSame.trans (b := d.onBanks _) ⟨rfl, rfl⟩ (SideSame.bothFaces fun f d => startFace_side f d)

theorem stopPart_side (d : Dev) : SideSame d (stopPart d) := by
  have h1 : SideSame d (d.bothFaces finishFace) := SideSame.bothFaces fun f d => finishFace_side f d
  have h2 : ∀ d : Dev, SideSame d (d.bothFaces stopBlobs) := fun d => SideSame.bothFaces fun _ _ => ⟨rfl, rfl⟩
  have h3 : ∀ d : Dev, SideSame d (d.bothFaces stopStreaks) := fun d => SideSame.bothFaces fun _ _ => ⟨rfl, rfl⟩
  unfold stopPart
  dsimp only
  generalize d.bothFaces finishFace = d1 at h1 ⊢
  have h4 : SideSame d1 ({ d1 with insp := withdrawAll d1.insp }.bothFaces stopBlobs) :=
    SideSame.trans (b := { d1 with insp := withdrawAll d1.insp }) ⟨rfl, rfl⟩ (h2 _)
  generalize { d1 with insp := withdrawAll d1.insp }.bothFaces stopBlobs = d2 at h4 ⊢
  have h5 : SideSame d2 ({ d2 with insp := flushPending d2.insp }.bothFaces stopStreaks) :=
    SideSame.trans (b := { d2 with insp := flushPending d2.insp }) ⟨rfl, rfl⟩ (h3 _)
  generalize { d2 with insp := flushPending d2.insp }.bothFaces stopStreaks = d3 at h5 ⊢
  exact h1.trans (h4.trans (h5.trans ⟨rfl, rfl⟩))

/-! ### The rows that write ports -/

theorem emptySlots_side (f : Option FaceId) (d : Dev) : SideSame d (emptySlots f d) := by
  unfold emptySlots; split <;> exact ⟨rfl, rfl⟩

theorem offerHead_side (f : Option FaceId) (p : Nat) (a b : HeadState) (c : HeadCause) (l : Word) (d : Dev) :
    SideSame d (offerHead f p a b c l d) := ⟨rfl, rfl⟩

theorem spansMeet_symm (a b : Nat × Nat) : spansMeet a b = spansMeet b a := by
  unfold spansMeet
  exact Bool.and_comm _ _

/-- A placement that overlaps no other enabled port of its face keeps R20. -/
theorem PortsLaw.setPlace {b : Base} {n : Nat} {p : Placement} {x : Port} (h : PortsLaw b) (hx : x.place = p)
    (ho : b.overlaps n p = false) : PortsLaw (b.setPort n x) := by
  have clear : ∀ m ∈ portNumbers, m ≠ n → p.enabled = true → (b.port m).place.enabled = true →
      (b.port m).place.face = p.face → spansMeet (b.port m).place.span p.span = false := by
    intro m hm hmn hp he hf
    unfold Base.overlaps at ho
    rw [hp, Bool.true_and, List.any_eq_false] at ho
    have := ho m hm
    simpa [hmn, he, hf] using this
  refine ⟨twf_tset n x h.1, ?_⟩
  intro m hm k hk hmk
  rw [port_setPort, port_setPort]
  split
  · rename_i hmn
    subst hmn
    rw [if_neg (Ne.symm hmk), hx]
    intro h1 h2 h3
    rw [spansMeet_symm]
    exact clear k hk (Ne.symm hmk) h1 h2 h3.symm
  · rename_i hmn
    split
    · rename_i hkn
      subst hkn
      rw [hx]
      intro h1 h2 h3
      exact clear m hm hmn h2 h1 h3
    · exact h.2 m hm k hk hmk

theorem Side.place {n : Nat} {p : Placement} {d : Dev} (h : Side d) (ho : d.base.overlaps n p = false) : Side (place n p d) := by
  have h1 : SideSame d (emptySlots p.bound
      (if (d.base.port n).place.bound = p.bound then d else emptySlots (d.base.port n).place.bound d)) := by
    refine SideSame.trans ?_ (emptySlots_side _ _)
    split
    · exact SideSame.refl d
    · exact emptySlots_side _ _
  unfold Machine.place
  dsimp only
  generalize emptySlots p.bound _ = d1 at h1 ⊢
  have hs := h.same h1
  have ho1 : d1.base.overlaps n p = false := by
    have hp : ∀ m, d1.base.port m = d.base.port m := fun m => by unfold Base.port; rw [h1.1]
    unfold Base.overlaps at ho ⊢
    simp only [hp]
    exact ho
  have key : ∀ x : Port, x.place = p → Side (d1.setPort n x) := fun x hx => ⟨hs.1.setPlace hx ho1, hs.2⟩
  split
  · split
    · exact key _ rfl
    · exact (key _ rfl).same (offerHead_side _ _ _ _ _ _ _)
  · split
    · exact key _ rfl
    · exact (key _ rfl).same (offerHead_side _ _ _ _ _ _ _)

theorem Side.placementWrite (c : Command) {d : Dev} (h : Side d) : Side (placementWrite c d).1 := by
  unfold Machine.placementWrite
  split
  · exact h
  · split
    · exact h
    · split
      · exact h
      · split
        · exact h
        · split
          · exact h
          · rename_i ho
            split
            · exact h
            · rename_i hov
              exact Side.place h (by simpa using hov)

theorem Side.flatWrite (c : Command) {d : Dev} (h : Side d) : Side (flatWrite c d).1 := by
  unfold Machine.flatWrite
  dsimp only
  split
  · exact h
  · split
    · exact h
    · split
      · exact h
      · exact h.quiet (Quiet.setPort rfl)

/-- A map of the ports that keeps every placement keeps R20. -/
theorem PortsLaw.tmap {b b' : Base} {g : Port → Port} (h : PortsLaw b) (hs : b'.sens.ports = tmap Port.powerOn g b.sens.ports)
    (h0 : g Port.powerOn = Port.powerOn) (hg : ∀ x, (g x).place = x.place) : PortsLaw b' := by
  refine h.kept ⟨fun ht => ?_, fun p => ?_⟩
  · rw [hs]; exact twf_tmap g ht
  · unfold Base.port
    rw [hs, tget_tmap g h0 h.1]
    exact hg _

theorem Side.clearAll {d : Dev} (h : Side d) : Side (clearAll d) :=
  ⟨h.1.tmap (g := fun p => { p with counts := PortCounts.zero }) rfl rfl fun _ => rfl, h.2⟩

theorem side_commandReset (t : Nat) {d : Dev} (h : Side d) : Side (commandReset t d) :=
  ⟨h.1.tmap (g := Port.commandReset) rfl rfl fun _ => rfl, Nat.zero_le _⟩

theorem portsLaw_powerOn {b : Base} (h : b.sens.ports = []) : PortsLaw b := by
  refine ⟨by rw [h]; rfl, fun m _ n _ _ hm => ?_⟩
  unfold Base.port at hm
  rw [h] at hm
  cases hm

/-! ### Every command -/

theorem Side.runCommand {row : Instr} {act : Command → Dev → Dev × Answer} {s t : State} (ha : ∀ c d, Side d → Side (act c d).1)
    (h : Side s.dev) (he : runCommand row act s = .next t) : Side t.dev :=
  runCommand_keeps (P := Side) (fun _ _ rest hq h => ⟨h.1, by have := h.2; rw [hq] at this; simp at this; show rest.length ≤ 4; omega⟩)
    (fun _ _ _ _ _ h => h) ha h he

theorem Side.inboundFrame (ws : List Word) {d : Dev} (h : Side d) : Side (inboundFrame ws d) := by
  unfold Machine.inboundFrame commandArrival
  split
  · exact h
  · split
    · split
      · rename_i hlt
        refine ⟨h.1, ?_⟩
        show (d.base.exec.queue ++ [_]).length ≤ 4
        simp [Config.maxCommands] at hlt ⊢
        omega
      · split
        · exact h
        · exact h
    · exact h

theorem Side.lineSetup (c : Command) {d : Dev} (h : Side d) : Side (lineSetup c d).1 := by
  unfold Machine.lineSetup
  split
  · exact h
  · split
    · exact h
    · dsimp only
      show Side (if c.nat 0 ≤ 2 then rebase _ else _)
      split <;> exact h

theorem Side.of_bank {n : Nat} {d : Dev} {k : BankId → Dev × Answer} (h : Side d) (hk : ∀ i, Side (k i).1) :
    Side (withBank n d k).1 := withBank_keeps (P := Side) h hk

theorem exec_side {i : Instr} {s t : State} (h : Side s.dev) (he : exec i s = .next t) : Side t.dev := by
  cases i with
  | encoderCount a b => cases he; exact h.quiet (Quiet.encoderCount a b _)
  | speedWindowExpiry => cases he; exact h.quiet (Quiet.speedWindow _)
  | scanPacket p tag n l x =>
    simp only [exec, execScanPacket] at he
    split at he
    · cases he; exact h.quiet (Quiet.packetArrival p tag n l x _)
    · cases he
  | pixelChainLine f => cases he; exact h.same (takePixelLine_side f _)
  | triggerWordEnd f => cases he; exact h
  | blobBuilderLine f => cases he; exact h
  | streakTrackerLine f => cases he; exact h
  | previewLine f => cases he; exact h
  | leadCandidate => cases he; exact h
  | trailCandidate => cases he; exact h
  | countedEvent f src => cases he; exact h
  | transmitCompletion => cases he; exact h
  | linkUp => cases he; exact h
  | linkDown r => cases he; exact h
  | patchMark =>
    simp only [exec, execPatchMark] at he
    split at he <;> cases he <;> exact h
  | checkCompletion =>
    cases he
    show Side (completeCheck s.dev)
    unfold completeCheck
    split <;> exact h
  | inboundFrame ws => cases he; exact h.inboundFrame ws
  | unknownCommand =>
    simp only [exec, execUnknownCommand] at he
    split at he
    · cases he; exact h
    · rename_i c rest hq
      split at he
      · cases he
        refine ⟨h.1, ?_⟩
        have := h.2
        rw [hq] at this
        simp at this
        show rest.length ≤ 4
        omega
      · cases he; exact h
  | lineSetup => exact h.runCommand (fun c _ hd => hd.lineSetup c) he
  | placementWrite => exact h.runCommand (fun c _ hd => hd.placementWrite c) he
  | geometryWrite =>
    refine h.runCommand (fun c d hd => ?_) he
    unfold geometryWrite
    split
    · exact hd
    · split
      · exact hd
      · split <;> exact hd
  | flatWrite => exact h.runCommand (fun c _ hd => hd.flatWrite c) he
  | setCalibrationLock => exact h.runCommand (fun _ _ hd => hd) he
  | previewSet =>
    refine h.runCommand (fun c d hd => ?_) he
    unfold previewSet
    split
    · exact hd
    · split <;> exact hd
  | bankOpen =>
    exact h.runCommand (fun c d hd => hd.of_bank fun i => by
      split
      · unfold openBank; split <;> exact hd
      · exact hd) he
  | bankWrite =>
    exact h.runCommand (fun c d hd => hd.of_bank fun i => by
      split
      · exact hd
      · exact hd
      · exact hd
      · exact hd
      · exact hd
      · unfold writeOpenBank
        split
        · exact hd
        · split
          · exact hd
          · dsimp only; split <;> exact hd) he
  | bankCheck =>
    exact h.runCommand (fun c d hd => hd.of_bank fun i => by
      split
      · exact hd
      · split <;> exact hd) he
  | bankSchedule =>
    exact h.runCommand (fun c d hd => hd.of_bank fun i => by
      dsimp only
      split
      · exact hd
      · split <;> exact hd) he
  | bankCancel =>
    refine h.runCommand (fun c d hd => ?_) he
    unfold bankCancel
    split <;> exact hd
  | start =>
    exact h.runCommand (fun c d hd => hd.of_bank fun i => by
      split
      · exact hd
      · exact hd.same (startPart_side _ _)) he
  | stop =>
    refine h.runCommand (fun c d hd => ?_) he
    unfold stopCommand
    split
    · exact hd.same (stopPart_side _)
    · exact hd
  | baselineLearn =>
    refine h.runCommand (fun c d hd => ?_) he
    unfold baselineLearn
    split
    · exact hd
    · split <;> exact hd
  | baselineRead =>
    refine h.runCommand (fun c d hd => ?_) he
    unfold baselineRead
    split
    · exact hd
    · split <;> exact hd
  | baselineReserve =>
    refine h.runCommand (fun c d hd => ?_) he
    unfold baselineReserve
    split
    · exact hd
    · split <;> exact hd
  | baselinePut =>
    refine h.runCommand (fun c d hd => ?_) he
    unfold baselinePut
    split
    · exact hd
    · split
      · unfold putFace
        split
        · exact hd
        · split
          · exact hd
          · split <;> exact hd
      · exact hd
  | tierLimit =>
    refine h.runCommand (fun c d hd => ?_) he
    unfold tierLimit
    split
    · split
      · exact hd
      · split
        · exact hd
        · show Side (Dev.onFaces _ _ _)
          unfold Dev.onFaces
          split
          · exact hd
          · exact hd
          · exact hd.same (SideSame.bothFaces fun _ _ => ⟨rfl, rfl⟩)
    · exact hd
    · exact hd
  | queryStatus => exact h.runCommand (fun c d hd => by unfold queryStatus; split <;> exact hd) he
  | queryCounters => exact h.runCommand (fun _ _ hd => hd) he
  | queryLanes => exact h.runCommand (fun _ _ hd => withFace_keeps (P := Side) hd fun _ => hd) he
  | queryStreaks => exact h.runCommand (fun _ _ hd => withFace_keeps (P := Side) hd fun _ => hd) he
  | queryPending => exact h.runCommand (fun _ _ hd => hd) he
  | queryRetained => exact h.runCommand (fun _ _ hd => hd) he
  | clearCounters => exact h.runCommand (fun _ _ hd => hd.clearAll) he
  | retainWrite =>
    refine h.runCommand (fun c d hd => ?_) he
    unfold retainWrite
    dsimp only
    split <;> exact hd
  | reset =>
    simp only [exec, execReset] at he
    split at he
    · cases he; exact h
    · split at he
      · cases he; exact side_commandReset _ h
      · exact h.runCommand (fun _ _ hd => hd) he
  | powerOnReset a b => cases he; exact ⟨portsLaw_powerOn rfl, Nat.zero_le _⟩
  | pinReset a b => cases he; exact ⟨portsLaw_powerOn rfl, Nat.zero_le _⟩

end Sys2Proof.Machine
end

