-- ==== Sys2Proof/Laws/Queries.lean ====
section
/-! SUPPORT. What the bodies of the queries are, section by section: the words that one chapter's values take in a reply. -/

namespace Sys2Proof.Machine

open Sys2Proof

theorem perFace_flatMap (d : Dev) (w : FaceId → Face → List Word) :
    perFace d w = [FaceId.lead, .trail].flatMap fun f => w f (d.face f) := by
  simp only [perFace, List.flatMap_cons, List.flatMap_nil, List.append_nil]

theorem inSpans_lit (b : Base) (f : FaceId) (c : Nat) : inSpans (b.lit f) c = !b.dark f c := by
  simp only [Base.dark, Bool.not_not]

theorem optWord_words (n : Option Nat) : optWord n = (n.map word).getD 0xFFFFFFFF#32 := rfl
theorem optPos_words (p : Option Int) : optPos p = (p.map fun q => wordI (q / 10240)).getD 0xFFFFFFFF#32 := rfl
theorem flagWord_words (x : Bool) : flagWord x = word (if x then 1 else 0) := rfl

/-! ### QUERY STATUS -/

theorem motionStatus_words (d : Dev) : motionStatus d =
    [word (match d.base.motion.state with | .still => 0 | .creep => 1 | .moving => 2 | .backing => 3),
      wordI (d.base.motion.p / 10240), wordI (d.base.motion.h / 10240), word d.base.motion.speed] ++
    ([FaceId.lead, .trail].flatMap fun f => [wordI (d.base.facePos f / 10240), (d.face f).grid.index,
      wordI ((d.face f).grid.next / 10240), wordI (((d.face f).grid.creep : Int) / 10240)]) ++
    [word d.base.motion.setup.e, word d.base.motion.setup.n, word d.base.motion.setup.d, word d.base.motion.setup.die,
      word d.base.motion.setup.vmin, word d.base.motion.setup.backlash, word d.base.motion.setup.reverse,
      word d.base.motion.setup.window] := by
  have h (x : MotionState) : motionCode x = (match x with | .still => 0 | .creep => 1 | .moving => 2 | .backing => 3) := by
    cases x <;> rfl
  simp only [motionStatus, perFace_flatMap, h]; rfl

theorem sensorStatus_words (d : Dev) : sensorStatus d =
    ([0, 1, 2, 3].flatMap fun n => [flagWord (d.base.port n).place.enabled,
      word (faceCode (d.base.port n).place.face), word (d.base.port n).place.first,
      word (d.base.port n).place.last, word (d.base.port n).place.origin, flagWord (d.base.port n).place.descending,
      word (match (d.base.port n).head with | .off => 0 | .active => 1 | .silent => 2), word (d.base.port n).missing]) ++
    ([FaceId.lead, .trail].flatMap fun f => [wordI (d.face f).asm.geometry.origin, word (d.face f).asm.geometry.pitch,
      flagWord (d.face f).asm.geometry.mirrored, word ((List.range 8192).filter (d.base.dark f)).length,
      word (d.face f).asm.slots.length]) ++
    [flagWord d.base.sens.locked] := by
  have h (x : HeadState) : headCode x = (match x with | .off => 0 | .active => 1 | .silent => 2) := by cases x <;> rfl
  simp only [sensorStatus, perFace_flatMap, h]; rfl

theorem pixelStatus_words (d : Dev) : pixelStatus d = [FaceId.lead, .trail].flatMap fun f =>
    [Config.code .facePhase (match (d.face f).pixel.phase with | .idle => 0 | .learning => 1 | .detecting => 2)] ++
    (if (d.face f).pixel.phase = .learning then [word (d.face f).pixel.learnLines, word (d.face f).pixel.learnLength]
      else [0xFFFFFFFF#32, 0xFFFFFFFF#32]) ++ [word (d.face f).pixel.lastClip] ++
    (match (d.face f).pixel.reservation with
      | some r => [word r.first, word r.snapshot.length]
      | none => [0xFFFFFFFF#32, 0xFFFFFFFF#32]) ++
    [if (d.face f).pixel.phase = .idle then 0xFFFFFFFF#32
      else word ((List.range 8192).filter fun col =>
        decide ((planEntry ((d.base.banks.plan f).getD []) col).kind = .lane) && !d.base.dark f col &&
          !((d.face f).pixel.col col).learned).length] := by
  have h (x : Phase) : x.index = (match x with | .idle => 0 | .learning => 1 | .detecting => 2) := by cases x <;> rfl
  have hr (x : Option Reservation) : reservationWords x = (match x with
      | some r => [word r.first, word r.snapshot.length]
      | none => [0xFFFFFFFF#32, 0xFFFFFFFF#32]) := by cases x <;> rfl
  simp only [pixelStatus, perFace_flatMap, h, hr, unlearnedWord, unlearnedLanes, countColumns,
    inSpans_lit, Config.columns, learningWords, absentWord]

theorem columnWords_words (d : Dev) : columnWords d = [FaceId.lead, .trail].flatMap fun f =>
    (if (d.base.banks.activeOn f).isSome then
      [PlanKind.lane, .guard, .margin, .exclude, .unmapped].map fun k => word ((List.range 8192).filter fun col =>
        decide (columnKind (d.base.banks.plan f) (d.base.lit f) col = .planned k)).length
    else []) ++ [word ((List.range 8192).filter (d.base.dark f)).length] ++
    (List.range 16).flatMap fun lane => if (d.base.banks.activeOn f).isSome then
      [PlanKind.lane, .guard].map fun k => word ((List.range 8192).filter fun col => !d.base.dark f col &&
        decide (planEntry ((d.base.banks.plan f).getD []) col = { kind := k, lane := some lane })).length
    else [0xFFFFFFFF#32, 0xFFFFFFFF#32] := by
  unfold columnWords
  rw [perFace_flatMap]
  congr 1
  funext f
  have h : ∀ k j, d.base.laneCount f k j = ((List.range 8192).filter fun col => !d.base.dark f col &&
      decide (planEntry ((d.base.banks.plan f).getD []) col = { kind := k, lane := some j })).length := by
    intro k j
    simp only [Base.laneCount, countColumns, inSpans_lit, Config.columns]
  have hd : d.base.darkColumns f = ((List.range 8192).filter (d.base.dark f)).length := by
    simp only [Base.darkColumns, countColumns, Config.columns]
  have hk (k) : d.base.kindCount f k = ((List.range 8192).filter fun col =>
      decide (columnKind (d.base.banks.plan f) (d.base.lit f) col = .planned k)).length := by
    simp only [Base.kindCount, countColumns, Config.columns]
  unfold kindWords laneWordsOf
  cases hb : (d.base.banks.activeOn f).isSome
  · simp only [Bool.false_eq_true, if_false, hd, laneNumbers, Config.lanes, absentWord, List.nil_append]
  · simp only [if_true, h, hd, hk, laneNumbers, Config.lanes, List.map_cons, List.map_nil]

theorem patternStatus_words (d : Dev) : patternStatus d = [word d.insp.marks.list.length] ++
    ([FaceId.lead, .trail].flatMap fun f => [
      optWord ((d.face f).pattern.state.map fun st => match st with
        | .continuous => 0 | .seeking => 1 | .synced => 2 | .coasting => 3 | .lost => 4),
      optPos (d.face f).pattern.edge, word (d.face f).pattern.misses, optPos (d.face f).pattern.seek,
      ((d.face f).pattern.lastZone.map fun z => Config.code .zone (match z with
        | .coated => 0 | .leadGuard => 1 | .trailGuard => 2 | .gap => 3)).getD 0xFFFFFFFF#32]) ++ columnWords d := by
  have h : patternCode = fun x => (match x with
      | .continuous => 0 | .seeking => 1 | .synced => 2 | .coasting => 3 | .lost => 4) := by funext x; cases x <;> rfl
  have hz (z : Zone) : z.index = (match z with
      | .coated => 0 | .leadGuard => 1 | .trailGuard => 2 | .gap => 3) := by cases z <;> rfl
  simp only [patternStatus, patternWords, perFace_flatMap, h, hz]; rfl

theorem blobStatus_words (d : Dev) : blobStatus d =
    ([FaceId.lead, .trail].flatMap fun f => [word (d.face f).blob.openCount, flagWord (d.face f).blob.saturated]) ++
    [word ((List.range 8).filter fun k => (tget none d.insp.out.buffers k).isNone).length] := by
  simp only [blobStatus, perFace_flatMap]; rfl

theorem streakStatus_words (d : Dev) : streakStatus d = [FaceId.lead, .trail].flatMap fun f =>
    [word (d.face f).streak.openCount, flagWord (d.face f).streak.saturated] ++
    [ColumnStreak.onset, .streak, .releasing].map fun st =>
      word ((d.face f).streak.cols.filter fun e => decide (e.2.state = st)).length := by
  simp only [streakStatus, perFace_flatMap]; rfl

theorem tierStatus_words (d : Dev) : tierStatus d = [FaceId.lead, .trail].flatMap fun f => [flagWord (d.face f).tier.alert,
    word ((List.range 16).filter fun j => decide (2 ≤ ((d.face f).tier.lane j).own)).length] := by
  simp only [tierStatus, perFace_flatMap]; rfl

theorem bankStatus_words (d : Dev) : bankStatus d = [Config.code .partState (if d.base.banks.running then 1 else 0)] ++
    ([BankId.bank0, .bank1].flatMap fun k => match (d.base.banks.bank k).state with
      | .vacant => [Config.code .bankState 0, 0xFFFFFFFF#32]
      | .opened => [Config.code .bankState 1, 0xFFFFFFFF#32]
      | .checking => [Config.code .bankState 2, 0xFFFFFFFF#32]
      | .checked => [Config.code .bankState 3, 0xFFFFFFFF#32]
      | .scheduled => [Config.code .bankState 4, 0xFFFFFFFF#32]
      | .active fs => [Config.code .bankState 5, word (match fs with | .lead => 0 | .trail => 1 | .both => 2)]) ++
    [optPos d.base.banks.switchPos, flagWord d.base.banks.isChecking, if d.base.banks.bank0.state = .checking then 0
      else if d.base.banks.bank1.state = .checking then 1 else 0xFFFFFFFF#32] ++
    ([BankId.bank0, .bank1].flatMap fun k => [optWord ((d.base.banks.bank k).compiled.map (·.minLines)),
      optWord ((d.base.banks.bank k).compiled.map (·.releaseLines))]) := by
  have h (b : Bank) : bankWords b = (match b.state with
      | .vacant => [Config.code .bankState 0, 0xFFFFFFFF#32]
      | .opened => [Config.code .bankState 1, 0xFFFFFFFF#32]
      | .checking => [Config.code .bankState 2, 0xFFFFFFFF#32]
      | .checked => [Config.code .bankState 3, 0xFFFFFFFF#32]
      | .scheduled => [Config.code .bankState 4, 0xFFFFFFFF#32]
      | .active fs => [Config.code .bankState 5, word (match fs with | .lead => 0 | .trail => 1 | .both => 2)]) := by
    unfold bankWords
    cases b.state
    case active fs => cases fs <;> rfl
    all_goals rfl
  have hc (b : Banks) : optWord (b.checkingBank.map bankCode) = if b.bank0.state = .checking then 0
      else if b.bank1.state = .checking then 1 else 0xFFFFFFFF#32 := by
    unfold Banks.checkingBank
    split
    · rfl
    · split <;> rfl
  simp only [bankStatus, h, hc, List.flatMap_cons, List.flatMap_nil, List.append_nil, List.append_assoc]; rfl

theorem linkStatus_words (d : Dev) : linkStatus d = [Config.code .linkState (if d.insp.out.linkUp then 1 else 0)] ++
    allQueues.map (fun q => word (d.insp.out.queue q).entries.length) ++
    allQueues.map (fun q => word (d.insp.out.queue q).pendingLoss) ++ [flagWord d.insp.out.startPending] ++
    ([FaceId.lead, .trail].flatMap fun f => [word (d.face f).preview.decimation, word (d.face f).preview.binning]) := by
  simp only [linkStatus, perFace_flatMap]; rfl

theorem execStatus_words (d : Dev) : execStatus d = [word d.base.exec.queue.length,
    word (match d.insp.out.cause with | .power => 0 | .pin => 1 | .command => 2), optWord d.insp.out.tag,
    flagWord d.insp.out.kept] := by
  have h (x : ResetCause) : causeCode x = (match x with | .power => 0 | .pin => 1 | .command => 2) := by cases x <;> rfl
  simp only [execStatus, h]

/-! ### QUERY STREAKS, QUERY PENDING -/

theorem streakRecordWords_words : streakRecordWords = fun e => [word e.1,
    word (match e.2.polarity with | .bright => 0 | .dark => 1), word e.2.colMin, word e.2.colMax, word e.2.founding,
    word e.2.lane, flagWord e.2.inGuard, wordI (e.2.start / 10240), wordI (e.2.openPos / 10240),
    wordI (e.2.lastContinue / 10240), word e.2.peak, word e.2.members, word e.2.tierAtOpen] := by
  funext e
  rcases e with ⟨n, ⟨p, _⟩⟩
  cases p <;> rfl

theorem pendingWords_words : pendingWords = fun e => [e.record.first, e.record.last, wordI e.record.md, wordI e.record.cd,
      word e.record.cls, word (match e.record.polarity with | .bright => 0 | .dark => 1), word e.record.lane] ++
    (match e.record.excerpt with
      | .none => [0, 0xFFFFFFFF#32]
      | .captured k => [1, word k]
      | .partly k => [2, word k]
      | .skipped => [3, 0xFFFFFFFF#32]
      | .withdrawn => [4, 0xFFFFFFFF#32]) ++ [optWord (e.bank.map bankCode)] := by
  funext e
  have h (x : Polarity) : polarityCode x = (match x with | .bright => 0 | .dark => 1) := by cases x <;> rfl
  unfold pendingWords
  simp only [h]
  cases e.record.excerpt <;> rfl

/-! ### QUERY COUNTERS -/

theorem countersReply_words (before : Nat) (d : Dev) : countersReply before d =
    [word d.base.motion.encFaults] ++ ([FaceId.lead, .trail].map fun f => word (d.face f).grid.overruns) ++
    ([0, 1, 2, 3].flatMap fun n => portCountWords (d.base.port n).counts) ++
    ([FaceId.lead, .trail].flatMap fun f => [word (d.face f).asm.forced, word (d.face f).asm.abandoned]) ++
    ([FaceId.lead, .trail].flatMap fun f => [word (d.face f).pixel.clipped, word (d.face f).pixel.processed]) ++
    [word d.insp.marks.accepted, word d.insp.marks.repeated, word d.insp.marks.dropped] ++
    ([FaceId.lead, .trail].flatMap fun f => [word (d.face f).pattern.consumed, word (d.face f).pattern.early,
      word (d.face f).pattern.missTotal, word (d.face f).pattern.lost]) ++
    ([FaceId.lead, .trail].flatMap fun f => [word (d.face f).blob.dropped, word (d.face f).blob.discarded,
      word (d.face f).blob.merges, word (d.face f).blob.closed, word (d.face f).blob.skipped,
      word (d.face f).blob.satEntries]) ++
    ([FaceId.lead, .trail].flatMap fun f => [word (d.face f).streak.opened, word (d.face f).streak.closed,
      word (d.face f).streak.merges, word (d.face f).streak.held, word (d.face f).streak.satEntries]) ++
    [word d.insp.corr.matchCount, word d.insp.corr.trailOnly, word d.insp.corr.expired, word d.insp.corr.evicted,
      word d.insp.corr.stopped, word d.insp.corr.highWater] ++
    ([FaceId.lead, .trail].flatMap fun f => [word (d.face f).tier.escalations, word (d.face f).tier.relaxations,
      word (d.face f).tier.alerts]) ++
    allQueues.map (fun q => word (d.insp.out.queue q).totalLost) ++
    ([FaceId.lead, .trail].map fun f => word (d.face f).preview.replaced) ++
    [word d.insp.out.framesSent, word d.insp.out.inboundErrors, word d.insp.out.linkDowns] ++
    [word (if Config.countsOwnQuery then d.base.exec.executed else before), word d.base.exec.busy,
      word d.base.exec.discarded] := by
  simp only [countersReply, motionCounters, sensorCounters, pixelCounters, patternCounters, blobCounters, streakCounters,
    corrCounters, tierCounters, linkCounters, execCounters, perFace, portNumbers, List.flatMap_cons, List.flatMap_nil,
    List.map_cons, List.map_nil, List.append_assoc, List.cons_append, List.nil_append, List.append_nil]

end Sys2Proof.Machine
end

