-- ==== Sys2Proof/Laws/Streaks.lean ====
section
/-! SUPPORT. What joining, merging and closing do to the streaks of a face (R107, R108, R111). -/

namespace Sys2Proof.Machine

open Sys2Proof

variable {b : Base} {f : FaceId}

@[simp] theorem onStreaks_streaks (i : Insp) (f : FaceId) (g : Streaks → Streaks) : (i.onStreaks f g).streaks f = g (i.streaks f) := by
  cases f <;> rfl
@[simp] theorem onStreaks_out (i : Insp) (f : FaceId) (g : Streaks → Streaks) : (i.onStreaks f g).out = i.out := by cases f <;> rfl
@[simp] theorem onStreaks_asm (i : Insp) (f : FaceId) (g : Streaks → Streaks) : ((i.onStreaks f g).face f).asm = (i.face f).asm := by
  cases f <;> rfl
@[simp] theorem onStreaks_pattern (i : Insp) (f : FaceId) (g : Streaks → Streaks) :
    ((i.onStreaks f g).face f).pattern = (i.face f).pattern := by cases f <;> rfl
@[simp] theorem onStreaks_lost (i : Insp) (f : FaceId) (g : Streaks → Streaks) : (i.onStreaks f g).lost f = i.lost f := by
  cases f <;> rfl
@[simp] theorem route_streaks (i : Insp) (t : Route) (r : Report) (f : FaceId) : (i.route t r).streaks f = i.streaks f := by
  cases f <;> rfl
@[simp] theorem offerStatus_streaks (i : Insp) (g : Option FaceId) (st : Status) (f : FaceId) :
    (i.offerStatus g st).streaks f = i.streaks f := by cases f <;> rfl

/-- Counting on from a saturated count. -/
theorem satAdd_satAdd (m n a k : Nat) : satAdd m (satAdd m n a) k = satAdd m n (a + k) := by
  unfold satAdd; omega

/-! ### Reach (R107) -/

theorem memberOf_iff (v : StreakColumn) (k : Nat) :
    v.memberOf k = true ↔ (v.state = .streak ∨ v.state = .releasing) ∧ v.number = k := by
  unfold StreakColumn.memberOf StreakColumn.member
  cases v.state <;> simp

theorem near_iff (x : Streaks) (c n k : Nat) : x.near c n k = true ↔ ∃ c', c ≤ c' + n ∧ c' ≤ c + n ∧
    ((x.col c').state = .streak ∨ (x.col c').state = .releasing) ∧ (x.col c').number = k := by
  unfold Streaks.near
  simp only [List.any_eq_true, List.mem_range, Bool.and_eq_true, decide_eq_true_eq, memberOf_iff]
  constructor
  · rintro ⟨d, h1, h2, h3⟩
    exact ⟨c + d - n, by omega, by omega, h3⟩
  · rintro ⟨c', h1, h2, h3⟩
    refine ⟨c' + n - c, by omega, by omega, ?_⟩
    rwa [show c + (c' + n - c) - n = c' by omega]

theorem older_trans (a b c : Nat × Streak) (h1 : older a b = true) (h2 : older b c = true) : older a c = true := by
  simp only [older, Bool.or_eq_true, Bool.and_eq_true, decide_eq_true_eq] at *
  omega

theorem older_total {a b : Nat × Streak} (h : a.1 < b.1) : older a b = true ∨ older b a = true := by
  simp only [older, Bool.or_eq_true, Bool.and_eq_true, decide_eq_true_eq]
  omega

theorem older_iff (a b : Nat × Streak) :
    older a b = true ↔ a.2.start < b.2.start ∨ a.2.start = b.2.start ∧ a.1 < b.1 := by
  simp only [older, Bool.or_eq_true, Bool.and_eq_true, decide_eq_true_eq]

/-! ### Closing (R111) -/

/-- What a close does: the slot, the count, saturation, and its reports. -/
theorem closeStreak_streaks (reason : StreakReason) (survivor : Option Nat) (line : Option (Word × Int)) (k : Nat) (g : Streak)
    (i : Insp) : (closeStreak b f reason survivor line k g i).streaks f = { i.streaks f with
      open_ := tset none (i.streaks f).open_ k none, closed := count32 (i.streaks f).closed, saturated := false } := by
  unfold closeStreak offerStreakSaturation
  dsimp only
  split
  · split <;> simp only [offerStatus_streaks, onStreaks_streaks, route_streaks, Streaks.setStreak]
  · rename_i h
    simp only [Bool.not_eq_true] at h
    simp only [onStreaks_streaks, route_streaks, Streaks.setStreak, h]

theorem closeStreak_frame (reason : StreakReason) (survivor : Option Nat) (line : Option (Word × Int)) (k : Nat) (g : Streak)
    (i : Insp) : ((closeStreak b f reason survivor line k g i).face f).asm = (i.face f).asm ∧
      (closeStreak b f reason survivor line k g i).lost f = i.lost f := by
  unfold closeStreak offerStreakSaturation Insp.lost
  dsimp only
  split
  · split <;> simp only [offerStatus_face, onStreaks_asm, onStreaks_pattern, route_face, and_self]
  · simp only [onStreaks_asm, onStreaks_pattern, route_face, and_self]

theorem closeStreak_out (reason : StreakReason) (survivor : Option Nat) (line : Option (Word × Int)) (k : Nat) (g : Streak)
    (i : Insp) (h : (i.streaks f).saturated = false) : (closeStreak b f reason survivor line k g i).out =
      i.out.route (b.banks.contents f).policy.streakClose.level (b.banks.contents f).policy.streakClose.slot
        (.streak (streakReport (.closed reason survivor) f (i.face f).asm.geometry (i.lost f) k g ((line.map (·.2)).getD g.start)
          ((line.map (·.2)).getD g.start - g.start) 0)) := by
  unfold closeStreak
  simp only [h, Bool.false_eq_true, if_false, route_out, onStreaks_out]

/-! ### Merging (R108) -/

theorem tget_renumber (k k' : Nat) (cols : Table StreakColumn) (n : Nat) :
    tget (StreakColumn.quiet 0) (renumber k k' cols) n =
      if (tget (StreakColumn.quiet 0) cols n).memberOf k' then { tget (StreakColumn.quiet 0) cols n with number := k }
      else tget (StreakColumn.quiet 0) cols n := by
  unfold renumber
  induction cols with
  | nil => rfl
  | cons e t ih =>
    by_cases hn : n = e.1
    · subst hn
      simp only [List.map_cons, tget, if_true]
      split <;> simp only [if_true]
    · have h1 : tget (StreakColumn.quiet 0) (e :: t) n = tget (StreakColumn.quiet 0) t n := by simp [tget, hn]
      rw [h1, ← ih, List.map_cons]
      split <;> simp [hn, tget]

/-- One younger streak is merged into streak `k`. -/
theorem mergeStreak_streaks (line : Option (Word × Int)) (k : Nat) (i : Insp) (y : Nat × Streak) (e : Streak)
    (he : (i.streaks f).streak k = some e) : (mergeStreak b f line k i y).streaks f = { i.streaks f with
      cols := renumber k y.1 (i.streaks f).cols,
      open_ := tset none (tset none (i.streaks f).open_ k (some { e with
        colMin := min e.colMin y.2.colMin, colMax := max e.colMax y.2.colMax, members := e.members + y.2.members,
        peak := max e.peak y.2.peak })) y.1 none,
      merges := count32 (i.streaks f).merges, closed := count32 (i.streaks f).closed, saturated := false } := by
  unfold Streaks.streak at he
  unfold mergeStreak
  rw [closeStreak_streaks]
  simp only [onStreaks_streaks, Streaks.onStreak, Streaks.streak, he, Streaks.setStreak]

/-- The column a member of one of the merged streaks becomes. -/
def renumbered (k : Nat) (gone : List Nat) (v : StreakColumn) : StreakColumn :=
  if (v.state = .streak ∨ v.state = .releasing) ∧ v.number ∈ gone then { v with number := k } else v

/-- R108: all younger streaks merged into streak `k`, oldest first. -/
theorem mergeStreaks (n : Word) (p : Int) (k : Nat) : ∀ (others : List (Nat × Streak)) (i : Insp) (e : Streak),
    (i.streaks f).streak k = some e → (∀ y ∈ others, y.1 ≠ k) →
    ∃ j : Insp, j = others.foldl (mergeStreak b f (some (n, p)) k) i ∧
      (j.streaks f).streak k = some { e with
        colMin := (others.map (·.2.colMin)).foldl min e.colMin, colMax := (others.map (·.2.colMax)).foldl max e.colMax,
        members := e.members + (others.map (·.2.members)).sum, peak := (others.map (·.2.peak)).foldl max e.peak } ∧
      (∀ m, m ≠ k → (j.streaks f).streak m = if m ∈ others.map (·.1) then none else (i.streaks f).streak m) ∧
      (∀ m, (j.streaks f).col m = renumbered k (others.map (·.1)) ((i.streaks f).col m)) ∧
      (j.streaks f).opened = (i.streaks f).opened ∧ (j.streaks f).held = (i.streaks f).held ∧
      (others ≠ [] → (j.streaks f).merges = min ((i.streaks f).merges + others.length) 4294967295 ∧
        (j.streaks f).closed = min ((i.streaks f).closed + others.length) 4294967295 ∧ (j.streaks f).saturated = false) ∧
      ((i.streaks f).saturated = false → j.out = others.foldl (fun o a =>
        o.route (b.banks.contents f).policy.streakClose.level (b.banks.contents f).policy.streakClose.slot
          (.streak (streakReport (.closed .merged (some k)) f (i.face f).asm.geometry (i.lost f) a.1 a.2 p
            (p - a.2.start) 0))) i.out) := by
  intro others
  induction others with
  | nil =>
    intro i e he _
    refine ⟨i, rfl, by simpa using he, fun m _ => by simp, fun m => by simp [renumbered], rfl, rfl, fun h => absurd rfl h, fun _ => rfl⟩
  | cons y ys ih =>
    intro i e he hk
    have hy : y.1 ≠ k := hk y (List.mem_cons_self ..)
    have hs := mergeStreak_streaks (b := b) (f := f) (some (n, p)) k i y e he
    set i1 := mergeStreak b f (some (n, p)) k i y with hi1
    have he1 : (i1.streaks f).streak k = some { e with
        colMin := min e.colMin y.2.colMin, colMax := max e.colMax y.2.colMax, members := e.members + y.2.members,
        peak := max e.peak y.2.peak } := by
      rw [hs]; unfold Streaks.streak; dsimp only
      rw [tget_tset_other _ _ _ _ _ (Ne.symm hy), tget_tset_same]
    obtain ⟨j, hj, h1, h2, h3, h4, h5, h6, h7⟩ := ih i1 _ he1 (fun z hz => hk z (List.mem_cons_of_mem _ hz))
    refine ⟨j, by rw [List.foldl_cons]; exact hj, ?_, ?_, ?_, ?_, ?_, ?_, ?_⟩
    · rw [h1]; simp only [List.map_cons, List.foldl_cons, List.sum_cons, Nat.add_assoc]
    · intro m hm
      rw [h2 m hm]
      have : (i1.streaks f).streak m = if m = y.1 then none else (i.streaks f).streak m := by
        rw [hs]; unfold Streaks.streak; dsimp only
        rw [tget_tset, tget_tset_other _ _ _ _ _ hm]
      rw [this]
      simp only [List.map_cons, List.mem_cons]
      by_cases hmy : m = y.1 <;> by_cases hms : m ∈ ys.map (·.1) <;> simp [hmy, hms]
    · intro m
      rw [h3 m]
      have : (i1.streaks f).col m = if ((i.streaks f).col m).memberOf y.1 then { (i.streaks f).col m with number := k }
          else (i.streaks f).col m := by
        rw [hs]; unfold Streaks.col; dsimp only; rw [tget_renumber]
      rw [this]
      unfold renumbered
      have hmem := memberOf_iff ((i.streaks f).col m) y.1
      simp only [List.map_cons, List.mem_cons]
      by_cases hc : ((i.streaks f).col m).memberOf y.1 = true
      · have h := hmem.mp hc
        rw [if_pos hc]
        refine Eq.trans ?_ (if_pos ⟨h.1, Or.inl h.2⟩).symm
        split <;> rfl
      · rw [if_neg hc]
        have hn : ¬ (((((i.streaks f).col m).state = .streak) ∨ ((i.streaks f).col m).state = .releasing) ∧
          ((i.streaks f).col m).number = y.1) := fun h => hc (hmem.mpr h)
        by_cases hq : (((i.streaks f).col m).state = .streak ∨ ((i.streaks f).col m).state = .releasing) ∧
            ((i.streaks f).col m).number ∈ ys.map (·.1)
        · rw [if_pos hq, if_pos ⟨hq.1, .inr hq.2⟩]
        · rw [if_neg hq, if_neg]
          rintro ⟨h1, h2 | h2⟩
          · exact hn ⟨h1, h2⟩
          · exact hq ⟨h1, h2⟩
    · rw [h4, hs]
    · rw [h5, hs]
    · intro _
      cases ys with
      | nil =>
        rw [List.foldl_nil] at hj
        rw [hj, hs]
        exact ⟨rfl, rfl, rfl⟩
      | cons z zs =>
        obtain ⟨g1, g2, g3⟩ := h6 (by simp)
        rw [g1, g2, g3, hs]
        refine ⟨?_, ?_, rfl⟩
        · rw [show (y :: z :: zs).length = 1 + (z :: zs).length by simp only [List.length_cons]; omega]
          exact satAdd_satAdd 4294967295 (i.streaks f).merges 1 (z :: zs).length
        · rw [show (y :: z :: zs).length = 1 + (z :: zs).length by simp only [List.length_cons]; omega]
          exact satAdd_satAdd 4294967295 (i.streaks f).closed 1 (z :: zs).length
    · intro hsat
      have hsat1 : (i1.streaks f).saturated = false := by rw [hs]
      rw [h7 hsat1, List.foldl_cons]
      have hout : i1.out = i.out.route (b.banks.contents f).policy.streakClose.level
          (b.banks.contents f).policy.streakClose.slot (.streak (streakReport (.closed .merged (some k)) f
            (i.face f).asm.geometry (i.lost f) y.1 y.2 p (p - y.2.start) 0)) := by
        rw [hi1]; unfold mergeStreak
        rw [closeStreak_out]
        · simp only [onStreaks_asm, onStreaks_lost, onStreaks_out, Option.map_some, Option.getD_some]
        · simp only [onStreaks_streaks, Streaks.onStreak]
          split <;> exact hsat
      have hframe : (i1.face f).asm = (i.face f).asm ∧ i1.lost f = i.lost f := by
        rw [hi1]; unfold mergeStreak
        have := closeStreak_frame (b := b) (f := f) .merged (some k) (some (n, p)) y.1 y.2
          (i.onStreaks f fun x => { x with cols := renumber k y.1 x.cols, merges := count32 x.merges }.onStreak k fun s =>
            { s with colMin := min s.colMin y.2.colMin, colMax := max s.colMax y.2.colMax, members := s.members + y.2.members,
                     peak := max s.peak y.2.peak })
        rw [onStreaks_asm, onStreaks_lost] at this
        exact this
      rw [hout, hframe.1, hframe.2]

/-! ### Entering a streak (R107 to R110) -/

/-- R107, R108: a column with streaks in reach. They are `(k, e)`, the oldest, and the others, from the oldest on. -/
theorem enterStreak_inReach (r : LineRecord) (c : Nat) (y : RecordColumn) (level : Int) (i : Insp) (l : List (Nat × Streak))
    (hl : l = (occupied (i.streaks f).open_).filter fun e => decide (e.2.polarity = ((i.streaks f).col c).onsetPolarity) &&
      (i.streaks f).near c ((b.banks.contents f).detection.sg + 1) e.1)
    (hwf : twf none (i.streaks f).open_ = true) (hne : l ≠ []) :
    ∃ (k : Nat) (e : Streak) (others : List (Nat × Streak)), ((k, e) :: others).Perm l ∧
      ((k, e) :: others).Pairwise (fun a c => older a c = true) ∧ (i.streaks f).streak k = some e ∧ (∀ y ∈ others, y.1 ≠ k) ∧
      enterStreak b f r c y level i =
        (others.foldl (mergeStreak b f (some (r.head.index, r.head.pos)) k) i).onStreaks f fun x => x.join c k level := by
  have hsort : l.Pairwise fun a b => a.1 < b.1 := by
    rw [hl]; exact (occupied_pairwise hwf).filter _
  have hperm := orderBy_perm older l
  have hpw := orderBy_pairwise older l older_trans (hsort.imp fun h => older_total h)
  have hreach : (i.streaks f).inReach ((i.streaks f).col c).onsetPolarity c ((b.banks.contents f).detection.sg + 1) =
      orderBy older l := by rw [hl]; rfl
  cases ho : orderBy older l with
  | nil =>
    rw [ho] at hperm
    exact absurd hperm.symm.eq_nil hne
  | cons x others =>
    rcases x with ⟨k, e⟩
    rw [ho] at hperm hpw
    have hnd : (((k, e) :: others).map Prod.fst).Nodup :=
      (hperm.map Prod.fst).nodup_iff.mpr ((List.pairwise_map.mpr hsort).imp Nat.ne_of_lt)
    refine ⟨k, e, others, hperm, hpw, ?_, ?_, ?_⟩
    · have : (k, e) ∈ l := hperm.mem_iff.mp (List.mem_cons_self ..)
      rw [hl] at this
      exact (mem_occupied hwf).mp (List.mem_filter.mp this).1
    · intro z hz hk
      rw [List.map_cons, List.nodup_cons] at hnd
      exact hnd.1 (List.mem_map.mpr ⟨z, hz, hk⟩)
    · unfold enterStreak
      simp only [hreach, ho]

end Sys2Proof.Machine
end

