-- ==== Sys2Proof/Tests/Slice0.lean ====
section
/-! SUPPORT. The model's own tests: ill-formed commands, one or two small steps per row, and for the hypotheses of the
statements concrete states that meet them, at the boundaries of their clauses. -/

set_option Elab.async false
set_option maxRecDepth 100000

namespace Sys2Proof.Tests

open Sys2Proof Sys2Proof.Machine

/-! ### Helpers -/

/-- The part after a step; a part no test expects where the step stops. -/
def devOf (o : Host.Outcome State Fault Refusal) : Dev :=
  match o with
  | .next t => t.dev
  | .fault _ | .refused _ => Dev.powerOn true true 99

def onBase (g : Base → Base) (s : State) : State := { s with dev := { s.dev with base := g s.dev.base } }
def onInsp (g : Insp → Insp) (s : State) : State := { s with dev := { s.dev with insp := g s.dev.insp } }
def onFaceOf (f : FaceId) (g : Face → Face) (s : State) : State := onInsp (fun i => i.onFace f g) s
def onMotionOf (g : Motion → Motion) (s : State) : State := onBase (fun b => { b with motion := g b.motion }) s
def onBanksOf (g : Banks → Banks) (s : State) : State := onBase (fun b => { b with banks := g b.banks }) s
def onOutOf (g : Out → Out) (s : State) : State := onInsp (fun i => { i with out := g i.out }) s
def withPort (n : Nat) (p : Port) (s : State) : State := { s with dev := s.dev.setPort n p }

/-- A command frame's content: code, tag 7, operands. -/
def cmd (code : Nat) (ops : List Nat) : Command := { code := code, tag := 7, count := ops.length, ops := ops.map word }

/-- A state in which the command stands alone in the queue. -/
def queued (s : State) (c : Command) : State := onBase (fun b => { b with exec := { b.exec with queue := [c] } }) s

/-- The reply last accepted. -/
def replyIn (d : Dev) : Option (ReplyCode × List Word) :=
  match d.insp.out.reply.entries.getLast? with
  | some { report := .reply r, lostBefore := _ } => some (r.reply, r.body)
  | _ => none

/-- The part after a command, alone in the queue, has been executed. -/
def run (row : Instr) (code : Nat) (ops : List Nat) (s : State) : Dev := devOf (exec row (queued s (cmd code ops)))

/-- What it is answered. -/
def ask (row : Instr) (code : Nat) (ops : List Nat) (s : State) : Option (ReplyCode × List Word) := replyIn (run row code ops s)

/-- The command is ready, and answered with a reply code. -/
def answers (row : Instr) (code : Nat) (ops : List Nat) (s : State) (r : ReplyCode) (body : List Word) : Bool :=
  decide (Ready row (cmd code ops) [] (queued s (cmd code ops))) && decide (ask row code ops s = some (r, body))

/-- A step that acts on both faces in the free order (log 8): what holds under either order holds. -/
theorem bothOrders (P : Dev → Prop) {d : Dev} {act : FaceId → Dev → Dev}
    (h : P (act .trail (act .lead { d with base := { d.base with free := d.base.free + 1 } })))
    (h' : P (act .lead (act .trail { d with base := { d.base with free := d.base.free + 1 } }))) : P (d.bothFaces act) := by
  unfold Dev.bothFaces; split
  · exact h
  · exact h'

/-- A line setup with a pitch of 2,000 fine units. -/
def setup : LineSetup :=
  { e := 1000, n := 2, d := 2, die := 3, vmin := 1, backlash := 500, reverse := 5000, window := 10 }

/-- A port on LEAD's columns 0..3. -/
def port : Port :=
  { Port.powerOn with
    place := { enabled := true, face := .lead, first := 0, last := 3, origin := 0, descending := false }, head := .active }

/-- Reset, with a line setup and one ACTIVE port on LEAD. -/
def still : State := onMotionOf (fun m => { m with setup := setup }) (withPort 0 port State.reset)

/-- Contents that pass their check on a part without ports, with a small plan. -/
def contents : Contents :=
  { Contents.empty with
    detection := { Detection.empty with k := 4, minStreak := 1, release := 1, mb := 1, bg := 1, drift := 3 },
    tierPolicy := { TierPolicy.empty with ne := 2, na := 1, fa := 1, ru := 1 },
    tiers := [(0, { tb := 10, td := 10, ts := 100 }), (1, { tb := 9, td := 9, ts := 90 }), (2, { tb := 8, td := 8, ts := 80 }),
      (3, { tb := 8, td := 8, ts := 80 })],
    policy := { Policy.empty with unclassed := { level := .p1, slot := .none }, unclassedCounts := true } }

def lanePlan : Plan := List.replicate 4 { kind := .lane, lane := some 2 }

def compiled : Compiled := { leadPlan := lanePlan, trailPlan := lanePlan, minLines := 2, releaseLines := 2 }

/-- One bank ACTIVE on both faces, both DETECTING with four learned columns in CONTINUOUS. -/
def live : State :=
  let face : Face → Face := fun x => { x with
    pixel := { x.pixel with
      phase := .detecting,
      cols := [0, 1, 2, 3].map fun k => (k, { ref := 1600, learned := true, sum := 0, count := 0 }) },
    pattern := { x.pattern with state := some .continuous } }
  onFaceOf .lead face (onFaceOf .trail face (onBanksOf (fun b => { b with
    running := true, bank0 := { state := .active .both, contents := contents, compiled := some compiled } }) still))

def headAt (index : Nat) (pos : Int) (cls : LineClass) : LineHead := { index := word index, pos := pos, pitch := 2000, cls := cls }

/-- A processed record of columns 0..3 with the given deviations, flagged where told. -/
def record (index : Nat) (pos : Int) (cols : List (Int × Option Polarity)) : LineRecord :=
  {
    head := headAt index pos .inspection, zone := some .coated, exit := false, phase := .detecting, bank := some .bank0,
    cols := cols.zipIdx.map fun e => (e.2, {
      value := 100, dev := e.1.1, flag := e.1.2, entry := some { kind := .lane, lane := some 2 },
      learned := true }),
    plan := some lanePlan, lit := [(0, 3)], learned := [0, 1, 2, 3], tiers := List.replicate 16 0 }

/-! ### Ill-formed commands -/

theorem test_port_above_three_refused : (Instr.scanPacket 4 0 1 [0] false).wellFormed = false := by decide
theorem test_tag_above_sixteen_bits_refused : (Instr.scanPacket 0 65536 1 [0] false).wellFormed = false := by decide
theorem test_sample_above_twelve_bits_refused : (Instr.scanPacket 0 0 1 [0, 4096] false).wellFormed = false := by decide
theorem test_widest_scan_packet_accepted : (Instr.scanPacket 3 65535 4097 [4095] false).wellFormed = true := by decide
theorem test_ill_formed_packet_faults : exec (.scanPacket 4 0 1 [0] false) State.reset = .fault .illFormedPacket := rfl

/-! ### The step -/

theorem test_step_takes_front_command :
    devOf (step { State.reset with pending := [.encoderCount true true] }) = devOf (exec (.encoderCount true true) State.reset) := by
  decide
theorem test_empty_queue_idles : step State.reset = .next State.reset := rfl
theorem test_table_words_spell_nothing : decodeTableWord 32 1 = none ∧ State.reset.withFetchWord 32 1 = State.reset := ⟨rfl, rfl⟩

/-! ### The Motion Unit -/

/-- The motion state of `still` with P and H. -/
def webAt (p h : Int) (st : MotionState) : State := onMotionOf (fun m => { m with p := p, h := h, state := st }) still

theorem test_encoder_faults_are_counted :
    (true ≠ still.dev.base.motion.encA ∧ (devOf (exec (.encoderCount true true) still)).base.motion.encFaults = 1) ∧
    (Forward (webAt 140737488354328 0 .moving).levels (true, false) ∧
      (2 : Int) ^ 47 - 1 < 140737488354328 + 1000 ∧
      (devOf (exec (.encoderCount true false) (webAt 140737488354328 0 .moving))).base.motion.encFaults = 1) ∧
    (Forward (false, true) (webAt (-140737488354328) 0 .moving).levels ∧
      (-140737488354328 : Int) - 1000 < -(2 ^ 47 - 1) ∧
      (devOf (exec (.encoderCount false true) (webAt (-140737488354328) 0 .moving))).base.motion.encFaults = 1) := by
  decide

theorem test_forward_count_below_h_moves_p_alone :
    Forward (webAt (-1000) 0 .moving).levels (true, false) ∧ (-1000 : Int) + 1000 ≤ 0 ∧
    (devOf (exec (.encoderCount true false) (webAt (-1000) 0 .moving))).base.motion =
      { (webAt (-1000) 0 .moving).dev.base.motion with encA := true, p := 0, window := 1000 } ∧
    (devOf (exec (.encoderCount true false) (webAt (-1000) 0 .moving))).insp = still.dev.insp := by
  decide

abbrev LeadLineIssued (d : Dev) : Prop :=
  d.insp.lead.grid = { index := 1, next := 2000, last := some 0, trigger := some 0, overruns := 0, creep := 0 } ∧
      d.insp.lead.asm.slots = [{ head := headAt 0 0 .inspection, expected := [0], delivered := [], raw := [] }] ∧
      d.insp.trail = still.dev.insp.trail

/-- LEAD issues line 0 into a slot that expects port 0; TRAIL, 2,048 fine units behind, issues none. -/
theorem test_forward_count_issues_lead_line :
    Forward (webAt 0 0 .moving).levels (true, false) ∧ (0 : Int) < 0 + 1000 ∧ (0 : Int) + 1000 - 2 * 1024 < 0 ∧
    LeadLineIssued (devOf (exec (.encoderCount true false) (webAt 0 0 .moving))) :=
  ⟨by decide, by decide, by decide, bothOrders LeadLineIssued (d := (webAt 0 0 .moving).dev.onMotion fun m => { m with
    encA := true, p := 1000, window := 1000, h := 1000 }) (act := lineTest) (by decide) (by decide)⟩

abbrev LeadLineHandedOn (d : Dev) : Prop :=
  d.insp.lead.asm.handed = [{ head := headAt 0 0 .inspection, raw := [] }] ∧ d.insp.lead.asm.slots = []

/-- Without an ACTIVE port the line is handed on at once. -/
theorem test_issued_line_without_ports_is_handed_on :
    LeadLineHandedOn
      (devOf (exec (.encoderCount true false) (withPort 0 { port with head := .silent } (webAt 0 0 .moving)))) :=
  bothOrders LeadLineHandedOn (d := (withPort 0 { port with head := .silent } (webAt 0 0 .moving)).dev.onMotion fun m => { m with
    encA := true, p := 1000, window := 1000, h := 1000 }) (act := lineTest) (by decide) (by decide)

/-- Four creep lines in open slots, none delivered. -/
def fullSlots : State :=
  let slot (n : Nat) : Slot := { head := headAt n 0 .creep, expected := [0], delivered := [], raw := [] }
  onFaceOf .lead (fun x => { x with
    asm := { x.asm with slots := [slot 0, slot 1, slot 2, slot 3] }, grid := { x.grid with index := 4 } }) (webAt 0 0 .moving)

abbrev LeadOldestForced (d : Dev) : Prop :=
  d.insp.lead.asm.slots.map (fun o => o.head.index) = [1, 2, 3, 4] ∧ d.insp.lead.asm.forced = 1 ∧
      d.insp.lead.asm.handed = [{ head := headAt 0 0 .creep, raw := [] }]

/-- With four slots open the oldest is forced out. -/
theorem test_issued_line_forces_oldest :
    LeadOldestForced
      (devOf (exec (.encoderCount true false) fullSlots)) :=
  bothOrders LeadOldestForced (d := fullSlots.dev.onMotion fun m => { m with
    encA := true, p := 1000, window := 1000, h := 1000 }) (act := lineTest) (by decide) (by decide)

/-- Four inspection lines in open slots that expect ports 0 and 1, none delivered, port 0 missed on `n` lines before. -/
def starved (n : Nat) : State :=
  withPort 0 { port with missing := n } (withPort 1 { port with place := { port.place with origin := 4 } }
    (onFaceOf .lead (fun x => { x with
      asm := { x.asm with slots := x.asm.slots.map fun o => { o with
        head := { o.head with cls := .inspection }, expected := [0, 1] } } }) fullSlots))

/-- Missed 14 times before, port 0 stays ACTIVE at 15; missed 15 times before, it falls SILENT and is expected no more. -/
abbrev StarvedPortCounted (n : Nat) (d : Dev) : Prop :=
  (d.base.port 0).missing = n + 1 ∧ (d.base.port 1).missing = 1 ∧
  d.insp.lead.asm.slots.map (·.expected) = List.replicate 4 (if n < 15 then [0, 1] else [1]) ∧
  d.insp.out.p2.entries.map (·.report) =
    if n < 15 then [] else [.status (some .lead) false (.head 0 .active .silent .missing 0)]

theorem test_forced_line_counts_missing_heads :
    FaceCanonical (starved 15).dev.insp.lead ∧
    StarvedPortCounted 14 (devOf (exec (.encoderCount true false) (starved 14))) ∧
    StarvedPortCounted 15 (devOf (exec (.encoderCount true false) (starved 15))) :=
  ⟨by unfold FaceCanonical SlotTable; decide,
    bothOrders (StarvedPortCounted 14) (d := (starved 14).dev.onMotion fun m => { m with
      encA := true, p := 1000, window := 1000, h := 1000 }) (act := lineTest) (by decide) (by decide),
    bothOrders (StarvedPortCounted 15) (d := (starved 15).dev.onMotion fun m => { m with
      encA := true, p := 1000, window := 1000, h := 1000 }) (act := lineTest) (by decide) (by decide)⟩

/-- Slot 1 waits complete behind the oldest, with port `p` delivered. -/
def secondWaits (p : Nat) (s : State) : State :=
  onFaceOf .lead (fun x => { x with
    asm := { x.asm with slots := x.asm.slots.map fun o =>
      if o.head.index = 1 then { o with delivered := [p] } else o } }) s

/-- Slots 2, 3 and 4 stay open; lines 0 and 1 have left in line order, one of them forced. -/
abbrev SecondLeaves (d : Dev) : Prop :=
  d.insp.lead.asm.slots.map (fun o => o.head.index) = [2, 3, 4] ∧ d.insp.lead.asm.forced = 1 ∧
    d.insp.lead.asm.handed.map (fun o => o.head.index) = [0, 1]

/-- A complete line leaves behind the one that is forced; one that waited for port 0 alone leaves as port 0 falls SILENT. -/
theorem test_line_behind_forced_line_leaves :
    SecondLeaves (devOf (exec (.encoderCount true false) (secondWaits 0 fullSlots))) ∧
    SecondLeaves (devOf (exec (.encoderCount true false) (secondWaits 1 (starved 15)))) :=
  ⟨bothOrders SecondLeaves (d := (secondWaits 0 fullSlots).dev.onMotion fun m => { m with
      encA := true, p := 1000, window := 1000, h := 1000 }) (act := lineTest) (by decide) (by decide),
    bothOrders SecondLeaves (d := (secondWaits 1 (starved 15)).dev.onMotion fun m => { m with
      encA := true, p := 1000, window := 1000, h := 1000 }) (act := lineTest) (by decide) (by decide)⟩

/-- Both faces issue their line 0 on one count; no port is bound to TRAIL. -/
abbrev BothLinesIssued (d : Dev) : Prop :=
  d.insp.lead.asm.slots = [{ head := headAt 0 0 .inspection, expected := [0], delivered := [], raw := [] }] ∧
    d.insp.trail.asm.handed = [{ head := headAt 0 (-2000) .inspection, raw := [] }] ∧ d.insp.trail.asm.slots = []

def bothDue : State := onFaceOf .trail (fun x => { x with grid := { x.grid with next := -2000 } }) (webAt 0 0 .moving)

theorem test_forward_count_issues_both_lines :
    (0 : Int) ≤ 0 + 1000 ∧ (-2000 : Int) ≤ 0 + 1000 - 2 * 1024 ∧
    BothLinesIssued (devOf (exec (.encoderCount true false) bothDue)) :=
  ⟨by decide, by decide, bothOrders BothLinesIssued (d := bothDue.dev.onMotion fun m => { m with
    encA := true, p := 1000, window := 1000, h := 1000 }) (act := lineTest) (by decide) (by decide)⟩

/-- TRAIL's next boundary at -2,000, LEAD's at 5,000. -/
def trailDue : State :=
  onFaceOf .lead (fun x => { x with grid := { x.grid with next := 5000 } })
    (onFaceOf .trail (fun x => { x with grid := { x.grid with next := -2000 } }) (webAt 0 0 .moving))

abbrev TrailLineIssued (d : Dev) : Prop :=
  d.insp.trail.asm.handed = [{ head := headAt 0 (-2000) .inspection, raw := [] }] ∧ d.insp.lead = trailDue.dev.insp.lead

/-- TRAIL, 2,048 fine units behind, issues a line; LEAD issues none. -/
theorem test_forward_count_issues_trail_line :
    (-2000 : Int) ≤ 0 + 1000 - 2 * 1024 ∧ (0 : Int) + 1000 < 5000 ∧
    TrailLineIssued (devOf (exec (.encoderCount true false) trailDue)) :=
  ⟨by decide, by decide, bothOrders TrailLineIssued (d := trailDue.dev.onMotion fun m => { m with
    encA := true, p := 1000, window := 1000, h := 1000 }) (act := lineTest) (by decide) (by decide)⟩

theorem test_backward_count_within_tolerance_and_past_it :
    Forward (false, true) (webAt 0 511000 .moving).levels ∧ (511000 : Int) - (0 - 1000) ≤ 1024 * 500 ∧
    (1024 * 500 : Int) < 511001 - (0 - 1000) ∧
    (devOf (exec (.encoderCount false true) (webAt 0 511000 .moving))).base.motion.state = .moving ∧
    (devOf (exec (.encoderCount false true) (webAt 0 511001 .moving))).base.motion.state = .backing ∧
    (devOf (exec (.encoderCount false true) (webAt 0 511001 .moving))).insp.out.p2.entries =
      [{ report := .status none false (.motion .moving .backing 49 0), lostBefore := 0 }] := by
  decide

/-- DETECTING under a bank, BACKING, one count short of the reverse limit. -/
def backing : State :=
  onFaceOf .lead (fun x => { x with
    pixel := { x.pixel with reservation := some { first := 0, snapshot := [1600] } } })
    (onMotionOf (fun m => { m with h := 5119001, state := .backing }) live)

abbrev FacesRewound (d : Dev) : Prop :=
  d.base.motion.rewound = true ∧ d.insp.lead.pixel.phase = .learning ∧
      d.insp.lead.pixel.reservation = none ∧ d.insp.trail.pixel.phase = .learning ∧
      d.insp.out.p2.entries.map (·.report) = [.status none false (.rewound 499 0)]

theorem test_rewound_relearns_and_clears_reservation :
    Forward (false, true) backing.levels ∧ (1024 * 5000 : Int) < 5119001 - (0 - 1000) ∧ backing.dev.base.motion.rewound = false ∧
    backing.dev.insp.lead.blob.inbox = [] ∧ backing.dev.insp.lead.streak.inbox = [] ∧
    backing.dev.insp.trail.blob.inbox = [] ∧ backing.dev.insp.trail.streak.inbox = [] ∧
    FacesRewound (raiseRewound backing.dev) := by
  refine ⟨by decide, by decide, by decide, by decide, by decide, by decide, by decide, ?_⟩
  unfold raiseRewound
  exact bothOrders FacesRewound (by decide) (by decide)

theorem test_trigger_word_end_clears_busy :
    (devOf (exec (.triggerWordEnd .trail)
      (onFaceOf .trail (fun x => { x with grid := { x.grid with trigger := some 5 } }) still))).insp.trail.grid.trigger = none := by
  decide

/-- 3 × F against 51,200 × 1 m/min × 10 ms = 512,000: F = 170,667 is MOVING, 170,666 CREEP, 0 STILL. -/
theorem test_speed_window_states_and_speed :
    let at_ (w : Nat) := devOf (exec .speedWindowExpiry (onMotionOf (fun m => { m with window := w, state := .moving }) still))
    (at_ 170667).base.motion.state = .moving ∧ (at_ 170666).base.motion.state = .creep ∧ (at_ 0).base.motion.state = .still ∧
    (at_ 170667).base.motion.speed = 1000 ∧ (at_ 170667).base.motion.window = 0 := by
  decide

theorem test_speed_window_finds_backing :
    (devOf (exec .speedWindowExpiry (webAt 0 512001 .moving))).base.motion.state = .backing ∧
    (devOf (exec .speedWindowExpiry (webAt 0 512000 .moving))).base.motion.state = .still := by
  decide

theorem test_line_setup_answers :
    (([[8, 0], [0, 0], [0, 1048576], [2, 20000001], [3, 30000001], [4, 201], [5, 100001], [5, 5001], [6, 10000001], [6, 499],
      [7, 0], [7, 101], [0, 511], [1, 2049]].all fun ops => answers .lineSetup 0x01 ops still .range []) ∧
    ([[0, 512], [1, 2048], [2, 20000000], [3, 30000000], [4, 200], [5, 5000], [6, 500], [7, 1], [7, 100]].all fun ops =>
      answers .lineSetup 0x01 ops still .done [])) ∧
    answers .lineSetup 0x01 [1, 0] (onMotionOf (fun m => { m with setup := { setup with e := 2000 } }) still) .clamped [] ∧
    answers .lineSetup 0x01 [4, 1] live .state [] ∧
    answers .lineSetup 0x01 [4, 1] (onBanksOf (fun b => { b with bank1 := { b.bank1 with state := .checking } }) still) .state [] := by
  decide

/-- The last line stood at 2,000: the next boundary is the first multiple of the new pitch 3,000 above it. -/
theorem test_line_setup_rebases_grid :
    let s := onFaceOf .lead (fun x => { x with grid := { x.grid with index := 2, next := 4000, last := some 2000 } })
      (webAt 2500 2500 .moving)
    Ready .lineSetup (cmd 0x01 [1, 3]) [] (queued s (cmd 0x01 [1, 3])) ∧
    (run .lineSetup 0x01 [1, 3] s).insp.lead.grid.next = 3000 ∧ (run .lineSetup 0x01 [1, 3] s).insp.trail.grid.next = 3000 ∧
    (run .lineSetup 0x01 [1, 3] s).insp.lead.grid.index = 2 ∧ (run .lineSetup 0x01 [2, 0] s).insp.trail.grid.next = 4000 := by
  decide

/-! ### Sensor ports and Line Assemblers -/

/-- One open slot of line 5 that expects port 0. -/
def slotOpen : State :=
  onFaceOf .lead (fun x => { x with
    asm := { x.asm with
      slots := [{ head := headAt 5 10000 .inspection, expected := [0], delivered := [], raw := [] }] } }) still

/-- The same with a second slot behind it, line 6. -/
def twoSlots : State :=
  onFaceOf .lead (fun x => { x with
    asm := { x.asm with
      slots := [{ head := headAt 5 10000 .inspection, expected := [0], delivered := [], raw := [] },
        { head := headAt 6 12000 .inspection, expected := [0], delivered := [], raw := [] }] } }) still

theorem test_stray_and_erroneous_packets_are_counted :
    (devOf (exec (.scanPacket 3 65535 1 [4095] false) still)).base.port 3 =
      { Port.powerOn with counts := { PortCounts.zero with stray := 1 } } ∧
    ([(true, 1), (false, 0), (false, 4097)].all fun e =>
      decide ((devOf (exec (.scanPacket 0 0 e.2 [] e.1) still)).base.port 0 =
        { port with counts := { PortCounts.zero with errors := 1 } })) := by
  decide

/-- Late, duplicate, filling a slot behind the oldest, completing the only one. -/
theorem test_packets_match_slots :
    ((devOf (exec (.scanPacket 0 4 4 [1, 2, 3, 4] false) slotOpen)).base.port 0).counts = { PortCounts.zero with late := 1 } ∧
    ((devOf (exec (.scanPacket 0 5 4 [1, 2, 3, 4] false) (onFaceOf .lead (fun x => { x with
      asm := { x.asm with
        slots := x.asm.slots.map fun o => { o with delivered := [0], expected := [0, 1] } } }) slotOpen))).base.port 0).counts =
      { PortCounts.zero with duplicate := 1 } ∧
    (devOf (exec (.scanPacket 0 6 5 [1, 2, 3] false) twoSlots)).insp.lead.asm.slots.map (·.raw) =
      [[], [(0, { port := 0, pixel := 0, raw := 1 }), (1, { port := 0, pixel := 1, raw := 2 }),
        (2, { port := 0, pixel := 2, raw := 3 })]] ∧
    ((devOf (exec (.scanPacket 0 6 5 [1, 2, 3] false) twoSlots)).base.port 0).counts =
      { PortCounts.zero with short := 1, truncated := 1 } ∧
    (devOf (exec (.scanPacket 0 5 1 [9, 8] false) slotOpen)).insp.lead.asm.handed =
      [{ head := headAt 5 10000 .inspection, raw := [(0, { port := 0, pixel := 0, raw := 9 })] }] ∧
    (devOf (exec (.scanPacket 0 5 1 [9, 8] false) slotOpen)).insp.lead.asm.slots = [] := by
  decide

/-- The oldest line completed takes the complete line behind it along; the third, incomplete, stays. -/
theorem test_completed_line_takes_those_behind :
    let slot (n : Nat) (got : List Nat) : Slot := { head := headAt n 0 .inspection, expected := [0], delivered := got, raw := [] }
    let d := devOf (exec (.scanPacket 0 5 4 [] false) (withPort 0 { port with missing := 3 }
      (onFaceOf .lead (fun x => { x with asm := { x.asm with slots := [slot 5 [], slot 6 [0], slot 7 []] } }) still)))
    d.insp.lead.asm.handed.map (fun l => l.head.index) = [5, 6] ∧ d.insp.lead.asm.slots = [slot 7 []] ∧
    (d.base.port 0).missing = 0 := by
  decide

/-- The four cases of one expected port of a line that leaves. -/
theorem test_expected_port_accounts :
    let o (cls : LineClass) (got : List Nat) : Slot := { head := headAt 5 0 cls, expected := [0], delivered := got, raw := [] }
    let at_ (n : Nat) : Dev := (withPort 0 { port with missing := n } twoSlots).dev
    (accountPort .lead (o .inspection [0]) (at_ 3) 0).base.port 0 = { port with missing := 0 } ∧
    ((accountPort .lead (o .creep []) (at_ 3) 0).base.port 0).missing = 3 ∧
    ((accountPort .lead (o .inspection []) (at_ 14) 0).base.port 0).missing = 15 ∧
    (accountPort .lead (o .inspection []) (at_ 15) 0).base.port 0 =
      { port with head := .silent, missing := 16, counts := { PortCounts.zero with missingLines := 1 } } ∧
    (accountPort .lead (o .inspection []) (at_ 15) 0).insp.lead.asm.slots.map (·.expected) = [[], []] := by
  decide

theorem test_packet_wakes_silent_port :
    (withPort 0 { port with head := .silent, missing := 16 } slotOpen).dev.base.port 0 =
      { port with head := .silent, missing := 16 } ∧
    ((devOf (exec (.scanPacket 0 9 4096 [] false) (withPort 0 { port with head := .silent, missing := 16 } slotOpen))).base.port
      0).head = .active ∧
    (devOf (exec (.scanPacket 0 9 4096 [] false) (withPort 0 { port with head := .silent, missing := 16 } slotOpen))).insp.out.p2.entries.map
      (·.report) = [.status (some .lead) false (.head 0 .silent .active .packet 9)] := by
  decide

theorem test_placement_write_answers :
    ([[4, 1, 0, 0, 3, 0, 0], [1, 2, 0, 0, 3, 0, 0], [1, 1, 2, 0, 3, 0, 0], [1, 1, 0, 0, 3, 0, 2], [1, 1, 0, 4, 3, 0, 0],
      [1, 1, 0, 0, 4096, 0, 0], [1, 1, 0, 0, 3, 8192, 0], [1, 1, 0, 0, 3, 8189, 0], [1, 1, 0, 0, 3, 2, 1]].all fun ops =>
      answers .placementWrite 0x02 ops still .range []) ∧
    answers .placementWrite 0x02 [1, 1, 0, 0, 3, 6, 1] still .overlap [] ∧
    answers .placementWrite 0x02 [1, 1, 0, 0, 3, 7, 1] still .done [] ∧
    answers .placementWrite 0x02 [3, 0, 0, 0, 3, 0, 0] still .done [] ∧
    answers .placementWrite 0x02 [1, 1, 1, 0, 3, 8188, 0] live .state [] ∧
    answers .placementWrite 0x02 [1, 1, 1, 0, 3, 8188, 0]
      (onBase (fun b => { b with sens := { b.sens with locked := true } }) still) .locked [] := by
  decide

/-- Port 0 moves from LEAD to TRAIL: the slots of both are emptied; the placement is in range at its bounds. -/
theorem test_placement_write_binds_port :
    (run .placementWrite 0x02 [0, 1, 1, 0, 4095, 8191, 1] slotOpen).base.port 0 =
      { port with place := { enabled := true, face := .trail, first := 0, last := 4095, origin := 8191, descending := true } } ∧
    (run .placementWrite 0x02 [0, 1, 1, 0, 4095, 8191, 1] slotOpen).insp.lead.asm.slots = [] ∧
    (run .placementWrite 0x02 [0, 1, 1, 0, 4095, 8191, 1] slotOpen).insp.lead.asm.abandoned = 1 ∧
    (run .placementWrite 0x02 [0, 1, 1, 0, 4095, 8191, 1] slotOpen).insp.out.p2.entries = [] := by
  decide

/-- A port enabled and a port disabled: each change of head state is reported, with the next index of the bound face. -/
theorem test_placement_write_reports_head :
    let s := onFaceOf .lead (fun x => { x with grid := { x.grid with index := 9 } }) still
    let reports (ops : List Nat) := (run .placementWrite 0x02 ops s).insp.out.p2.entries.map (·.report)
    reports [1, 1, 0, 0, 3, 7, 1] = [.status (some .lead) false (.head 1 .off .active .placement 9)] ∧
    reports [0, 0, 1, 0, 3, 0, 0] = [.status none false (.head 0 .active .off .placement 9)] := by
  decide

theorem test_geometry_write :
    ([[2, 0, 100, 0], [0, 4292967295, 100, 0], [0, 2000001, 100, 0], [0, 0, 99, 0], [0, 0, 10001, 0], [0, 0, 100, 2]].all fun ops =>
      answers .geometryWrite 0x03 ops still .range []) ∧
    answers .geometryWrite 0x03 [1, 4292967296, 100, 1] still .done [] ∧
    answers .geometryWrite 0x03 [0, 2000000, 10000, 0] still .done [] ∧
    (run .geometryWrite 0x03 [1, 4292967296, 100, 1] still).insp.trail.asm.geometry =
      { origin := -2000000, pitch := 100, mirrored := true } ∧
    answers .geometryWrite 0x03 [1, 0, 100, 1] live .state [] ∧
    answers .geometryWrite 0x03 [1, 0, 100, 1] (onBase (fun b => { b with sens := { b.sens with locked := true } }) still)
      .locked [] := by
  decide

theorem test_flat_write :
    ([[4, 0, 1, 0, 0], [0, 0, 0], [0, 4096, 1, 0, 0]].all fun ops => answers .flatWrite 0x04 ops still .range []) ∧
    answers .flatWrite 0x04 ([0, 0, 257] ++ List.replicate 514 0) still .range [] ∧
    answers .flatWrite 0x04 [0, 4095, 1, 1023, 16383] still .done [] ∧
    answers .flatWrite 0x04 [0, 7, 2, 1024, 5, 6, 16384] still .clamped [] ∧
    ((run .flatWrite 0x04 [0, 7, 2, 1024, 5, 6, 16384] still).base.port 0).flat =
      [(7, { dark := 1023, gain := 5 }), (8, { dark := 6, gain := 16383 })] ∧
    answers .flatWrite 0x04 [0, 7, 1, 0, 0] live .state [] ∧
    answers .flatWrite 0x04 [0, 7, 1, 0, 0] (onBase (fun b => { b with sens := { b.sens with locked := true } }) still)
      .locked [] := by
  decide

theorem test_calibration_lock :
    answers .setCalibrationLock 0x05 [] live .done [] ∧ (run .setCalibrationLock 0x05 [] live).base.sens.locked = true := by
  decide

/-! ### The Pixel Chain -/

/-- Two lines handed to LEAD's Pixel Chain, the first with two samples. -/
def handed (pos : Int) (cls : LineClass) (s : State) : State :=
  onFaceOf .lead (fun x => { x with
    asm := { x.asm with
      handed := [{
        head := headAt 5 pos cls, raw := [(0, { port := 0, pixel := 0, raw := 100 }),
        (2, { port := 0, pixel := 2, raw := 200 })] }] } }) s

/-- A detecting line: column 2 is 100 grey levels above its ref and flagged BRIGHT, column 0 is on it. -/
theorem test_pixel_chain_hands_on_record :
    (handed 5000 .inspection live).dev.base.banks.switchPos = none ∧
    (devOf (exec (.pixelChainLine .lead) (handed 5000 .inspection live))).insp.lead.blob.inbox =
      [{
        record 5 5000 [] with
        cols := [(0, { value := 100, dev := 0, flag := none, entry := some { kind := .lane, lane := some 2 }, learned := true }),
          (2, {
            value := 200, dev := 1600, flag := some .bright, entry := some { kind := .lane, lane := some 2 },
            learned := true })] }] ∧
    (devOf (exec (.pixelChainLine .lead) (handed 5000 .inspection live))).insp.lead.pixel.processed = 1 ∧
    (devOf (exec (.pixelChainLine .lead) (handed 5000 .creep live))).insp.lead.pixel.cols = live.dev.insp.lead.pixel.cols ∧
    (devOf (exec (.pixelChainLine .lead) (handed 5000 .creep live))).insp.lead.tier = live.dev.insp.lead.tier := by
  decide

/-- A face that is not LEARNING makes no report of its own at a line. -/
theorem test_line_outside_learning_reports_nothing :
    live.dev.insp.lead.pixel.phase ≠ .learning ∧
    (devOf (exec (.pixelChainLine .lead) (handed 5000 .inspection live))).insp.out = live.dev.insp.out := by
  decide

/-- An unflagged column of a DETECTING face takes its tracking step, 5 x 16 / 2^4; a flagged one, and one of an IDLE face, keeps. -/
theorem test_line_tracks_unflagged_columns :
    let s (phase : Phase) (raw : Nat) := onFaceOf .lead (fun x => { x with
      asm := { x.asm with
        handed := [{ head := headAt 5 5000 .inspection, raw := [(0, { port := 0, pixel := 0, raw := raw })] }] },
      pixel := { x.pixel with phase := phase } }) live
    let col (phase : Phase) (raw : Nat) := (devOf (exec (.pixelChainLine .lead) (s phase raw))).insp.lead.pixel.col 0
    let v := live.dev.insp.lead.pixel.col 0
    v.ref = 1600 ∧ col .detecting 105 = { v with ref := 1605 } ∧ col .detecting 95 = { v with ref := 1595 } ∧
    col .detecting 110 = v ∧ col .idle 105 = v := by
  decide

/-- The flag of column 0, its ref at 100 grey levels, for a sample. -/
def flagAt (raw : Nat) : List (Option Polarity) :=
  let s := onFaceOf .lead (fun x => { x with
    asm := { x.asm with
      handed := [{ head := headAt 5 5000 .inspection, raw := [(0, { port := 0, pixel := 0, raw := raw })] }] } }) live
  (devOf (exec (.pixelChainLine .lead) s)).insp.lead.blob.inbox.flatMap fun r => r.cols.map (·.2.flag)

/-- The thresholds of tier T0, 10 grey levels, at their bounds. -/
theorem test_flags_at_thresholds :
    flagAt 110 = [some .bright] ∧ flagAt 109 = [none] ∧ flagAt 91 = [none] ∧ flagAt 90 = [some .dark] := by
  decide

/-- A column that is dark when its line is processed is void, though it was handed over with a sample. -/
theorem test_dark_column_is_void :
    let s := withPort 0 { port with place := { port.place with last := 1 } } (handed 5000 .inspection live)
    s.dev.base.dark .lead 2 = true ∧
    ((devOf (exec (.pixelChainLine .lead) s)).insp.lead.blob.inbox.map fun r => (r.cols.map (·.1), r.learned)) =
      [([0], [0, 1, 2, 3])] := by
  decide

theorem test_correction :
    corrected 620 { dark := 64, gain := 4608 } = 626 ∧ corrected 0 { dark := 1023, gain := 16383 } = 0 ∧
    corrected 4094 { dark := 0, gain := 4097 } = 4095 ∧ isClipped 4094 { dark := 0, gain := 4097 } = false ∧
    isClipped 4094 { dark := 0, gain := 4098 } = true := by
  decide

/-- The context of a line that adapts a MARGIN column in `phase`. -/
def context (phase : Phase) : LineContext :=
  {
    cls := .inspection, phase := phase, zone := some .gap, plan := some [{ kind := .margin, lane := none }], tiers := [],
    thresholds := [], k := 4 }

/-- Steps of +15/16 and -15/16 give 0, -16/16 gives -1; a learning step adds the value. -/
theorem test_tracking_and_learning_steps :
    let at_ (ref : Nat) : PixelColumn := { ref := ref, learned := true, sum := 0, count := 0 }
    (context .detecting).adapts (some { kind := .margin, lane := none }) = true ∧
    (([1585, 1615, 1616, 1584].map fun r => ((context .detecting).column FlatEntry.unity (at_ r) 0 100).2.ref) =
      [1585, 1615, 1615, 1585]) ∧
    ((context .learning).column FlatEntry.unity { at_ 5 with count := 4095 } 0 100).2 =
      { ref := 5, learned := true, sum := 100, count := 4096 } ∧
    ((context .idle).column FlatEntry.unity (at_ 5) 0 100).2 = at_ 5 ∧
    PixelColumn.learn { ref := 5, learned := false, sum := 3, count := 2 } = { ref := 24, learned := true, sum := 3, count := 2 } ∧
    PixelColumn.learn { ref := 5, learned := false, sum := 0, count := 0 } = { ref := 5, learned := false, sum := 0, count := 0 } := by
  decide

/-- A flagged column keeps its ref, as every column does on a creep line and under k = 0, and a MARGIN column in LEARNING on one. -/
theorem test_column_does_not_track :
    let v : PixelColumn := { ref := 1584, learned := true, sum := 0, count := 0 }
    let after (x : LineContext) := (x.column FlatEntry.unity v 0 100).2
    let lane : LineContext := { context .detecting with plan := some [{ kind := .lane, lane := some 0 }] }
    after (context .detecting) = { v with ref := 1585 } ∧ after lane = v ∧ after { lane with zone := some .coated } = { v with ref := 1585 } ∧
    after { lane with zone := some .coated, thresholds := [(0, { tb := 1, td := 1, ts := 1 })], tiers := [0] } = v ∧
    after { context .detecting with cls := .creep } = v ∧ after { context .detecting with k := 0 } = v ∧
    after { context .learning with cls := .creep } = v := by
  decide

/-- LEARNING in CONTINUOUS, one line short of the learn length. -/
def learning : State :=
  onFaceOf .lead (fun x => { x with
    pixel := { x.pixel with phase := .learning, learnLines := 15, learnLength := 16 } }) (handed 5000 .inspection live)

theorem test_learning_phase_hypotheses_and_goes_on :
    learning.dev.insp.lead.pattern.state = some .continuous ∧ learning.dev.insp.lead.pixel.phase = .learning ∧
    (devOf (exec (.pixelChainLine .lead) (onFaceOf .lead (fun x => { x with
      pixel := { x.pixel with learnLength := 17 } }) learning))).insp.lead.pixel.phase = .learning ∧
    (devOf (exec (.pixelChainLine .lead) (onFaceOf .lead (fun x => { x with
      pixel := { x.pixel with learnLength := 17 } }) learning))).insp.lead.pixel.learnLines = 16 := by
  decide

/-- At the learn length the phase ends and LEARN_DONE is offered. -/
theorem test_learning_phase_ends :
    let t := devOf (exec (.pixelChainLine .lead) learning)
    twf PixelColumn.fresh learning.dev.insp.lead.pixel.cols = true ∧
    zoneAt learning.dev.insp.lead.pattern (learning.dev.base.banks.contents .lead).pattern 5000 = some .coated ∧
    t.insp.lead.pixel.phase = .detecting ∧ (t.insp.lead.pixel.col 3).learned = true ∧
    (t.insp.out.p2.entries.map fun e => match e.report with
      | .status f u (.learnDone n index _) => some (f, u, n, index)
      | _ => none) = [some (some .lead, false, 16, 5)] := by
  decide

/-- Off the patch the phase goes on and the learn line count stays. -/
theorem test_learning_outside_coating :
    let s := onFaceOf .lead (fun x => { x with pattern := { x.pattern with state := some .seeking, seek := some 4000 } }) learning
    let t := devOf (exec (.pixelChainLine .lead) s)
    zoneAt s.dev.insp.lead.pattern (s.dev.base.banks.contents .lead).pattern 5000 = some .gap ∧
    (t.insp.lead.blob.inbox.map fun r => r.zone) = [some .gap] ∧ t.insp.lead.pixel.phase = .learning ∧
    t.insp.lead.pixel.learnLines = 15 ∧ t.insp.lead.pixel.col 0 = s.dev.insp.lead.pixel.col 0 ∧ t.insp.out.p2.entries = [] := by
  decide

/-- Bank 1 SCHEDULED at 5,000; then, for TRAIL, ACTIVE on LEAD alone. -/
def changing (s0 s1 : BankState) (s : State) : State :=
  onBanksOf (fun b => { b with
    switchPos := some 5000, bank0 := { b.bank0 with state := s0 },
    bank1 := {
      state := s1, contents := { contents with tierPolicy := { contents.tierPolicy with maxTier := 2, learnOnEntry := true } },
      compiled := some compiled } }) s

theorem test_lead_switches_at_switch_position :
    let s := changing (.active .both) .scheduled (handed 5000 .inspection live)
    let t := devOf (exec (.pixelChainLine .lead) s)
    s.dev.base.banks.switchPos = some 5000 ∧ t.base.banks.bank0.state = .active .trail ∧ t.base.banks.bank1.state = .active .lead ∧
    t.base.banks.switchPos = some 5000 ∧ t.insp.lead.pixel.phase = .learning ∧ (t.insp.lead.tier.lane 15).maxLimit = 2 := by
  decide

/-- Between the two switches a LEAD line past the switch position switches nothing. -/
theorem test_lead_line_after_its_switch :
    let s := changing (.active .trail) (.active .lead) (handed 6000 .inspection live)
    let t := devOf (exec (.pixelChainLine .lead) s)
    NoSwitchDue s.dev.base.banks .lead 6000 ∧ s.dev.base.banks.switchPos = some 5000 ∧
    t.base = s.dev.base ∧ t.insp.lead.pixel.processed = 1 := by
  refine ⟨?_, by decide, by decide, by decide⟩
  intro p _; right; intro k; cases k <;> decide

/-- The state before LEAD's switch to a bank with contents `c`. -/
def entering (c : Contents) (s : State) : State :=
  onBanksOf (fun b => { b with bank1 := { b.bank1 with contents := c } }) (changing (.active .both) .scheduled s)

/-- Without learn-on-entry a DETECTING face goes on, a LEARNING face too, under the new learn length; with G > 0 it seeks. -/
theorem test_switch_keeps_phase_and_seeks :
    let t (s : State) := (devOf (exec (.pixelChainLine .lead) (entering contents s))).insp.lead
    let relearn := onFaceOf .lead (fun x => { x with
      pixel := { x.pixel with phase := .learning, learnLines := 3, learnLength := 99 } }) (handed 5000 .inspection live)
    let gap := { contents with pattern := { contents.pattern with g := 1000 } }
    let u := (devOf (exec (.pixelChainLine .lead) (entering gap (handed 5000 .inspection live)))).insp.lead.pattern
    (t (handed 5000 .inspection live)).pixel.phase = .detecting ∧ (t relearn).pixel.phase = .learning ∧
    (t relearn).pixel.learnLength = 16 ∧ (t relearn).pixel.learnLines = 4 ∧
    (t (handed 5000 .inspection live)).tier.next = some (5000 + 8 * 128000000) ∧
    u.state = some .seeking ∧ u.seek = some 3072 := by
  decide

theorem test_trail_switch_ends_changeover :
    let s := onFaceOf .trail (fun x => { x with asm := { x.asm with handed := [{ head := headAt 5 5000 .creep, raw := [] }] } })
      (changing (.active .trail) (.active .lead) live)
    let t := devOf (exec (.pixelChainLine .trail) s)
    t.base.banks.bank0.state = .checked ∧ t.base.banks.bank1.state = .active .both ∧ t.base.banks.switchPos = none ∧
    t.base.banks.activeOn .trail = some .bank1 := by
  decide

/-! ### Blobs -/

def blobAt (first last : Nat) (span : Option (Nat × Nat)) (idle : Nat) : Blob :=
  {
    polarity := .bright, first := word first, last := word last, lastPos := 2000 * last, pitch := 2000, colMin := 0, colMax := 1,
    lastSpan := span, lineSpan := none, count := 4, peak := 900, peakCol := 1, peakGuard := false, peakLane := 2, tier := 0,
    sum := 3000, idle := idle, touched := false }

def withBlobs (l : Table (Option Blob)) (rs : List LineRecord) (s : State) : State :=
  onFaceOf .lead (fun x => { x with blob := { x.blob with open_ := l, inbox := rs } }) s

/-- A switch closes a blob with reason CHANGEOVER, reports the face's leaving LOST, and the switch. -/
theorem test_switch_reports :
    let s := onFaceOf .lead (fun x => { x with
      pattern := { x.pattern with state := some .lost },
      blob := { x.blob with open_ := [(0, some (blobAt 3 4 none 0))] } })
      (changing (.active .both) .scheduled (handed 5000 .inspection live))
    let o := (devOf (exec (.pixelChainLine .lead) s)).insp.out
    (o.p1.entries.map fun e => match e.report with
      | .defect x => some (x.number, x.trunc, x.unsync)
      | _ => none) = [some (0, .changeover, true)] ∧
    o.p2.entries.map (·.report) = [.status (some .lead) false (.pattern .lost .continuous .changeover 5 0 none),
      .status (some .lead) false (.bankSwitched .bank0 .bank1 0 5 0)] := by
  decide

/-- A line without flags: the blob at idle 0 stays at the bound Mb = 1, the one at idle 1 closes; a creep line only enters the ring. -/
theorem test_blob_builder_idle_and_creep :
    let s := withBlobs [(0, some (blobAt 3 4 (some (0, 1)) 0)), (7, some (blobAt 3 4 none 1))] [record 5 10000 [(0, none)]] live
    let t := devOf (exec (.blobBuilderLine .lead) s)
    let c := devOf (exec (.blobBuilderLine .lead) (withBlobs [] [{
      record 5 10000 [(0, none)] with
      head := headAt 5 10000 .creep }] live))
    t.insp.lead.blob.open_ = [(0, some (blobAt 3 4 (some (0, 1)) 1))] ∧ t.insp.lead.blob.closed = 1 ∧
    t.insp.lead.blob.lastLine = some 5 ∧ t.insp.lead.blob.ring = [{ index := 5, values := [(0, 100)] }] ∧
    c.insp.lead.blob.ring = [{ index := 5, values := [(0, 100)] }] ∧ c.insp.lead.blob.lastLine = none := by
  decide

/-- A flagged column extends the blob beside it; on a coating exit it begins a new one. -/
theorem test_blob_builder_extends_or_begins_anew :
    let r := record 5 10000 [(0, none), (0, none), (1000, some .bright)]
    let s := withBlobs [(0, some (blobAt 3 4 (some (0, 1)) 0))] [r] live
    let e := withBlobs [(0, some (blobAt 3 4 (some (0, 1)) 0))] [{ r with exit := true }] live
    ((devOf (exec (.blobBuilderLine .lead) s)).insp.lead.blob.open_.map fun x => x.2.map fun b => (b.first, b.count, b.peak)) =
      [some (3, 5, 1000)] ∧
    ((devOf (exec (.blobBuilderLine .lead) e)).insp.lead.blob.open_.map fun x => x.2.map fun b => (b.first, b.count, b.peak)) =
      [some (5, 1, 1000)] := by
  decide

/-- A blob of 511 lines stays, of 512 lines closes with reason LENGTH. -/
theorem test_blob_closes_at_length_limit :
    let t (first : Nat) := (devOf (exec (.blobBuilderLine .lead) (withBlobs [(0, some (blobAt first 599 (some (0, 1)) 0))]
      [record 600 10000 [(0, none), (1000, some .bright)]] live))).insp.lead.blob
    (t 90).open_.length = 1 ∧ (t 90).closed = 0 ∧ (t 89).open_ = [] ∧ (t 89).closed = 1 := by
  decide

/-- A saturated face with 193 open blobs stays saturated, with 192 it does not. -/
theorem test_blob_saturation_ends :
    let t (n : Nat) := testSaturation .lead (some 5) (onFaceOf .lead (fun x => { x with
      blob := { x.blob with
        saturated := true, open_ := (List.range n).map fun k => (k, some (blobAt 3 4 none 0)) } }) live).dev.insp
    (t 193).lead.blob.saturated = true ∧ (t 193).out.p2.entries = [] ∧ (t 192).lead.blob.saturated = false ∧
    (t 192).out.p2.entries.length = 1 := by
  decide

/-- A run between two blobs merges them into the older. -/
theorem test_run_merges_blobs :
    let r := record 5 10000 [(0, none), (0, none), (1000, some .bright)]
    let l : Table (Option Blob) := [(0, some (blobAt 3 4 (some (0, 1)) 0)), (2, some (blobAt 2 4 (some (3, 3)) 0))]
    let t := (devOf (exec (.blobBuilderLine .lead) (withBlobs l [r] live))).insp.lead.blob
    twf none l = true ∧ t.merges = 1 ∧
    t.open_.map (·.1) = [2] ∧ (t.open_.map fun x => x.2.map fun b => (b.first, b.count, b.sum)) = [some (2, 9, 7000)] ∧
    (t.open_.map fun x => x.2.map fun b => (b.colMin, b.colMax, b.peak)) = [some (0, 2, 1000)] := by
  decide

/-- A run of two flagged columns bridges one unflagged column under Bg = 1 and none under Bg = 0. -/
theorem test_runs_bridge_gaps :
    let r := record 5 10000 [(500, some .bright), (3, none), (600, some .bright)]
    (r.cols.map (·.1)).Pairwise (· < ·) ∧
    ((r.runs 1).map fun u => (u.first, u.last, u.count, u.peak, u.peakCol)) = [(0, 2, 2, 600, 2)] ∧
    ((r.runs 1).map fun u => (u.sum, u.touched)) = [(1100, true)] ∧
    ((r.runs 0).map fun u => (u.first, u.last)) = [(0, 0), (2, 2)] := by
  decide

/-- Linking: the lowest free slot, and no slot free. -/
theorem test_run_opens_lowest_free_slot :
    let r := record 5 10000 [(500, some .bright)]
    let u := (r.runs 0).headD (Run.begin_ r .bright 0 { value := 0, dev := 0, flag := none, entry := none, learned := false })
    let s := withBlobs [(0, some (blobAt 3 4 none 0)), (2, some (blobAt 3 4 (some (9, 9)) 0))] [] live
    let full := withBlobs ((List.range 256).map fun k => (k, some (blobAt 3 4 none 0))) [] live
    ((linkRun .lead r.head s.dev.insp u).lead.blob.open_.map (·.1)) = [0, 1, 2] ∧
    (linkRun .lead r.head full.dev.insp u).lead.blob.discarded = 1 ∧
    (linkRun .lead r.head full.dev.insp u).lead.blob.saturated = true ∧
    (linkRun .lead r.head full.dev.insp u).out.p2.entries.map (·.report) =
      [.status (some .lead) false (.blobSaturation true 256 (some 5))] := by
  decide

/-- A run of the blob's own peak: at a lower column it gives the blob its peak fields, at a higher one it does not. -/
theorem test_run_extends_one_blob :
    let u (peakCol : Nat) : Run :=
      {
        polarity := .bright, first := 2, last := 3, count := 2, peak := 900, peakCol := peakCol, peakGuard := true, peakLane := 5,
        tier := 1, sum := 1000, touched := true }
    let x (peakCol : Nat) : Blob := { blobAt 3 4 (some (0, 1)) 0 with peakCol := peakCol }
    let t (p q : Nat) := (linkRun .lead (headAt 5 10000 .inspection) (withBlobs [(0, some (x p))] [] live).dev.insp (u q)).lead.blob
    connects (u 2) (x 1) = true ∧ connects { u 2 with first := 3 } (x 1) = false ∧
    ((t 3 2).open_.map fun e => e.2.map fun b => (b.peakCol, b.peakLane, b.peakGuard)) = [some (2, 5, true)] ∧
    ((t 1 2).open_.map fun e => e.2.map fun b => (b.peakCol, b.peakLane, b.peakGuard)) = [some (1, 2, false)] ∧
    ((t 1 2).open_.map fun e => e.2.map fun b => b.lineSpan) = [some (some (2, 3))] := by
  decide

/-- A rule of area 4..10 in slot 3, an equal one in slot 5. -/
def ruled (level : Level) (correlate excerpt : Bool) : Contents :=
  let r : ClassRule := { ClassRule.empty with
    present := true, polarity := .either, areaMin := 4, areaMax := 10, widthMax := 65535, lengthMax := 65535, level := level,
    correlate := correlate, excerpt := excerpt, counts := true }
  { contents with rules := [(3, r), (5, r)] }

theorem test_classification :
    (classify (ruled .p0 false false) false .bright 4 0 0).code = 3 ∧ (classify (ruled .p0 false false) false .dark 10 65535 65535).code = 3 ∧
    (classify (ruled .p0 false false) false .bright 11 0 0).code = 9 ∧ (classify (ruled .p0 false false) true .bright 4 0 0).code = 8 := by
  decide

/-- A closed blob: unclassed and counted; correlating; with an excerpt in the lowest free buffer; with none free; by STOP. -/
theorem test_closed_blob_disposed :
    let with_ (c : Contents) := onBanksOf (fun b => { b with bank0 := { b.bank0 with contents := c } }) live
    let close (s : State) (reason : TruncReason) := sendBlob s.dev.base .lead reason (some (6, 12000)) s.dev.insp (9, blobAt 3 4 none 1)
    let buffer : Buffer := { face := .lead, firstLine := 0, firstCol := 0, partly := false, cells := [] }
    let full := onOutOf (fun o => { o with buffers := (List.range 8).map fun k => (k, some buffer) }) (with_ (ruled .p0 false true))
    (close live .none).lead.tier.blobEvents = [{ lane := 2, pos := some 12000, index := some 6 }] ∧
    (close live .changeover).lead.tier.blobEvents = [] ∧ (close live .none).out.p1.entries.length = 1 ∧
    (close (with_ (ruled .p0 true false)) .none).corr.leadWork.length = 1 ∧
    (close (with_ (ruled .p0 false true)) .none).out.p0.entries.length = 1 ∧
    (close (with_ (ruled .p0 false true)) .none).out.buffers.map (·.1) = [0] ∧
    (close full .none).lead.blob.skipped = 1 ∧ (close (with_ (ruled .p0 false true)) .stop).out.buffers = [] := by
  decide

/-- With an excerpt: a correlating blob captures, is SKIPPED or WITHDRAWN and goes on; one at level OFF captures nothing. -/
theorem test_closed_blob_excerpt_and_correlation :
    let with_ (c : Contents) := onBanksOf (fun b => { b with bank0 := { b.bank0 with contents := c } }) live
    let close (s : State) (reason : TruncReason) := sendBlob s.dev.base .lead reason (some (6, 12000)) s.dev.insp (9, blobAt 3 4 none 1)
    let buffer : Buffer := { face := .lead, firstLine := 0, firstCol := 0, partly := false, cells := [] }
    let s := with_ (ruled .off true true)
    let full := onOutOf (fun o => { o with buffers := (List.range 8).map fun k => (k, some buffer) }) s
    let states (i : Insp) := i.corr.leadWork.map fun c => c.record.excerpt
    let off := close (with_ (ruled .off false true)) .none
    states (close s .none) = [.partly 0] ∧ (close s .none).out.buffers.map (·.1) = [0] ∧
    states (close full .none) = [.skipped] ∧ (close full .none).lead.blob.skipped = 1 ∧
    states (close s .stop) = [.withdrawn] ∧ (close s .stop).out = s.dev.insp.out ∧
    off.out = live.dev.insp.out ∧ off.corr = live.dev.insp.corr ∧ off.lead.blob.skipped = 0 := by
  decide

/-- The window of a blob on lines 3 and 4, columns 0 and 1: its last row is the newest line, 5, its column 16 the centre's. -/
theorem test_excerpt_window :
    let w := cutWindow .lead [{ index := 5, values := [(0, 100)] }, { index := 4, values := [(1, 90)] }] (blobAt 3 4 none 1)
    w.firstLine = word 5 - 31 ∧ w.firstCol = -16 ∧ w.partly = true ∧ w.cells.length = 1024 ∧
    w.cells.getD 1008 0 = 100 ∧ w.cells.getD 977 0 = 90 ∧ w.cells.sum = 190 := by
  decide

/-! ### Streaks -/

/-- The accumulator takes the clipped deviation; the second hot line opens a streak at MinLines = 2. -/
theorem test_streak_column_accumulates_and_opens :
    let step (acc : Int) (v : StreakColumn) := devOf (exec (.streakTrackerLine .lead) (onFaceOf .lead (fun x => { x with
      streak := { x.streak with cols := [(0, { v with acc := acc })], inbox := [record 5 10000 [(500, none)]] } }) live))
    ((step 0 (StreakColumn.quiet 0)).insp.lead.streak.col 0).acc = 16 ∧
    ((step 134217727 (StreakColumn.quiet 0)).insp.lead.streak.col 0).state = .onset ∧
    ((step 134217727 { StreakColumn.quiet 0 with
      state := .onset, onsetCount := 1, onsetPos := some 8000 }).insp.lead.streak.open_.map (·.1)) = [0] ∧
    (step 0 (StreakColumn.quiet 0)).insp.lead.streak.last = some (5, 10000) := by
  decide

/-- A creep line holds a column; a MARGIN column is zeroed on an inspection line. -/
theorem test_streak_column_holds_or_zeroes :
    let r := record 5 10000 [(500, none)]
    let s := onFaceOf .lead (fun x => { x with streak := { x.streak with cols := [(0, StreakColumn.quiet 77)] } }) live
    let margin := { r with plan := some [{ kind := .margin, lane := none }] }
    zeroes { r with head := headAt 5 10000 .creep } 0 = false ∧
    streakColumn s.dev.base .lead { r with head := headAt 5 10000 .creep } s.dev.insp 0 = s.dev.insp ∧
    columnKind margin.plan margin.lit 0 = .planned .margin ∧ zeroes margin 0 = true ∧
    zeroes { margin with head := headAt 5 10000 .creep } 0 = false ∧ zeroes { margin with phase := .idle } 0 = false ∧
    zeroes { margin with lit := [] } 0 = false ∧
    (streakColumn s.dev.base .lead margin s.dev.insp 0).lead.streak.cols = [] := by
  decide

/-- Streaks of LEAD: the columns, the open ones. -/
def withStreaks (cols : Table StreakColumn) (l : Table (Option Streak)) (s : State) : State :=
  onFaceOf .lead (fun x => { x with streak := { x.streak with cols := cols, open_ := l } }) s

/-- The streaks of LEAD after column `c` of a line of three columns, each 500 above its ref. -/
def afterColumn (c : Nat) (s : State) : Streaks :=
  (streakColumn s.dev.base .lead (record 5 10000 [(500, none), (500, none), (500, none)]) s.dev.insp c).lead.streak

def onset (acc : Int) (pol : Polarity) : StreakColumn :=
  { StreakColumn.quiet acc with state := .onset, onsetPolarity := pol, onsetCount := 1, onsetPos := some 10000 }

def member (acc : Int) (st : ColumnStreak) (n k : Nat) : StreakColumn :=
  { StreakColumn.quiet acc with state := st, releaseCount := n, number := k }

def streakOf (start : Int) (members : Nat) : Streak :=
  {
    polarity := .bright, colMin := 1, colMax := 1, founding := 1, lane := 2, inGuard := false, start := start, openPos := start,
    peak := 7, members := members, lastContinue := start, tierAtOpen := 0 }

/-- From an accumulator of 1,689 the level is 100 = TS, from 1,688 it is 99, from -1,724 it is -100. -/
theorem test_streak_column_onset :
    let s (v : StreakColumn) := withStreaks [(0, v)] [] live
    EligibleAt (s (StreakColumn.quiet 1689)).dev.base .lead (record 5 10000 [(500, none)]) (s (StreakColumn.quiet 1689)).dev.insp 0
      { value := 100, dev := 500, flag := none, entry := some { kind := .lane, lane := some 2 }, learned := true }
      (StreakColumn.quiet 1600) 100 100 compiled ∧
    (afterColumn 0 (s (StreakColumn.quiet 1689))).col 0 = onset 1600 .bright ∧
    (afterColumn 0 (s (StreakColumn.quiet 1688))).col 0 = StreakColumn.quiet 1599 ∧
    (afterColumn 0 (s (StreakColumn.quiet (-1724)))).col 0 = onset (-1601) .dark ∧
    (afterColumn 0 (s (onset 1689 .dark))).col 0 = StreakColumn.quiet 1600 := by
  decide

/-- From 1,262 the level is 75 = TR, from 1,261 it is 74; ReleaseLines is 2. -/
theorem test_streak_member_holds_or_releases :
    let s (v : StreakColumn) := afterColumn 0 (withStreaks [(0, v)] [(3, some (streakOf 8000 1))] live)
    (s (member 1262 .releasing 1 3)).col 0 = member 1200 .streak 0 3 ∧
    (s (member 1261 .streak 0 3)).col 0 = member 1199 .releasing 1 3 ∧
    (s (member 1261 .releasing 1 3)).col 0 = StreakColumn.quiet 1199 ∧
    (s (member 1261 .releasing 1 3)).streak 3 = some { streakOf 8000 0 with peak := 74 } := by
  decide

/-- A column beside one streak joins it, between two merges them into the older; with 64 others open it is held in ONSET. -/
theorem test_streak_column_joins_merges_holds :
    let cols := [(0, member 0 .streak 0 3), (1, onset 1689 .bright), (2, member 0 .streak 0 5)]
    let one := [(3, some (streakOf 8000 1))]
    let two := [(3, some (streakOf 8000 1)), (5, some (streakOf 6000 1))]
    let full := (List.range 64).map fun k => (k, some (streakOf 8000 1))
    let t := afterColumn 1 (withStreaks cols two live)
    let h := afterColumn 0 (withStreaks [(0, onset 1689 .bright)] full live)
    (afterColumn 1 (withStreaks (cols.take 2) one live)).open_ = [(3, some { streakOf 8000 2 with peak := 100 })] ∧
    twf none two = true ∧ t.open_ = [(5, some { streakOf 6000 3 with peak := 100 })] ∧
    t.cols.map (·.2.number) = [5, 5, 5] ∧ t.merges = 1 ∧ t.closed = 1 ∧
    h.held = 1 ∧ h.saturated = true ∧ (h.col 0).state = .onset ∧ h.open_.length = 64 := by
  decide

/-- The close of a streak merged on a saturated face is followed by the CLEAR report, and sends no counted event. -/
theorem test_merge_ends_saturation :
    let cols := [(0, member 0 .streak 0 3), (1, onset 1689 .bright), (2, member 0 .streak 0 5)]
    let s := onFaceOf .lead (fun x => { x with streak := { x.streak with saturated := true } })
      (withStreaks cols [(3, some (streakOf 8000 1)), (5, some (streakOf 6000 1))] (onBanksOf (fun b => { b with
        bank0 := { b.bank0 with contents := { contents with
          policy := { contents.policy with streakClose := { level := .p2, slot := .none } } } } }) live))
    let i := streakColumn s.dev.base .lead (record 5 10000 [(500, none), (500, none), (500, none)]) s.dev.insp 1
    i.lead.streak.saturated = false ∧ i.lead.tier = s.dev.insp.lead.tier ∧ i.out.p2.entries.length = 2 ∧
    i.out.p2.entries.getLast? = some {
      report := .status (some .lead) false (.streakSaturation false 1 (some 5)), lostBefore := 0 } := by
  decide

/-- A streak that loses its last member closes; one whose interval of 1 m has passed is continued. -/
theorem test_streaks_close_and_continue :
    let close := devOf (exec (.streakTrackerLine .lead) (onFaceOf .lead (fun x => { x with
      streak := { x.streak with saturated := true, inbox := [record 5 10000 [(500, none)]] } })
      (withStreaks [(0, member 1261 .releasing 1 3)] [(3, some (streakOf 8000 1))] live)))
    let every := onBanksOf (fun b => { b with bank0 := { b.bank0 with
      contents := { contents with detection := { contents.detection with interval := 1 } } } }) live
    let after (pos : Int) := (devOf (exec (.streakTrackerLine .lead) (onFaceOf .lead (fun x => { x with
      streak := { x.streak with inbox := [record 5 pos []] } })
      (withStreaks [(0, member 0 .streak 0 3)] [(3, some (streakOf 0 1))] every)))).insp.lead.streak.streak 3
    close.insp.lead.streak.open_ = [] ∧ close.insp.lead.streak.closed = 1 ∧ close.insp.lead.streak.saturated = false ∧
    close.insp.out.p2.entries.length = 1 ∧
    after 1023999999 = some (streakOf 0 1) ∧ after 1024000000 = some { streakOf 0 1 with lastContinue := 1024000000 } := by
  decide

/-! ### Preview -/

def previewing (decimation counter : Nat) : State :=
  onFaceOf .lead (fun x => { x with
    preview := { decimation := decimation, binning := 8, counter := counter, replaced := 0, inbox := [record 5 10000 [(0, none)]] } }) live

theorem test_preview_line_counts_and_takes_slot :
    (devOf (exec (.previewLine .lead) (previewing 0 0))).insp.lead.preview.inbox = [] ∧
    (devOf (exec (.previewLine .lead) (previewing 2 0))).insp.lead.preview.counter = 1 ∧
    (devOf (exec (.previewLine .lead) (previewing 2 1))).insp.lead.preview.counter = 0 ∧
    (devOf (exec (.previewLine .lead) (previewing 2 1))).insp.out.previewLead.entries.length = 1 := by
  decide

/-- Bin 1 of two columns: 100 in column 2, column 3 void; halves round up. -/
theorem test_bin_value :
    let cols := (record 5 10000 [(0, none), (0, none), (0, none)]).cols
    (cols.map (·.1)).Nodup ∧ (cols.map fun e => e.2.value) = [100, 100, 100] ∧ binValue cols 2 0 = 100 ∧ binValue cols 2 1 = 50 ∧
    binValue cols 8 0 = 38 ∧ binValue cols 8 1 = 0 := by
  decide

/-- A line not yet picked is replaced; its lost-before stays. -/
theorem test_preview_line_replaces :
    let s := onOutOf (fun o => { o with
      previewLead := { o.previewLead with entries := [{ report := .start .power none false, lostBefore := 3 }] } }) (previewing 1 0)
    (devOf (exec (.previewLine .lead) s)).insp.lead.preview.replaced = 1 ∧
    ((devOf (exec (.previewLine .lead) s)).insp.out.previewLead.entries.map (·.lostBefore)) = [3] := by
  decide

/-! ### The Face Correlator -/

def defect (md cd : Int) : Defect :=
  {
    face := .lead, number := 0, cls := 3, polarity := .bright, first := 0, last := 0, md := md, cd := cd, width := 1, length := 1,
    area := 1, peak := 1, peakCol := 0, tier := 0, sum := 1, lane := 0, inGuard := false, trunc := .none, touched := false,
    unsync := false, excerpt := .none, mark := .none }

def candidate (md cd : Int) : Candidate :=
  { record := defect md cd, bank := some .bank0, level := .p0, slot := .none, leadOnlyLevel := .p1 }

def withCorr (g : Corr → Corr) (s : State) : State := onInsp (fun i => { i with corr := g i.corr }) s

theorem test_lead_candidate_appends_or_evicts :
    let s (n : Nat) := withCorr (fun c => { c with list := List.replicate n (candidate 0 0), leadWork := [candidate 9 9] }) live
    (devOf (exec .leadCandidate (s 127))).insp.corr.list.length = 128 ∧
    (devOf (exec .leadCandidate (s 127))).insp.corr.highWater = 128 ∧
    (devOf (exec .leadCandidate (s 128))).insp.corr.list.length = 128 ∧
    (devOf (exec .leadCandidate (s 128))).insp.corr.evicted = 1 ∧
    (devOf (exec .leadCandidate (s 128))).insp.out.p1.entries.length = 1 := by
  decide

/-- Tolerances of 50 µm and 20 µm: 5 position units and 20 µm match, 6 do not. -/
theorem test_trail_candidate_matches_or_not :
    let c := { contents with correlation := { md := 50, cd := 20 }, policy := { contents.policy with through := { level := .p2, slot := .none } } }
    let s (md cd : Int) := withCorr (fun x => { x with list := [candidate 100 0], trailWork := [.candidate (candidate md cd)] })
      (onBanksOf (fun b => { b with bank0 := { b.bank0 with contents := c } }) live)
    (devOf (exec .trailCandidate (s 105 20))).insp.corr.list = [] ∧ (devOf (exec .trailCandidate (s 105 20))).insp.corr.matchCount = 1 ∧
    (devOf (exec .trailCandidate (s 105 20))).insp.out.p2.entries.length = 1 ∧
    (devOf (exec .trailCandidate (s 106 0))).insp.corr.trailOnly = 1 ∧ (devOf (exec .trailCandidate (s 105 21))).insp.corr.trailOnly = 1 ∧
    (devOf (exec .trailCandidate (s 106 0))).insp.corr.list = [candidate 100 0] := by
  decide

/-- The margin of no MD tolerance, Mb = 1 and a pitch of 2,000 is 514 × 2,000 fine units, 101 position units. -/
theorem test_expiry_after_trail_line :
    let s (pos : Int) := withCorr (fun c => { c with list := [candidate 100 0, candidate 99 0] })
      (onFaceOf .trail (fun x => { x with blob := { x.blob with inbox := [record 5 pos [(0, none)]] } }) live)
    expiryMargin contents 2000 = 101 ∧
    (devOf (exec (.blobBuilderLine .trail) (s (200 * 10240)))).insp.corr.list = [candidate 100 0] ∧
    (devOf (exec (.blobBuilderLine .trail) (s (201 * 10240)))).insp.corr.list = [] ∧
    (devOf (exec (.blobBuilderLine .trail) (s (201 * 10240)))).insp.corr.expired = 2 := by
  decide

/-- An entry that expires is reported lead-only at the higher of its levels; behind a waiting candidate the test waits, and is made
in the step that takes the candidate. -/
theorem test_expiry_reports_and_waits :
    let s (work : List TrailWork) := withCorr (fun c => { c with list := [candidate 100 0], trailWork := work })
      (onFaceOf .trail (fun x => { x with blob := { x.blob with inbox := [record 5 (201 * 10240) [(0, none)]] } }) live)
    let t := devOf (exec (.blobBuilderLine .trail) (s [.candidate (candidate 300 0)]))
    ((devOf (exec (.blobBuilderLine .trail) (s []))).insp.out.p1.entries.map (·.report)) =
      [.defect { defect 100 0 with mark := .leadOnly .expired }] ∧
    t.insp.corr.list = [candidate 100 0] ∧ t.insp.corr.trailWork = [.candidate (candidate 300 0), .expiry 201 101] ∧
    (devOf (exec .trailCandidate { live with dev := t })).insp.corr.list = [] ∧
    (devOf (exec .trailCandidate { live with dev := t })).insp.corr.trailWork = [] := by
  decide

/-- A TRAIL line that closes a blob counts and reports it, and then makes its expiry test; a candidate of the line is searched before
the test. -/
theorem test_trail_line_closes_before_expiry :
    let rule : ClassRule := { ClassRule.empty with
      present := true, polarity := .either, areaMax := 65535, widthMax := 65535, lengthMax := 65535, correlate := true }
    let s (rules : Table ClassRule) := withCorr (fun c => { c with list := [candidate 100 0] })
      (onFaceOf .trail (fun x => { x with
        blob := { x.blob with open_ := [(0, some (blobAt 3 4 none 1))], inbox := [record 5 (201 * 10240) [(0, none)]] } })
        (onBanksOf (fun b => { b with bank0 := { b.bank0 with contents := { contents with rules := rules } } }) live))
    let t (rules : Table ClassRule) := (devOf (exec (.blobBuilderLine .trail) (s rules))).insp
    (t []).trail.blob.closed = 1 ∧ (t []).trail.blob.open_ = [] ∧ (t []).corr.list = [] ∧ (t []).corr.trailWork = [] ∧
    (t []).trail.tier.blobEvents.length = 1 ∧ (t []).out.p1.entries.length = 2 ∧
    (t [(0, rule)]).corr.list = [candidate 100 0] ∧ (t [(0, rule)]).corr.trailWork.length = 2 ∧
    (t [(0, rule)]).corr.trailWork.drop 1 = [.expiry 201 101] ∧ (t [(0, rule)]).out.p1.entries = [] := by
  decide

/-! ### Tiers, marks -/

def eventAt (pos : Int) (last : Option Int) : State :=
  onFaceOf .lead (fun x => { x with
    tier := {
      (x.tier.setLane 2 { Lane.powerOn with buckets := [(0, 1)], lastChange := last }) with
      blobEvents := [{ lane := 2, pos := some pos, index := some 5 }] } }) live

/-- The second event in the window escalates under Ne = 2 once the last change lies a metre back. -/
theorem test_counted_event_escalates :
    ((devOf (exec (.countedEvent .lead .blobBuilder) (eventAt 1024000000 (some 0)))).insp.lead.tier.lane 2).own = 1 ∧
    ((devOf (exec (.countedEvent .lead .blobBuilder) (eventAt 1023999999 (some 0)))).insp.lead.tier.lane 2).own = 0 ∧
    (devOf (exec (.countedEvent .lead .blobBuilder) (eventAt 0 none))).insp.lead.tier.escalations = 1 ∧
    ((devOf (exec (.countedEvent .lead .blobBuilder) (eventAt 0 none))).insp.lead.tier.lane 2).buckets = [(0, 2)] := by
  decide

/-- An event that does not escalate changes its bucket and the queue of its sender alone; without a position it passes the residency
test only where the last change is absent. -/
theorem test_counted_event_that_only_counts :
    let held := eventAt 1023999999 (some 0)
    let placeless (last : Option Int) := onFaceOf .lead (fun x => { x with
      tier := { x.tier with blobEvents := [{ lane := 2, pos := none, index := none }] } }) (eventAt 0 last)
    let t (s : State) := (devOf (exec (.countedEvent .lead .blobBuilder) s)).insp.lead.tier
    t held = { held.dev.insp.lead.tier.setEvents .blobBuilder [] with
      lanes := [(2, { Lane.powerOn with buckets := [(0, 2)], lastChange := some 0 })] } ∧
    (t (placeless (some 0))).escalations = 0 ∧ (t (placeless none)).escalations = 1 ∧
    ((t (placeless none)).lane 2).lastChange = none := by
  decide

/-- The policy of `live` with LANE reports at P2. -/
def reportingLanes (s : State) : State :=
  onBanksOf (fun b => { b with bank0 := { b.bank0 with contents := { b.bank0.contents with
    policy := { b.bank0.contents.policy with lane := { level := .p2, slot := .none } } } } }) s

/-- From T1 to T2 under Na = 1 and Fa = 1: the lane's report, the alert, then the 15 lanes that the floor raises. -/
theorem test_escalation_reports :
    let s := reportingLanes (onFaceOf .lead (fun x => { x with
      tier := { x.tier.setLane 2 { Lane.powerOn with buckets := [(0, 1)], own := 1 } with fa := 1 } }) (eventAt 10240 none))
    let l := (devOf (exec (.countedEvent .lead .blobBuilder) s)).insp.out.p2.entries.map (·.report)
    let lane (n : Nat) (cause : LaneCause) (old new own sum : Nat) : Report := .lane {
      face := .lead, unsync := false, lane := n, cause := cause, oldTier := old, newTier := new, own := own, minLimit := 0,
      maxLimit := 3, alert := true, windowSum := sum, index := some 5, pos := some 1 }
    l.length = 17 ∧ l.take 4 = [lane 2 .escalate 1 2 2 2, .status (some .lead) false (.alert true 1 1 (some 5) (some 1)),
      lane 0 .alertFloor 0 1 0 0, lane 1 .alertFloor 0 1 0 0] := by
  decide

theorem test_counted_event_of_streak_tracker :
    let s := onFaceOf .trail (fun x => { x with tier := { x.tier with streakEvents := [{ lane := 15, pos := none, index := none }] } }) live
    ((devOf (exec (.countedEvent .trail .streakTracker) s)).insp.trail.tier.lane 15).buckets = [(0, 1)] ∧
    (devOf (exec (.countedEvent .trail .streakTracker) s)).insp.trail.tier.streakEvents = [] := by
  decide

/-- With no bank active an event only fills the bucket; with Ru = 0 it escalates below the last change too. -/
theorem test_counted_event_without_bank_or_residency :
    let idle := onBanksOf (fun b => { b with bank0 := { b.bank0 with state := .checked } }) (eventAt 0 none)
    let free := onBanksOf (fun b => { b with bank0 := { b.bank0 with
      contents := { contents with tierPolicy := { contents.tierPolicy with ru := 0 } } } }) (eventAt 0 (some 5000))
    let t (s : State) := (devOf (exec (.countedEvent .lead .blobBuilder) s)).insp.lead.tier
    idle.dev.base.banks.activeOn .lead = none ∧ (t idle).lane 2 = { Lane.powerOn with buckets := [(0, 2)] } ∧
    (t idle).escalations = 0 ∧
    (t free).lane 2 = { Lane.powerOn with buckets := [(0, 2)], own := 1, lastChange := some 0 } := by
  decide

/-- A boundary due at the line: lane 2 relaxes under Nd = 1, the boundary moves one span on. -/
theorem test_boundary_relaxes_lane :
    let s := onFaceOf .lead (fun x => { x with
      tier := { x.tier.setLane 2 { Lane.powerOn with buckets := [(1, 9)], own := 1 } with next := some 5000 } })
      (onBanksOf (fun b => { b with bank0 := { b.bank0 with
        contents := { contents with tierPolicy := { contents.tierPolicy with nd := 1 } } } }) live)
    let t (pos : Int) := (tierLineStart s.dev.base .lead (headAt 5 pos .inspection) s.dev.insp).lead.tier
    twf Lane.powerOn s.dev.insp.lead.tier.lanes = true ∧ 1 ≤ (s.dev.base.banks.contents .lead).tierPolicy.w ∧
    (t 4999).next = some 5000 ∧ (t 4999).lastPos = some 4999 ∧
    (t 5000).next = some (5000 + 8 * 128000000) ∧ (t 5000).current = 1 ∧ (t 5000).relaxations = 1 ∧
    (t 5000).lane 2 = { Lane.powerOn with lastChange := some 5000 } ∧
    (tierLineStart (reportingLanes s).dev.base .lead (headAt 5 5000 .inspection) s.dev.insp).out.p2.entries.map (·.report) =
      [.lane {
        face := .lead, unsync := false, lane := 2, cause := .relax, oldTier := 1, newTier := 0, own := 0, minLimit := 0,
        maxLimit := 3, alert := false, windowSum := 0, index := some 5, pos := some 0 }] := by
  decide

/-- Patches of 1,000 µm, gaps of 1,000 µm, guards of 10 and 20 µm. -/
def patched : State :=
  onBanksOf (fun b => { b with bank0 := { b.bank0 with
    contents := { contents with pattern := { contents.pattern with g := 1000, gl := 10, gt := 20 } } } }) live

/-- LEAD's pattern after its step at `pos`, with the edge of one mark at `e`. -/
def afterStep (state : PatternState) (misses : Nat) (e pos : Int) : Pattern :=
  let s := onInsp (fun i => { i with
    marks := { i.marks with list := [{ h := e - 3072, leadHandled := false, trailHandled := true }] } })
    (onFaceOf .lead (fun x => { x with
      pattern := { x.pattern with state := some state, edge := some 0, misses := misses } }) patched)
  (patternStep s.dev.base .lead (headAt 5 pos .inspection) s.dev.insp).lead.pattern

/-- An edge at the end of the patch, one short of it, a synthesis point before the edge, the third miss. -/
theorem test_pattern_step :
    (afterStep .synced 0 1024000 1024000).edge = some 1024000 ∧ (afterStep .synced 0 1024000 1023999).edge = some 0 ∧
    (afterStep .synced 0 1023999 1023999).early = 1 ∧
    (afterStep .synced 0 9999999 2047999).state = some .synced ∧ (afterStep .synced 0 9999999 2048000).state = some .coasting ∧
    (afterStep .synced 0 9999999 2048000).edge = some 2048000 ∧ (afterStep .synced 0 2048000 2048000).state = some .synced ∧
    (afterStep .coasting 2 9999999 2048000).state = some .lost ∧ (afterStep .lost 3 0 0).state = some .synced := by
  decide

theorem test_zones :
    let z (pos : Int) := zoneAt { Pattern.powerOn with state := some .synced, edge := some 0 }
      (patched.dev.base.banks.contents .lead).pattern pos
    z 10239 = some .leadGuard ∧ z 10240 = some .coated ∧ z 1003519 = some .coated ∧ z 1003520 = some .trailGuard ∧
    z 1023999 = some .trailGuard ∧ z 1024000 = some .gap := by
  decide

/-- A pattern with G > 0 on both faces, the web at H = 9,000. -/
def marking (n : Nat) (last : Option Int) : State :=
  onInsp (fun i => { i with
    marks := { i.marks with
    list := List.replicate n { h := 0, leadHandled := false, trailHandled := false }, lastAccepted := last } })
    (onMotionOf (fun m => { m with h := 9000 }) (onBanksOf (fun b => { b with
      bank0 := { b.bank0 with contents := { contents with pattern := { contents.pattern with g := 1 } } } }) live))

theorem test_patch_mark :
    (devOf (exec .patchMark (marking 15 (some 8999)))).insp.marks.list.length = 16 ∧
    (devOf (exec .patchMark (marking 16 none))).insp.marks.dropped = 1 ∧
    (devOf (exec .patchMark (marking 15 (some 9000)))).insp.marks.repeated = 1 ∧
    (devOf (exec .patchMark live)).insp.marks = live.dev.insp.marks ∧
    (devOf (exec .patchMark still)).insp.marks = still.dev.insp.marks := by
  decide

/-! ### Arbiter and link -/

def linked (s : State) : State := onOutOf (fun o => { o with linkUp := true, startPending := false }) s

def aReport : Report := .status none false (.rewound 0 0)

def sending (r : Report) (q : Option QueueId) (s : State) : State :=
  onOutOf (fun o => { o with tx := some { queue := q, report := r, words := [], live := true } }) (linked s)

/-- One place left in P2, and none. -/
theorem test_offer_accepts_or_loses :
    let o (n : Nat) := { State.reset.dev.insp.out with
      p2 := { entries := List.replicate n { report := aReport, lostBefore := 0 }, pendingLoss := 65535, totalLost := 4294967295 } }
    ((o 31).offer .p2 aReport).p2.entries.getLast? = some { report := aReport, lostBefore := 65535 } ∧
    ((o 31).offer .p2 aReport).p2.pendingLoss = 0 ∧ ((o 32).offer .p2 aReport).p2.entries.length = 32 ∧
    ((o 32).offer .p2 aReport).p2.pendingLoss = 65535 ∧ ((o 32).offer .p2 aReport).p2.totalLost = 4294967295 := by
  decide

/-- Level OFF offers nothing and frees the buffer the record holds; a slot comes before the level; else the level's queue. -/
theorem test_route_by_level_and_slot :
    let buffer : Buffer := { face := .lead, firstLine := 0, firstCol := 0, partly := false, cells := [] }
    let o := { live.dev.insp.out with buffers := [(2, some buffer), (3, some buffer)] }
    let r : Report := .defect { defect 0 0 with excerpt := .captured 2 }
    o.route .off .a r = { o with buffers := [(3, some buffer)] } ∧ (o.route .p1 .a r).expressA.entries.length = 1 ∧
    (o.route .p2 .b r).expressB.entries.length = 1 ∧ (o.route .p0 .none r).p0.entries.length = 1 := by
  decide

/-- A query by its kind; of no known kind, or of another length; and a code without a command. -/
theorem test_row_of_command :
    rowOf (cmd 0x50 [5, 0]) = .queryRetained ∧ rowOf (cmd 0x50 [6, 0]) = .queryStatus ∧ rowOf (cmd 0x50 [5]) = .queryStatus ∧
    rowOf (cmd 0x07 []) = .unknownCommand ∧ rowOf (cmd 0x52 []) = .retainWrite := by
  decide

theorem test_transmit_completion_effects :
    let buffer : Buffer := { face := .lead, firstLine := 0, firstCol := 0, partly := false, cells := [] }
    let held := onOutOf (fun o => { o with buffers := [(7, some buffer)] }) State.reset
    let t (r : Report) := devOf (exec .transmitCompletion (sending r (some .p0) held))
    (t (.defect { defect 0 0 with excerpt := .captured 7 })).insp.out.tx.map (·.queue) = some (some .excerpt) ∧
    (t (.excerpt { face := .lead, cls := 3, first := 0, last := 0, buffer := 7 })).insp.out.buffers = [] ∧
    (t (.defect (defect 0 0))).insp.out.tx = none ∧ (t aReport).insp.out.framesSent = 1 ∧
    (devOf (exec .transmitCompletion (onOutOf (fun o => { o with startPending := true })
      (sending (.start .power none false) none State.reset)))).insp.out.startPending = false := by
  decide

/-- A THROUGH frame with two, one and no held buffer; EXCERPT and START frames overtaken by a STOP or a reset. -/
theorem test_transmit_completion_of_through_and_overtaken_frames :
    let buffer : Buffer := { face := .lead, firstLine := 0, firstCol := 0, partly := false, cells := [] }
    let held := onOutOf (fun o => { o with buffers := [(6, some buffer), (7, some buffer)] }) State.reset
    let d (e : ExcerptState) := { defect 0 0 with excerpt := e }
    let t (l r : ExcerptState) := (devOf (exec .transmitCompletion
      (sending (.through (d l) (d r) 0 0) (some .p0) held))).insp.out
    let dead (r : Report) (p : Bool) := (devOf (exec .transmitCompletion (onOutOf (fun o => { o with
      startPending := p, tx := o.tx.map fun x => { x with live := false } }) (sending r none held)))).insp.out
    let two := t (.captured 7) (.partly 6)
    two.tx.map (·.queue) = some (some .excerpt) ∧ two.excerpt.entries.length = 1 ∧
    (t (.captured 7) .skipped).tx.map (·.queue) = some (some .excerpt) ∧ (t (.captured 7) .skipped).excerpt.entries = [] ∧
    (t .none (.partly 6)).tx.map (·.queue) = some (some .excerpt) ∧ (t .withdrawn .none).tx = none ∧
    (dead (.excerpt { face := .lead, cls := 3, first := 0, last := 0, buffer := 7 }) false).buffers = held.dev.insp.out.buffers ∧
    (dead (.start .power none false) true).startPending = true := by
  decide

/-- The START report before all, a reply before P0, the toggle between two preview lines. -/
theorem test_pick_order :
    let one : Queue := { entries := [{ report := aReport, lostBefore := 0 }], pendingLoss := 0, totalLost := 0 }
    let o := { State.reset.dev.insp.out with linkUp := true, p0 := one, reply := one, startPending := false }
    let p := { State.reset.dev.insp.out with linkUp := true, startPending := false, previewLead := one, previewTrail := one }
    (Out.pick { o with startPending := true }).tx.map (·.queue) = some none ∧ o.pick.tx.map (·.queue) = some (some .reply) ∧
    p.pick.tx.map (·.queue) = some (some .previewLead) ∧ p.pick.toggle = .trail ∧
    (Out.pick { p with previewTrail := Queue.empty }).toggle = .lead ∧ (Out.pick { o with linkUp := false }).tx = none := by
  decide

theorem test_link_up_picks_start_report :
    State.reset.dev.insp.out.linkUp = false ∧
    (devOf (exec .linkUp State.reset)).insp.out.tx.map (·.report) = some (.start .power none false) := by
  decide

theorem test_link_down_loses_frame :
    let buffer : Buffer := { face := .lead, firstLine := 0, firstCol := 0, partly := false, cells := [] }
    let s := onOutOf (fun o => { o with buffers := [(7, some buffer)] })
      (sending (.defect { defect 0 0 with excerpt := .partly 7 }) (some .p0) State.reset)
    let t := (devOf (exec (.linkDown true) s)).insp.out
    t.linkUp = false ∧ t.p0.totalLost = 1 ∧ t.p0.pendingLoss = 1 ∧ t.buffers = [] ∧ t.linkDowns = 1 ∧ t.inboundErrors = 1 := by
  decide

/-- The loss of an EXCERPT frame frees its buffer, unless a STOP has overtaken it. -/
theorem test_link_down_with_excerpt_frame :
    let buffer : Buffer := { face := .lead, firstLine := 0, firstCol := 0, partly := false, cells := [] }
    let o (live : Bool) := (devOf (exec (.linkDown false) (onOutOf (fun o => { o with
      buffers := [(7, some buffer)],
      tx := some {
        queue := some .excerpt, report := .excerpt { face := .lead, cls := 3, first := 0, last := 0, buffer := 7 }, words := [],
        live := live } }) (linked State.reset)))).insp.out
    (o true).buffers = [] ∧ (o false).buffers = [(7, some buffer)] ∧ (o false).excerpt.totalLost = 1 := by
  decide

/-- Words 0, 1 and the body of a status frame and of a STREAK_CLOSE with a peak above 131,071. -/
theorem test_frame_words :
    (frameWords [] (.status none false (.head 2 .active .silent .missing 77)) 2).take 6 =
      [0x50000007#32, 0x0002C000#32, 0x03990000#32, 77, 0, 0] ∧
    (frameWords [] (.streak {
      kind := .closed .merged (some 9), face := .trail, number := 33, polarity := .dark, inGuard := true, unsync := true, lane := 5,
      tierAtOpen := 2, tierNow := 0, founding := 100, members := 0, colMin := 90, colMax := 110, start := -1, pos := 20,
      length := 21, width := 210, cd := -7, peak := 131073 }) 0).take 11 =
      [0x3200000C#32, 0x00006000#32, 0x8689AC00#32, 0x03200000#32, 0x005A006E#32, 0xFFFFFFFF#32, 20, 21, 210, 0xFFFFFFF9#32, 1] := by
  decide

/-- The check word of a frame of one word, and the frame of a QUERY of kind 0, tag 9. -/
def queryFrame : List Word := withCheck [0x90000005#32, 0x50090002#32, 0, 0]

theorem test_inbound_frame_queued_or_counted :
    queryFrame.length = (queryFrame.getD 0 0).toNat % 16777216 ∧ queryFrame.getLast? = some (frameCheck queryFrame.dropLast) ∧
    (devOf (exec (.inboundFrame queryFrame) (linked State.reset))).base.exec.queue =
      [{ code := 0x50, tag := 9, count := 2, ops := [0, 0] }] ∧
    (devOf (exec (.inboundFrame queryFrame.dropLast) (linked State.reset))).insp.out.inboundErrors = 1 ∧
    (devOf (exec (.inboundFrame queryFrame) State.reset)).base.exec.queue = [] := by
  decide

/-- Four commands queued: BUSY with a reply place, discarded without. -/
theorem test_inbound_frame_at_full_queue :
    let full := onBase (fun b => { b with exec := { b.exec with queue := List.replicate 4 (cmd 0x05 []) } }) (linked State.reset)
    let stuffed := onOutOf (fun o => { o with
      reply := { o.reply with entries := List.replicate 8 { report := aReport, lostBefore := 0 } } }) full
    full.dev.canReply = true ∧ stuffed.dev.canReply = false ∧
    (devOf (exec (.inboundFrame queryFrame) full)).base.exec.busy = 1 ∧
    (devOf (exec (.inboundFrame queryFrame) stuffed)).base.exec.discarded = 1 := by
  decide

/-! ### The Command Executor -/

theorem test_unknown_and_malformed_commands :
    ask .unknownCommand 0x07 [1, 2, 3] still = some (.unknown, []) ∧
    ([(0x01, .lineSetup), (0x05, .setCalibrationLock), (0x50, .queryStatus), (0xFF, .reset)].all fun (e : Nat × Instr) =>
      decide (rowOf (cmd e.1 [1]) = e.2 ∧ (cmd e.1 [1]).malformed = true ∧ ask e.2 e.1 [1] still = some (.malformed, []))) ∧
    (cmd 0x11 [0, 9, 0, 0, 0]).malformed = false ∧ (cmd 0x11 [0, 8, 0, 1, 0]).malformed = true := by
  decide

theorem test_head_command_waits_for_reply_place :
    let stuffed := onOutOf (fun o => { o with
      reply := { o.reply with entries := List.replicate 8 { report := aReport, lostBefore := 0 } } }) still
    stuffed.dev.canReply = false ∧
    (run .setCalibrationLock 0x05 [] stuffed).base.exec.queue = [cmd 0x05 []] ∧
    (run .stop 0x05 [] still).base.exec.queue = [cmd 0x05 []] ∧ (run .reset 0xFF [] stuffed).base.exec.queue = [] := by
  decide

theorem test_queries_with_small_bodies :
    answers .queryStreaks 0x50 [3, 1] live .done [0] ∧ answers .queryPending 0x50 [4, 0] live .done [0] ∧
    answers .queryRetained 0x50 [5, 0] live .done [0, 0, 0, 0, 0, 0, 0, 0, 0] ∧ answers .queryLanes 0x50 [2, 2] live .range [] ∧
    answers .queryStreaks 0x50 [3, 2] live .range [] ∧ answers .queryStatus 0x50 [6, 0] live .range [] := by
  decide

theorem test_queries_with_long_bodies :
    Ready .queryStatus (cmd 0x50 [0, 0]) [] (queued live (cmd 0x50 [0, 0])) ∧
    (ask .queryStatus 0x50 [0, 0] live).map (·.1) = some .done ∧
    Ready .queryCounters (cmd 0x50 [1, 0]) [] (queued live (cmd 0x50 [1, 0])) ∧
    (ask .queryCounters 0x50 [1, 0] live).map (·.1) = some .done ∧
    Ready .queryLanes (cmd 0x50 [2, 0]) [] (queued live (cmd 0x50 [2, 0])) ∧
    (ask .queryLanes 0x50 [2, 0] live).map (fun x => x.2.length) = some 227 := by
  decide

theorem test_clear_counters :
    let s := withCorr (fun c => { c with list := [candidate 0 0], expired := 5, highWater := 9 })
      (withPort 0 { port with counts := { PortCounts.zero with late := 2 } } live)
    Ready .clearCounters (cmd 0x51 []) [] (queued s (cmd 0x51 [])) ∧ ask .clearCounters 0x51 [] s = some (.done, []) ∧
    (run .clearCounters 0x51 [] s).insp.corr.expired = 0 ∧ (run .clearCounters 0x51 [] s).insp.corr.highWater = 1 ∧
    (run .clearCounters 0x51 [] s).base.port 0 = port ∧ (run .clearCounters 0x51 [] s).base.exec.executed = 0 := by
  decide

theorem test_retain_write :
    ([[0], [1, 8, 0], [9, 0, 0, 0, 0, 0, 0, 0, 0, 0, 0, 0, 0, 0, 0, 0, 0, 0, 0]].all fun ops =>
      answers .retainWrite 0x52 ops live .range []) ∧
    answers .retainWrite 0x52 [3, 7, 4, 0, 5, 7, 6] live .done [] ∧
    (run .retainWrite 0x52 [3, 7, 4, 0, 5, 7, 6] live).base.exec.retained = [(0, 5), (7, 6)] := by
  decide

/-! ### The Bank Controller -/

/-- The two banks in given states. -/
def banks (s0 s1 : BankState) (s : State) : State :=
  onBanksOf (fun b => { b with bank0 := { b.bank0 with state := s0 }, bank1 := { b.bank1 with state := s1, contents := contents } }) s

theorem test_bank_open :
    ([[2, 0], [0, 2]].all fun ops => answers .bankOpen 0x10 ops still .range []) ∧
    answers .bankOpen 0x10 [0, 0] (banks .checking .vacant still) .busy [] ∧
    ([.opened, .scheduled, .active .both].all fun st => answers .bankOpen 0x10 [1, 0] (banks .vacant st still) .state []) ∧
    answers .bankOpen 0x10 [1, 0] (banks .vacant .checked still) .done [] ∧
    answers .bankOpen 0x10 [0, 1] (banks .vacant .opened still) .done [] ∧
    (run .bankOpen 0x10 [0, 1] (banks .vacant .opened still)).base.banks.bank0 =
      { state := .opened, contents := contents, compiled := none } := by
  decide

/-- The open bank the writes below act on. -/
def opened : State := banks .opened .vacant still

theorem test_bank_write_refusals :
    answers .bankWrite 0x11 [2, 8, 0, 1, 0, 0] opened .range [] ∧ answers .bankWrite 0x11 [0, 9, 0, 0] opened .range [] ∧
    answers .bankWrite 0x11 [0, 8, 0, 0] opened .range [] ∧ answers .bankWrite 0x11 [0, 8, 1, 1, 0, 0] opened .range [] ∧
    answers .bankWrite 0x11 [0, 0, 32, 1, 0, 0, 0, 0, 0, 0] opened .range [] ∧
    answers .bankWrite 0x11 [0, 8, 0, 1, 0, 0] (banks .checking .vacant still) .busy [] ∧
    answers .bankWrite 0x11 [1, 8, 0, 1, 0, 0] opened .state [] ∧
    ([[2, 0, 0, 0, 0, 0], [1, 4, 0, 0, 0, 0], [1, 0, 8192, 0, 0, 0], [1, 0, 0, 8192, 0, 0], [1, 0, 0, 0, 17, 0], [1, 0, 0, 0, 0, 4]].all
      fun e => answers .bankWrite 0x11 ([0, 0, 0, 1] ++ e) opened .range []) ∧
    ([[2, 0, 0, 0, 0, 0, 0, 0, 0, 0, 0, 0, 0], [0, 3, 0, 0, 0, 0, 0, 0, 0, 0, 0, 0, 0], [0, 0, 0, 0, 0, 0, 0, 0, 2, 0, 0, 0, 0],
      [0, 0, 0, 0, 0, 0, 0, 0, 0, 0, 0, 4, 0], [0, 0, 0, 0, 0, 0, 0, 0, 0, 0, 0, 0, 3]].all
      fun e => answers .bankWrite 0x11 ([0, 2, 0, 1] ++ e) opened .range []) ∧
    ([[4] ++ List.replicate 16 0, List.replicate 14 0 ++ [3, 0, 0], List.replicate 15 0 ++ [2, 0], List.replicate 16 0 ++ [2]].all
      fun e => answers .bankWrite 0x11 ([0, 3, 0, 1] ++ e) opened .range []) ∧
    ([[8, 1, 0, 0, 0, 1, 4, 0, 0, 0], [8, 1, 0, 0, 0, 1, 0, 4, 0, 0], [8, 1, 0, 0, 0, 1, 0, 0, 4, 0], [8, 1, 0, 0, 0, 1, 0, 0, 0, 2]].all
      fun e => answers .bankWrite 0x11 ([0, 5, 0, 1] ++ e) opened .range []) := by
  decide

theorem test_bank_write_stores :
    let w (ops : List Nat) := (run .bankWrite 0x11 ops opened).base.banks.bank0.contents
    answers .bankWrite 0x11 [0, 0, 31, 1, 1, 1, 0, 8191, 16, 3] opened .done [] ∧
    (w [0, 0, 31, 1, 1, 1, 0, 8191, 16, 3]).regionsLead =
      [(31, { present := true, kind := .guard, first := 0, last := 8191, lane := none, priority := 3 })] ∧
    answers .bankWrite 0x11 [0, 2, 7, 1, 1, 2, 1, 65536, 3, 4, 5, 6, 1, 0, 1, 3, 2] opened .clamped [] ∧
    (w [0, 2, 7, 1, 1, 2, 1, 65536, 3, 4, 5, 6, 1, 0, 1, 3, 2]).rules =
      [(7, {
        present := true, polarity := .either, areaMin := 1, areaMax := 65535, widthMin := 3, widthMax := 4, lengthMin := 5,
        lengthMax := 6, correlate := true, counts := false, excerpt := true, level := .p2, slot := .b })] ∧
    (w [0, 3, 0, 1, 0, 1, 2, 3, 0, 1, 2, 3, 0, 1, 2, 0, 1, 2, 0, 1, 0]).policy = {
      unclassed := { level := .off, slot := .none }, elongated := { level := .p0, slot := .a },
      through := { level := .p1, slot := .b }, leadOnly := .p2, streakOpen := { level := .off, slot := .none },
      streakContinue := { level := .p0, slot := .a }, streakClose := { level := .p1, slot := .b },
      lane := { level := .p2, slot := .none }, unclassedCounts := true, elongatedCounts := false } ∧
    (w [0, 4, 3, 1, 0, 4096, 65536]).tiers = [(3, { tb := 1, td := 4095, ts := 65535 })] ∧
    (w [0, 5, 0, 1, 7, 256, 255, 10001, 9, 17, 3, 1, 2, 1]).tierPolicy = {
      w := 8, ne := 255, nd := 254, ru := 10000, rd := 9, na := 16, fa := 3, minTier := 1, maxTier := 2, learnOnEntry := true } ∧
    (w [0, 6, 0, 1, 999, 500001, 1, 2, 4294917295, 100001]).pattern =
      { c := 1000, g := 500000, gl := 1, gt := 2, r := -50000, tolerance := 100000 } ∧
    (w [0, 7, 0, 1, 1, 15, 4096, 4, 3, 11, 65536, 1, 2, 8, 1001]).detection = {
      k := 4, learnLength := 16, drift := 4095, bg := 3, mb := 2, leak := 10, clip := 65535, minStreak := 1, release := 2,
      sg := 7, interval := 1000 } ∧
    answers .bankWrite 0x11 [0, 8, 0, 1, 100000, 10000] opened .done [] ∧
    (w [0, 8, 0, 1, 100001, 10000]).correlation = { md := 100000, cd := 10000 } := by
  decide

/-- The tier policy, the pattern and the detection table at their bounds are stored unchanged, one past a bound CLAMPED. -/
theorem test_bank_write_clamps_exactly :
    ([[5, 0, 1, 8, 1, 0, 0, 0, 1, 0, 0, 3, 0], [5, 0, 1, 8000, 255, 254, 10000, 10000, 16, 3, 3, 3, 1],
      [6, 0, 1, 1000, 0, 0, 0, 4294917296, 0], [6, 0, 1, 2000000, 500000, 50000, 50000, 50000, 100000],
      [7, 0, 1, 0, 16, 0, 0, 0, 4, 16, 0, 0, 0, 0], [7, 0, 1, 4, 4096, 4095, 3, 2, 10, 65535, 100000000, 100000000, 7, 1000]].all
      fun ops => answers .bankWrite 0x11 (0 :: ops) opened .done []) ∧
    ([[5, 0, 1, 7, 1, 0, 0, 0, 1, 0, 0, 3, 0], [5, 0, 1, 8000, 255, 254, 10000, 10000, 17, 3, 3, 3, 1],
      [6, 0, 1, 1000, 0, 0, 0, 4294917295, 0], [6, 0, 1, 2000000, 500000, 50000, 50000, 50001, 100000],
      [7, 0, 1, 3, 16, 0, 0, 0, 4, 16, 0, 0, 0, 0], [7, 0, 1, 4, 4096, 4095, 3, 2, 10, 65535, 100000000, 100000000, 8, 1000]].all
      fun ops => answers .bankWrite 0x11 (0 :: ops) opened .clamped []) := by
  decide

theorem test_bank_check :
    answers .bankCheck 0x12 [2] opened .range [] ∧ answers .bankCheck 0x12 [0] (banks .opened .checking still) .busy [] ∧
    answers .bankCheck 0x12 [1] opened .state [] ∧
    Ready .bankCheck (cmd 0x12 [0]) [] (queued opened (cmd 0x12 [0])) ∧ ask .bankCheck 0x12 [0] opened = none ∧
    (run .bankCheck 0x12 [0] opened).base.banks.bank0.state = .checking ∧
    (run .bankCheck 0x12 [0] opened).base.banks.checkTag = some 7 := by
  decide

/-- Bank 0 CHECKING with contents. -/
def checking (c : Contents) (s : State) : State :=
  onBanksOf (fun b => { b with bank0 := { state := .checking, contents := c, compiled := none }, checkTag := some 7 }) s

/-- REGION_ORDER on LEAD, region 3. -/
theorem test_check_completion_fails :
    let c := { contents with regionsLead := [(3, { present := true, kind := .margin, first := 5, last := 4, lane := none, priority := 0 })] }
    CheckFails (checking c still).dev.base c 1 ∧
    replyIn (devOf (exec .checkCompletion (checking c still))) = some (.done, [0x01000003#32]) ∧
    (devOf (exec .checkCompletion (checking c still))).base.banks.bank0.state = .opened ∧
    (devOf (exec .checkCompletion still)).insp = still.dev.insp := by
  exact ⟨⟨.lead, 3, by decide, by decide, by decide⟩, by decide, by decide, by decide⟩

/-- The same region on TRAIL: the reply names TRAIL and region 3, as R148's table does. -/
theorem test_check_completion_names_face_and_item :
    let c := { contents with regionsTrail := [(3, { present := true, kind := .margin, first := 5, last := 4, lane := none, priority := 0 })] }
    CheckNames (checking c still).dev.base c 1 1 3 ∧
    replyIn (devOf (exec .checkCompletion (checking c still))) = some (.done, [0x01400003#32]) := by
  refine ⟨⟨.trail, rfl, ⟨by decide, by decide, by decide⟩, ?_, ?_⟩, by decide⟩
  · intro k hk h; obtain ⟨-, hp, -⟩ := h; interval_cases k <;> revert hp <;> decide
  · intro _ k h; obtain ⟨-, hp, -⟩ := h; cases hp

/-- Contents without regions and rules pass on a part without ports. -/
theorem test_check_completion_passing_hypotheses :
    ∀ n, 1 ≤ n → n ≤ 11 → ¬ CheckFails (checking contents (withPort 0 Port.powerOn still)).dev.base contents n := by
  have nr : ∀ (f : FaceId) k, tget Region.empty (contents.regions f) k = Region.empty := by intro f k; cases f <;> rfl
  have np : ∀ k, contents.rule k = ClassRule.empty := fun k => rfl
  have nt : ∀ (f : FaceId) c, topRegions (contents.regions f) c = [] := by intro f c; cases f <;> rfl
  intro n h1 h2 h
  interval_cases n
  · obtain ⟨f, k, -, hp, -⟩ := h; rw [nr] at hp; cases hp
  · obtain ⟨f, k, -, r, rfl, hp, -⟩ := h; rw [nr] at hp; cases hp
  · obtain ⟨f, c, -, hl⟩ := h; rw [nt] at hl; simp at hl
  · obtain ⟨f, k, -, r, rfl, hp, -⟩ := h; rw [nr] at hp; cases hp
  · obtain ⟨f, k, -, ⟨p, hp, he, -⟩, -⟩ := h; interval_cases p <;> revert he <;> decide
  · obtain ⟨k, -, hp, -⟩ := h; rw [np] at hp; cases hp
  · have h : 1 < slotUsers contents .a ∨ 1 < slotUsers contents .b := h
    revert h; decide
  · obtain (⟨t, h1, h3, h⟩ | h) := h
    · interval_cases t <;> revert h <;> decide
    · revert h; decide
  · have h : contents.pattern.c ≤ contents.pattern.gl + contents.pattern.gt := h
    revert h; decide
  · obtain ⟨⟨k, -, hp, -⟩, -⟩ := h; rw [np] at hp; cases hp
  · obtain (h | (h | h) | (h | h)) := h <;> revert h <;> decide

theorem test_bank_schedule :
    let s := banks (.active .both) .checked (onMotionOf (fun m => { m with h := 20480 }) live)
    let t := onFaceOf .lead (fun x => { x with pixel := { x.pixel with lastPos := some 20000 } }) s
    answers .bankSchedule 0x13 [2, 0] s .range [] ∧ answers .bankSchedule 0x13 [1, 0] (banks (.active .both) .checking live) .busy [] ∧
    answers .bankSchedule 0x13 [0, 0] s .state [] ∧ answers .bankSchedule 0x13 [1, 0] (banks .vacant .checked still) .state [] ∧
    answers .bankSchedule 0x13 [1, 4294967295] s .done [2] ∧ answers .bankSchedule 0x13 [1, 4294967295] t .done [2] ∧
    (run .bankSchedule 0x13 [1, 4294967295] t).base.banks.switchPos = some 22000 ∧
    answers .bankSchedule 0x13 [1, 2] t .done [2] ∧ (run .bankSchedule 0x13 [1, 2] t).base.banks.switchPos = some 20480 ∧
    (run .bankSchedule 0x13 [1, 1] t).base.banks.switchPos = some 22000 ∧
    (run .bankSchedule 0x13 [1, 2147483650] s).base.banks.switchPos = some (-21990232535040) := by
  decide

theorem test_bank_cancel :
    answers .bankCancel 0x14 [] (banks (.active .both) .scheduled live) .done [] ∧
    answers .bankCancel 0x14 [] (banks (.active .trail) (.active .lead) live) .tooLate [] ∧
    answers .bankCancel 0x14 [] live .state [] ∧ answers .bankCancel 0x14 [] still .state [] ∧
    (run .bankCancel 0x14 [] (banks (.active .both) .scheduled live)).base.banks.bank1.state = .checked := by
  decide

/-- The bank states of the tests above and of START's are lawful. -/
theorem test_bank_states_of_the_tests_are_lawful :
    BanksLawful (banks .vacant .checked still) ∧ BanksLawful (banks (.active .both) .scheduled live) ∧
    BanksLawful (banks (.active .trail) (.active .lead) live) := by
  refine ⟨?_, ⟨.bank0, .inl ⟨rfl, .inr rfl⟩⟩, ⟨.bank1, .inr ⟨rfl, rfl⟩⟩⟩
  intro i; cases i <;> rfl

/-! ### START, STOP, baselines, tier limits, preview settings -/

theorem test_start_refusals_and_hypotheses :
    answers .start 0x20 [2] (banks .vacant .checked still) .range [] ∧ answers .start 0x20 [0] (banks .vacant .checked still) .state [] ∧
    answers .start 0x20 [1] (banks (.active .both) .checked live) .state [] ∧
    Ready .start (cmd 0x20 [1]) [] (queued (banks .vacant .checked still) (cmd 0x20 [1])) := by
  decide

abbrev Started (d : Dev) : Prop :=
  d.base.banks.running = true ∧ d.base.banks.bank1.state = .active .both ∧ d.insp.lead.pixel.phase = .learning ∧
    d.insp.trail.pattern.state = some .continuous ∧ d.insp.trail.tier.next = some (-2048 + 8 * 128000000) ∧
    d.insp.out.p2.entries = []

theorem test_start_begins_both_faces : Started (startPart .bank1 (banks .vacant .checked still).dev) := by
  unfold startPart
  exact bothOrders Started (by decide) (by decide)

/-- A face whose alert was on when the last run stopped reports that it is off. -/
theorem test_start_reports_alert :
    let s := onFaceOf .lead (fun x => { x with tier := { x.tier with alert := true } }) (banks .vacant .checked still)
    (startPart .bank1 s.dev).insp.out.p2.entries.map (·.report) = [.status (some .lead) false (.alert false 0 1 none none)] := by
  intro s
  unfold startPart
  exact bothOrders (fun d => d.insp.out.p2.entries.map (·.report) = [.status (some .lead) false (.alert false 0 1 none none)])
    (by decide) (by decide)

theorem test_stop_refusal_and_hypotheses :
    answers .stop 0x21 [] still .state [] ∧ Ready .stop (cmd 0x21 []) [] (queued live (cmd 0x21 [])) ∧
    live.dev.base.banks.running = true := by
  decide

/-- The steps of STOP, one face after the other. -/
theorem test_stop_closes_and_clears :
    let s := (withBlobs [(0, some (blobAt 3 4 none 0))] [] live).dev
    let d := stopBlobs .lead { finishFace .lead s with insp := withdrawAll (finishFace .lead s).insp }
    d.insp.lead.blob.open_ = [] ∧ d.insp.out.p1.entries.length = 1 ∧ (clearAtStop d).base.banks.running = false ∧
    (clearAtStop d).base.banks.bank0.state = .checked ∧ (clearAtStop d).insp.lead.pixel.phase = .idle ∧
    (clearAtStop d).insp.lead.pattern.state = none := by
  decide

/-- STOP counts the slots it empties and keeps refs, learned flags, counts of lines and of marks. -/
theorem test_stop_counts_abandoned_and_keeps_totals :
    let s := onFaceOf .lead (fun x => { x with
      asm := { x.asm with abandoned := 3, slots := twoSlots.dev.insp.lead.asm.slots },
      pixel := { x.pixel with processed := 7, clipped := 5, lastClip := 2 } }) live
    let d := clearAtStop s.dev
    d.insp.lead.asm.abandoned = 5 ∧ d.insp.lead.asm.slots = [] ∧ d.insp.lead.pixel.col 3 = s.dev.insp.lead.pixel.col 3 ∧
    (d.insp.lead.pixel.processed, d.insp.lead.pixel.clipped, d.insp.lead.pixel.lastClip) = (7, 5, 2) ∧
    d.insp.marks = { s.dev.insp.marks with list := [], lastAccepted := none } ∧
    twf PixelColumn.fresh s.dev.insp.lead.pixel.cols = true := by
  decide

/-- STOP withdraws what waits and counts the loss of an EXCERPT entry; the flush reports every entry in list order. -/
theorem test_stop_withdraws_and_flushes :
    let held (md : Int) : Candidate := { candidate md 0 with record := { defect md 0 with excerpt := .captured 2 } }
    let i := withdrawAll (withCorr (fun c => { c with list := [held 1, candidate 2 0] }) (onOutOf (fun o => { o with
      buffers := [(2, some { face := .lead, firstLine := 0, firstCol := 0, partly := false, cells := [] })],
      p1 := { o.p1 with entries := [{ report := .defect { defect 0 0 with excerpt := .partly 3 }, lostBefore := 0 }] },
      excerpt := { o.excerpt with entries := [{ report := aReport, lostBefore := 0 }] } }) live)).dev.insp
    let withdrawn (md : Int) : Defect := { defect md 0 with excerpt := .withdrawn }
    i.out.buffers = [] ∧ i.out.excerpt = { entries := [], pendingLoss := 1, totalLost := 1 } ∧
    ((flushPending i).out.p1.entries.map (·.report)) = [.defect (withdrawn 0), .defect { withdrawn 1 with mark := .leadOnly .stop },
      .defect { defect 2 0 with mark := .leadOnly .stop }] ∧
    (flushPending i).corr.list = [] ∧ (flushPending i).corr.stopped = 2 := by
  decide

theorem test_baseline_learn :
    answers .baselineLearn 0x30 [3] live .range [] ∧ answers .baselineLearn 0x30 [2] still .state [] ∧
    answers .baselineLearn 0x30 [2] live .done [] ∧ (run .baselineLearn 0x30 [0] live).insp.lead.pixel.phase = .learning ∧
    (run .baselineLearn 0x30 [0] live).insp.trail.pixel.phase = .detecting := by
  decide

theorem test_baseline_read_and_reserve :
    ([[2, 0, 1], [0, 0, 0], [0, 0, 65], [0, 8192, 1]].all fun ops => answers .baselineRead 0x31 ops live .range [] &&
      answers .baselineReserve 0x32 ops live .range []) ∧
    answers .baselineRead 0x31 [1, 3, 2] live .done [1600, 1, 0, 0] ∧ answers .baselineReserve 0x32 [0, 8191, 1] live .done [0, 0] ∧
    (run .baselineReserve 0x32 [0, 3, 2] live).insp.lead.pixel.reservation = some { first := 3, snapshot := [1600, 0] } := by
  decide

/-- Reserved at refs 1600 and 1600; drift tolerance 3. -/
def reserved (a b : Nat) : State :=
  onFaceOf .lead (fun x => { x with pixel := { x.pixel with reservation := some { first := 2, snapshot := [a, b] } } }) live

theorem test_baseline_put :
    answers .baselinePut 0x33 [2, 2, 1, 0] live .range [] ∧ answers .baselinePut 0x33 [0, 0, 0] live .range [] ∧
    answers .baselinePut 0x33 [0, 8192, 1, 0] live .range [] ∧ answers .baselinePut 0x33 [0, 2, 1, 5] live .state [] ∧
    answers .baselinePut 0x33 [0, 2, 1, 5] (reserved 1600 1600) .stale [] ∧
    answers .baselinePut 0x33 [0, 1, 2, 5, 5] (reserved 1600 1600) .stale [] ∧
    answers .baselinePut 0x33 [0, 2, 2, 5, 5] (reserved 1603 1596) .stale [3] ∧
    answers .baselinePut 0x33 [0, 2, 2, 65520, 0] (reserved 1603 1597) .done [] ∧
    answers .baselinePut 0x33 [0, 2, 2, 5, 65521] (reserved 1600 1600) .clamped [] ∧
    ((run .baselinePut 0x33 [0, 2, 2, 5, 65521] (reserved 1600 1600)).insp.lead.pixel.cols.map (·.2.ref)) = [1600, 1600, 5, 65520] := by
  decide

theorem test_tier_limit :
    ([[3, 0, 0, 3], [0, 17, 0, 3], [0, 0, 0, 4], [0, 0, 2, 1]].all fun ops => answers .tierLimit 0x40 ops live .range []) ∧
    answers .tierLimit 0x40 [0, 16, 3, 3] still .state [] ∧ answers .tierLimit 0x40 [0, 16, 3, 3] live .done [] ∧
    ((run .tierLimit 0x40 [0, 15, 2, 3] live).insp.lead.tier.lane 15) = { Lane.powerOn with own := 2, minLimit := 2 } ∧
    (run .tierLimit 0x40 [0, 15, 2, 3] live).insp.lead.tier.alert = true ∧
    (run .tierLimit 0x40 [0, 15, 2, 3] live).insp.out.p2.entries.map (·.report) =
      [.status (some .lead) false (.alert true 1 1 none none)] := by
  decide

theorem test_preview_set :
    ([[3, 0, 1], [0, 1025, 1], [0, 1, 3]].all fun ops => answers .previewSet 0x06 ops live .range []) ∧
    answers .previewSet 0x06 [2, 1024, 8] still .done [] ∧
    (run .previewSet 0x06 [2, 1024, 8] still).insp.trail.preview.decimation = 1024 ∧
    (run .previewSet 0x06 [0, 0, 1] (onOutOf (fun o => { o with
      previewLead := { o.previewLead with entries := [{ report := aReport, lostBefore := 3 }] } }) still)).insp.out.previewLead =
      { entries := [], pendingLoss := 3, totalLost := 0 } := by
  decide

/-- Up to its reply PREVIEW_SET keeps all of the outbound side but the slots of the faces it names. -/
theorem test_preview_set_keeps_outbound_side :
    let s := onOutOf (fun o => { o with
      p2 := { o.p2 with entries := [{ report := aReport, lostBefore := 3 }] },
      previewLead := { o.previewLead with entries := [{ report := aReport, lostBefore := 3 }] }, toggle := .trail }) still
    let o := (run .previewSet 0x06 [0, 0, 1] s).insp.out
    o.p2 = s.dev.insp.out.p2 ∧ o.previewTrail = s.dev.insp.out.previewTrail ∧ o.toggle = .trail ∧ o.tx = none ∧
    o.reply.entries.length = 1 ∧ o.buffers = s.dev.insp.out.buffers := by
  decide

/-! ### Resets -/

theorem test_resets_record_cause_and_keep_words :
    let s := linked (onBase (fun b => { b with exec := { b.exec with retained := [(3, 9)] } }) live)
    let c := run .reset 0xFF [] s
    ResetHeads (cmd 0xFF []) [] (queued s (cmd 0xFF [])) ∧ c.insp.out.cause = .command ∧ c.insp.out.tag = some 7 ∧
    c.insp.out.kept = true ∧ c.base.exec.retained = [(3, 9)] ∧ c.base.port 0 = port ∧ c.base.motion.setup = setup ∧
    c.insp.lead.pixel.phase = .idle ∧ c.base.banks.running = false ∧
    (devOf (exec (.pinReset true false) s)).insp.out.cause = .pin ∧ (devOf (exec (.pinReset true false) s)).base.exec.retained = [(3, 9)] ∧
    (devOf (exec (.powerOnReset true false) s)) = Dev.powerOn true false 0 := by
  decide

/-- A reset while a START report is pending keeps the stronger cause. -/
theorem test_resets_with_start_report_pending :
    (devOf (exec (.pinReset false true) still)).insp.out.cause = .power ∧ (devOf (exec (.pinReset false true) still)).insp.out.kept = false ∧
    (devOf (exec (.pinReset false true) still)).base.motion = Motion.powerOn false true := by
  decide

/-- At a command reset the frame in transmission goes out whole, no longer live; with none the START report goes out at once. -/
theorem test_command_reset_keeps_frame_in_transmission :
    let s := sending (.defect { defect 0 0 with excerpt := .captured 2 }) (some .p1) live
    (run .reset 0xFF [] s).insp.out.tx = some {
      queue := some .p1, report := .defect { defect 0 0 with excerpt := .withdrawn }, words := [], live := false } ∧
    (run .reset 0xFF [] (linked live)).insp.out.tx = some {
      queue := none, report := .start .command (some 7) true, words := frameWords [] (.start .command (some 7) true) 0,
      live := true } ∧
    (run .reset 0xFF [] still).insp.out.tx = none ∧
    (devOf (exec (.pinReset false true) s)).insp.out.tx = none := by
  decide

/-! ### The invariants are not empty -/

/-- The stores of reset and of `live` are canonical (the premise of the statements on START and on learning). -/
theorem test_tables_canonical : TablesCanonical live ∧ TablesCanonical (banks .vacant .checked still) := by
  constructor <;> intro f <;> unfold FaceCanonical SlotTable <;> cases f <;> decide

theorem test_live_state_meets_invariants :
    BanksLawful live ∧ ColumnsDisjoint live ∧ (∀ f, AllListed ColumnLaw (live.dev.face f).pixel.cols) ∧
    (∀ f, AllListed LaneLaw (live.dev.face f).tier.lanes) ∧ (∀ f, AllListed AccLaw (live.dev.face f).streak.cols) := by
  refine ⟨?_, by decide, ?_, ?_, ?_⟩
  · exact ⟨.bank0, .inl ⟨rfl, .inl rfl⟩⟩
  all_goals intro f; cases f <;> decide

end Sys2Proof.Tests
end

section
/-! R16: what power-on reset and pin reset make of the Motion Unit, and the first sample of the encoder lines after them. -/

namespace Sys2Proof.Machine

open Sys2Proof

/-! ### Samples that bring no change -/

/-- R1: a count is a change of the sampled pair; the pair already held as the reference is none. -/
theorem encoderCount_of_held_pair {a b : Bool} {d : Dev} (ha : d.base.motion.encA = a) (hb : d.base.motion.encB = b) :
    encoderCount a b d = d := by
  subst ha hb
  exact if_pos rfl

theorem exec_encoderCount_of_held_pair {a b : Bool} {t : State} (ha : t.dev.base.motion.encA = a)
    (hb : t.dev.base.motion.encB = b) : exec (.encoderCount a b) t = .next t := by
  show Host.Outcome.next { t with dev := encoderCount a b t.dev } = .next t
  rw [encoderCount_of_held_pair ha hb]

/-! ### The Motion Unit after the two resets -/

@[simp] theorem dev_powerOn_motion (a b : Bool) (n : Nat) : (Dev.powerOn a b n).base.motion = Motion.powerOn a b := rfl
@[simp] theorem dev_powerOn_face (a b : Bool) (n : Nat) (f : FaceId) : (Dev.powerOn a b n).face f = Face.powerOn := by
  cases f <;> rfl
@[simp] theorem pinReset_motion (a b : Bool) (d : Dev) : (pinReset a b d).base.motion = Motion.powerOn a b := rfl
@[simp] theorem pinReset_face (a b : Bool) (d : Dev) (f : FaceId) : (pinReset a b d).face f = Face.powerOn := by
  cases f <;> rfl
@[simp] theorem face_powerOn_grid : Face.powerOn.grid = Grid.powerOn := rfl

/-- The Motion Unit, shared and per face, as R16 leaves it with the encoder lines at `a` and `b`. -/
structure MotionUnitReset (a b : Bool) (d : Dev) : Prop where
  motion : d.base.motion = Motion.powerOn a b
  grid : ∀ f, (d.face f).grid = Grid.powerOn

theorem motionUnitReset_powerOn (a b : Bool) (n : Nat) : MotionUnitReset a b (Dev.powerOn a b n) where
  motion := dev_powerOn_motion a b n
  grid f := by simp

theorem motionUnitReset_pinReset (a b : Bool) (d : Dev) : MotionUnitReset a b (pinReset a b d) where
  motion := pinReset_motion a b d
  grid f := by simp

/-- The encoder lines as the reset sampled them are the reference of R1, so sampling them again is no count. -/
theorem MotionUnitReset.exec_encoderCount {a b : Bool} {t : State} (h : MotionUnitReset a b t.dev) :
    exec (.encoderCount a b) t = .next t :=
  exec_encoderCount_of_held_pair (by rw [h.motion]; rfl) (by rw [h.motion]; rfl)

/-- Both resets complete, leave the waiting commands alone and reset the Motion Unit. -/
theorem exec_resets_motionUnit {a b : Bool} {i : Instr} (s : State) (hi : i = .powerOnReset a b ∨ i = .pinReset a b) :
    ∃ t, exec i s = .next t ∧ t.pending = s.pending ∧ MotionUnitReset a b t.dev := by
  obtain rfl | rfl := hi
  case inl => exact ⟨_, rfl, rfl, motionUnitReset_powerOn a b s.dev.base.free⟩
  case inr => exact ⟨_, rfl, rfl, motionUnitReset_pinReset a b s.dev⟩

end Sys2Proof.Machine

open Sys2Proof Sys2Proof.Machine

/-- Settles O9: after either reset the Motion Unit holds R16's values, the sampled levels among them, and a sample of the
same levels is then no event of R1. -/
theorem powerOnAndPinResetSetMotionUnit : Obligations.PowerOnAndPinResetSetMotionUnit := by
  intro a b i s hi
  obtain ⟨t, hexec, hpending, hreset⟩ := exec_resets_motionUnit s hi
  exact ⟨t, hexec, hpending, hreset.motion, hreset.grid, hreset.exec_encoderCount⟩

end

section
/-! R44, R45: which columns take a tracking step while the face is DETECTING, and what the step does to the ref. -/

namespace Sys2Proof.Machine

open Sys2Proof

/-! ### The step, truncated toward zero -/

theorem trackStep_eq_tdiv_pow (dev : Int) (k : Nat) : trackStep dev k = dev.tdiv (2 ^ k) := by
  simp [trackStep]

theorem natAbs_trackStep (dev : Int) (k : Nat) : (trackStep dev k).natAbs = dev.natAbs / 2 ^ k :=
  Int.natAbs_tdiv dev _

theorem trackStep_neg (dev : Int) (k : Nat) : trackStep (-dev) k = -trackStep dev k :=
  Int.neg_tdiv dev _

theorem trackStep_between_of_nonneg {dev : Int} (h : 0 ≤ dev) (k : Nat) : 0 ≤ trackStep dev k ∧ trackStep dev k ≤ dev :=
  ⟨Int.tdiv_nonneg h (Int.natCast_nonneg _), Int.tdiv_le_self _ h⟩

theorem trackStep_between_of_nonpos {dev : Int} (h : dev ≤ 0) (k : Nat) : dev ≤ trackStep dev k ∧ trackStep dev k ≤ 0 := by
  have hneg := trackStep_between_of_nonneg (Int.neg_nonneg_of_nonpos h) k
  rw [trackStep_neg] at hneg
  omega

theorem trackStep_eq_zero {dev : Int} {k : Nat} (h : dev.natAbs < 2 ^ k) : trackStep dev k = 0 :=
  Int.natAbs_eq_zero.mp ((natAbs_trackStep dev k).trans (Nat.div_eq_of_lt h))

/-! ### The tracked ref -/

theorem tracked_between_of_nonneg {c ref : Nat} (h : 0 ≤ deviation c ref) (k : Nat) :
    ref ≤ tracked ref (deviation c ref) k ∧ tracked ref (deviation c ref) k ≤ 16 * c := by
  have hstep := trackStep_between_of_nonneg h k
  have hdev : deviation c ref = 16 * c - ref := rfl
  unfold tracked
  omega

theorem tracked_between_of_nonpos {c ref : Nat} (h : deviation c ref ≤ 0) (k : Nat) :
    16 * c ≤ tracked ref (deviation c ref) k ∧ tracked ref (deviation c ref) k ≤ ref := by
  have hstep := trackStep_between_of_nonpos h k
  have hdev : deviation c ref = 16 * c - ref := rfl
  unfold tracked
  omega

/-- A negative deviation is at least -ref and its step no longer, so the ref moves by the whole step and stays natural. -/
theorem tracked_eq_add_trackStep (ref c k : Nat) :
    (tracked ref (deviation c ref) k : Int) = ref + trackStep (deviation c ref) k := by
  refine Int.toNat_of_nonneg ?_
  have hdev : deviation c ref = 16 * c - ref := rfl
  obtain h | h := Int.le_total 0 (deviation c ref)
  · have hstep := trackStep_between_of_nonneg h k
    omega
  · have hstep := trackStep_between_of_nonpos h k
    omega

theorem tracked_eq_self (ref : Nat) {dev : Int} {k : Nat} (h : dev.natAbs < 2 ^ k) : tracked ref dev k = ref := by
  simp [tracked, trackStep_eq_zero h]

/-! ### The columns that track -/

/-- R44, R48: where a column adapts, by its kind and the zone of the line. -/
theorem adapts_iff (x : LineContext) (e : Option PlanEntry) :
    x.adapts e = true ↔ x.cls = .inspection ∧
      ((planKind e = .lane ∨ planKind e = .guard) ∧ x.zone = some .coated ∨ planKind e = .margin) := by
  unfold LineContext.adapts
  cases planKind e <;> simp

theorem adapt_of_detecting {x : LineContext} (hx : x.phase = .detecting) (v : PixelColumn) (e : Option PlanEntry)
    (flag : Option Polarity) (c : Nat) (dev : Int) :
    x.adapt v e flag c dev =
      if x.adapts e = true ∧ v.learned = true ∧ flag = none ∧ x.k ≠ 0 then { v with ref := tracked v.ref dev x.k } else v := by
  simp [LineContext.adapt, hx, and_assoc]

/-- R39: the state of a column adapts under the flag and the deviation its record carries. -/
theorem snd_column_eq_adapt (x : LineContext) (flat : FlatEntry) (v : PixelColumn) (j raw : Nat) :
    (x.column flat v j raw).2 = x.adapt v (x.plan.map fun p => planEntry p j) (x.column flat v j raw).1.flag
      (corrected raw flat) (deviation (corrected raw flat) v.ref) := rfl

end Sys2Proof.Machine

open Sys2Proof Sys2Proof.Machine

/-- Settles O30: the column of a DETECTING face is the tracked one under R44's conditions and the old one otherwise; what
the step does is R45's arithmetic on the deviation against the old ref. -/
theorem trackingStepTruncatesTowardZero : Obligations.TrackingStepTruncatesTowardZero := by
  rintro x flat v j raw y kind tracks rfl hphase hkind htracks
  have hplan : planKind (x.plan.map fun p => planEntry p j) = kind := by
    rw [hkind]
    cases x.plan <;> rfl
  have hsteps : tracks ↔ x.adapts (x.plan.map fun p => planEntry p j) = true ∧ v.learned = true ∧
      (x.column flat v j raw).1.flag = none ∧ x.k ≠ 0 := by
    rw [htracks, adapts_iff, hplan]
    tauto
  have hcolumn := (snd_column_eq_adapt x flat v j raw).trans (adapt_of_detecting hphase _ _ _ _ _)
  constructor
  case left =>
    intro h
    obtain ⟨_, hlearned, _⟩ := hsteps.mp h
    rw [hcolumn, if_pos (hsteps.mp h), ← trackStep_eq_tdiv_pow]
    exact ⟨rfl, tracked_eq_add_trackStep _ _ _, fun hdev => tracked_between_of_nonneg hdev _,
      fun hdev => tracked_between_of_nonpos hdev _, fun href => tracked_le href (corrected_le raw flat),
      tracked_eq_self _, hlearned, rfl, rfl⟩
  case right =>
    intro h
    rw [hcolumn, if_neg (hsteps.not.mp h)]

end

section
/-! R155: what BANK_CANCEL reads of the bank states, what its owning rule makes of each case, and the three answers. -/

namespace Sys2Proof.Machine

open Sys2Proof

/-! ### The bank of a changeover -/

theorem scheduled_eq_none_iff (b : Banks) : b.scheduled = none ↔ ∀ i, (b.bank i).state ≠ .scheduled := by
  rw [forall_bank .bank0]
  change b.scheduled = none ↔ b.bank0.state ≠ .scheduled ∧ b.bank1.state ≠ .scheduled
  unfold Banks.scheduled
  split_ifs with h0 h1
  · simp [h0]
  · simp [h1]
  · simp [h0, h1]

theorem midChange_isSome_iff (b : Banks) : b.midChange.isSome = true ↔ ∃ i, (b.bank i).state = .active .lead := by
  constructor
  case mp =>
    intro h
    obtain ⟨i, hi⟩ := Option.isSome_iff_exists.mp h
    exact ⟨i, midChange_state hi⟩
  case mpr =>
    rintro ⟨i, hi⟩
    cases i with
    | bank0 => exact congrArg Option.isSome (if_pos hi)
    | bank1 =>
      change b.bank1.state = .active .lead at hi
      simp only [Banks.midChange, hi, if_true]
      split <;> rfl

/-- R144 leaves no second bank SCHEDULED: the other one is ACTIVE {both}. -/
theorem BankLaw.scheduled_eq_some {b : Banks} (h : BankLaw b) {i : BankId} (hi : (b.bank i).state = .scheduled) :
    b.scheduled = some i := by
  cases hb : b.scheduled with
  | none => exact absurd hi ((scheduled_eq_none_iff b).mp hb i)
  | some j =>
    have hj := scheduled_state hb
    obtain ⟨_, ⟨_, hother⟩ | ⟨hlead, _⟩⟩ := h.beside (Or.inl hi)
    · have hboth : ∀ k, (b.bank k).state = .scheduled → k = i :=
        (forall_bank i _).mpr ⟨fun _ => rfl, fun hk => by rw [hother] at hk; cases hk⟩
      rw [hboth j hj]
    · rw [hi] at hlead; cases hlead

/-- Between the two switches the other bank is ACTIVE {TRAIL}, so none is SCHEDULED. -/
theorem BankLaw.scheduled_eq_none_of_midChange {b : Banks} (h : BankLaw b) {i : BankId}
    (hi : (b.bank i).state = .active .lead) : b.scheduled = none := by
  obtain ⟨_, ⟨hsched, _⟩ | ⟨_, hother⟩⟩ := h.beside (Or.inr hi)
  · rw [hi] at hsched; cases hsched
  · rw [scheduled_eq_none_iff, forall_bank i, hi, hother]
    exact ⟨nofun, nofun⟩

theorem BankLaw.no_changeover_in_standby {b : Banks} (h : BankLaw b) (hr : b.running = false) (i : BankId) :
    (b.bank i).state ≠ .scheduled ∧ (b.bank i).state ≠ .active .lead := by
  rw [← not_or]
  intro hi
  have hrun := (h.beside hi).1
  rw [hr] at hrun
  cases hrun

/-! ### The owning rule, case by case -/

theorem bankCancel_of_scheduled (c : Command) {d : Dev} {i : BankId} (h : d.base.banks.scheduled = some i) :
    bankCancel c d = taken (d.onBanks fun b => { b.setState i .checked with switchPos := none }) [] := by
  simp only [bankCancel, h]

theorem bankCancel_of_not_scheduled (c : Command) {d : Dev} (h : d.base.banks.scheduled = none) :
    bankCancel c d = refuse d (if d.base.banks.midChange.isSome then .tooLate else .state) := by
  simp only [bankCancel, h]

/-! ### The row -/

theorem exec_bankCancel_of_ready {c : Command} {rest : List Command} {s : State} (h : Ready .bankCancel c rest s) :
    exec .bankCancel s = .next { s with dev := answerWith c (bankCancel c (s.dev.takeCommand rest)) } :=
  runCommand_ready h bankCancel

theorem exec_bankCancel_scheduled {c : Command} {rest : List Command} {s : State} (h : Ready .bankCancel c rest s)
    {i : BankId} (hi : s.dev.base.banks.scheduled = some i) :
    exec .bankCancel s = .next (answered s c
      ((s.dev.takeCommand rest).onBanks fun b => { b.setState i .checked with switchPos := none }) .done []) := by
  rw [exec_bankCancel_of_ready h, bankCancel_of_scheduled c (by simpa using hi), answer_taken]

theorem exec_bankCancel_tooLate {c : Command} {rest : List Command} {s : State} (h : Ready .bankCancel c rest s)
    (hn : s.dev.base.banks.scheduled = none) (hm : ∃ i, (s.dev.base.banks.bank i).state = .active .lead) :
    exec .bankCancel s = .next (answered s c (s.dev.takeCommand rest) .tooLate []) := by
  rw [exec_bankCancel_of_ready h, bankCancel_of_not_scheduled c (by simpa using hn), takeCommand_banks,
    if_pos ((midChange_isSome_iff _).mpr hm), answer_refuse]

theorem exec_bankCancel_state {c : Command} {rest : List Command} {s : State} (h : Ready .bankCancel c rest s)
    (hn : ∀ i, (s.dev.base.banks.bank i).state ≠ .scheduled ∧ (s.dev.base.banks.bank i).state ≠ .active .lead) :
    exec .bankCancel s = .next (answered s c (s.dev.takeCommand rest) .state []) := by
  have hsched : s.dev.base.banks.scheduled = none := (scheduled_eq_none_iff _).mpr fun i => (hn i).1
  have hmid : ¬ s.dev.base.banks.midChange.isSome = true := by
    rw [midChange_isSome_iff]
    rintro ⟨i, hi⟩
    exact (hn i).2 hi
  rw [exec_bankCancel_of_ready h, bankCancel_of_not_scheduled c (by simpa using hsched), takeCommand_banks, if_neg hmid,
    answer_refuse]

end Sys2Proof.Machine

open Sys2Proof Sys2Proof.Machine

/-- Settles O54: by R144 at most one of SCHEDULED and ACTIVE {LEAD} stands, in one bank, and in STANDBY neither does; each
case is then one branch of the owning rule. -/
theorem bankCancelWithdrawsSchedule : Obligations.BankCancelWithdrawsSchedule := by
  rintro c rest s d hready hlaw rfl
  refine ⟨fun i hi => ?scheduled, ?midChange, ?neither, fun hstandby => ?standby⟩
  case scheduled => exact exec_bankCancel_scheduled hready (hlaw.scheduled_eq_some hi)
  case midChange =>
    rintro ⟨i, hi⟩
    exact exec_bankCancel_tooLate hready (hlaw.scheduled_eq_none_of_midChange hi) ⟨i, hi⟩
  case neither => exact exec_bankCancel_state hready
  case standby => exact exec_bankCancel_state hready (hlaw.no_changeover_in_standby hstandby)

end

section
/-! What a step runs, and which commands complete. -/

namespace Sys2Proof.Machine

open Sys2Proof

/-- A command answers a next state and leaves the waiting commands alone. -/
def Completes (c : Instr) (s : State) : Prop := ∃ t, exec c s = .next t ∧ t.pending = s.pending

theorem completes_scanPacket {port tag declared : Nat} {samples : List Nat} {damaged : Bool} (s : State)
    (h : (Instr.scanPacket port tag declared samples damaged).wellFormed = true) :
    Completes (.scanPacket port tag declared samples damaged) s := ⟨_, if_pos h, rfl⟩

theorem exec_scanPacket_illFormed {port tag declared : Nat} {samples : List Nat} {damaged : Bool} (s : State)
    (h : (Instr.scanPacket port tag declared samples damaged).wellFormed = false) :
    exec (.scanPacket port tag declared samples damaged) s = .fault .illFormedPacket :=
  if_neg (by rw [h]; decide)

theorem completes_patchMark (s : State) : Completes .patchMark s := by
  show ∃ t, execPatchMark s = .next t ∧ t.pending = s.pending
  unfold execPatchMark
  split_ifs
  · exact ⟨_, rfl, rfl⟩
  · exact ⟨_, rfl, rfl⟩

theorem completes_unknownCommand (s : State) : Completes .unknownCommand s := by
  show ∃ t, execUnknownCommand s = .next t ∧ t.pending = s.pending
  unfold execUnknownCommand
  split
  · exact ⟨_, rfl, rfl⟩
  · split_ifs
    · exact ⟨_, rfl, rfl⟩
    · exact ⟨_, rfl, rfl⟩

theorem completes_reset (s : State) : Completes .reset s := by
  show ∃ t, execReset s = .next t ∧ t.pending = s.pending
  unfold execReset
  split
  · exact ⟨_, rfl, rfl⟩
  · split_ifs
    · exact ⟨_, rfl, rfl⟩
    · exact runCommand_next _ _ s

/-- Every command but a scan packet completes: the events by their one outcome, the management rows by `runCommand_next`. -/
theorem completes_of_wellFormed {c : Instr} (s : State) (h : c.wellFormed = true) : Completes c s := by
  cases c with
  | encoderCount a b => exact ⟨_, rfl, rfl⟩
  | triggerWordEnd f => exact ⟨_, rfl, rfl⟩
  | speedWindowExpiry => exact ⟨_, rfl, rfl⟩
  | scanPacket port tag declared samples damaged => exact completes_scanPacket s h
  | pixelChainLine f => exact ⟨_, rfl, rfl⟩
  | blobBuilderLine f => exact ⟨_, rfl, rfl⟩
  | streakTrackerLine f => exact ⟨_, rfl, rfl⟩
  | previewLine f => exact ⟨_, rfl, rfl⟩
  | leadCandidate => exact ⟨_, rfl, rfl⟩
  | trailCandidate => exact ⟨_, rfl, rfl⟩
  | countedEvent f src => exact ⟨_, rfl, rfl⟩
  | patchMark => exact completes_patchMark s
  | checkCompletion => exact ⟨_, rfl, rfl⟩
  | transmitCompletion => exact ⟨_, rfl, rfl⟩
  | linkUp => exact ⟨_, rfl, rfl⟩
  | linkDown receiving => exact ⟨_, rfl, rfl⟩
  | inboundFrame words => exact ⟨_, rfl, rfl⟩
  | unknownCommand => exact completes_unknownCommand s
  | reset => exact completes_reset s
  | powerOnReset a b => exact ⟨_, rfl, rfl⟩
  | pinReset a b => exact ⟨_, rfl, rfl⟩
  | lineSetup | placementWrite | geometryWrite | flatWrite | setCalibrationLock | previewSet | bankOpen | bankWrite | bankCheck
  | bankSchedule | bankCancel | start | stop | baselineLearn | baselineRead | baselineReserve | baselinePut | tierLimit
  | queryStatus | queryCounters | queryLanes | queryStreaks | queryPending | queryRetained | clearCounters | retainWrite =>
    exact runCommand_next _ _ s

end Sys2Proof.Machine

open Sys2Proof Sys2Proof.Machine

/-- Settles O1: both clauses are the two branches of the step. -/
theorem stepRunsFrontCommand : Obligations.StepRunsFrontCommand := by
  refine ⟨fun _ _ _ => rfl, fun s hs => ?idle⟩
  case idle =>
    unfold step
    rw [hs]

/-- Settles O2: only a scan packet has operands that its surroundings may be unable to deliver. -/
theorem everyDeliverableCommandCompletes : Obligations.EveryDeliverableCommandCompletes := by
  refine fun c s => ⟨completes_of_wellFormed s, fun h => ?illFormed⟩
  case illFormed =>
    cases c with
    | scanPacket port tag declared samples damaged => exact exec_scanPacket_illFormed s h
    | _ => cases h

end

section
/-! The laws of the part's base (R20, R144 and the command queue's capacity), each kept by every command on its own; with the
bounds of the line side they give the invariants of the part. -/

namespace Sys2Proof.Machine

open Sys2Proof

/-! ### Bank states (R144) -/

theorem BankLaw.switched {b : Banks} (h : BankLaw b) {f : FaceId} {i : BankId}
    (hi : (f = .lead ∧ (b.bank i).state = .scheduled) ∨ (f = .trail ∧ (b.bank i).state = .active .lead)) :
    BankLaw (b.switched f i) := by
  obtain ⟨hr, _⟩ := h.beside (hi.imp And.right And.right)
  unfold BankLaw
  rw [switched_running, if_pos hr]
  refine ⟨i, ?_⟩
  rw [switched_new, switched_old]
  cases f with
  | lead => exact Or.inr ⟨rfl, rfl⟩
  | trail => exact Or.inl ⟨rfl, Or.inl rfl⟩

theorem bankLaw_stop (b : Banks) : BankLaw b.stop := by
  unfold BankLaw
  rw [if_neg (by show ¬ false = true; decide)]
  intro i
  cases i <;> exact bankStop_atRest _

/-- A CHECKED bank of a RUNNING part stands beside one ACTIVE {both}. -/
theorem BankLaw.beside_checked {b : Banks} (h : BankLaw b) (hr : b.running = true) {i : BankId}
    (hi : (b.bank i).state = .checked) : (b.bank i.other).state = .active .both := by
  unfold BankLaw at h
  rw [if_pos hr] at h
  obtain ⟨j, hj⟩ := h
  by_cases hij : i = j
  · subst hij
    rw [hi] at hj
    simp at hj
  · have hio : i.other = j := by cases i <;> cases j <;> first | rfl | exact absurd rfl hij
    subst hio
    rw [other_other, hi] at hj
    simpa [BankState.atRest] using hj

theorem BankLaw.schedule {b : Banks} (h : BankLaw b) (hr : b.running = true) {i : BankId}
    (hi : (b.bank i).state = .checked) : BankLaw (b.setState i .scheduled) := by
  unfold BankLaw Banks.setState
  rw [setBank_running, if_pos hr]
  refine ⟨i.other, Or.inl ?_⟩
  rw [setBank_other, other_other, setBank_bank]
  exact ⟨h.beside_checked hr hi, Or.inr rfl⟩

theorem BankLaw.cancel {b : Banks} (h : BankLaw b) {i : BankId} (hi : (b.bank i).state = .scheduled) :
    BankLaw (b.setState i .checked) := by
  obtain ⟨hr, ⟨_, hother⟩ | ⟨hlead, _⟩⟩ := h.beside (Or.inl hi)
  · unfold BankLaw Banks.setState
    rw [setBank_running, if_pos hr]
    refine ⟨i.other, Or.inl ?_⟩
    rw [setBank_other, other_other, setBank_bank]
    exact ⟨hother, Or.inl rfl⟩
  · rw [hi] at hlead; cases hlead

theorem BankLaw.start {b : Banks} (h : BankLaw b) (hr : b.running = false) (i : BankId) :
    BankLaw { b.setState i (.active .both) with running := true } := by
  unfold BankLaw at h ⊢
  rw [if_neg (by rw [hr]; decide)] at h
  rw [if_pos rfl]
  refine ⟨i, Or.inl ?_⟩
  show ((b.setState i (.active .both)).bank i).state = _ ∧
    (((b.setState i (.active .both)).bank i.other).state.atRest = true ∨
      ((b.setState i (.active .both)).bank i.other).state = .scheduled)
  unfold Banks.setState
  rw [setBank_bank, setBank_other]
  exact ⟨rfl, Or.inl (h i.other)⟩

/-! ### The laws of the base, each chosen or not -/

/-- The laws of the base, so that one walk through the commands proves each of them from itself alone. -/
inductive BaseConcern where | ports | commands | banks

/-- The chosen laws of the base. -/
structure BaseLaw (v : BaseConcern → Prop) (d : Dev) : Prop where
  ports : v .ports → PortsLaw d.base
  commands : v .commands → d.base.exec.queue.length ≤ 4
  banks : v .banks → BankLaw d.base.banks

variable {v : BaseConcern → Prop}

theorem BaseLaw.same {d d' : Dev} (h : BaseLaw v d) (hs : SideSame d d') (hb : d'.base.banks = d.base.banks) :
    BaseLaw v d' where
  ports hv := (h.ports hv).congr hs.1
  commands hv := by rw [hs.2]; exact h.commands hv
  banks hv := by rw [hb]; exact h.banks hv

theorem BaseLaw.quiet {d d' : Dev} (h : BaseLaw v d) (q : Quiet (fun _ => False) d d') : BaseLaw v d' where
  ports hv := (h.ports hv).kept q.2.1
  commands hv := by rw [q.2.2.2]; exact h.commands hv
  banks hv := by rw [q.2.2.1]; exact h.banks hv

theorem BaseLaw.side {d d' : Dev} (h : BaseLaw v d) (hs : SideSame d d')
    (hb : BankLaw d.base.banks → BankLaw d'.base.banks) : BaseLaw v d' where
  ports hv := (h.ports hv).congr hs.1
  commands hv := by rw [hs.2]; exact h.commands hv
  banks hv := hb (h.banks hv)

theorem BaseLaw.takeCommand {d : Dev} {c : Command} {rest : List Command} (hq : d.base.exec.queue = c :: rest)
    (h : BaseLaw v d) : BaseLaw v (d.takeCommand rest) where
  ports := h.ports
  commands hv := by
    have hlen := h.commands hv
    rw [hq, List.length_cons] at hlen
    exact Nat.le_of_succ_le hlen
  banks := h.banks

theorem BaseLaw.runCommand {row : Instr} {act : Command → Dev → Dev × Answer} {s t : State}
    (ha : ∀ c d, BaseLaw v d → BaseLaw v (act c d).1) (h : BaseLaw v s.dev) (he : runCommand row act s = .next t) :
    BaseLaw v t.dev :=
  runCommand_keeps (P := BaseLaw v) (fun _ _ _ hq hd => hd.takeCommand hq) (fun _ _ _ _ _ hd => ⟨hd.ports, hd.commands, hd.banks⟩) ha h he

theorem BaseLaw.of_bank {n : Nat} {d : Dev} {k : BankId → Dev × Answer} (h : BaseLaw v d) (hk : ∀ i, BaseLaw v (k i).1) :
    BaseLaw v (withBank n d k).1 := withBank_keeps (P := BaseLaw v) h hk

/-! ### The Pixel Chain, START and STOP -/

theorem pixelLine_bankLaw (f : FaceId) (ln : HandedLine) {d : Dev} (h : BankLaw d.base.banks) :
    BankLaw (pixelLine f ln d).base.banks := by
  unfold pixelLine
  dsimp only
  split
  · rename_i i hi
    exact h.switched (switchTarget_state hi)
  · exact h

theorem BaseLaw.takePixelLine (f : FaceId) {d : Dev} (h : BaseLaw v d) : BaseLaw v (takePixelLine f d) := by
  refine h.side (takePixelLine_side f d) fun hb => ?_
  unfold Machine.takePixelLine
  split
  · exact hb
  · exact pixelLine_bankLaw f _ hb

theorem bothFaces_banks {d : Dev} {act : FaceId → Dev → Dev} (h : ∀ f d, (act f d).base.banks = d.base.banks) :
    (d.bothFaces act).base.banks = d.base.banks := by
  unfold Dev.bothFaces
  dsimp only
  split <;> rw [h, h]

theorem BaseLaw.startCommand (c : Command) {d : Dev} (h : BaseLaw v d) : BaseLaw v (startCommand c d).1 :=
  h.of_bank fun i => by
    split
    · exact h
    · rename_i hn
      obtain ⟨hr, _⟩ := not_or.mp hn
      refine h.side (startPart_side i d) fun hb => ?_
      have hbanks := bothFaces_banks (act := startFace) (d := d.onBanks fun b =>
        { b.setState i (.active .both) with running := true }) fun _ _ => rfl
      exact hbanks ▸ hb.start (by simpa using hr) i

theorem BaseLaw.stopCommand (c : Command) {d : Dev} (h : BaseLaw v d) : BaseLaw v (stopCommand c d).1 := by
  unfold Machine.stopCommand
  split
  · exact h.side (stopPart_side d) fun _ => bankLaw_stop _
  · exact h

/-! ### The rows of the ports -/

@[simp] theorem emptySlots_base (f : Option FaceId) (d : Dev) : (emptySlots f d).base = d.base := by cases f <;> rfl

/-- R21: of the base, an accepted placement changes its port alone. -/
theorem place_base (n : Nat) (p : Placement) (d : Dev) : (place n p d).base = d.base.setPort n { d.base.port n with
    place := p, head := if p.enabled then .active else .off, missing := 0 } := by
  have hbase : (emptySlots p.bound
      (if (d.base.port n).place.bound = p.bound then d else emptySlots (d.base.port n).place.bound d)).base = d.base := by
    split <;> simp
  unfold place
  dsimp only
  generalize (emptySlots p.bound _) = d' at hbase
  have hset : (∀ x, (d'.setPort n x).base = d.base.setPort n x) := fun x => congrArg (Base.setPort · n x) hbase
  by_cases hhead : (if p.enabled then HeadState.active else .off) = (d.base.port n).head
  · rw [if_pos hhead]
    exact hset _
  · rw [if_neg hhead]
    exact hset _

theorem BaseLaw.place {n : Nat} {p : Placement} {d : Dev} (h : BaseLaw v d) (ho : d.base.overlaps n p = false) :
    BaseLaw v (place n p d) where
  ports hv := by rw [place_base]; exact (h.ports hv).setPlace rfl ho
  commands hv := by rw [place_base]; exact h.commands hv
  banks hv := by rw [place_base]; exact h.banks hv

theorem BaseLaw.placementWrite (c : Command) {d : Dev} (h : BaseLaw v d) : BaseLaw v (placementWrite c d).1 := by
  unfold Machine.placementWrite
  split_ifs
  · exact h
  · exact h
  · exact h
  · split
    · exact h
    · split_ifs with _ ho
      · exact h
      · exact h
      · exact h.place (by simpa using ho)

theorem BaseLaw.flatWrite (c : Command) {d : Dev} (h : BaseLaw v d) : BaseLaw v (flatWrite c d).1 := by
  unfold Machine.flatWrite
  dsimp only
  split_ifs
  · exact h
  · exact h
  · exact h
  · exact h.quiet (Quiet.setPort rfl)

/-! ### The rows of the banks -/

theorem BaseLaw.bankOpen (c : Command) {d : Dev} (h : BaseLaw v d) : BaseLaw v (bankOpen c d).1 :=
  h.of_bank fun i => by
    split
    · unfold openBank
      split
      · exact h
      · exact h
      · exact h
      · exact h
      · rename_i hs
        exact h.side ⟨rfl, rfl⟩ fun hb => hb.setBank rfl (by rw [hs]; rfl)
      · rename_i hs
        exact h.side ⟨rfl, rfl⟩ fun hb => hb.setBank rfl (by rw [hs]; rfl)
    · exact h

theorem BaseLaw.writeOpenBank (i : BankId) (c : Command) {d : Dev} (hs : (d.base.banks.bank i).state = .opened)
    (h : BaseLaw v d) : BaseLaw v (writeOpenBank i c d).1 := by
  have hrest : (d.base.banks.bank i).state.atRest = true := by rw [hs]; rfl
  unfold Machine.writeOpenBank
  split
  · exact h
  · split_ifs
    · exact h
    · dsimp only
      split
      · exact h
      · exact h.side ⟨rfl, rfl⟩ fun hb => hb.setBank hrest hrest

theorem BaseLaw.bankWrite (c : Command) {d : Dev} (h : BaseLaw v d) : BaseLaw v (bankWrite c d).1 :=
  h.of_bank fun i => by
    split
    · exact h
    · exact h
    · exact h
    · exact h
    · exact h
    · rename_i hs
      exact h.writeOpenBank i c hs

theorem BaseLaw.bankCheck (c : Command) {d : Dev} (h : BaseLaw v d) : BaseLaw v (bankCheck c d).1 :=
  h.of_bank fun i => by
    split_ifs with _ hs
    · exact h
    · exact h
    · have hrest : (d.base.banks.bank i).state.atRest = true := by rw [not_not.mp hs]; rfl
      exact h.side ⟨rfl, rfl⟩ fun hb => (hb.setBank (x := { d.base.banks.bank i with state := .checking }) rfl hrest).congr rfl rfl rfl

theorem judged_atRest (b : Bank) (s : LineSetup) (x : Option Verdict) : (b.judged s x).state.atRest = true := by
  cases x <;> rfl

theorem BaseLaw.completeCheck {d : Dev} (h : BaseLaw v d) : BaseLaw v (completeCheck d) := by
  unfold Machine.completeCheck
  split
  · exact h
  · rename_i i hi
    have hrest : (d.base.banks.bank i).state.atRest = true := by rw [checkingBank_state hi]; rfl
    exact h.side ⟨rfl, rfl⟩ fun hb => (hb.setBank (judged_atRest _ _ _) hrest).congr rfl rfl rfl

theorem BaseLaw.bankSchedule (c : Command) {d : Dev} (h : BaseLaw v d) : BaseLaw v (bankSchedule c d).1 :=
  h.of_bank fun i => by
    dsimp only
    split_ifs with _ hn
    · exact h
    · exact h
    · simp only [not_or, not_not, Bool.not_eq_false] at hn
      exact h.side ⟨rfl, rfl⟩ fun hb => (hb.schedule hn.1 hn.2.1).congr rfl rfl rfl

theorem BaseLaw.bankCancel (c : Command) {d : Dev} (h : BaseLaw v d) : BaseLaw v (bankCancel c d).1 := by
  unfold Machine.bankCancel
  split
  · rename_i i hi
    exact h.side ⟨rfl, rfl⟩ fun hb => (hb.cancel (scheduled_state hi)).congr rfl rfl rfl
  · exact h

/-! ### Rows that leave ports, banks and command queue alone -/

theorem sideSame_of_base {d d' : Dev} (h : d'.base = d.base) : SideSame d d' := by rw [SideSame, h]; exact ⟨rfl, rfl⟩

theorem BaseLaw.of_base {d d' : Dev} (h : BaseLaw v d) (hb : d'.base = d.base) : BaseLaw v d' :=
  h.same (sideSame_of_base hb) (by rw [hb])

theorem geometryWrite_base (c : Command) (d : Dev) : (geometryWrite c d).1.base = d.base := by
  unfold geometryWrite
  split_ifs
  · rfl
  · rfl
  · split <;> rfl

theorem previewSet_base (c : Command) (d : Dev) : (previewSet c d).1.base = d.base := by
  unfold previewSet
  split
  · rfl
  · split_ifs <;> rfl

theorem baselineLearn_base (c : Command) (d : Dev) : (baselineLearn c d).1.base = d.base := by
  unfold baselineLearn
  split
  · rfl
  · split_ifs <;> rfl

theorem baselineRead_base (c : Command) (d : Dev) : (baselineRead c d).1.base = d.base := by
  unfold baselineRead
  split
  · rfl
  · split_ifs <;> rfl

theorem baselineReserve_base (c : Command) (d : Dev) : (baselineReserve c d).1.base = d.base := by
  unfold baselineReserve
  split
  · rfl
  · split_ifs <;> rfl

theorem putFace_base (f : FaceId) (first : Nat) (l : List Nat) (d : Dev) : (putFace f first l d).1.base = d.base := by
  unfold putFace
  split
  · rfl
  · split_ifs
    · rfl
    · split <;> rfl

theorem baselinePut_base (c : Command) (d : Dev) : (baselinePut c d).1.base = d.base := by
  unfold baselinePut
  split
  · rfl
  · split_ifs
    · exact putFace_base _ _ _ _
    · rfl

theorem queryStatus_base (c : Command) (d : Dev) : (queryStatus c d).1.base = d.base := by
  unfold queryStatus
  split_ifs <;> rfl

theorem withFace_base {n : Nat} {d : Dev} {k : FaceId → Dev × Answer} (hk : ∀ f, (k f).1.base = d.base) :
    (withFace n d k).1.base = d.base := withFace_keeps (P := fun x => x.base = d.base) rfl hk

theorem BaseLaw.tierLimit (c : Command) {d : Dev} (h : BaseLaw v d) : BaseLaw v (tierLimit c d).1 := by
  unfold Machine.tierLimit
  split
  · rename_i fs lanes _ _
    split_ifs
    · exact h
    · exact h
    · cases fs with
      | lead => exact h.of_base rfl
      | trail => exact h.of_base rfl
      | both => exact h.same (SideSame.bothFaces fun _ _ => ⟨rfl, rfl⟩) (bothFaces_banks fun _ _ => rfl)
  · exact h
  · exact h

theorem BaseLaw.lineSetup (c : Command) {d : Dev} (h : BaseLaw v d) : BaseLaw v (lineSetup c d).1 := by
  unfold Machine.lineSetup
  split
  · exact h
  · split
    · exact h
    · dsimp only [takenClamped]
      split
      · exact h.same ⟨rfl, rfl⟩ rfl
      · exact h.same ⟨rfl, rfl⟩ rfl

theorem BaseLaw.retainWrite (c : Command) {d : Dev} (h : BaseLaw v d) : BaseLaw v (retainWrite c d).1 := by
  unfold Machine.retainWrite
  dsimp only
  split_ifs
  · exact h
  · exact ⟨h.ports, h.commands, h.banks⟩

/-! ### Arrival, counters, resets -/

theorem BaseLaw.inboundFrame (ws : List Word) {d : Dev} (h : BaseLaw v d) : BaseLaw v (inboundFrame ws d) := by
  unfold Machine.inboundFrame commandArrival
  split_ifs with _ _ hlt
  · exact h
  · refine ⟨h.ports, fun _ => ?_, h.banks⟩
    simp only [onExec_exec, List.length_append, List.length_singleton]
    exact hlt
  · exact ⟨h.ports, h.commands, h.banks⟩
  · exact ⟨h.ports, h.commands, h.banks⟩
  · exact h.of_base rfl

theorem BaseLaw.clearAll {d : Dev} (h : BaseLaw v d) : BaseLaw v (clearAll d) where
  ports hv := (h.ports hv).tmap (g := fun p => { p with counts := PortCounts.zero }) rfl rfl fun _ => rfl
  commands := h.commands
  banks := h.banks

theorem BaseLaw.commandReset (t : Nat) {d : Dev} (h : BaseLaw v d) : BaseLaw v (commandReset t d) where
  ports hv := (h.ports hv).tmap (g := Port.commandReset) rfl rfl fun _ => rfl
  commands _ := Nat.zero_le _
  banks _ := banksOk_powerOn.1

theorem BaseLaw.of_cleared {d : Dev} (hp : d.base.sens.ports = []) (hq : d.base.exec.queue = [])
    (hb : d.base.banks = Banks.powerOn) : BaseLaw v d where
  ports _ := portsLaw_powerOn hp
  commands _ := by rw [hq]; exact Nat.zero_le _
  banks _ := by rw [hb]; exact banksOk_powerOn.1

theorem BaseLaw.execUnknown {s t : State} (h : BaseLaw v s.dev) (he : execUnknownCommand s = .next t) : BaseLaw v t.dev := by
  unfold execUnknownCommand at he
  split at he
  · cases he; exact h
  · rename_i c rest hq
    split_ifs at he
    · cases he; exact (h.takeCommand hq).of_base rfl
    · cases he; exact h

theorem BaseLaw.execReset {s t : State} (h : BaseLaw v s.dev) (he : execReset s = .next t) : BaseLaw v t.dev := by
  unfold Machine.execReset at he
  split at he
  · cases he; exact h
  · split_ifs at he
    · cases he; exact h.commandReset _
    · exact h.runCommand (fun _ _ hd => hd) he

/-! ### Every command -/

theorem exec_baseLaw {i : Instr} {s t : State} (h : BaseLaw v s.dev) (he : exec i s = .next t) : BaseLaw v t.dev := by
  cases i with
  | encoderCount a b => cases he; exact h.quiet (Quiet.encoderCount a b _)
  | triggerWordEnd f => cases he; exact h.of_base rfl
  | speedWindowExpiry => cases he; exact h.quiet (Quiet.speedWindow _)
  | scanPacket p tag n l x =>
    change execScanPacket p tag n l x s = .next t at he
    unfold execScanPacket at he
    split_ifs at he
    cases he
    exact h.quiet (Quiet.packetArrival p tag n l x _)
  | pixelChainLine f => cases he; exact h.takePixelLine f
  | blobBuilderLine f => cases he; exact h.of_base rfl
  | streakTrackerLine f => cases he; exact h.of_base rfl
  | previewLine f => cases he; exact h.of_base rfl
  | leadCandidate => cases he; exact h.of_base rfl
  | trailCandidate => cases he; exact h.of_base rfl
  | countedEvent f src => cases he; exact h.of_base rfl
  | patchMark =>
    change execPatchMark s = .next t at he
    unfold execPatchMark at he
    split_ifs at he
    · cases he; exact h.of_base rfl
    · cases he; exact h
  | checkCompletion => cases he; exact h.completeCheck
  | transmitCompletion => cases he; exact h.of_base rfl
  | linkUp => cases he; exact h.of_base rfl
  | linkDown r => cases he; exact h.of_base rfl
  | inboundFrame ws => cases he; exact h.inboundFrame ws
  | unknownCommand => exact h.execUnknown he
  | lineSetup => exact h.runCommand (fun c _ hd => hd.lineSetup c) he
  | placementWrite => exact h.runCommand (fun c _ hd => hd.placementWrite c) he
  | geometryWrite => exact h.runCommand (fun c d hd => hd.of_base (geometryWrite_base c d)) he
  | flatWrite => exact h.runCommand (fun c _ hd => hd.flatWrite c) he
  | setCalibrationLock => exact h.runCommand (fun _ _ hd => ⟨hd.ports, hd.commands, hd.banks⟩) he
  | previewSet => exact h.runCommand (fun c d hd => hd.of_base (previewSet_base c d)) he
  | bankOpen => exact h.runCommand (fun c _ hd => hd.bankOpen c) he
  | bankWrite => exact h.runCommand (fun c _ hd => hd.bankWrite c) he
  | bankCheck => exact h.runCommand (fun c _ hd => hd.bankCheck c) he
  | bankSchedule => exact h.runCommand (fun c _ hd => hd.bankSchedule c) he
  | bankCancel => exact h.runCommand (fun c _ hd => hd.bankCancel c) he
  | start => exact h.runCommand (fun c _ hd => hd.startCommand c) he
  | stop => exact h.runCommand (fun c _ hd => hd.stopCommand c) he
  | baselineLearn => exact h.runCommand (fun c d hd => hd.of_base (baselineLearn_base c d)) he
  | baselineRead => exact h.runCommand (fun c d hd => hd.of_base (baselineRead_base c d)) he
  | baselineReserve => exact h.runCommand (fun c d hd => hd.of_base (baselineReserve_base c d)) he
  | baselinePut => exact h.runCommand (fun c d hd => hd.of_base (baselinePut_base c d)) he
  | tierLimit => exact h.runCommand (fun c _ hd => hd.tierLimit c) he
  | queryStatus => exact h.runCommand (fun c d hd => hd.of_base (queryStatus_base c d)) he
  | queryCounters => exact h.runCommand (fun _ _ hd => hd) he
  | queryLanes => exact h.runCommand (fun _ _ hd => hd.of_base (withFace_base fun _ => rfl)) he
  | queryStreaks => exact h.runCommand (fun _ _ hd => hd.of_base (withFace_base fun _ => rfl)) he
  | queryPending => exact h.runCommand (fun _ _ hd => hd) he
  | queryRetained => exact h.runCommand (fun _ _ hd => hd) he
  | clearCounters => exact h.runCommand (fun _ _ hd => hd.clearAll) he
  | retainWrite => exact h.runCommand (fun c _ hd => hd.retainWrite c) he
  | reset => exact h.execReset he
  | powerOnReset a b => cases he; exact BaseLaw.of_cleared rfl rfl rfl
  | pinReset a b => cases he; exact BaseLaw.of_cleared rfl rfl rfl

/-! ### From commands to steps -/

/-- A property of the part that every command keeps is kept by every step: an idle step changes nothing, and the waiting commands
are no piece of the part. -/
theorem kept_of_exec {inv : State → Prop} {P : Dev → Prop} (hinv : ∀ s, inv s ↔ P s.dev)
    (hexec : ∀ (i : Instr) (s t : State), P s.dev → exec i s = .next t → P t.dev) : Kept inv := by
  intro s t hs he
  rw [hinv] at hs ⊢
  unfold step at he
  split at he
  · cases he; exact hs
  · rename_i c rest _
    exact hexec c { s with pending := rest } t hs he

theorem kept_of_baseLaw {inv : State → Prop} (v : BaseConcern → Prop) (hinv : ∀ s, inv s ↔ BaseLaw v s.dev) : Kept inv :=
  kept_of_exec hinv fun _ _ _ => exec_baseLaw

theorem kept_of_whole {inv : State → Prop} (w : Concern → Prop) (hinv : ∀ s, inv s ↔ Whole w s.dev) : Kept inv :=
  kept_of_exec hinv fun _ _ _ => exec_whole

end Sys2Proof.Machine

open Sys2Proof Sys2Proof.Machine

/-- Settles O3: BanksLawful is the bank law of the base, which every command keeps. -/
theorem bankStatesStayLawful : Obligations.BankStatesStayLawful :=
  kept_of_baseLaw (· = .banks) fun _ =>
    ⟨fun h => ⟨nofun, nofun, fun _ => h⟩, fun h => h.banks rfl⟩

/-- Settles O6: ColumnsDisjoint is the port law of the base, which every command keeps. -/
theorem columnsStayDisjoint : Obligations.ColumnsStayDisjoint :=
  kept_of_baseLaw (· = .ports) fun _ =>
    ⟨fun h => ⟨fun _ => h, nofun, nofun⟩, fun h => h.ports rfl⟩

namespace Sys2Proof.Machine

/-! ### The bounds of the line side as the invariants of the part -/

theorem tiersLawful_iff (s : State) : TiersLawful s ↔ Whole (· = .lanes) s.dev := by
  constructor
  · rintro ⟨hbanks, hpolicy, hlanes⟩
    exact ⟨⟨nofun, nofun, nofun, fun f => ⟨nofun, nofun, nofun, nofun, fun _ => hlanes f, nofun⟩⟩, fun _ => ⟨hbanks, hpolicy⟩⟩
  · rintro ⟨hlines, hbanks⟩
    obtain ⟨hlaw, hpolicy⟩ := hbanks rfl
    refine ⟨hlaw, hpolicy, fun f => ?_⟩
    obtain ⟨_, _, _, _, hlanes, _⟩ := hlines.face f
    exact hlanes rfl

theorem baselinesBounded_iff (s : State) : BaselinesBounded s ↔ Whole (· = .columns) s.dev := by
  constructor
  · intro h
    exact ⟨⟨nofun, nofun, nofun, fun f => ⟨nofun, nofun, fun _ => h f, nofun, nofun, nofun⟩⟩, nofun⟩
  · rintro ⟨hlines, _⟩ f
    obtain ⟨_, _, hcols, _⟩ := hlines.face f
    exact hcols rfl

theorem accumulatorsBounded_iff (s : State) : AccumulatorsBounded s ↔ Whole (· = .accs) s.dev := by
  constructor
  · intro h
    exact ⟨⟨nofun, nofun, nofun, fun f => ⟨nofun, nofun, nofun, fun _ => h f, nofun, nofun⟩⟩, nofun⟩
  · rintro ⟨hlines, _⟩ f
    obtain ⟨_, _, _, haccs, _⟩ := hlines.face f
    exact haccs rfl

theorem tablesCanonical_iff (s : State) : TablesCanonical s ↔ Whole (· = .tables) s.dev := by
  constructor
  · intro h
    exact ⟨⟨nofun, nofun, nofun, fun f => ⟨nofun, nofun, nofun, nofun, nofun, fun _ => h f⟩⟩, nofun⟩
  · rintro ⟨hlines, _⟩ f
    obtain ⟨_, _, _, _, _, htables⟩ := hlines.face f
    exact htables rfl

/-- The concerns that bound a list of the line side. -/
def Concern.bounds : Concern → Prop
  | .queues | .pending | .marks | .slots | .ring => True
  | .columns | .accs | .lanes | .tables => False

theorem capacitiesHold_iff (s : State) :
    CapacitiesHold s ↔ Whole Concern.bounds s.dev ∧ BaseLaw (· = .commands) s.dev := by
  constructor
  · rintro ⟨hout, hcommands, hpending, hmarks, hfaces⟩
    refine ⟨⟨⟨fun _ => hout, fun _ => hpending, fun _ => hmarks, fun f => ?_⟩, nofun⟩, ⟨nofun, fun _ => hcommands, nofun⟩⟩
    exact ⟨fun _ => (hfaces f).1, fun _ => (hfaces f).2, nofun, nofun, nofun, nofun⟩
  · rintro ⟨⟨⟨hout, hpending, hmarks, hfaces⟩, _⟩, hbase⟩
    refine ⟨hout trivial, hbase.commands rfl, hpending trivial, hmarks trivial, fun f => ?_⟩
    obtain ⟨hslots, hring, _⟩ := hfaces f
    exact ⟨hslots trivial, hring trivial⟩

/-! ### What the bounds give -/

theorem lane_lawful {s : State} (h : TiersLawful s) (f : FaceId) (j : Nat) : LaneLaw ((s.dev.face f).tier.lane j) :=
  Tier.laneLaw (h.2.2 f) j

/-- R130: the effective tier lies between own tier and max limit, and is the max limit under a floor above it. -/
theorem effective_between {l : Lane} (h : LaneLaw l) (floor : Nat) :
    l.own ≤ l.effective floor ∧ l.effective floor ≤ l.maxLimit ∧ (l.maxLimit < floor → l.effective floor = l.maxLimit) := by
  obtain ⟨_, hmax⟩ := h
  unfold Lane.effective
  omega

end Sys2Proof.Machine

/-- Settles O4: the lane laws are the bound `lanes` of the line side with the bank laws; the rest is the order of the three
numbers that the effective tier is made of. -/
theorem laneTiersStayWithinLimits : Obligations.LaneTiersStayWithinLimits := by
  refine ⟨kept_of_whole (· = .lanes) tiersLawful_iff, fun s hs f j => ?_⟩
  have hlane := lane_lawful hs f j
  obtain ⟨hown, hmax, hfloor⟩ := effective_between hlane (s.dev.face f).tier.floor
  exact ⟨hlane.1, hown, hmax, hfloor, rfl⟩

/-- Settles O5: both bounds are kept for listed columns, and an unlisted column reads as 0. -/
theorem baselinesAndAccumulatorsStayBounded : Obligations.BaselinesAndAccumulatorsStayBounded := by
  refine ⟨⟨kept_of_whole (· = .columns) baselinesBounded_iff, fun s hs f c => ?ref⟩,
    kept_of_whole (· = .accs) accumulatorsBounded_iff, fun s hs f c => ?acc⟩
  case ref => exact (Pixel.columnLaw (hs f) c).1
  case acc => exact Streaks.accLaw (hs f) c

/-- Settles O7: the capacities and the canonical stores are bounds that every command keeps; a canonical slot table of n slots
lists at most n. -/
theorem capacitiesStayKept : Obligations.CapacitiesStayKept := by
  refine ⟨kept_of_exec (P := fun d => Whole Concern.bounds d ∧ BaseLaw (· = .commands) d) capacitiesHold_iff
      fun i s t h he => ⟨exec_whole h.1 he, exec_baseLaw h.2 he⟩,
    kept_of_whole (· = .tables) tablesCanonical_iff, fun s => ⟨fun h f => ?slots, fun h => ?buffers⟩⟩
  case slots =>
    obtain ⟨_, hblobs, hstreaks, _⟩ := h f
    exact ⟨hblobs.length_le, hstreaks.length_le⟩
  case buffers =>
    obtain ⟨⟨_, hbuffers⟩, _⟩ := h
    exact hbuffers.length_le

/-- Settles O8: power-on reset meets every bound of the line side and every law of the base. -/
theorem invariantsHoldAfterReset : Obligations.InvariantsHoldAfterReset := by
  have hbase : ∀ v, BaseLaw v State.reset.dev := fun _ => BaseLaw.of_cleared rfl rfl rfl
  have hwhole : ∀ w, Whole w State.reset.dev := fun _ => whole_powerOn false false 0
  exact ⟨(hbase (· = .banks)).banks rfl, (tiersLawful_iff _).mpr (hwhole _), (baselinesBounded_iff _).mpr (hwhole _),
    (accumulatorsBounded_iff _).mpr (hwhole _), (hbase (· = .ports)).ports rfl,
    (capacitiesHold_iff _).mpr ⟨hwhole _, hbase _⟩, (tablesCanonical_iff _).mpr (hwhole _)⟩

end

section
/-! R16, R17, R35, R36, R164, R167, R176 to R178: the three resets. Each leaves the blocks, the banks and the executor cleared; what
they differ in is what they keep and what they record. -/

namespace Sys2Proof.Machine

open Sys2Proof

/-! ### The three resets complete -/

theorem rowOf_of_code_reset {c : Command} (h : c.code = 0xFF) : rowOf c = .reset := by
  simp [rowOf, h]

theorem ResetHeads.exec {c : Command} {rest : List Command} {s : State} (h : ResetHeads c rest s) :
    exec .reset s = .next { s with dev := commandReset c.tag s.dev } := by
  obtain ⟨hqueue, hcode, hcount, hops⟩ := h
  have hform : c.malformed = false := by simp [Command.malformed, Command.required, hcode, hcount, hops]
  show execReset s = _
  simp only [execReset, hqueue, rowOf_of_code_reset hcode, hform, and_self, if_true]

/-- What a reset makes of the part. -/
inductive ResetTo (i : Instr) (s : State) : Dev → Prop
  | powerOn (a b : Bool) (hi : i = .powerOnReset a b) : ResetTo i s (Dev.powerOn a b s.dev.base.free)
  | pin (a b : Bool) (hi : i = .pinReset a b) : ResetTo i s (Machine.pinReset a b s.dev)
  | command (c : Command) (rest : List Command) (hi : i = .reset) (h : ResetHeads c rest s) :
      ResetTo i s (commandReset c.tag s.dev)

theorem IsReset.exec {i : Instr} {s : State} (h : IsReset i s) :
    ∃ d, ResetTo i s d ∧ exec i s = .next { s with dev := d } := by
  obtain ⟨a, b, rfl⟩ | ⟨a, b, rfl⟩ | ⟨rfl, c, rest, hheads⟩ := h
  · exact ⟨_, .powerOn a b rfl, rfl⟩
  · exact ⟨_, .pin a b rfl, rfl⟩
  · exact ⟨_, .command c rest rfl hheads, hheads.exec⟩

/-! ### What every reset clears -/

/-- A face after a reset: its reset value but for the grid, the geometry and the preview settings. -/
structure FaceCleared (x : Face) : Prop where
  pixel : x.pixel = Pixel.powerOn
  asm : x.asm = { Assembler.powerOn with geometry := x.asm.geometry }
  pattern : x.pattern = Pattern.powerOn
  blob : x.blob = Blobs.powerOn
  streak : x.streak = Streaks.powerOn
  tier : x.tier = Tier.powerOn

/-- The part after a reset, as far as all three agree. -/
structure Cleared (d : Dev) : Prop where
  face : ∀ f, FaceCleared (d.face f)
  marks : d.insp.marks = Marks.powerOn
  corr : d.insp.corr = Corr.powerOn
  banks : d.base.banks = Banks.powerOn
  exec : d.base.exec = { Exec.powerOn with retained := d.base.exec.retained }

theorem faceCleared_powerOn : FaceCleared Face.powerOn := ⟨rfl, rfl, rfl, rfl, rfl, rfl⟩
theorem faceCleared_commandReset (x : Face) : FaceCleared x.commandReset := ⟨rfl, rfl, rfl, rfl, rfl, rfl⟩

@[simp] theorem commandReset_face (tag : Nat) (d : Dev) (f : FaceId) :
    (commandReset tag d).face f = (d.face f).commandReset := by cases f <;> rfl

theorem ResetTo.cleared {i : Instr} {s : State} {d : Dev} (h : ResetTo i s d) : Cleared d := by
  cases h with
  | powerOn a b _ => exact ⟨fun f => by rw [dev_powerOn_face]; exact faceCleared_powerOn, rfl, rfl, rfl, rfl⟩
  | pin a b _ => exact ⟨fun f => by rw [pinReset_face]; exact faceCleared_powerOn, rfl, rfl, rfl, rfl⟩
  | command c rest _ _ => exact ⟨fun f => by rw [commandReset_face]; exact faceCleared_commandReset _, rfl, rfl, rfl, rfl⟩

/-! ### The outbound side -/

/-- R159: with the START report pending, the pick leaves everything but the frame in transmission alone. -/
theorem pick_of_startPending {o : Out} (h : o.startPending = true) : o.pick = { o with
    tx := if o.linkUp = true ∧ o.tx = none then some {
      queue := none, report := o.startReport, words := frameWords o.buffers o.startReport 0, live := true } else o.tx } := by
  by_cases hidle : o.linkUp = true ∧ o.tx = none
  · rw [if_pos hidle]
    simp [Out.pick, hidle, h]
  · rw [if_neg hidle]
    exact if_neg (by simpa using hidle)

/-- R178: the outbound side as a reset leaves it, with a cause, tag and retained-word flag recorded. -/
structure ResetRecorded (o : Out) (cause : ResetCause) (tag : Option Nat) (kept : Bool) : Prop where
  startPending : o.startPending = true
  queue : ∀ q, o.queue q = Queue.empty
  buffers : o.buffers = []
  framesSent : o.framesSent = 0
  inboundErrors : o.inboundErrors = 0
  linkDowns : o.linkDowns = 0
  toggle : o.toggle = .lead
  cause : o.cause = cause
  tag : o.tag = tag
  kept : o.kept = kept

theorem resetRecorded_powerOn : ResetRecorded Out.powerOn .power none false :=
  ⟨rfl, fun q => by cases q <;> rfl, rfl, rfl, rfl, rfl, rfl, rfl, rfl, rfl⟩

theorem strongerCause_pin (c : ResetCause) : strongerCause c .pin = if c = .power then .power else .pin := by cases c <;> rfl
theorem strongerCause_command (c : ResetCause) : strongerCause c .command = c := by cases c <;> rfl

theorem resetRecorded_pinReset (o : Out) : ResetRecorded o.pinReset
    (if o.startPending = true ∧ o.cause = .power then .power else .pin) none (if o.startPending then o.kept else true) := by
  have hcause : (if o.startPending then strongerCause o.cause .pin else .pin) =
      if o.startPending = true ∧ o.cause = .power then ResetCause.power else .pin := by
    rw [strongerCause_pin]
    by_cases hp : o.startPending = true <;> simp [hp]
  refine ⟨rfl, fun q => by cases q <;> rfl, rfl, rfl, rfl, rfl, rfl, hcause, ?_, rfl⟩
  exact ite_self none

/-- R167, R178: the outbound side of a command reset, before the pick. -/
theorem resetRecorded_record (o : Out) (tag : Nat) : ResetRecorded (o.commandReset.recordReset .command (some tag))
    (if o.startPending then o.cause else .command)
    (if (if o.startPending then o.cause else .command) = .command then some tag else none)
    (if o.startPending then o.kept else true) := by
  have hcause : (if o.startPending then strongerCause o.cause .command else .command) =
      if o.startPending then o.cause else .command := by rw [strongerCause_command]
  refine ⟨rfl, fun q => by cases q <;> rfl, rfl, rfl, rfl, rfl, rfl, hcause, ?_, rfl⟩
  show (if (if o.startPending then strongerCause o.cause .command else .command) = .command then some tag else none) = _
  rw [hcause]

theorem ResetRecorded.pick {o : Out} {cause : ResetCause} {tag : Option Nat} {kept : Bool} (h : ResetRecorded o cause tag kept) :
    ResetRecorded o.pick cause tag kept := by
  rw [pick_of_startPending h.startPending]
  exact ⟨h.startPending, fun q => by rw [← h.queue q]; cases q <;> rfl, h.buffers, h.framesSent, h.inboundErrors, h.linkDowns,
    h.toggle, h.cause, h.tag, h.kept⟩

theorem resetRecorded_commandReset (tag : Nat) (d : Dev) : ResetRecorded (commandReset tag d).insp.out
    (if d.insp.out.startPending then d.insp.out.cause else .command)
    (if (if d.insp.out.startPending then d.insp.out.cause else .command) = .command then some tag else none)
    (if d.insp.out.startPending then d.insp.out.kept else true) := (resetRecorded_record _ _).pick

/-- R166, R167: after a command reset the frame in transmission goes out whole, withdrawn; without one the START report goes out
at once on an UP link. -/
theorem commandReset_tx (tag : Nat) (d : Dev) : (commandReset tag d).insp.out.tx =
    if d.insp.out.linkUp = true ∧ d.insp.out.tx = none then some {
      queue := none, report := (commandReset tag d).insp.out.startReport,
      words := frameWords [] (commandReset tag d).insp.out.startReport 0, live := true }
    else d.insp.out.tx.map InFlight.commandReset := by
  have hrec := resetRecorded_record d.insp.out tag
  have hout : (commandReset tag d).insp.out = (d.insp.out.commandReset.recordReset .command (some tag)).pick := rfl
  have htx : (d.insp.out.commandReset.recordReset .command (some tag)).tx = d.insp.out.tx.map InFlight.commandReset := rfl
  have hup : (d.insp.out.commandReset.recordReset .command (some tag)).linkUp = d.insp.out.linkUp := rfl
  rw [hout, pick_of_startPending hrec.startPending]
  simp only [htx, hup, Option.map_eq_none_iff, hrec.buffers]
  rfl

@[simp] theorem commandReset_linkUp (tag : Nat) (d : Dev) : (commandReset tag d).insp.out.linkUp = d.insp.out.linkUp :=
  pick_linkUp _

/-! ### Ports and retained words -/

theorem port_of_no_ports {b : Base} (h : b.sens.ports = []) (p : Nat) : b.port p = Port.powerOn := by
  unfold Base.port
  rw [h]
  rfl

/-- R35: with no port enabled every column is dark. -/
theorem dark_of_no_ports {b : Base} (h : b.sens.ports = []) (f : FaceId) (c : Nat) : b.dark f c = true := by
  have hlit : b.lit f = [] := by
    unfold Base.lit
    simp [port_of_no_ports h, Port.powerOn, Placement.powerOn]
  unfold Base.dark
  rw [hlit]
  rfl

theorem commandReset_port {s : State} (h : ColumnsDisjoint s) (tag n : Nat) :
    (commandReset tag s.dev).base.port n = (s.dev.base.port n).commandReset := tget_tmap Port.commandReset rfl h.1 n

end Sys2Proof.Machine

open Sys2Proof Sys2Proof.Machine

/-- Settles O10: the three resets agree on the cleared blocks, and what a cleared block reads as is computed. -/
theorem resetsClearEveryBlock : Obligations.ResetsClearEveryBlock := by
  intro i s hi
  obtain ⟨d, hd, hexec⟩ := hi.exec
  have hclear := hd.cleared
  have hpixel f := (hclear.face f).pixel
  have hasm f := (hclear.face f).asm
  have htier f := (hclear.face f).tier
  refine ⟨_, hexec, rfl, hpixel, fun f c => ?columns, fun f => ?slots, fun f => (hclear.face f).pattern,
    fun f => (hclear.face f).blob, fun f => (hclear.face f).streak, fun f j => ?lanes, fun f => ?tier, hclear.marks, hclear.corr,
    hclear.banks, ?exec⟩
  case columns =>
    rw [hpixel]
    exact ⟨rfl, rfl, rfl, rfl⟩
  case slots =>
    rw [hasm]
    exact ⟨rfl, rfl, rfl, rfl⟩
  case lanes =>
    rw [htier]
    exact ⟨rfl, rfl⟩
  case tier =>
    rw [htier]
    exact ⟨rfl, rfl, rfl, rfl, rfl, rfl, rfl, rfl, rfl, rfl⟩
  case exec =>
    rw [hclear.exec]
    exact ⟨rfl, rfl, rfl, rfl⟩

/-- Settles O11: power-on and pin reset by computation, the command reset by what it keeps of each block and of the frame in
transmission. -/
theorem resetsKeepWhatTheRulesName : Obligations.ResetsKeepWhatTheRulesName := by
  refine ⟨fun a b i s hi => ?uncommanded, fun c rest s hheads => ?command⟩
  case uncommanded =>
    obtain rfl | rfl := hi
    · refine ⟨_, rfl, port_of_no_ports rfl, dark_of_no_ports rfl, rfl, fun f => by cases f <;> exact ⟨rfl, rfl⟩, rfl, rfl,
        fun k => ?_⟩
      rw [if_pos rfl]
      rfl
    · refine ⟨_, rfl, port_of_no_ports rfl, dark_of_no_ports rfl, rfl, fun f => by cases f <;> exact ⟨rfl, rfl⟩, rfl, rfl,
        fun k => ?_⟩
      rw [if_neg (by simp)]
      rfl
  case command =>
    have htx := commandReset_tx c.tag s.dev
    refine ⟨_, hheads.exec, ⟨_, rfl, rfl⟩, fun f => ?face, fun hdisjoint n => ⟨_, rfl, commandReset_port hdisjoint _ n⟩, rfl,
      commandReset_linkUp _ _, fun x hx => ?sending, fun hidle hdown => ?down, fun report hidle hup hreport => ?up, rfl⟩
    case face => cases f <;> exact ⟨rfl, rfl, rfl⟩
    case sending =>
      rw [htx, if_neg (by simp [hx]), hx]
      rfl
    case down => rw [htx, if_neg (by simp [hdown]), hidle, Option.map_none]
    case up =>
      subst hreport
      rw [htx, if_pos ⟨hup, hidle⟩]
      rfl

/-- Settles O12: each reset's record on the outbound side. -/
theorem resetsRecordTheirCause : Obligations.ResetsRecordTheirCause := by
  intro i s hi
  obtain ⟨d, hd, hexec⟩ := hi.exec
  refine ⟨_, hexec, ?_⟩
  cases hd with
  | powerOn a b hi =>
    obtain ⟨hstart, hqueue, hbuffers, hframes, herrors, hdowns, htoggle, hcause, htag, hkept⟩ := resetRecorded_powerOn
    exact ⟨hstart, hqueue, hbuffers, hframes, herrors, hdowns, htoggle, fun _ => ⟨hcause, htag, hkept⟩,
      fun h => absurd h (by simp [hi]), fun _ _ h => absurd h (by simp [hi])⟩
  | pin a b hi =>
    obtain ⟨hstart, hqueue, hbuffers, hframes, herrors, hdowns, htoggle, hcause, htag, hkept⟩ :=
      resetRecorded_pinReset s.dev.insp.out
    exact ⟨hstart, hqueue, hbuffers, hframes, herrors, hdowns, htoggle, fun h => absurd h (by simp [hi]),
      fun _ => ⟨hcause, htag, hkept⟩, fun _ _ h => absurd h (by simp [hi])⟩
  | command c rest hi hheads =>
    obtain ⟨hstart, hqueue, hbuffers, hframes, herrors, hdowns, htoggle, hcause, htag, hkept⟩ :=
      resetRecorded_commandReset c.tag s.dev
    refine ⟨hstart, hqueue, hbuffers, hframes, herrors, hdowns, htoggle, fun h => absurd h (by simp [hi]),
      fun h => absurd h (by simp [hi]), fun c' rest' _ hqueue' => ?_⟩
    obtain ⟨rfl, _⟩ := List.cons.inj (hheads.1.symm.trans hqueue')
    exact ⟨hcause, by rw [hcause]; exact htag, hkept⟩

end

section
/-! R1 to R9, R11: what an encoder count does at the Motion Unit, the lines it issues, and the two timed events. -/

namespace Sys2Proof.Machine

open Sys2Proof

/-! ### Which count a sampled pair is (R1) -/

theorem forward_iff (old new : Bool × Bool) : Forward old new ↔ new = forwardPair old := by
  obtain ⟨a, b⟩ := old
  obtain ⟨x, y⟩ := new
  cases a <;> cases b <;> cases x <;> cases y <;> decide

theorem forwardPair_ne (p : Bool × Bool) : forwardPair p ≠ p := by
  obtain ⟨a, b⟩ := p
  cases a <;> cases b <;> decide

theorem forwardPair_twice_ne (p : Bool × Bool) : forwardPair (forwardPair p) ≠ p := by
  obtain ⟨a, b⟩ := p
  cases a <;> cases b <;> decide

/-- The part once a sampled pair is the reference of the next change. -/
def Dev.sample (d : Dev) (a b : Bool) : Dev := d.onMotion fun m => { m with encA := a, encB := b }

theorem encoderCount_of_forward {a b : Bool} {s : State} (h : Forward s.levels (a, b)) :
    encoderCount a b s.dev = forwardCount (s.dev.sample a b) := by
  rw [forward_iff] at h
  have hself : (a, b) ≠ s.levels := h.trans_ne (forwardPair_ne _)
  exact (if_neg hself).trans (if_pos h)

theorem encoderCount_of_backward {a b : Bool} {s : State} (h : Forward (a, b) s.levels) :
    encoderCount a b s.dev = backwardCount (s.dev.sample a b) := by
  rw [forward_iff] at h
  have hself : (a, b) ≠ s.levels := fun e => forwardPair_ne (a, b) (h.symm.trans e.symm)
  have hforward : (a, b) ≠ forwardPair s.levels := by
    rw [h]
    exact (forwardPair_twice_ne _).symm
  exact (if_neg hself).trans ((if_neg hforward).trans (if_pos h.symm))

/-- A change of both lines is a step of the cycle in neither direction. -/
theorem encoderCount_of_both {a b : Bool} {d : Dev} (ha : a ≠ d.base.motion.encA) (hb : b ≠ d.base.motion.encB) :
    encoderCount a b d = encoderFault (d.sample a b) := by
  obtain ⟨hself, hforward, hbackward⟩ : (a, b) ≠ (d.base.motion.encA, d.base.motion.encB) ∧
      (a, b) ≠ forwardPair (d.base.motion.encA, d.base.motion.encB) ∧
      forwardPair (a, b) ≠ (d.base.motion.encA, d.base.motion.encB) := by
    revert ha hb
    generalize d.base.motion.encA = x
    generalize d.base.motion.encB = y
    cases a <;> cases b <;> cases x <;> cases y <;> decide
  exact (if_neg hself).trans ((if_neg hforward).trans (if_neg hbackward))

/-! ### The range of P (R1) -/

theorem inRange_iff (p : Int) : inRange p = true ↔ -(2 ^ 47 - 1) ≤ p ∧ p ≤ 2 ^ 47 - 1 := by
  unfold inRange
  rw [Bool.and_eq_true, decide_eq_true_eq, decide_eq_true_eq]
  exact Iff.rfl

theorem addPosition_eq (a b : Nat) : addPosition a b = min (a + b) (2 ^ 47 - 1) := rfl

/-! ### Both faces in the order left open (log 8) -/

/-- The part with the next free value taken. -/
def Dev.nextFree (d : Dev) : Dev := { d with base := { d.base with free := d.base.free + 1 } }

theorem bothFaces_order (d : Dev) (act : FaceId → Dev → Dev) :
    ∃ first, d.bothFaces act = act (otherFace first) (act first d.nextFree) := by
  unfold Dev.bothFaces
  dsimp only
  split_ifs
  · exact ⟨.lead, rfl⟩
  · exact ⟨.trail, rfl⟩

theorem otherFace_ne (f : FaceId) : otherFace f ≠ f := by cases f <;> simp [otherFace]

theorem eq_other_of_ne {f g : FaceId} (h : f ≠ g) : f = otherFace g := by
  cases f <;> cases g <;> first | rfl | exact absurd rfl h

/-! ### The line test of a face (R5 to R7, R11) -/

theorem issueClass_eq (m : MotionState) : issueClass m = if m = .moving then .inspection else .creep := by cases m <;> rfl

theorem issuedLine_eq (m : Motion) (g : Grid) : issuedLine m g = {
    index := g.index, pos := g.next, pitch := m.setup.n * m.setup.e,
    cls := if m.state = .moving then .inspection else .creep } := by rw [← issueClass_eq]; rfl

theorem grid_issue_eq (m : Motion) (g : Grid) : g.issue m = {
    index := g.index + 1, next := g.next + m.setup.n * m.setup.e, last := some g.next,
    trigger := (match g.trigger with
      | some w => some w
      | none => some (BitVec.ofNat 16 g.index.toNat)),
    overruns := if g.trigger.isSome then min (g.overruns + 1) 65535 else g.overruns,
    creep := if m.state = .moving then g.creep else min (g.creep + m.setup.n * m.setup.e) (2 ^ 47 - 1) } := by
  have hcreep : (g.issue m).creep =
      if m.state = .moving then g.creep else min (g.creep + m.setup.n * m.setup.e) (2 ^ 47 - 1) := by
    unfold Grid.issue
    cases m.state <;> rfl
  have hnext : (g.issue m).next = g.next + m.setup.n * m.setup.e := by
    show g.next + ((m.setup.n * m.setup.e : Nat) : Int) = _
    push_cast
    rfl
  rw [← hcreep, ← hnext]
  rfl

theorem lineTest_of_due {f : FaceId} {d : Dev} (he : d.base.motion.setup.e ≠ 0)
    (h : (d.face f).grid.next ≤ d.base.facePos f) : lineTest f d = openSlot f (issuedLine d.base.motion (d.face f).grid)
      (d.onFace f fun x => { x with grid := (d.face f).grid.issue d.base.motion }) := if_pos ⟨he, h⟩

theorem lineTest_of_not_due {f : FaceId} {d : Dev} (h : d.base.motion.setup.e = 0 ∨ d.base.facePos f < (d.face f).grid.next) :
    lineTest f d = d := if_neg (by
  rintro ⟨he, hpos⟩
  exact h.elim he fun hlt => absurd hpos (not_le.mpr hlt))

theorem openSlot_grid (f : FaceId) (h : LineHead) (d : Dev) (g : FaceId) :
    ((openSlot f h d).face g).grid = (d.face g).grid := Touches.openSlot (f := f) h d (.grid g) (by simp)

theorem lineTest_grid (f : FaceId) (d : Dev) : ((lineTest f d).face f).grid =
    if d.base.motion.setup.e ≠ 0 ∧ (d.face f).grid.next ≤ d.base.facePos f then (d.face f).grid.issue d.base.motion
    else (d.face f).grid := by
  unfold lineTest
  dsimp only
  split_ifs
  · rw [openSlot_grid, dev_onFace_face]
  · rfl

theorem lineTest_motion (f : FaceId) (d : Dev) : (lineTest f d).base.motion = d.base.motion :=
  Touches.lineTest (f := f) d .motion (by simp)

theorem lineTest_grid_other {f g : FaceId} (h : g ≠ f) (d : Dev) : ((lineTest f d).face g).grid = (d.face g).grid :=
  Touches.lineTest (f := f) d (.grid g) (by simp [h])

/-! ### A forward count (R2) -/

theorem forwardCount_of_range {d : Dev} (h : inRange (d.base.motion.p + d.base.motion.setup.e) = true) :
    forwardCount d = if d.base.motion.h < d.base.motion.p + d.base.motion.setup.e then
      (d.onMotion Motion.forward).bothFaces lineTest else d.onMotion Motion.forward := by
  unfold forwardCount
  exact if_pos h

theorem forwardCount_of_fault {d : Dev} (h : inRange (d.base.motion.p + d.base.motion.setup.e) = false) :
    forwardCount d = encoderFault d := by
  unfold forwardCount
  exact if_neg (by rw [h]; decide)

theorem backwardCount_of_fault {d : Dev} (h : inRange (d.base.motion.p - d.base.motion.setup.e) = false) :
    backwardCount d = encoderFault d := by
  unfold backwardCount
  exact if_neg (by rw [h]; decide)

/-- R2: the Motion Unit after a forward count above H. -/
theorem motion_forward_above {m : Motion} (h : m.h < m.p + m.setup.e) : m.forward = { m with
    p := m.p + m.setup.e, window := min (m.window + m.setup.e) (2 ^ 47 - 1), h := m.p + m.setup.e } := by
  rw [← addPosition_eq]
  unfold Motion.forward
  rw [max_eq_right h.le]

theorem motion_forward_below {m : Motion} (h : m.p + m.setup.e ≤ m.h) : m.forward = { m with
    p := m.p + m.setup.e, window := min (m.window + m.setup.e) (2 ^ 47 - 1) } := by
  rw [← addPosition_eq]
  unfold Motion.forward
  rw [max_eq_left h]

/-- The part as the line tests of a forward count find it: the pair sampled, the web moved, the next free value taken. -/
def Dev.moved (d : Dev) (a b : Bool) : Dev := ((d.sample a b).onMotion Motion.forward).nextFree

theorem encoderCount_above {a b : Bool} {s : State} (h : Forward s.levels (a, b))
    (hr : inRange (s.dev.base.motion.p + s.dev.base.motion.setup.e) = true)
    (habove : s.dev.base.motion.h < s.dev.base.motion.p + s.dev.base.motion.setup.e) :
    ∃ first, encoderCount a b s.dev = lineTest (otherFace first) (lineTest first (s.dev.moved a b)) := by
  rw [encoderCount_of_forward h, forwardCount_of_range (d := s.dev.sample a b) hr]
  obtain ⟨first, horder⟩ := bothFaces_order ((s.dev.sample a b).onMotion Motion.forward) lineTest
  exact ⟨first, (if_pos habove).trans horder⟩

/-- R4: the position of a face after a count above H. -/
theorem facePos_moved {a b : Bool} {d : Dev} (h : d.base.motion.h < d.base.motion.p + d.base.motion.setup.e) (f : FaceId) :
    (d.moved a b).base.facePos f = match f with
      | .lead => d.base.motion.p + d.base.motion.setup.e
      | .trail => d.base.motion.p + d.base.motion.setup.e - d.base.motion.setup.d * 1024 := by
  have hmotion : (d.moved a b).base.motion.h = d.base.motion.p + d.base.motion.setup.e := max_eq_right h.le
  have hsetup : (d.moved a b).base.motion.setup = d.base.motion.setup := rfl
  cases f with
  | lead => exact hmotion
  | trail =>
    show (d.moved a b).base.motion.h - ((d.moved a b).base.motion.setup.d * 1024 : Nat) = _
    rw [hmotion, hsetup]
    push_cast
    rfl

/-- The grids after both line tests: each face's own test decides, on the part as both found it. -/
theorem lineTests_grid (first f : FaceId) (d : Dev) :
    ((lineTest (otherFace first) (lineTest first d)).face f).grid =
      if d.base.motion.setup.e ≠ 0 ∧ (d.face f).grid.next ≤ d.base.facePos f then (d.face f).grid.issue d.base.motion
      else (d.face f).grid := by
  have hmotion := lineTest_motion first d
  by_cases hf : f = first
  · subst hf
    rw [lineTest_grid_other (otherFace_ne f).symm, lineTest_grid]
  · rw [eq_other_of_ne hf, lineTest_grid, lineTest_grid_other (otherFace_ne first), hmotion]
    have hpos : (lineTest first d).base.facePos (otherFace first) = d.base.facePos (otherFace first) := by
      unfold Base.facePos
      rw [hmotion]
    rw [hpos]

theorem touches_moved (d : Dev) (a b : Bool) : Touches [.motion, .free] d (d.moved a b) :=
  Touches.trans (b := (d.sample a b).onMotion Motion.forward)
    ((Touches.onMotion d _).trans (Touches.onMotion _ _) |>.mono (by simp)) (Touches.countFree _ _ |>.mono (by simp))

theorem touches_lineTests (first : FaceId) (d : Dev) : Touches [.sens, .grid .lead, .grid .trail, .asm .lead, .asm .trail, .out] d
    (lineTest (otherFace first) (lineTest first d)) := by
  have hboth : ∀ f d', Touches [.sens, .grid .lead, .grid .trail, .asm .lead, .asm .trail, .out] d' (lineTest f d') :=
    fun f d' => (Touches.lineTest (f := f) d').mono (by cases f <;> simp)
  exact (hboth first d).trans (hboth _ _)

/-! ### The calibration lock along the Line Assemblers (R24) -/

theorem foldl_locked {β : Type} {g : Dev → β → Dev} (hg : ∀ d x, (g d x).base.sens.locked = d.base.sens.locked) (l : List β)
    (d : Dev) : (l.foldl g d).base.sens.locked = d.base.sens.locked := foldl_same (π := fun d : Dev => d.base.sens.locked) hg l d

theorem accountPort_locked (f : FaceId) (o : Slot) (d : Dev) (p : Nat) :
    (accountPort f o d p).base.sens.locked = d.base.sens.locked := by
  unfold accountPort
  dsimp only
  split_ifs <;> rfl

theorem leaveSlot_locked (f : FaceId) (o : Slot) (rest : List Slot) (d : Dev) :
    (leaveSlot f o rest d).base.sens.locked = d.base.sens.locked :=
  foldl_locked (fun d p => accountPort_locked f o d p) _ _

theorem leaveReady_locked (f : FaceId) (n : Nat) (d : Dev) : (leaveReady f n d).base.sens.locked = d.base.sens.locked := by
  induction n generalizing d with
  | zero => rfl
  | succ n ih =>
    unfold leaveReady
    split
    · rfl
    · split_ifs
      · rw [ih, leaveSlot_locked]
      · rfl

theorem settleSlots_locked (f : FaceId) (d : Dev) : (settleSlots f d).base.sens.locked = d.base.sens.locked :=
  leaveReady_locked f _ d

theorem forceOldest_locked (f : FaceId) (d : Dev) : (forceOldest f d).base.sens.locked = d.base.sens.locked := by
  unfold forceOldest
  split
  · rfl
  · rw [settleSlots_locked, leaveSlot_locked]
    rfl

theorem openSlot_locked (f : FaceId) (h : LineHead) (d : Dev) : (openSlot f h d).base.sens.locked = d.base.sens.locked := by
  unfold openSlot
  dsimp only
  rw [settleSlots_locked]
  split_ifs
  · exact forceOldest_locked f d
  · rfl

theorem lineTest_locked (f : FaceId) (d : Dev) : (lineTest f d).base.sens.locked = d.base.sens.locked := by
  unfold lineTest
  dsimp only
  split_ifs
  · rw [openSlot_locked]
    rfl
  · rfl

/-! ### One face's turn at a forward count (R5, R27 to R31) -/

/-- What the line test of a face does to its slots, the ports and the outbound side. -/
theorem lineTest_turn (f : FaceId) (d : Dev) :
    ((lineTest f d).face (otherFace f)).asm = (d.face (otherFace f)).asm ∧
    (d.base.motion.setup.e ≠ 0 → (d.face f).grid.next ≤ d.base.facePos f →
      SlotOpened f (issuedLine d.base.motion (d.face f).grid) d (lineTest f d)) ∧
    (d.base.motion.setup.e = 0 ∨ d.base.facePos f < (d.face f).grid.next →
      ((lineTest f d).face f).asm = (d.face f).asm ∧ (∀ p, (lineTest f d).base.port p = d.base.port p) ∧
        (lineTest f d).insp.out = d.insp.out) := by
  refine ⟨?other, fun he hdue => ?due, fun h => ?rest⟩
  case other => exact Touches.lineTest (f := f) d (.asm (otherFace f)) (by simp [otherFace_ne])
  case due =>
    rw [lineTest_of_due he hdue]
    have hopened := openSlot_opened f (issuedLine d.base.motion (d.face f).grid)
      (d.onFace f fun x => { x with grid := (d.face f).grid.issue d.base.motion })
    cases f <;> exact hopened
  case rest => rw [lineTest_of_not_due h]; exact ⟨rfl, fun _ => rfl, rfl⟩

theorem lineTest_pattern (f g : FaceId) (d : Dev) : ((lineTest f d).face g).pattern = (d.face g).pattern :=
  Touches.lineTest (f := f) d (.pattern g) (by simp)

/-! ### A backward count (R3, R9) -/

theorem behind_iff (m : Motion) : m.behind = true ↔ 1024 * (m.setup.backlash : Int) < m.h - m.p := by simp [Motion.behind]
theorem pastReverse_iff (m : Motion) : m.pastReverse = true ↔ 1024 * (m.setup.reverse : Int) < m.h - m.p := by
  simp [Motion.pastReverse]

/-- R3 step 1: the part after P has moved back, BACKING entered where the web is behind. -/
def Dev.backed (d : Dev) : Dev :=
  let d := d.onMotion fun m => { m with p := m.p - m.setup.e }
  if d.base.motion.state ≠ .backing ∧ d.base.motion.behind = true then
    enterMotion .backing (d.onMotion fun m => { m with rewound := false })
  else d

theorem backwardCount_of_range {d : Dev} (h : inRange (d.base.motion.p - d.base.motion.setup.e) = true) :
    backwardCount d = if d.backed.base.motion.state = .backing ∧ d.backed.base.motion.rewound = false ∧
        d.backed.base.motion.pastReverse = true then raiseRewound d.backed else d.backed := by
  unfold backwardCount
  exact if_pos h

theorem enterMotion_motion (new : MotionState) (d : Dev) :
    (enterMotion new d).base.motion = { d.base.motion with state := new } := by
  unfold enterMotion
  dsimp only
  split_ifs <;> rfl

theorem enterMotion_of_change {new : MotionState} {d : Dev} (h : d.base.motion.state ≠ new) : enterMotion new d =
    (d.onMotion fun m => { m with state := new }).offerStatus none
      (.motion d.base.motion.state new (d.base.motion.h / 10240) d.base.motion.speed) := if_neg h

theorem enterMotion_of_same {new : MotionState} {d : Dev} (h : d.base.motion.state = new) : enterMotion new d = d := by
  subst h
  exact if_pos rfl

theorem backed_of_stay {d : Dev} (h : d.base.motion.state = .backing ∨
    d.base.motion.h - (d.base.motion.p - d.base.motion.setup.e) ≤ 1024 * d.base.motion.setup.backlash) :
    d.backed = d.onMotion fun m => { m with p := m.p - m.setup.e } := by
  refine if_neg ?_
  rintro ⟨hstate, hbehind⟩
  rw [behind_iff] at hbehind
  exact h.elim hstate fun hle => absurd hbehind (not_lt.mpr hle)

theorem backed_of_enter {d : Dev} (hstate : d.base.motion.state ≠ .backing)
    (h : 1024 * d.base.motion.setup.backlash < d.base.motion.h - (d.base.motion.p - d.base.motion.setup.e)) :
    d.backed = (d.onMotion fun m => { m with p := m.p - m.setup.e, state := .backing, rewound := false }).offerStatus none
      (.motion d.base.motion.state .backing (d.base.motion.h / 10240) d.base.motion.speed) := by
  have hbehind : (d.onMotion fun m => { m with p := m.p - m.setup.e }).base.motion.behind = true := (behind_iff _).mpr h
  exact (if_pos ⟨hstate, hbehind⟩).trans (enterMotion_of_change hstate)

/-! ### The speed window (R8) -/

theorem windowState_eq (m : Motion) : windowState m = if 1024 * (m.setup.backlash : Int) < m.h - m.p then .backing
    else if m.window = 0 then .still
    else if 3 * m.window < 51200 * m.setup.vmin * m.period then .creep
    else .moving := by
  unfold windowState
  simp only [behind_iff]

/-- R8: the Motion Unit after an expiry, but for the state found. -/
def Motion.closeWindow (m : Motion) : Motion := { m with
  speed := min (3000 * m.window / (51200 * m.period)) 1000000,
  rewound := if windowState m = .backing then m.rewound else false, window := 0, period := m.setup.window }

theorem speedWindow_eq (d : Dev) :
    speedWindow d = enterMotion (windowState d.base.motion) (d.onMotion Motion.closeWindow) := rfl

end Sys2Proof.Machine

open Sys2Proof Sys2Proof.Machine

/-- Settles O13: the three faults reach R1's count by three ways, a pair equal to the held one reaches nothing. -/
theorem encoderFaultIsOnlyCounted : Obligations.EncoderFaultIsOnlyCounted := by
  refine ⟨fun a b s ha hb => ?both, fun a b s hforward hp => ?above, fun a b s hbackward hp => ?below,
    fun s => exec_encoderCount_of_held_pair rfl rfl⟩
  case both =>
    show Host.Outcome.next { s with dev := encoderCount a b s.dev } = _
    rw [encoderCount_of_both ha hb]
    rfl
  case above =>
    have hr : inRange (s.dev.base.motion.p + s.dev.base.motion.setup.e) = false := by
      rw [← Bool.not_eq_true, inRange_iff]
      omega
    show Host.Outcome.next { s with dev := encoderCount a b s.dev } = _
    rw [encoderCount_of_forward hforward, forwardCount_of_fault (d := s.dev.sample a b) hr]
    rfl
  case below =>
    have hr : inRange (s.dev.base.motion.p - s.dev.base.motion.setup.e) = false := by
      rw [← Bool.not_eq_true, inRange_iff]
      omega
    show Host.Outcome.next { s with dev := encoderCount a b s.dev } = _
    rw [encoderCount_of_backward hbackward, backwardCount_of_fault (d := s.dev.sample a b) hr]
    rfl

/-- Settles O14: a count at or below H moves P and the window; above H both line tests run on the moved web, and each changes its
own grid. -/
theorem forwardCountMovesWebAndIssuesLines : Obligations.ForwardCountMovesWebAndIssuesLines := by
  rintro a b s m rfl hforward hlo hhi
  have hr : inRange (s.dev.base.motion.p + s.dev.base.motion.setup.e) = true := (inRange_iff _).mpr ⟨hlo, hhi⟩
  constructor
  case left =>
    intro hle
    show Host.Outcome.next { s with dev := encoderCount a b s.dev } = _
    have hcount := (forwardCount_of_range (d := s.dev.sample a b) hr).trans (if_neg (not_lt.mpr hle))
    rw [encoderCount_of_forward hforward, hcount]
    have hmotion := motion_forward_below (m := (s.dev.sample a b).base.motion) hle
    exact congrArg (fun m => Host.Outcome.next { s with dev := { s.dev with base := { s.dev.base with motion := m } } }) hmotion
  case right =>
    intro habove
    obtain ⟨first, hcount⟩ := encoderCount_above hforward hr habove
    refine ⟨{ s with dev := encoderCount a b s.dev }, rfl, ?motion, fun f => ⟨_, rfl, ?grid⟩, rfl, ?frame⟩
    case motion =>
      show (encoderCount a b s.dev).base.motion = _
      rw [hcount, lineTest_motion, lineTest_motion]
      exact motion_forward_above (m := (s.dev.sample a b).base.motion) habove
    case grid =>
      show ((encoderCount a b s.dev).face f).grid = _
      rw [hcount, lineTests_grid, facePos_moved habove, grid_issue_eq]
      rfl
    case frame =>
      show Touches _ s.dev (encoderCount a b s.dev)
      rw [hcount]
      exact ((touches_moved s.dev a b).mono (by simp)).trans ((touches_lineTests first _).mono (by simp))

/-- Settles O15: each face's turn is its line test, the first on the moved web, the second on what the first has left. -/
theorem issuedLineTakesItsSlot : Obligations.IssuedLineTakesItsSlot := by
  rintro a b s m position turn rfl hforward hhi hlo habove hlead htrail hturn
  have hr : inRange (s.dev.base.motion.p + s.dev.base.motion.setup.e) = true := (inRange_iff _).mpr ⟨hlo, hhi⟩
  have hpos : ∀ f, (s.dev.moved a b).base.facePos f = position f := fun f => by
    rw [facePos_moved habove]
    cases f with
    | lead => exact hlead.symm
    | trail => exact htrail.symm
  obtain ⟨first, hcount⟩ := encoderCount_above hforward hr habove
  refine ⟨{ s with dev := encoderCount a b s.dev }, first, lineTest first (s.dev.moved a b), rfl, ?first, ?second,
    fun f => lineTest_pattern first f _, ?locked⟩
  case first =>
    obtain ⟨hother, hdue, hrest⟩ := lineTest_turn first (s.dev.moved a b)
    rw [hturn _ _ _ _ rfl]
    rw [hpos, issuedLine_eq] at hdue
    rw [hpos] at hrest
    exact ⟨hother, hdue, hrest⟩
  case second =>
    show turn _ _ (encoderCount a b s.dev)
    obtain ⟨hother, hdue, hrest⟩ := lineTest_turn (otherFace first) (lineTest first (s.dev.moved a b))
    have hgrid : ((lineTest first (s.dev.moved a b)).face (otherFace first)).grid = (s.dev.face (otherFace first)).grid :=
      lineTest_grid_other (otherFace_ne first) _
    have hmotion : (lineTest first (s.dev.moved a b)).base.motion = (s.dev.moved a b).base.motion := lineTest_motion _ _
    have hpos' : (lineTest first (s.dev.moved a b)).base.facePos (otherFace first) = position (otherFace first) := by
      rw [← hpos]
      unfold Base.facePos
      rw [hmotion]
    rw [hcount, hturn _ _ _ _ rfl]
    rw [hpos', hgrid, hmotion, issuedLine_eq] at hdue
    rw [hpos', hgrid, hmotion] at hrest
    exact ⟨hother, hdue, hrest⟩
  case locked =>
    show (encoderCount a b s.dev).base.sens.locked = _
    rw [hcount, lineTest_locked, lineTest_locked]
    rfl

/-- Settles O16: the two cases are the two forms of the backed part, and neither is past the reverse limit in an episode that has
not raised REWOUND. -/
theorem backwardCountMovesWebAndEntersBacking : Obligations.BackwardCountMovesWebAndEntersBacking := by
  rintro a b s m rfl hbackward hlo hhi
  have hr : inRange (s.dev.base.motion.p - s.dev.base.motion.setup.e) = true := (inRange_iff _).mpr ⟨hlo, hhi⟩
  have hcount := (encoderCount_of_backward hbackward).trans (backwardCount_of_range (d := s.dev.sample a b) hr)
  constructor
  case left =>
    intro hstay hquiet
    show Host.Outcome.next { s with dev := encoderCount a b s.dev } = _
    rw [hcount, backed_of_stay (d := s.dev.sample a b) hstay, if_neg]
    · rfl
    · rintro ⟨hstate, hrewound, hpast⟩
      rw [pastReverse_iff] at hpast
      obtain h | h | h := hquiet
      · exact h hstate
      · exact absurd (h.symm.trans hrewound) (by decide)
      · exact absurd hpast (not_lt.mpr h)
  case right =>
    intro hstate hbehind hnear
    show Host.Outcome.next { s with dev := encoderCount a b s.dev } = _
    rw [hcount, backed_of_enter (d := s.dev.sample a b) hstate hbehind, if_neg]
    · rfl
    · rintro ⟨_, _, hpast⟩
      rw [pastReverse_iff] at hpast
      exact absurd hpast (not_lt.mpr hnear)

/-- Settles O18: the end of a trigger word writes one field; a speed window expiry is R8's state and speed, and R9's report where
the state changed. -/
theorem timedMotionEventsTakeEffect : Obligations.TimedMotionEventsTakeEffect := by
  refine ⟨fun f s => ⟨_, rfl, ?trigger, rfl, ?frame⟩, ?expiry⟩
  case trigger => cases f <;> rfl
  case frame => exact Touches.onFace (Within.grid s.dev.insp f fun x => { x.grid with trigger := none })
  case expiry =>
    rintro s m m' new rfl hnew rfl
    rw [← windowState_eq] at hnew
    subst hnew
    refine congrArg (fun d => Host.Outcome.next { s with dev := d }) ?_
    by_cases h : s.dev.base.motion.state = windowState s.dev.base.motion
    case pos =>
      rw [if_pos h, speedWindow_eq, enterMotion_of_same (d := s.dev.onMotion Motion.closeWindow) h]
      refine congrArg (fun m => s.dev.onMotion fun _ => m) ?_
      rw [← h, Motion.closeWindow, ← h]
    case neg =>
      rw [if_neg h, speedWindow_eq]
      exact enterMotion_of_change h

end

section
/-! R87, R88, R90 to R92, R94, R95: one closed blob, step by step: it is counted, its excerpt is decided, its record is disposed of. -/

namespace Sys2Proof.Machine

open Sys2Proof

/-! ### The record -/

theorem lineCount_pred (x : Blob) : x.lineCount - 1 = (x.last - x.first).toNat := Nat.add_sub_cancel _ 1

theorem middle_eq (x : Blob) : x.middle = (x.last - x.first).toNat / 2 := by rw [Blob.middle, lineCount_pred]

theorem mdCentre_eq (x : Blob) : x.mdCentre =
    (x.lastPos - (((x.last - x.first).toNat - (x.last - x.first).toNat / 2) * x.pitch : Nat)) / 10240 := by
  unfold Blob.mdCentre toUnits
  rw [lineCount_pred, middle_eq]
  push_cast
  rfl

theorem spanCentre_eq (g : Geometry) (a b : Nat) :
    spanCentre g a b = (200 * g.origin + g.sign * (a + b : Nat) * g.pitch + 100) / 200 := by
  unfold spanCentre
  push_cast
  rfl

/-! ### The blob counted and its event sent -/

/-- R91: the part once a closed blob is counted and its counted event, where it has one, is sent. -/
def countClosed (f : FaceId) (o : ClassOutcome) (reason : TruncReason) (line : Option (Word × Int)) (x : Blob) (i : Insp) : Insp :=
  let i := i.onFace f fun y => { y with blob := { y.blob with closed := count32 y.blob.closed } }
  if countsBlob o x reason then
    sendEvent f .blobBuilder { lane := x.peakLane, pos := line.map (·.2), index := line.map (·.1) } i
  else i

variable {f : FaceId} {o : ClassOutcome} {reason : TruncReason} {line : Option (Word × Int)} {x : Blob} {i : Insp}

@[simp] theorem countClosed_out : (countClosed f o reason line x i).out = i.out := by
  unfold countClosed
  dsimp only
  split_ifs <;> simp [sendEvent]

@[simp] theorem countClosed_corr : (countClosed f o reason line x i).corr = i.corr := by
  unfold countClosed
  dsimp only
  split_ifs <;> simp [sendEvent]

@[simp] theorem countClosed_blob : ((countClosed f o reason line x i).face f).blob =
    { (i.face f).blob with closed := count32 (i.face f).blob.closed } := by
  unfold countClosed
  dsimp only
  split_ifs <;> simp [sendEvent]

theorem countsBlob_iff (o : ClassOutcome) (x : Blob) (reason : TruncReason) :
    countsBlob o x reason = true ↔ o.counts = true ∧ x.peakGuard = false ∧ reason ≠ .changeover := by
  simp [countsBlob, and_assoc]

theorem countClosed_tier : ((countClosed f o reason line x i).face f).tier = { (i.face f).tier with
    blobEvents := (i.face f).tier.blobEvents ++
      if o.counts = true ∧ x.peakGuard = false ∧ reason ≠ .changeover then
        [{ lane := x.peakLane, pos := line.map fun e => e.2, index := line.map fun e => e.1 }] else [] } := by
  unfold countClosed
  dsimp only
  simp only [← countsBlob_iff]
  split_ifs
  · simp [sendEvent, Tier.setEvents, Tier.events]
  · simp

/-- A closed blob is counted, its excerpt decided, its record disposed of. -/
theorem sendBlob_eq (b : Base) {c : Contents} {g : Geometry} {r : Defect} {k : Nat} (hc : c = b.banks.contents f)
    (hg : g = (i.face f).asm.geometry)
    (ho : o = classify c (decide (reason = .length)) x.polarity x.count (spanWidth g x.colMin x.colMax)
      (lineLength x.lineCount x.pitch))
    (hr : r = defectOf f g (i.lost f) k x reason o.code) :
    sendBlob b f reason line i (k, x) =
      dispose b f o (excerptAtClose f x o r (countClosed f o reason line x i)).1
        (excerptAtClose f x o r (countClosed f o reason line x i)).2 := by
  subst hr ho hc hg
  rfl

/-! ### The disposition (R92) -/

@[simp] theorem dispose_face (b : Base) (r : Defect) (g : FaceId) : (dispose b f o r i).face g = i.face g := by
  unfold dispose
  dsimp only
  split_ifs
  · cases f <;> simp
  · simp

/-- R92: the correlator once a candidate of a face waits at it. -/
def Corr.hand (c : Corr) (f : FaceId) (y : Candidate) : Corr :=
  match f with
  | .lead => { c with leadWork := c.leadWork ++ [y] }
  | .trail => { c with trailWork := c.trailWork ++ [.candidate y] }

theorem dispose_correlating (b : Base) (r : Defect) (h : o.correlate = true) : (dispose b f o r i).out = i.out ∧
    (dispose b f o r i).corr = i.corr.hand f {
      record := r, bank := b.banks.activeOn f, level := o.level, slot := o.slot,
      leadOnlyLevel := (b.banks.contents f).policy.leadOnly } := by
  unfold dispose
  rw [if_pos h]
  cases f <;> exact ⟨rfl, rfl⟩

theorem dispose_reported (b : Base) (r : Defect) (h : o.correlate = false) :
    (dispose b f o r i).out = i.out.route o.level o.slot (.defect r) ∧ (dispose b f o r i).corr = i.corr := by
  unfold dispose
  rw [if_neg (by rw [h]; decide)]
  exact ⟨rfl, rfl⟩

/-! ### The window (R95) -/

/-- R95: the lines of the window end 15 past the centre line, or at the newest line. -/
theorem windowLast_eq (ring : List RingEntry) (centre : Word) : windowLast ring centre = match ring with
    | [] => centre + 15
    | e :: _ => if (e.index - centre).toNat < 15 then e.index else centre + 15 := by
  cases ring <;> rfl

/-- R95: the buffer `u` is the window of a blob, cut from a ring. -/
def IsWindow (f : FaceId) (ring : List RingEntry) (x : Blob) (u : Buffer) : Prop :=
  ∃ (cell : Nat → Option Nat) (centre : Word), u.face = f ∧
    centre = x.first + BitVec.ofNat 32 ((x.last - x.first).toNat / 2) ∧
    u.firstLine = (match ring with
      | [] => centre + 15
      | e :: _ => if (e.index - centre).toNat < 15 then e.index else centre + 15) - 31 ∧
    u.firstCol = ((x.colMin + x.colMax) / 2 : Nat) - 16 ∧
    (∀ q, cell q = if u.firstCol + (q % 32 : Nat) < 0 then none
      else match ring.find? (fun e => decide (e.index = u.firstLine + BitVec.ofNat 32 (q / 32))) with
        | some e => (e.values.find? fun v => decide ((v.1 : Int) = u.firstCol + (q % 32 : Nat))).map (·.2)
        | none => none) ∧
    u.cells = (List.range 1024).map (fun q => (cell q).getD 0) ∧ u.cells.length = 1024 ∧
    (u.partly = true ↔ ∃ q < 1024, cell q = none)

/-- R95: cell `q` of the window cut for a blob. -/
def windowCell (f : FaceId) (ring : List RingEntry) (x : Blob) (q : Nat) : Option Nat :=
  ringCell ring ((cutWindow f ring x).firstLine + BitVec.ofNat 32 (q / 32)) ((cutWindow f ring x).firstCol + (q % 32 : Nat))

theorem cutWindow_cells (f : FaceId) (ring : List RingEntry) (x : Blob) : (cutWindow f ring x).cells =
    (List.range 1024).map fun q => (windowCell f ring x q).getD 0 := by
  unfold windowCell cutWindow
  simp only [List.map_map, Function.comp_def]

theorem cutWindow_partly (f : FaceId) (ring : List RingEntry) (x : Blob) : (cutWindow f ring x).partly =
    ((List.range 1024).map (windowCell f ring x)).any (·.isNone) := by
  unfold windowCell cutWindow
  simp only

theorem isWindow_cutWindow (f : FaceId) (ring : List RingEntry) (x : Blob) : IsWindow f ring x (cutWindow f ring x) := by
  have hlines := windowLast_eq ring (x.first + BitVec.ofNat 32 x.middle)
  rw [middle_eq] at hlines
  refine ⟨windowCell f ring x, _, rfl, rfl, ?lines, rfl, fun q => rfl, cutWindow_cells f ring x, ?length, ?partly⟩
  case lines =>
    rw [← hlines, ← middle_eq]
    rfl
  case length => rw [cutWindow_cells, List.length_map, List.length_range]
  case partly => simp [cutWindow_partly, List.any_eq_true]

/-! ### The excerpt (R94, R96) -/

theorem excerptAtClose_unflagged (r : Defect) (h : o.excerpt = false) : excerptAtClose f x o r i = (r, i) := by
  unfold excerptAtClose
  exact if_neg (by rw [h]; decide)

theorem excerptAtClose_stop {r : Defect} (h : o.excerpt = true) (hr : r.trunc = .stop) :
    excerptAtClose f x o r i = ({ r with excerpt := .withdrawn }, i) := by
  unfold excerptAtClose
  rw [if_pos h, if_pos hr]

theorem excerptAtClose_unreported {r : Defect} (h : o.excerpt = true) (hr : r.trunc ≠ .stop) (hc : o.correlate = false)
    (hl : o.level = .off) : excerptAtClose f x o r i = (r, i) := by
  unfold excerptAtClose
  rw [if_pos h, if_neg hr, if_neg (by simp [hc, hl])]

theorem excerptAtClose_captured {r : Defect} (h : o.excerpt = true) (hr : r.trunc ≠ .stop)
    (hc : o.correlate = true ∨ o.level ≠ .off) : excerptAtClose f x o r i = capture f x r i := by
  unfold excerptAtClose
  rw [if_pos h, if_neg hr, if_pos (by simpa using hc)]

theorem capture_free {k : Nat} (r : Defect) (h : lowestFree Config.maxBuffers i.out.buffers = some k) : capture f x r i =
    ({ r with excerpt := if (cutWindow f (i.face f).blob.ring x).partly then .partly k else .captured k },
      { i with out := { i.out with buffers := tset none i.out.buffers k (some (cutWindow f (i.face f).blob.ring x)) } }) := by
  unfold capture
  rw [h]

theorem capture_full (r : Defect) (h : lowestFree Config.maxBuffers i.out.buffers = none) : capture f x r i =
    ({ r with excerpt := .skipped },
      i.onFace f fun y => { y with blob := { y.blob with skipped := count32 y.blob.skipped } }) := by
  unfold capture
  rw [h]

/-- R94: an excerpt changes its face's blob side in the count of skipped ones alone. -/
theorem excerptAtClose_blob (r : Defect) : ∃ n, ((excerptAtClose f x o r i).2.face f).blob =
    { (i.face f).blob with skipped := n } := by
  unfold excerptAtClose
  split_ifs
  · exact ⟨_, rfl⟩
  · unfold capture
    split
    · exact ⟨_, congrArg Face.blob (withOut_face _ _ f)⟩
    · exact ⟨_, by rw [onFace_face]⟩
  · exact ⟨_, rfl⟩
  · exact ⟨_, rfl⟩

theorem excerptAtClose_tier (r : Defect) : ((excerptAtClose f x o r i).2.face f).tier = (i.face f).tier :=
  Within.excerptAtClose (f := f) x o r i ⟨Motion.powerOn false false, Sensors.powerOn, Banks.powerOn, Exec.powerOn, 0⟩
    (.tier f) (by simp)

/-- Closing a blob changes its face's blob side in two counts alone. -/
theorem sendBlob_blob (b : Base) (e : Nat × Blob) : ∃ n, ((sendBlob b f reason line i e).face f).blob =
    { (i.face f).blob with closed := count32 (i.face f).blob.closed, skipped := n } := by
  obtain ⟨k, x⟩ := e
  rw [sendBlob_eq b rfl rfl rfl rfl, dispose_face]
  obtain ⟨n, hn⟩ := excerptAtClose_blob (f := f) (x := x) _
  exact ⟨n, hn.trans (by rw [countClosed_blob])⟩

end Sys2Proof.Machine

open Sys2Proof Sys2Proof.Machine

/-- Settles O44: the close is counted first, then the excerpt is decided by the class's flag, the reason, and whether the record
is disposed of anywhere, then the record is disposed of with it. -/
theorem closedBlobIsCountedAndDisposed : Obligations.ClosedBlobIsCountedAndDisposed := by
  rintro b f reason line i j k x g w len c o r handed window hc hg rfl hw hlen ho hr hhanded hwindow
  subst hw hlen
  have hr' : r = defectOf f g (i.lost f) k x reason o.code := by
    rw [hr, defectOf, mdCentre_eq, spanCentre_eq]
    rfl
  have htrunc : r.trunc = reason := by rw [hr]
  have hplain : { r with excerpt := .none } = r := by rw [hr]
  have hsend := sendBlob_eq (line := line) b hc hg ho hr'
  have htier : ((countClosed f o reason line x i).face f).tier = _ := countClosed_tier
  generalize hi : countClosed f o reason line x i = i' at hsend htier
  have hout : i'.out = i.out := by rw [← hi, countClosed_out]
  have hcorr : i'.corr = i.corr := by rw [← hi, countClosed_corr]
  have hblob : (i'.face f).blob = { (i.face f).blob with closed := count32 (i.face f).blob.closed } := by
    rw [← hi, countClosed_blob]
  -- what each way to decide the excerpt makes of the disposition
  have hdone : ∀ e i'', excerptAtClose f x o r i' = ({ r with excerpt := e }, i'') → i''.corr = i.corr →
      ((sendBlob b f reason line i (k, x)).face f).blob.skipped = (i''.face f).blob.skipped ∧
      (o.correlate = true → (sendBlob b f reason line i (k, x)).out = i''.out ∧
        (sendBlob b f reason line i (k, x)).corr = handed e) ∧
      (o.correlate = false →
        (sendBlob b f reason line i (k, x)).out = i''.out.route o.level o.slot (.defect { r with excerpt := e }) ∧
        (sendBlob b f reason line i (k, x)).corr = i.corr) := by
    intro e i'' hex hi''
    rw [hsend, hex]
    refine ⟨by rw [dispose_face], fun hcorrelate => ?_, fun hcorrelate => ?_⟩
    · obtain ⟨hdout, hdcorr⟩ := dispose_correlating (f := f) (i := i'') b { r with excerpt := e } hcorrelate
      refine ⟨hdout, ?_⟩
      rw [hdcorr, hi'', hhanded e _ rfl, hc]
      cases f <;> rfl
    · obtain ⟨hdout, hdcorr⟩ := dispose_reported (f := f) (i := i'') b { r with excerpt := e } hcorrelate
      exact ⟨hdout, hdcorr.trans hi''⟩
  have hunflagged (h : o.excerpt = false) := hdone .none i' ((excerptAtClose_unflagged r h).trans (by rw [hplain])) hcorr
  have hstopped (h : o.excerpt = true) (hs : reason = .stop) :=
    hdone .withdrawn i' (excerptAtClose_stop h (htrunc.trans hs)) hcorr
  have hnowhere (h : o.excerpt = true) (hs : reason ≠ .stop) (hn : o.correlate = false) (hl : o.level = .off) :=
    hdone .none i' ((excerptAtClose_unreported h (htrunc ▸ hs) hn hl).trans (by rw [hplain])) hcorr
  have hskipped : (i'.face f).blob.skipped = (i.face f).blob.skipped := by rw [hblob]
  refine ⟨?closed, ?tier, ?notSkipped, ?candidate, ?reported, ?stopCandidate, ?stopReported, ?neither, ?captured⟩
  case closed =>
    obtain ⟨n, hn⟩ := sendBlob_blob (f := f) (reason := reason) (line := line) (i := i) b (k, x)
    rw [hn]
    rfl
  case tier => rw [hsend, dispose_face, excerptAtClose_tier, htier]
  case notSkipped =>
    intro h
    by_cases he : o.excerpt = true
    · by_cases hs : reason = .stop
      · exact (hstopped he hs).1.trans hskipped
      · obtain ⟨hn, hl⟩ := (h.resolve_left (by simp [he])).resolve_left hs
        exact (hnowhere he hs hn hl).1.trans hskipped
    · exact (hunflagged (by simpa using he)).1.trans hskipped
  case candidate =>
    intro h hn
    rw [← hout]
    exact (hunflagged h).2.1 hn
  case reported =>
    intro h hn
    rw [← hout]
    exact hplain ▸ (hunflagged h).2.2 hn
  case stopCandidate =>
    intro h hs hn
    rw [← hout]
    exact (hstopped h hs).2.1 hn
  case stopReported =>
    intro h hs hn
    rw [← hout]
    exact (hstopped h hs).2.2 hn
  case neither =>
    intro h hs hn hl
    obtain ⟨hrout, hrcorr⟩ := (hnowhere h hs hn hl).2.2 hn
    refine ⟨?_, hrcorr⟩
    rw [hrout, hl, hout, hplain, hr]
    rfl
  case captured =>
    intro h hs hwanted
    have hex := excerptAtClose_captured (f := f) (x := x) (i := i') h (htrunc ▸ hs) hwanted
    refine ⟨fun m hm hfree hlow => ?free, fun hfull => ?full⟩
    case free =>
      have hlowest : lowestFree Config.maxBuffers i'.out.buffers = some m := by
        rw [hout]
        exact lowestFree_some hm hfree hlow
      refine ⟨cutWindow f (i'.face f).blob.ring x, _, _, ?_, rfl, rfl, ?_⟩
      · rw [hwindow, hblob]
        exact isWindow_cutWindow f (i.face f).blob.ring x
      · obtain ⟨hskip, hdisposed⟩ := hdone _ _ (hex.trans (capture_free r hlowest)) hcorr
        rw [withOut_face] at hskip
        rw [← hout]
        exact ⟨hskip.trans hskipped, hdisposed⟩
    case full =>
      have hnone : lowestFree Config.maxBuffers i'.out.buffers = none := by
        rw [hout]
        exact lowestFree_none hfull
      obtain ⟨hskip, hdisposed⟩ := hdone _ _ (hex.trans (capture_full r hnone)) (by rw [onFace_corr, hcorr])
      rw [onFace_face, hskipped] at hskip
      rw [onFace_out, hout] at hdisposed
      exact ⟨hskip, hdisposed⟩

end

section
/-! R10, R51, R84, R86, R113: the forced closes of a face, and what REWOUND makes of it. -/

namespace Sys2Proof.Machine

open Sys2Proof

/-! ### The order of a forced close (R84) -/

/-- Sorting by a strict order leaves no later element before an earlier one, whether or not the order decides every pair. -/
theorem orderedInsert_sorted {α : Type} {before : α → α → Bool} (htrans : ∀ a b c, before a b = true → before b c = true → before a c = true)
    (hirrefl : ∀ a, before a a = false) (x : α) {l : List α} (h : l.Pairwise fun a c => before c a = false) :
    (orderedInsert before x l).Pairwise fun a c => before c a = false := by
  have hasymm : ∀ a b, before a b = true → before b a = false := fun a b hab => by
    by_contra hba
    have haa := htrans a b a hab (by simpa using hba)
    rw [hirrefl] at haa
    cases haa
  induction l with
  | nil => exact List.pairwise_singleton _ _
  | cons y ys ih =>
    obtain ⟨hy, hys⟩ := List.pairwise_cons.mp h
    unfold orderedInsert
    split_ifs with hxy
    · refine List.pairwise_cons.mpr ⟨fun z hz => ?_, h⟩
      obtain rfl | hz := List.mem_cons.mp hz
      · exact hasymm x z hxy
      · by_contra hzx
        have hzy := htrans z x y (by simpa using hzx) hxy
        rw [hy z hz] at hzy
        cases hzy
    · refine List.pairwise_cons.mpr ⟨fun z hz => ?_, ih hys⟩
      obtain rfl | hz := List.mem_cons.mp ((orderedInsert_perm before x ys).mem_iff.mp hz)
      · simpa using hxy
      · exact hy z hz

theorem orderBy_sorted {α : Type} {before : α → α → Bool} (htrans : ∀ a b c, before a b = true → before b c = true → before a c = true)
    (hirrefl : ∀ a, before a a = false) (l : List α) : (orderBy before l).Pairwise fun a c => before c a = false :=
  foldl_keeps (p := fun acc : List α => acc.Pairwise fun a c => before c a = false)
    (fun _ x hacc => orderedInsert_sorted htrans hirrefl x hacc) l List.Pairwise.nil

theorem closesBefore_iff (n : Word) (a b : Nat × Blob) : closesBefore n a b = true ↔
    lineAge n b.2.last < lineAge n a.2.last ∨ lineAge n a.2.last = lineAge n b.2.last ∧
      (lineAge n b.2.first < lineAge n a.2.first ∨ lineAge n a.2.first = lineAge n b.2.first ∧
        (a.2.colMin < b.2.colMin ∨ a.2.colMin = b.2.colMin ∧ a.1 < b.1)) := by
  simp [closesBefore]

theorem closesBefore_trans (n : Word) (a b c : Nat × Blob) (hab : closesBefore n a b = true) (hbc : closesBefore n b c = true) :
    closesBefore n a c = true := by
  rw [closesBefore_iff] at *
  omega

theorem closesBefore_irrefl (n : Word) (a : Nat × Blob) : closesBefore n a a = false := by
  rw [← Bool.not_eq_true, closesBefore_iff]
  omega

theorem older_irrefl (a : Nat × Streak) : older a a = false := by
  rw [← Bool.not_eq_true, older_iff]
  omega

/-! ### The forced close of the blobs -/

/-- R84, R86: the line the close order is relative to. -/
theorem closeRef_eq (line : Option (Word × Int)) (last : Option Word) :
    ((line.map (·.1)).orElse fun _ => last).getD 0 = match line with
      | some e => e.1
      | none => last.getD 0 := by
  cases line <;> rfl

theorem closeAllBlobs_eq (b : Base) (f : FaceId) (reason : TruncReason) (line : Option (Word × Int)) (i : Insp) :
    closeAllBlobs b f reason line i =
      (orderBy (closesBefore (match line with
        | some e => e.1
        | none => (i.face f).blob.lastLine.getD 0)) (occupied (i.face f).blob.open_)).foldl (sendBlob b f reason line)
        (i.onFace f fun x => { x with blob := { x.blob with open_ := [] } }) := by
  unfold closeAllBlobs
  dsimp only
  rw [closeRef_eq]
  cases f <;> rfl

variable {f : FaceId}

theorem sendBlob_open (b : Base) (reason : TruncReason) (line : Option (Word × Int)) (i : Insp) (e : Nat × Blob) :
    ((sendBlob b f reason line i e).face f).blob.open_ = (i.face f).blob.open_ := by
  obtain ⟨n, hn⟩ := sendBlob_blob (f := f) (reason := reason) (line := line) (i := i) b e
  rw [hn]

/-- A forced close empties the blob table. -/
theorem closeAllBlobs_open (b : Base) (reason : TruncReason) (line : Option (Word × Int)) (i : Insp) :
    ((closeAllBlobs b f reason line i).face f).blob.open_ = [] := by
  rw [closeAllBlobs_eq]
  refine (foldl_same (π := fun i : Insp => (i.face f).blob.open_) (fun i e => sendBlob_open b reason line i e) _ _).trans ?_
  rw [onFace_face]

theorem dispose_corrList (b : Base) (o : ClassOutcome) (r : Defect) (i : Insp) :
    (dispose b f o r i).corr.list = i.corr.list := by
  by_cases h : o.correlate = true
  · rw [(dispose_correlating b r h).2]
    cases f <;> rfl
  · rw [(dispose_reported b r (by simpa using h)).2]

theorem excerptAtClose_corr (x : Blob) (o : ClassOutcome) (r : Defect) (i : Insp) :
    (excerptAtClose f x o r i).2.corr = i.corr := by
  unfold excerptAtClose
  split_ifs
  · rfl
  · unfold capture
    split
    · rfl
    · exact onFace_corr _ _ _
  · rfl
  · rfl

/-- A closed blob may wait at the correlator, but the pending list stays. -/
theorem sendBlob_corrList (b : Base) (reason : TruncReason) (line : Option (Word × Int)) (i : Insp) (e : Nat × Blob) :
    (sendBlob b f reason line i e).corr.list = i.corr.list := by
  obtain ⟨k, x⟩ := e
  rw [sendBlob_eq b rfl rfl rfl rfl, dispose_corrList, excerptAtClose_corr, countClosed_corr]

theorem closeAllBlobs_corrList (b : Base) (reason : TruncReason) (line : Option (Word × Int)) (i : Insp) :
    (closeAllBlobs b f reason line i).corr.list = i.corr.list := by
  rw [closeAllBlobs_eq]
  refine (foldl_same (π := fun i : Insp => i.corr.list) (fun i e => sendBlob_corrList b reason line i e) _ _).trans ?_
  rw [onFace_corr]

@[simp] theorem testSaturation_open (line : Option Word) (i : Insp) :
    ((testSaturation f line i).face f).blob.open_ = (i.face f).blob.open_ := by
  unfold testSaturation
  split_ifs
  · simp [offerBlobSaturation]
  · rfl

/-! ### The forced close of the streaks -/

/-- The slots that a list of closes names are freed. -/
theorem freed_eq_filter {α : Type} [DecidableEq α] (l : List (Nat × α)) (t : Table (Option α)) :
    l.foldl (fun t e => tset none t e.1 none) t = t.filter fun e => decide (e.1 ∉ l.map (·.1)) := by
  induction l generalizing t with
  | nil => simp
  | cons e l ih =>
    have hfree : tset none t e.1 none = t.filter fun x => x.1 != e.1 := if_pos rfl
    rw [List.foldl_cons, ih, hfree, List.filter_filter]
    refine List.filter_congr fun x _ => ?_
    refine Bool.eq_iff_iff.mpr ?_
    simp only [List.map_cons, List.mem_cons, Bool.and_eq_true, decide_eq_true_iff, bne_iff_ne, not_or]
    exact and_comm

theorem occupied_freed {α : Type} [DecidableEq α] {l : List (Nat × α)} {t : Table (Option α)} (h : ∀ e ∈ occupied t, e ∈ l) :
    occupied (l.foldl (fun t e => tset none t e.1 none) t) = [] := by
  rw [freed_eq_filter, List.eq_nil_iff_forall_not_mem]
  intro e he
  obtain ⟨hmem, hkey⟩ := List.mem_filter.mp ((mem_occupied_iff _ e).mp he)
  exact (of_decide_eq_true hkey) (List.mem_map_of_mem (h e ((mem_occupied_iff t e).mpr hmem)))

theorem closeStreaks_open (b : Base) (reason : StreakReason) (line : Option (Word × Int)) (l : List (Nat × Streak)) (i : Insp) :
    ((l.foldl (fun i e => closeStreak b f reason none line e.1 e.2 i) i).streaks f).open_ =
      l.foldl (fun t e => tset none t e.1 none) (i.streaks f).open_ := by
  induction l generalizing i with
  | nil => rfl
  | cons e l ih => rw [List.foldl_cons, ih, closeStreak_streaks, List.foldl_cons]

/-- A forced close leaves no open streak. -/
theorem closeAllStreaks_openCount (b : Base) (reason : StreakReason) (i : Insp) :
    ((closeAllStreaks b f reason i).streaks f).openCount = 0 := by
  unfold closeAllStreaks Streaks.openCount
  dsimp only
  rw [onStreaks_streaks]
  refine List.length_eq_zero_iff.mpr ?_
  show occupied ((List.foldl _ i _).streaks f).open_ = []
  rw [closeStreaks_open]
  exact occupied_freed fun e he => (mem_orderBy _ _ e).mpr he

/-! ### One face at REWOUND (R10, R51, R86, R113) -/

/-- R10: a face's turn at REWOUND when no record waits at its blocks. -/
def rewindTurn (b : Base) (f : FaceId) (i : Insp) : Insp :=
  let j := closeAllBlobs b f .motion (i.face f).tier.lastInspection i
  let k := (closeAllStreaks b f .motion (testSaturation f (j.face f).blob.lastLine j)).onFace f
    (fun x => { x with pixel := { x.pixel with reservation := none } })
  if (k.face f).pixel.phase = .idle then k else enterLearning b f k

theorem onFace_self {i : Insp} {g : Face → Face} (h : g (i.face f) = i.face f) : i.onFace f g = i := by
  unfold Insp.onFace
  rw [h]
  cases f <;> rfl

theorem drainBlobLines_empty (b : Base) {i : Insp} (h : (i.face f).blob.inbox = []) : drainBlobLines b f i = i := by
  unfold drainBlobLines
  rw [h]
  exact onFace_self (by rw [← h])

theorem drainStreakLines_empty (b : Base) {i : Insp} (h : (i.face f).streak.inbox = []) : drainStreakLines b f i = i := by
  unfold drainStreakLines Insp.streaks Insp.onStreaks
  rw [h]
  exact onFace_self (by rw [← h])

theorem rewindFace_of_empty {d : Dev} (hb : (d.face f).blob.inbox = []) (hs : (d.face f).streak.inbox = []) :
    rewindFace f d = { d with insp := rewindTurn d.base f d.insp } := by
  unfold rewindFace
  dsimp only
  rw [drainBlobLines_empty (i := d.insp) d.base hb, drainStreakLines_empty (i := d.insp) d.base hs]
  rfl

theorem clearSums_eq (x : Pixel) : x.clearSums = { x with cols := x.clearSums.cols, learnLines := 0 } := rfl

/-- R47: a learning phase begins; every column keeps its ref and learned flag. -/
theorem clearSums_col {x : Pixel} (h : twf PixelColumn.fresh x.cols = true) (c : Nat) :
    tget PixelColumn.fresh x.clearSums.cols c = { x.col c with sum := 0, count := 0 } := tget_tmap (fun v : PixelColumn => { v with sum := 0, count := 0 }) rfl h c

/-- The facts of a face's turn: the parts it touches, and what it leaves of them. -/
theorem rewindTurn_closed (b : Base) (i : Insp) :
    ∃ k : Insp, rewindTurn b f i = (if (k.face f).pixel.phase = .idle then k else enterLearning b f k) ∧
      (k.face f).blob.openCount = 0 ∧ (k.face f).streak.openCount = 0 ∧ (k.face f).pixel.reservation = none ∧
      (k.face f).pixel.phase = (i.face f).pixel.phase ∧ k.corr.list = i.corr.list := by
  have hblobs := Within.closeAllBlobs (b := b) (f := f) .motion (i.face f).tier.lastInspection i
  have hsat := Within.testSaturation (f := f)
    ((closeAllBlobs b f .motion (i.face f).tier.lastInspection i).face f).blob.lastLine
    (closeAllBlobs b f .motion (i.face f).tier.lastInspection i)
  have hstreaks := Within.closeAllStreaks (b := b) (f := f) .motion (testSaturation f
    ((closeAllBlobs b f .motion (i.face f).tier.lastInspection i).face f).blob.lastLine
    (closeAllBlobs b f .motion (i.face f).tier.lastInspection i))
  refine ⟨_, rfl, ?blobs, ?streaks, ?reservation, ?phase, ?list⟩
  case blobs =>
    rw [onFace_face]
    have hsame : (Insp.face (closeAllStreaks b f _ _) f).blob = _ := hstreaks b (.blob f) (by simp)
    show Blobs.openCount (Insp.face (closeAllStreaks b f _ _) f).blob = 0
    rw [hsame]
    show (occupied (Insp.face (testSaturation f _ _) f).blob.open_).length = 0
    rw [testSaturation_open, closeAllBlobs_open]
    rfl
  case streaks =>
    rw [onFace_face]
    exact closeAllStreaks_openCount b .motion _
  case reservation => rw [onFace_face]
  case phase =>
    rw [onFace_face]
    have h1 := congrArg Pixel.phase (hstreaks b (.pixel f) (by simp))
    have h2 := congrArg Pixel.phase (hsat b (.pixel f) (by simp))
    have h3 := congrArg Pixel.phase (hblobs b (.pixel f) (by simp [blobParts]))
    exact (h1.trans h2).trans h3
  case list =>
    rw [onFace_corr]
    have h1 := congrArg Corr.list (hstreaks b .corr (by simp))
    have h2 := congrArg Corr.list (hsat b .corr (by simp))
    exact (h1.trans h2).trans (closeAllBlobs_corrList b .motion _ i)

theorem rewindTurn_within (b : Base) (i : Insp) :
    Within [.pixel f, .blob f, .streak f, .tier f, .corr, .out] i (rewindTurn b f i) := by
  unfold rewindTurn
  have h : Within [.pixel f, .blob f, .streak f, .tier f, .corr, .out] i
      ((closeAllStreaks b f .motion (testSaturation f
        ((closeAllBlobs b f .motion (i.face f).tier.lastInspection i).face f).blob.lastLine
        (closeAllBlobs b f .motion (i.face f).tier.lastInspection i))).onFace f
        fun x => { x with pixel := { x.pixel with reservation := none } }) :=
    Within.after (Within.pixel _ f _) <| Within.after (Within.closeAllStreaks _ _) <|
      Within.after (Within.testSaturation _ _) <| Within.after (Within.closeAllBlobs _ _ _) <| Within.refl _ _
  exact Within.ite h (Within.after (Within.enterLearning _) h)

/-- What a face's turn makes of the face, whose Pixel Chain state was `x`. -/
structure Rewound (b : Base) (f : FaceId) (x : Pixel) (y : Face) : Prop where
  blobs : y.blob.openCount = 0
  streaks : y.streak.openCount = 0
  reservation : y.pixel.reservation = none
  phase : y.pixel.phase = if x.phase = .idle then .idle else .learning
  learning : x.phase ≠ .idle → y.pixel.learnLines = 0 ∧ y.pixel.learnLength = (b.banks.contents f).detection.learnLength

theorem rewindTurn_rewound (b : Base) (i : Insp) : Rewound b f (i.face f).pixel ((rewindTurn b f i).face f) := by
  obtain ⟨k, hturn, hblobs, hstreaks, hreservation, hphase, _⟩ := rewindTurn_closed (f := f) b i
  rw [hturn]
  by_cases h : (k.face f).pixel.phase = .idle
  · rw [if_pos h]
    exact ⟨hblobs, hstreaks, hreservation, h.trans (if_pos (hphase ▸ h)).symm, fun hn => absurd (hphase ▸ h) hn⟩
  · rw [if_neg h]
    unfold enterLearning
    rw [onFace_face]
    exact ⟨hblobs, hstreaks, hreservation, (if_neg (hphase ▸ h)).symm, fun _ => ⟨rfl, rfl⟩⟩

theorem rewindTurn_corrList (b : Base) (i : Insp) : (rewindTurn b f i).corr.list = i.corr.list := by
  obtain ⟨k, hturn, _, _, _, _, hlist⟩ := rewindTurn_closed (f := f) b i
  rw [hturn, ← hlist]
  split_ifs
  · rfl
  · exact congrArg Corr.list (onFace_corr _ _ _)

/-! ### Both faces at REWOUND -/

theorem rewindTurn_other {b : Base} {i : Insp} {g : FaceId} (h : g ≠ f) (p : Part)
    (hp : p ∈ [Part.grid g, Part.pixel g, Part.blob g, Part.streak g]) : p.same ⟨b, i⟩ ⟨b, rewindTurn b f i⟩ := by
  refine rewindTurn_within (f := f) b i b p ?_
  fin_cases hp <;> simp [h]

/-- Both turns, whichever face is first: each makes of its own face what it would make of it alone. -/
theorem rewindTurns_rewound (b : Base) (first : FaceId) (i : Insp) (g : FaceId) :
    Rewound b g (i.face g).pixel ((rewindTurn b (otherFace first) (rewindTurn b first i)).face g) := by
  by_cases h : g = first
  case pos =>
    subst h
    have hkept := fun p => rewindTurn_other (b := b) (i := rewindTurn b g i) (otherFace_ne g).symm p
    have hpixel := hkept (.pixel g) (by simp)
    have hblob := hkept (.blob g) (by simp)
    have hstreak := hkept (.streak g) (by simp)
    obtain ⟨hblobs, hstreaks, hreservation, hphase, hlearning⟩ := rewindTurn_rewound (f := g) b i
    dsimp only [Part.same, Dev.face] at hpixel hblob hstreak
    refine ⟨?_, ?_, ?_, ?_, ?_⟩
    · rwa [hblob]
    · rwa [hstreak]
    · rwa [hpixel]
    · rwa [hpixel]
    · rwa [hpixel]
  case neg =>
    have hpixel := rewindTurn_other (b := b) (i := i) h (.pixel g) (by simp)
    have hturn := rewindTurn_rewound (f := g) b (rewindTurn b first i)
    dsimp only [Part.same, Dev.face] at hpixel
    rw [hpixel] at hturn
    rwa [← eq_other_of_ne h]

theorem rewindTurns_grid (b : Base) (first : FaceId) (i : Insp) (g : FaceId) :
    ((rewindTurn b (otherFace first) (rewindTurn b first i)).face g).grid = (i.face g).grid :=
  (rewindTurn_within (f := otherFace first) b _ b (.grid g) (by simp)).trans
    (rewindTurn_within (f := first) b i b (.grid g) (by simp))

/-- No record waits at the blocks of either face. -/
def NoneWaiting (d : Dev) : Prop := ∀ f, (d.face f).blob.inbox = [] ∧ (d.face f).streak.inbox = []

theorem rewindFaces_of_empty {d : Dev} (h : NoneWaiting d) : ∃ first, d.bothFaces rewindFace =
    ⟨d.nextFree.base, rewindTurn d.nextFree.base (otherFace first) (rewindTurn d.nextFree.base first d.insp)⟩ := by
  obtain ⟨first, horder⟩ := bothFaces_order d rewindFace
  refine ⟨first, horder.trans ?_⟩
  have hfirst : rewindFace first d.nextFree = ⟨d.nextFree.base, rewindTurn d.nextFree.base first d.insp⟩ :=
    rewindFace_of_empty (d := d.nextFree) (h first).1 (h first).2
  have hblob := rewindTurn_other (b := d.nextFree.base) (i := d.insp) (otherFace_ne first) (.blob (otherFace first)) (by simp)
  have hstreak := rewindTurn_other (b := d.nextFree.base) (i := d.insp) (otherFace_ne first) (.streak (otherFace first)) (by simp)
  rw [hfirst]
  exact rewindFace_of_empty ((congrArg Blobs.inbox hblob).trans (h _).1) ((congrArg Streaks.inbox hstreak).trans (h _).2)

/-- R3, R10: the part when both faces begin their turns: P has moved back, and the episode has raised REWOUND. -/
def Dev.rewinding (d : Dev) : Dev :=
  ⟨{ d.base with motion := { d.base.motion with
      p := d.base.motion.p - d.base.motion.setup.e, state := .backing, rewound := true } },
    (if d.base.motion.state = .backing then d.insp
      else d.insp.offerStatus none
        (.motion d.base.motion.state .backing (d.base.motion.h / 10240) d.base.motion.speed)).offerStatus none
      (.rewound (d.base.motion.h / 10240) ((d.base.motion.p - d.base.motion.setup.e) / 10240))⟩

/-- An episode under way and one just entered come to the same part. -/
theorem backwardCount_of_rewind {d : Dev} (h : d.base.motion.state = .backing ∧ d.base.motion.rewound = false ∨
    d.base.motion.state ≠ .backing ∧
      1024 * d.base.motion.setup.backlash < d.base.motion.h - (d.base.motion.p - d.base.motion.setup.e))
    (hr : inRange (d.base.motion.p - d.base.motion.setup.e) = true)
    (hpast : 1024 * d.base.motion.setup.reverse < d.base.motion.h - (d.base.motion.p - d.base.motion.setup.e)) :
    backwardCount d = d.rewinding.bothFaces rewindFace := by
  rw [backwardCount_of_range hr]
  obtain ⟨hstate, hrewound⟩ | ⟨hstate, hbehind⟩ := h
  · rw [backed_of_stay (.inl hstate), if_pos ⟨hstate, hrewound, (pastReverse_iff _).mpr hpast⟩]
    unfold Dev.rewinding
    rw [if_pos hstate, ← hstate]
    rfl
  · rw [backed_of_enter hstate hbehind, if_pos ⟨rfl, rfl, (pastReverse_iff _).mpr hpast⟩]
    unfold Dev.rewinding
    rw [if_neg hstate]
    rfl

theorem exec_encoderCount {a b : Bool} {s : State} {d : Dev} (h : encoderCount a b s.dev = d) :
    exec (.encoderCount a b) s = .next { s with dev := d } := by
  subst h
  rfl

theorem rewinding_touches (d : Dev) : Touches [.motion, .out] d d.rewinding := by
  have hmotion := Touches.onMotion d fun m => { m with p := m.p - m.setup.e, state := .backing, rewound := true }
  have hreport : ∀ d : Dev, ∀ st, Touches [.motion, .out] d (d.offerStatus none st) := fun d st =>
    (Touches.offerStatus d none st).mono (by simp)
  unfold Dev.rewinding
  split_ifs
  · exact (hmotion.mono (by simp)).trans (hreport _ _)
  · exact (hmotion.mono (by simp)).trans ((hreport _ _).trans (hreport _ _))

end Sys2Proof.Machine

open Sys2Proof Sys2Proof.Machine

/-- Settles O17: REWOUND is its report, then a turn of each face; the two turns are independent of their order as far as the
faces go. -/
theorem rewoundRestartsFaces : Obligations.RewoundRestartsFaces := by
  rintro a b s m rfl hbackward hlo hhi hstate hpast hempty
  have hr : inRange (s.dev.base.motion.p - s.dev.base.motion.setup.e) = true := (inRange_iff _).mpr ⟨hlo, hhi⟩
  have hface : ∀ f, (s.dev.sample a b).rewinding.face f = s.dev.face f := fun f => by
    unfold Dev.rewinding
    cases f <;> split_ifs <;> rfl
  have hcorr : (s.dev.sample a b).rewinding.insp.corr = s.dev.insp.corr := by
    unfold Dev.rewinding
    split_ifs <;> rfl
  obtain ⟨first, hturns⟩ := rewindFaces_of_empty (d := (s.dev.sample a b).rewinding) fun f => by
    rw [hface]
    exact hempty f
  have hcount : encoderCount a b s.dev = _ := (encoderCount_of_backward hbackward).trans
    ((backwardCount_of_rewind (d := s.dev.sample a b) hstate hr hpast).trans hturns)
  refine ⟨_, exec_encoderCount hcount, rfl, ?turns, ?faces, ?list,
    ⟨rfl, ?frame⟩, ?blobs, ?streaks, ?quiet, ?learning⟩
  case turns =>
    rintro i turn rfl hturn
    have hturn' : ∀ f i, turn f i = rewindTurn (s.dev.sample a b).rewinding.nextFree.base f i := fun f i =>
      hturn f i _ _ rfl rfl
    simp only [hturn']
    cases first with
    | lead => exact .inl rfl
    | trail => exact .inr rfl
  case faces =>
    intro f
    obtain ⟨hblobs, hstreaks, hreservation, hphase, hlearning⟩ :=
      rewindTurns_rewound (s.dev.sample a b).rewinding.nextFree.base first (s.dev.sample a b).rewinding.insp f
    have hgrid := rewindTurns_grid (s.dev.sample a b).rewinding.nextFree.base first (s.dev.sample a b).rewinding.insp f
    have hpixel : ((s.dev.sample a b).rewinding.insp.face f).pixel = (s.dev.face f).pixel := congrArg Face.pixel (hface f)
    rw [hpixel] at hphase hlearning
    exact ⟨hblobs, hstreaks, hreservation, hphase, hlearning, hgrid.trans (congrArg Face.grid (hface f))⟩
  case list => exact (rewindTurn_corrList _ _).trans ((rewindTurn_corrList _ _).trans (congrArg Corr.list hcorr))
  case frame =>
    have hsample : Touches [.motion] s.dev (s.dev.sample a b) := Touches.onMotion s.dev _
    have hfaces : ∀ f d, Touches [.free, .corr, .out, .pixel .lead, .blob .lead, .streak .lead, .tier .lead, .pixel .trail,
        .blob .trail, .streak .trail, .tier .trail] d (rewindFace f d) := fun f d =>
      (Touches.rewindFace (f := f) d).mono (by cases f <;> simp)
    have hboth : Touches _ _ _ := Touches.bothFaces (d := (s.dev.sample a b).rewinding) hfaces (by simp)
    rw [hturns] at hboth
    exact (hsample.mono (by simp)).trans (((rewinding_touches _).mono (by simp)).trans (hboth.mono (by simp)))
  case blobs =>
    rintro b f reason line i n l rfl rfl
    exact ⟨orderBy_perm _ _, orderBy_sorted (closesBefore_trans _) (closesBefore_irrefl _) _, closeAllBlobs_eq b f reason line i⟩
  case streaks =>
    rintro b f reason i x l rfl rfl
    refine ⟨orderBy_perm _ _, (orderBy_sorted older_trans older_irrefl _).imp fun {x y} h => ?_, rfl⟩
    rw [← Bool.not_eq_true, older_iff] at h
    omega
  case quiet =>
    exact fun x => ⟨rfl, fun h c => tget_tmap (fun v : StreakColumn => .quiet v.acc) rfl h c⟩
  case learning =>
    rintro b f i x rfl
    exact ⟨_, rfl, clearSums_col⟩

end

section
/-! Replies of the management rows; R12 to R15, R22, R24, R25: the line setup, the geometry record, the calibration lock and
packets that are only counted. -/

namespace Sys2Proof.Machine

open Sys2Proof

/-! ### What a row answers -/

section Answers

variable {row : Instr} {c : Command} {rest : List Command} {s : State} {act : Command → Dev → Dev × Answer}

theorem runCommand_refused (h : Ready row c rest s) {r : ReplyCode}
    (hact : act c (s.dev.takeCommand rest) = refuse (s.dev.takeCommand rest) r) :
    runCommand row act s = .next (answered s c (s.dev.takeCommand rest) r []) := by
  rw [runCommand_ready h, hact, answer_refuse]

theorem runCommand_taken (h : Ready row c rest s) {d : Dev} {body : List Word}
    (hact : act c (s.dev.takeCommand rest) = taken d body) : runCommand row act s = .next (answered s c d .done body) := by
  rw [runCommand_ready h, hact, answer_taken]

theorem runCommand_clamped (h : Ready row c rest s) {d : Dev} {b : Bool}
    (hact : act c (s.dev.takeCommand rest) = takenClamped d b) :
    runCommand row act s = .next (answered s c d (if b then .clamped else .done) []) := by
  rw [runCommand_ready h, hact, answer_takenClamped]

end Answers

/-! ### GEOMETRY_WRITE (R22) -/

theorem geometryWrite_running {c : Command} {d : Dev} (h : d.base.banks.running = true) :
    geometryWrite c d = refuse d .state := if_pos h

theorem geometryWrite_locked {c : Command} {d : Dev} (h : d.base.banks.running = false) (hl : d.base.sens.locked = true) :
    geometryWrite c d = refuse d .locked := by
  unfold geometryWrite
  rw [h]
  exact if_pos hl

theorem geometryWrite_unlocked {c : Command} {d : Dev} (h : d.base.banks.running = false) (hl : d.base.sens.locked = false) :
    geometryWrite c d = match faceOf (c.nat 0), readGeometry c with
      | some f, some g => taken (d.onFace f fun x => { x with asm := { x.asm with geometry := g } }) []
      | none, _ | some _, none => refuse d .range := by
  unfold geometryWrite
  rw [h, hl]
  rfl

theorem readGeometry_out {c : Command} (h : c.int 1 < -2000000 ∨ 2000000 < c.int 1 ∨ c.nat 2 < 100 ∨ 10000 < c.nat 2 ∨ 1 < c.nat 3) :
    readGeometry c = none := by
  unfold readGeometry
  split
  · rename_i m hm
    refine if_neg ?_
    have hyes : c.nat 3 ≤ 1 := by
      by_contra habove
      rw [yesNo_above (by omega)] at hm
      cases hm
    omega
  · rfl

theorem readGeometry_within {c : Command} (hlo : -2000000 ≤ c.int 1) (hhi : c.int 1 ≤ 2000000) (h100 : 100 ≤ c.nat 2)
    (hmax : c.nat 2 ≤ 10000) (hyes : c.nat 3 ≤ 1) :
    readGeometry c = some { origin := c.int 1, pitch := c.nat 2, mirrored := decide (c.nat 3 = 1) } := by
  unfold readGeometry
  rw [yesNo_within hyes]
  exact if_pos ⟨hlo, hhi, h100, hmax⟩

/-! ### The calibration lock (R24) -/

theorem bothFaces_locked {d : Dev} {act : FaceId → Dev → Dev}
    (h : ∀ f d, (act f d).base.sens.locked = d.base.sens.locked) : (d.bothFaces act).base.sens.locked = d.base.sens.locked := by
  obtain ⟨first, horder⟩ := bothFaces_order d act
  rw [horder, h, h]
  rfl

theorem enterMotion_locked (new : MotionState) (d : Dev) : (enterMotion new d).base.sens.locked = d.base.sens.locked := by
  unfold enterMotion
  dsimp only
  split_ifs <;> rfl

theorem forwardCount_locked (d : Dev) : (forwardCount d).base.sens.locked = d.base.sens.locked := by
  unfold forwardCount
  dsimp only
  split_ifs
  · exact bothFaces_locked lineTest_locked
  · rfl
  · rfl

theorem backwardCount_locked (d : Dev) : (backwardCount d).base.sens.locked = d.base.sens.locked := by
  have hraise : ∀ d : Dev, (raiseRewound d).base.sens.locked = d.base.sens.locked := fun d => bothFaces_locked fun _ _ => rfl
  unfold backwardCount
  dsimp only
  split_ifs
  · rw [hraise, enterMotion_locked]
    rfl
  · exact enterMotion_locked _ _
  · exact hraise _
  · rfl
  · rfl

theorem encoderCount_locked (a b : Bool) (d : Dev) : (encoderCount a b d).base.sens.locked = d.base.sens.locked := by
  unfold encoderCount
  dsimp only
  split_ifs
  · rfl
  · exact forwardCount_locked _
  · exact backwardCount_locked _
  · rfl

theorem packetArrival_locked (p tag declared : Nat) (samples : List Nat) (damaged : Bool) (d : Dev) :
    (packetArrival p tag declared samples damaged d).base.sens.locked = d.base.sens.locked := by
  have hrecover : ∀ f, (recoverPort f p tag d).base.sens.locked = d.base.sens.locked := fun f => by
    unfold recoverPort
    dsimp only
    split_ifs <;> rfl
  have hmatch : ∀ f placed d, (matchPacket f p tag placed d).base.sens.locked = d.base.sens.locked := fun f placed d => by
    unfold matchPacket
    split
    · rfl
    · split_ifs
      · rfl
      · exact settleSlots_locked f _
  unfold packetArrival
  dsimp only
  split_ifs
  · rfl
  · rfl
  · rw [hmatch]
    exact hrecover _

/-- The calibration lock is set. -/
def Locked (d : Dev) : Prop := d.base.sens.locked = true

theorem Locked.of_sens {d d' : Dev} (h : Locked d) (hs : d'.base.sens = d.base.sens) : Locked d' :=
  (congrArg Sensors.locked hs).trans h

theorem Locked.runCommand {row : Instr} {act : Command → Dev → Dev × Answer} {s t : State}
    (ha : ∀ c d, Locked d → Locked (act c d).1) (h : Locked s.dev) (he : runCommand row act s = .next t) : Locked t.dev :=
  runCommand_keeps (P := Locked) (fun _ _ _ _ hd => hd) (fun _ _ _ _ _ hd => hd) ha h he

/-- A row that leaves the base as it is. -/
theorem Locked.runQuiet {row : Instr} {act : Command → Dev → Dev × Answer} {s t : State}
    (ha : ∀ c d, (act c d).1.base = d.base) (h : Locked s.dev) (he : Machine.runCommand row act s = .next t) : Locked t.dev :=
  h.runCommand (fun c d hd => hd.of_sens (congrArg Base.sens (ha c d))) he

theorem Locked.of_bank {n : Nat} {d : Dev} {k : BankId → Dev × Answer} (h : Locked d) (hk : ∀ i, Locked (k i).1) :
    Locked (withBank n d k).1 := withBank_keeps (P := Locked) h hk

theorem placementWrite_lock (c : Command) {d : Dev} (h : Locked d) : Locked (placementWrite c d).1 := by
  unfold placementWrite
  split_ifs
  · exact h
  · exact h
  · exact h
  · split
    · exact h
    · split_ifs
      · exact h
      · exact h
      · show (place _ _ d).base.sens.locked = true
        rw [place_base]
        exact h

theorem flatWrite_lock (c : Command) {d : Dev} (h : Locked d) : Locked (flatWrite c d).1 := by
  unfold flatWrite
  dsimp only
  split_ifs <;> exact h

theorem bankOpen_lock (c : Command) {d : Dev} (h : Locked d) : Locked (bankOpen c d).1 :=
  h.of_bank fun i => by
    split
    · unfold openBank
      split <;> exact h
    · exact h

theorem bankWrite_lock (c : Command) {d : Dev} (h : Locked d) : Locked (bankWrite c d).1 :=
  h.of_bank fun i => by
    split
    · exact h
    · exact h
    · exact h
    · exact h
    · exact h
    · unfold writeOpenBank
      dsimp only
      split
      · exact h
      · split_ifs
        · exact h
        · split <;> exact h

theorem bankCheck_lock (c : Command) {d : Dev} (h : Locked d) : Locked (bankCheck c d).1 :=
  h.of_bank fun i => by split_ifs <;> exact h

theorem bankSchedule_lock (c : Command) {d : Dev} (h : Locked d) : Locked (bankSchedule c d).1 :=
  h.of_bank fun i => by
    dsimp only
    split_ifs <;> exact h

theorem bankCancel_lock (c : Command) {d : Dev} (h : Locked d) : Locked (bankCancel c d).1 := by
  unfold bankCancel
  split <;> exact h

theorem startCommand_lock (c : Command) {d : Dev} (h : Locked d) : Locked (startCommand c d).1 :=
  h.of_bank fun i => by
    split_ifs
    · exact h
    · exact h.of_sens (startPart_side i d).1

theorem stopCommand_lock (c : Command) {d : Dev} (h : Locked d) : Locked (stopCommand c d).1 := by
  unfold stopCommand
  split_ifs
  · exact h.of_sens (stopPart_side d).1
  · exact h

theorem tierLimit_lock (c : Command) {d : Dev} (h : Locked d) : Locked (tierLimit c d).1 := by
  unfold tierLimit
  split
  · rename_i fs lanes _ _
    split_ifs
    · exact h
    · exact h
    · cases fs with
      | lead => exact h
      | trail => exact h
      | both =>
        exact (bothFaces_locked (d := d) (act := fun f d => { d with
          insp := limitLanes d.base f lanes (c.nat 2) (c.nat 3) d.insp }) fun _ _ => rfl).trans h
  · exact h
  · exact h

theorem lineSetup_lock (c : Command) {d : Dev} (h : Locked d) : Locked (lineSetup c d).1 := by
  unfold lineSetup
  split
  · exact h
  · split
    · exact h
    · dsimp only [takenClamped]
      split <;> exact h

theorem retainWrite_lock (c : Command) {d : Dev} (h : Locked d) : Locked (retainWrite c d).1 := by
  unfold retainWrite
  dsimp only
  split_ifs <;> exact h

theorem completeCheck_lock {d : Dev} (h : Locked d) : Locked (completeCheck d) := by
  unfold completeCheck
  split <;> exact h

theorem inboundFrame_lock (ws : List Word) {d : Dev} (h : Locked d) : Locked (inboundFrame ws d) := by
  unfold inboundFrame commandArrival
  split_ifs <;> exact h

theorem unknownCommand_lock {s t : State} (h : Locked s.dev) (he : execUnknownCommand s = .next t) : Locked t.dev := by
  unfold execUnknownCommand at he
  split at he
  · cases he; exact h
  · split_ifs at he
    · cases he; exact h
    · cases he; exact h

theorem reset_lock {s t : State} (h : Locked s.dev) (he : execReset s = .next t) : Locked t.dev := by
  unfold execReset at he
  split at he
  · cases he; exact h
  · split_ifs at he
    · cases he; exact h
    · exact h.runCommand (fun _ _ hd => hd) he

/-- R24: no command but a power-on or pin reset clears the calibration lock. -/
theorem exec_lock {i : Instr} {s t : State} (h : Locked s.dev) (he : exec i s = .next t)
    (hreset : ∀ a b, i ≠ .powerOnReset a b ∧ i ≠ .pinReset a b) : Locked t.dev := by
  cases i with
  | encoderCount a b => cases he; exact (encoderCount_locked a b _).trans h
  | triggerWordEnd f => cases he; exact h
  | speedWindowExpiry => cases he; exact (enterMotion_locked _ _).trans h
  | scanPacket p tag n l x =>
    change execScanPacket p tag n l x s = .next t at he
    unfold execScanPacket at he
    split_ifs at he
    cases he
    exact (packetArrival_locked p tag n l x _).trans h
  | pixelChainLine f => cases he; exact h.of_sens (takePixelLine_side f _).1
  | blobBuilderLine f => cases he; exact h
  | streakTrackerLine f => cases he; exact h
  | previewLine f => cases he; exact h
  | leadCandidate => cases he; exact h
  | trailCandidate => cases he; exact h
  | countedEvent f src => cases he; exact h
  | patchMark =>
    change execPatchMark s = .next t at he
    unfold execPatchMark at he
    split_ifs at he
    · cases he; exact h
    · cases he; exact h
  | checkCompletion => cases he; exact completeCheck_lock h
  | transmitCompletion => cases he; exact h
  | linkUp => cases he; exact h
  | linkDown r => cases he; exact h
  | inboundFrame ws => cases he; exact inboundFrame_lock ws h
  | unknownCommand => exact unknownCommand_lock h he
  | lineSetup => exact h.runCommand (fun c _ hd => lineSetup_lock c hd) he
  | placementWrite => exact h.runCommand (fun c _ hd => placementWrite_lock c hd) he
  | geometryWrite => exact h.runQuiet geometryWrite_base he
  | flatWrite => exact h.runCommand (fun c _ hd => flatWrite_lock c hd) he
  | setCalibrationLock => exact h.runCommand (act := setLock) (fun _ _ _ => rfl) he
  | previewSet => exact h.runQuiet previewSet_base he
  | bankOpen => exact h.runCommand (fun c _ hd => bankOpen_lock c hd) he
  | bankWrite => exact h.runCommand (fun c _ hd => bankWrite_lock c hd) he
  | bankCheck => exact h.runCommand (fun c _ hd => bankCheck_lock c hd) he
  | bankSchedule => exact h.runCommand (fun c _ hd => bankSchedule_lock c hd) he
  | bankCancel => exact h.runCommand (fun c _ hd => bankCancel_lock c hd) he
  | start => exact h.runCommand (fun c _ hd => startCommand_lock c hd) he
  | stop => exact h.runCommand (fun c _ hd => stopCommand_lock c hd) he
  | baselineLearn => exact h.runQuiet baselineLearn_base he
  | baselineRead => exact h.runQuiet baselineRead_base he
  | baselineReserve => exact h.runQuiet baselineReserve_base he
  | baselinePut => exact h.runQuiet baselinePut_base he
  | tierLimit => exact h.runCommand (fun c _ hd => tierLimit_lock c hd) he
  | queryStatus => exact h.runQuiet queryStatus_base he
  | queryCounters => exact h.runCommand (fun _ _ hd => hd) he
  | queryLanes => exact h.runQuiet (fun _ _ => withFace_base fun _ => rfl) he
  | queryStreaks => exact h.runQuiet (fun _ _ => withFace_base fun _ => rfl) he
  | queryPending => exact h.runCommand (fun _ _ hd => hd) he
  | queryRetained => exact h.runCommand (fun _ _ hd => hd) he
  | clearCounters => exact h.runCommand (fun _ _ hd => hd) he
  | retainWrite => exact h.runCommand (fun c _ hd => retainWrite_lock c hd) he
  | reset => exact reset_lock h he
  | powerOnReset a b => exact absurd rfl (hreset a b).1
  | pinReset a b => exact absurd rfl (hreset a b).2

/-! ### LINE_SETUP (R12 to R15) -/

theorem isChecking_false_iff (b : Banks) :
    b.isChecking = false ↔ b.bank0.state ≠ .checking ∧ b.bank1.state ≠ .checking := by
  simp [Banks.isChecking]

theorem lineSetup_refused {c : Command} {d : Dev}
    (h : d.base.banks.running = true ∨ d.base.banks.bank0.state = .checking ∨ d.base.banks.bank1.state = .checking) :
    lineSetup c d = refuse d .state := by
  refine if_pos ?_
  simpa [Banks.isChecking] using h

/-- R12: what is left once the STATE tests pass. -/
theorem lineSetup_open {c : Command} {d : Dev} (hrun : d.base.banks.running = false) (h0 : d.base.banks.bank0.state ≠ .checking)
    (h1 : d.base.banks.bank1.state ≠ .checking) :
    lineSetup c d = match d.base.motion.setup.write (c.nat 0) (c.nat 1) with
      | none => refuse d .range
      | some s => takenClamped (if c.nat 0 ≤ 2 then rebase (d.onMotion fun m => { m with setup := s })
            else d.onMotion fun m => { m with setup := s })
          (decide (c.nat 0 = 1) && decide (clampNat 1 4096 (c.nat 1) ≠ c.nat 1)) := by
  refine if_neg ?_
  rw [hrun, Bool.false_or, (isChecking_false_iff _).mpr ⟨h0, h1⟩]
  decide

section LineSetup

variable {c : Command} {rest : List Command} {s : State} (h : Ready .lineSetup c rest s)
  (hrun : s.dev.base.banks.running = false) (h0 : s.dev.base.banks.bank0.state ≠ .checking)
  (h1 : s.dev.base.banks.bank1.state ≠ .checking)
include h hrun h0 h1

theorem lineSetup_none (hw : s.dev.base.motion.setup.write (c.nat 0) (c.nat 1) = none) :
    exec .lineSetup s = .next (answered s c (s.dev.takeCommand rest) .range []) := by
  refine runCommand_refused h ((lineSetup_open (d := s.dev.takeCommand rest) hrun h0 h1).trans ?_)
  show (match s.dev.base.motion.setup.write (c.nat 0) (c.nat 1) with | none => _ | some _ => _) = _
  rw [hw]

/-- R12: an item that does not touch the grid. -/
theorem lineSetup_stored {l : LineSetup} (hw : s.dev.base.motion.setup.write (c.nat 0) (c.nat 1) = some l) (h2 : 2 < c.nat 0) :
    exec .lineSetup s =
      .next (answered s c ((s.dev.takeCommand rest).onMotion fun m => { m with setup := l }) .done []) := by
  refine runCommand_taken h ((lineSetup_open (d := s.dev.takeCommand rest) hrun h0 h1).trans ?_)
  show (match s.dev.base.motion.setup.write (c.nat 0) (c.nat 1) with | none => _ | some _ => _) = _
  rw [hw]
  have hitem : c.nat 0 ≠ 1 := by omega
  simp only [if_neg (not_le.mpr h2), hitem, decide_false, Bool.false_and]
  rfl

/-- R12, R15: an item of the grid. -/
theorem lineSetup_rebased {l : LineSetup} (hw : s.dev.base.motion.setup.write (c.nat 0) (c.nat 1) = some l) (h2 : c.nat 0 ≤ 2) :
    exec .lineSetup s = .next (answered s c (rebase ((s.dev.takeCommand rest).onMotion fun m => { m with setup := l }))
      (if decide (c.nat 0 = 1) && decide (clampNat 1 4096 (c.nat 1) ≠ c.nat 1) then .clamped else .done) []) := by
  refine runCommand_clamped h ((lineSetup_open (d := s.dev.takeCommand rest) hrun h0 h1).trans ?_)
  show (match s.dev.base.motion.setup.write (c.nat 0) (c.nat 1) with | none => _ | some _ => _) = _
  rw [hw]
  simp only [if_pos h2]

/-- R12: an item that does not touch the grid, and its range test. -/
theorem lineSetup_tested {l : LineSetup} {p : Prop} [Decidable p]
    (hw : s.dev.base.motion.setup.write (c.nat 0) (c.nat 1) = if p then some l else none) (h2 : 2 < c.nat 0) :
    exec .lineSetup s = .next (if p then
      answered s c ((s.dev.takeCommand rest).onMotion fun m => { m with setup := l }) .done []
      else answered s c (s.dev.takeCommand rest) .range []) := by
  by_cases hp : p
  · rw [if_pos hp] at hw
    rw [if_pos hp]
    exact lineSetup_stored h hrun h0 h1 hw h2
  · rw [if_neg hp] at hw
    rw [if_neg hp]
    exact lineSetup_none h hrun h0 h1 hw

end LineSetup

/-! ### The re-base (R15) -/

/-- Rounding up to a multiple. -/
theorem ceil_spec {k : Int} (hk : 0 < k) (x : Int) : x ≤ k * -(-x / k) ∧ ∀ y, k ∣ y → x ≤ y → k * -(-x / k) ≤ y := by
  have hle := Int.mul_ediv_self_le (x := -x) (k := k) hk.ne'
  refine ⟨by linarith, ?_⟩
  rintro _ ⟨q, rfl⟩ hx
  refine mul_le_mul_of_nonneg_left ?_ hk.le
  have hq : -q ≤ -x / k := (Int.le_ediv_iff_mul_le hk).mpr (by linarith [mul_comm k q])
  linarith

/-- The smallest multiple above a value. -/
theorem above_spec {k : Int} (hk : 0 < k) (x : Int) : x < k * (x / k + 1) ∧ ∀ y, k ∣ y → x < y → k * (x / k + 1) ≤ y := by
  refine ⟨by linarith [Int.lt_mul_ediv_self_add (x := x) hk], ?_⟩
  rintro _ ⟨q, rfl⟩ hx
  refine mul_le_mul_of_nonneg_left ?_ hk.le
  have hq : x / k < q := (Int.ediv_lt_iff_lt_mul hk).mpr (by linarith [mul_comm k q])
  linarith

theorem rebased_zero (pos : Int) (last : Option Int) : rebased 0 pos last = 0 := by
  unfold rebased
  split <;> simp

/-- R15: the smallest multiple of the pitch at or above the position and 0, and above the last line. -/
theorem rebased_spec {k : Nat} (hk : 0 < k) (pos : Int) (last : Option Int) :
    (k : Int) ∣ rebased k pos last ∧ 0 ≤ rebased k pos last ∧ pos ≤ rebased k pos last ∧
      (∀ p ∈ last, p < rebased k pos last) ∧
      ∀ x : Int, (k : Int) ∣ x → 0 ≤ x → pos ≤ x → (∀ p ∈ last, p < x) → rebased k pos last ≤ x := by
  have hk' : (0 : Int) < k := by exact_mod_cast hk
  obtain ⟨hup, hupLeast⟩ := ceil_spec hk' (max pos 0)
  cases last with
  | none =>
    have hbound := max_le_iff.mp hup
    exact ⟨Dvd.intro _ rfl, hbound.2, hbound.1, fun p hp => (Option.not_mem_none p hp).elim,
      fun x hx hzero hpos _ => hupLeast x hx (max_le hpos hzero)⟩
  | some l =>
    obtain ⟨habove, haboveLeast⟩ := above_spec hk' l
    have hmax : rebased k pos (some l) = max ((k : Int) * -(-(max pos 0) / k)) (k * (l / k + 1)) :=
      mul_max_of_nonneg _ _ hk'.le
    have hbound := max_le_iff.mp (hup.trans (le_max_left _ ((k : Int) * (l / k + 1))))
    refine ⟨Dvd.intro _ rfl, ?_, ?_, ?_, ?_⟩
    · rw [hmax]
      exact hbound.2
    · rw [hmax]
      exact hbound.1
    · rintro p ⟨⟩
      rw [hmax]
      exact habove.trans_le (le_max_right _ _)
    · intro x hx hzero hpos hlast
      rw [hmax]
      exact max_le (hupLeast x hx (max_le hpos hzero)) (haboveLeast x hx (hlast l rfl))

theorem rebase_grid (d : Dev) (f : FaceId) : ((rebase d).face f).grid = { (d.face f).grid with
    next := rebased d.base.motion.setup.pitch (d.base.facePos f) (d.face f).grid.last } := by
  cases f <;> rfl

theorem takeCommand_touches (d : Dev) (rest : List Command) : Touches [.exec] d (d.takeCommand rest) := fun q hq => by
  cases q with
  | exec => exact absurd (by decide) hq
  | motion | sens | banks | free | marks | corr | out => rfl
  | grid f | asm f | pixel f | pattern f | blob f | streak f | tier f | preview f => cases f <;> rfl

theorem rebase_base (d : Dev) : (rebase d).base = d.base := rfl

theorem rebase_touches (d : Dev) : Touches [.grid .lead, .grid .trail] d (rebase d) := by
  refine Touches.after (l' := [.grid .trail]) (Touches.onFace (Within.grid _ .trail _)) ?_
  exact Touches.after (l' := [.grid .lead]) (Touches.onFace (Within.grid _ .lead _)) (Touches.refl _ _)

theorem pitchOk_iff (l : LineSetup) : pitchOk l = true ↔ l.e = 0 ∨ 1024 ≤ l.n * l.e ∧ l.n * l.e ≤ 2048000 := by
  unfold pitchOk
  rw [Bool.or_eq_true, Bool.and_eq_true, decide_eq_true_iff, decide_eq_true_iff, decide_eq_true_iff]
  rfl

end Sys2Proof.Machine

open Sys2Proof Sys2Proof.Machine

/-- Settles O22: the tests in order, and an accepted record is read from the frame. -/
theorem geometryWriteStoresRecord : Obligations.GeometryWriteStoresRecord := by
  rintro c rest s d h rfl
  refine ⟨fun hrun => runCommand_refused h (geometryWrite_running hrun),
    fun hrun hlock => runCommand_refused h (geometryWrite_locked hrun hlock), fun hrun hlock => ⟨fun hout => ?_, ?_⟩⟩
  · refine runCommand_refused h ((geometryWrite_unlocked (d := s.dev.takeCommand rest) hrun hlock).trans ?_)
    obtain hface | hout := hout
    · rw [faceOf_above hface]
    · rw [readGeometry_out hout]
      cases faceOf (c.nat 0) <;> rfl
  · intro f hf hlo hhi h100 hmax hyes
    refine runCommand_taken h ((geometryWrite_unlocked (d := s.dev.takeCommand rest) hrun hlock).trans ?_)
    rw [readGeometry_within hlo hhi h100 hmax hyes, hf]
    cases f <;> rfl

/-- Settles O24: the row sets the lock, and the walk through the commands keeps it. -/
theorem calibrationLockIsSetAndStays : Obligations.CalibrationLockIsSetAndStays :=
  ⟨fun _ _ _ h => runCommand_taken h rfl, fun _ _ _ h he hreset => exec_lock h he hreset⟩

/-- Settles O25: the two tests before the packet is taken. -/
theorem discardedPacketIsOnlyCounted : Obligations.DiscardedPacketIsOnlyCounted := by
  rintro p tag declared samples damaged s x hp htag hsamples rfl
  have hexec : exec (.scanPacket p tag declared samples damaged) s =
      .next { s with dev := packetArrival p tag declared samples damaged s.dev } :=
    if_pos (Iff.mpr (Laws.Delivery.scanPacket p tag declared samples damaged)
      ⟨Nat.lt_succ_of_le hp, Nat.lt_succ_of_le htag, fun v hv => Nat.lt_succ_of_le (hsamples v hv)⟩)
  refine ⟨fun hoff => ?_, fun hon hbad => ?_⟩
  · rw [hexec]
    unfold packetArrival
    dsimp only
    rw [if_pos hoff]
    rfl
  · rw [hexec]
    unfold packetArrival
    dsimp only
    rw [if_neg (by rw [hon]; decide), if_pos]
    · rfl
    · simp only [Bool.or_eq_true, decide_eq_true_iff, or_assoc]
      exact hbad

/-- Settles O19: each item is one branch of the write, and its range test decides the answer. -/
theorem lineSetupStoresItem : Obligations.LineSetupStoresItem := by
  rintro c rest s l d h rfl rfl
  refine ⟨fun hstate => runCommand_refused h (lineSetup_refused (d := s.dev.takeCommand rest) hstate), fun hrun h0 h1 =>
    ⟨fun hitem => ?unknown, fun hitem hrange => ?e, fun hitem hrange => ?d, fun hitem => ?die, fun hitem => ?vmin,
      fun hitem => ?backlash, fun hitem => ?reverse, fun hitem => ?window⟩⟩
  case unknown =>
    refine lineSetup_none h hrun h0 h1 ?_
    obtain ⟨n, hn⟩ := Nat.exists_eq_add_of_lt hitem
    rw [hn, show 7 + n + 1 = n + 8 from by omega]
    rfl
  case e =>
    refine lineSetup_none h hrun h0 h1 ?_
    rw [hitem]
    exact if_neg (by omega)
  case d =>
    refine lineSetup_none h hrun h0 h1 ?_
    rw [hitem]
    exact if_neg (by omega)
  all_goals
    refine lineSetup_tested h hrun h0 h1 ?_ (by omega)
    rw [hitem]
    rfl

/-- Settles O20: the pitch test is the model's, and the next boundary is the least multiple above. -/
theorem gridWriteRebasesFaces : Obligations.GridWriteRebasesFaces := by
  rintro c rest s l l' v n h rfl rfl rfl hrun h0 h1 hitem
  have hclamp : clampNat 1 4096 (c.nat 1) = max 1 (min (c.nat 1) 4096) := rfl
  have hwrite : s.dev.base.motion.setup.write (c.nat 0) (c.nat 1) =
      if c.nat 0 = 2 ∨ pitchOk l' = true then some l' else none := by
    obtain ⟨hi, rfl, hlo, hhi⟩ | ⟨hi, rfl⟩ | ⟨hi, rfl, hhi⟩ := hitem
    · rw [hi]
      simp [LineSetup.write, hlo, hhi]
    · rw [hi]
      simp [LineSetup.write, hclamp]
    · rw [hi]
      simp [LineSetup.write, hhi]
  constructor
  case left =>
    intro hi he hpitch
    refine lineSetup_none h hrun h0 h1 (hwrite.trans (if_neg ?_))
    rw [pitchOk_iff]
    omega
  case right =>
    intro hpitch
    have hok : c.nat 0 = 2 ∨ pitchOk l' = true := by
      rw [pitchOk_iff]
      exact hpitch
    have hitem2 : c.nat 0 ≤ 2 := by omega
    have hcode : (if decide (c.nat 0 = 1) && decide (clampNat 1 4096 (c.nat 1) ≠ c.nat 1) then ReplyCode.clamped else .done) =
        if c.nat 0 = 1 ∧ max 1 (min (c.nat 1) 4096) ≠ c.nat 1 then .clamped else .done := by
      simp only [hclamp, Bool.and_eq_true, decide_eq_true_iff]
    refine ⟨rebase ((s.dev.takeCommand rest).onMotion fun m => { m with setup := l' }), ?exec, rfl, ?frame, rfl,
      fun f => ⟨?form, fun hzero => ?zero, fun hpos => ?least⟩⟩
    case exec =>
      rw [lineSetup_rebased h hrun h0 h1 (hwrite.trans (if_pos hok)) hitem2, hcode]
    case frame =>
      have htaken : Touches [.motion, .exec] s.dev ((s.dev.takeCommand rest).onMotion fun m => { m with setup := l' }) :=
        ((takeCommand_touches s.dev rest).mono (by simp)).trans ((Touches.onMotion _ _).mono (by simp))
      exact (htaken.mono (by simp)).trans ((rebase_touches _).mono (by simp))
    case form => exact ⟨_, rebase_grid _ f⟩
    case zero =>
      rw [rebase_grid]
      show rebased (l'.n * l'.e) _ _ = 0
      rw [hzero, rebased_zero]
    case least =>
      rw [rebase_grid]
      exact rebased_spec hpos _ _

end

section
/-! R144, R145, R147, R152: opening, checking and scheduling a bank. -/

namespace Sys2Proof.Machine

open Sys2Proof

/-! ### The named bank -/

theorem withBank_above {n : Nat} (h : 1 < n) (d : Dev) (k : BankId → Dev × Answer) : withBank n d k = refuse d .range := by
  unfold withBank
  rw [bankOf_above h]

theorem withBank_code (i : BankId) (d : Dev) (k : BankId → Dev × Answer) : withBank (bankCode i) d k = k i := by
  unfold withBank
  rw [bankOf_code]

theorem bankCode_le (i : BankId) : bankCode i ≤ 1 := by cases i <;> decide

/-! ### BANK_OPEN (R145) -/

theorem openBank_checking {i : BankId} {d : Dev} (h : (d.base.banks.bank i).state = .checking) (copy : Bool) :
    openBank i copy d = refuse d .busy := by
  unfold openBank
  rw [h]

theorem openBank_held {i : BankId} {d : Dev} (h : (d.base.banks.bank i).state = .opened ∨
    (d.base.banks.bank i).state = .scheduled ∨ ∃ fs, (d.base.banks.bank i).state = .active fs) (copy : Bool) :
    openBank i copy d = refuse d .state := by
  unfold openBank
  obtain h | h | ⟨fs, h⟩ := h
  · rw [h]
  · rw [h]
  · rw [h]

theorem openBank_free {i : BankId} {d : Dev} (h : (d.base.banks.bank i).state = .vacant ∨
    (d.base.banks.bank i).state = .checked) (copy : Bool) :
    openBank i copy d = taken (d.onBanks fun b => b.setBank i {
      state := .opened, contents := if copy then (d.base.banks.bank i.other).contents else Contents.empty, compiled := none }) [] := by
  unfold openBank
  obtain h | h := h
  · rw [h]
  · rw [h]

/-! ### BANK_CHECK (R147) -/

theorem isChecking_iff (b : Banks) : b.isChecking = true ↔ ∃ i, (b.bank i).state = .checking := by
  rw [← not_iff_not, not_exists, Bool.not_eq_true, isChecking_false_iff]
  exact ⟨fun h i => by cases i with | bank0 => exact h.1 | bank1 => exact h.2, fun h => ⟨h .bank0, h .bank1⟩⟩

/-! ### The switch position (R152) -/

/-- R152: a position congruent to the operand, and the only one within reach. -/
theorem extendPosition_eq {s : Word} {p y : Int} (hdvd : (2 ^ 32 : Int) ∣ y - s.toNat) (hlo : p - 2 ^ 31 ≤ y) (hhi : y < p + 2 ^ 31) :
    extendPosition s p = y := by
  unfold extendPosition
  dsimp only
  omega

theorem switchPosition_next {d : Dev} {w : Word} (h : w = absentWord) : d.switchPosition w = d.nextSwitch := if_pos h

theorem switchPosition_given {d : Dev} {w : Word} (h : w ≠ absentWord) :
    d.switchPosition w = match d.insp.lead.pixel.lastPos with
      | some p => if p < 10240 * extendPosition w (d.base.motion.h / 10240) then
          10240 * extendPosition w (d.base.motion.h / 10240) else d.nextSwitch
      | none => 10240 * extendPosition w (d.base.motion.h / 10240) := if_neg h

theorem switchPosition_ahead {d : Dev} {w : Word} {y : Int} (h : w ≠ absentWord)
    (hy : extendPosition w (d.base.motion.h / 10240) = y) (hahead : ∀ p ∈ d.insp.lead.pixel.lastPos, p < 10240 * y) :
    d.switchPosition w = 10240 * y := by
  rw [switchPosition_given h, hy]
  cases hp : d.insp.lead.pixel.lastPos with
  | none => rfl
  | some p => exact if_pos (hahead p hp)

theorem switchPosition_passed {d : Dev} {w : Word} {y p : Int} (h : w ≠ absentWord)
    (hy : extendPosition w (d.base.motion.h / 10240) = y) (hp : d.insp.lead.pixel.lastPos = some p) (hle : 10240 * y ≤ p) :
    d.switchPosition w = d.nextSwitch := by
  rw [switchPosition_given h, hy, hp]
  exact if_neg (not_lt.mpr hle)

end Sys2Proof.Machine

open Sys2Proof Sys2Proof.Machine

/-- Settles O51: the operands, then the bank's state decide. -/
theorem bankOpenSeedsBank : Obligations.BankOpenSeedsBank := by
  rintro c rest s d h rfl
  constructor
  case left =>
    intro hout
    refine runCommand_refused h ?_
    by_cases hbank : 1 < c.nat 0
    case pos => exact withBank_above hbank _ _
    case neg =>
      obtain ⟨i, hi⟩ : ∃ i, bankOf (c.nat 0) = some i := by
        obtain h0 | h1 : c.nat 0 = 0 ∨ c.nat 0 = 1 := by omega
        · exact ⟨.bank0, by rw [h0]; rfl⟩
        · exact ⟨.bank1, by rw [h1]; rfl⟩
      unfold bankOpen withBank
      rw [hi]
      dsimp only
      rw [yesNo_above (hout.resolve_left hbank)]
  case right =>
    intro i hi hseed
    have hopen : bankOpen c (s.dev.takeCommand rest) = openBank i (decide (c.nat 1 = 1)) (s.dev.takeCommand rest) := by
      unfold bankOpen
      rw [hi, withBank_code, yesNo_within hseed]
    refine ⟨fun hstate => runCommand_refused h (hopen.trans (openBank_checking (d := s.dev.takeCommand rest) hstate _)),
      fun hstate => runCommand_refused h (hopen.trans (openBank_held (d := s.dev.takeCommand rest) hstate _)), fun hstate => ?_⟩
    refine (runCommand_taken h (hopen.trans (openBank_free (d := s.dev.takeCommand rest) hstate _))).trans ?_
    simp only [decide_eq_true_eq]
    rfl

/-- Settles O53: the tests in order; a schedule's position is one of the three that R152 knows. -/
theorem bankCheckAndScheduleTakeBank : Obligations.BankCheckAndScheduleTakeBank := by
  constructor
  case left =>
    rintro c rest s d h rfl
    refine ⟨fun hbank => runCommand_refused h (withBank_above hbank _ _), fun i hi => ?_⟩
    have hcheck : bankCheck c (s.dev.takeCommand rest) =
        if (s.dev.takeCommand rest).base.banks.isChecking then refuse (s.dev.takeCommand rest) .busy
        else if ((s.dev.takeCommand rest).base.banks.bank i).state ≠ .opened then refuse (s.dev.takeCommand rest) .state
        else ((s.dev.takeCommand rest).onBanks fun b => { b.setState i .checking with checkTag := some c.tag }, none) := by
      unfold bankCheck
      rw [hi, withBank_code]
    refine ⟨fun hchecking => ?_, fun hquiet hstate => ?_, fun hquiet hstate => ?_⟩
    · exact runCommand_refused h (hcheck.trans (if_pos ((isChecking_iff _).mpr hchecking)))
    · refine runCommand_refused h (hcheck.trans ((if_neg ?_).trans (if_pos hstate)))
      rw [isChecking_iff]
      exact fun ⟨j, hj⟩ => hquiet j hj
    · have hact : bankCheck c (s.dev.takeCommand rest) = _ := hcheck.trans ((if_neg (by
        rw [isChecking_iff]
        exact fun ⟨j, hj⟩ => hquiet j hj)).trans (if_neg (not_not_intro hstate)))
      refine (runCommand_ready h _).trans ?_
      rw [hact]
      rfl
  case right =>
    rintro c rest s d h rfl
    refine ⟨fun hbank => runCommand_refused h (withBank_above hbank _ _), fun i hi => ?_⟩
    have hsched : bankSchedule c (s.dev.takeCommand rest) =
        if (s.dev.base.banks.bank i).state = .checking then refuse (s.dev.takeCommand rest) .busy
        else if s.dev.base.banks.running = false ∨ (s.dev.base.banks.bank i).state ≠ .checked ∨
            s.dev.base.banks.scheduled.isSome = true then refuse (s.dev.takeCommand rest) .state
        else taken ((s.dev.takeCommand rest).onBanks fun b =>
            { b.setState i .scheduled with switchPos := some (s.dev.switchPosition (c.op 1)) })
          [wordI (s.dev.switchPosition (c.op 1) / 10240)] := by
      unfold bankSchedule
      rw [hi, withBank_code]
      rfl
    have hsome : s.dev.base.banks.scheduled.isSome = true ↔ ∃ j, (s.dev.base.banks.bank j).state = .scheduled := by
      rw [← not_iff_not, not_exists, ← scheduled_eq_none_iff, Bool.not_eq_true, Option.isSome_eq_false_iff, Option.isNone_iff_eq_none]
    refine ⟨fun hchecking => runCommand_refused h (hsched.trans (if_pos hchecking)), fun hquiet hstate => ?_,
      fun hrun hstate hnone => ⟨s.dev.switchPosition (c.op 1), ?exec, ?position⟩⟩
    · refine runCommand_refused h (hsched.trans ((if_neg hquiet).trans (if_pos ?_)))
      rw [hsome]
      exact hstate
    case exec =>
      refine runCommand_taken h (hsched.trans ((if_neg (by rw [hstate]; decide)).trans (if_neg ?_)))
      rw [hsome, hrun]
      rintro (hfalse | hchecked | ⟨j, hj⟩)
      · cases hfalse
      · exact hchecked hstate
      · exact hnone j hj
    case position =>
      rintro next hnext
      have hnext' : s.dev.nextSwitch = next := by
        rw [hnext]
        unfold Dev.nextSwitch
        cases s.dev.insp.lead.pixel.lastPos <;> rfl
      refine ⟨fun habsent => (switchPosition_next habsent).trans hnext', fun y hgiven hdvd hlo hhi => ⟨fun hahead => ?_, ?_⟩⟩
      · exact switchPosition_ahead hgiven (extendPosition_eq hdvd hlo hhi) hahead
      · exact fun p hp hle => (switchPosition_passed hgiven (extendPosition_eq hdvd hlo hhi) hp hle).trans hnext'

end

section
/-! R171, R174, R181: which row a command frame is, and the words it must have. -/

namespace Sys2Proof.Machine

open Sys2Proof

/-! ### Which row (11.3) -/

/-- The rows of 12.3 but for the queries, each with its code. -/
def rowTable : List (Nat × Instr) :=
  [(0x01, .lineSetup), (0x02, .placementWrite), (0x03, .geometryWrite), (0x04, .flatWrite), (0x05, .setCalibrationLock),
    (0x06, .previewSet), (0x10, .bankOpen), (0x11, .bankWrite), (0x12, .bankCheck), (0x13, .bankSchedule), (0x14, .bankCancel),
    (0x20, .start), (0x21, .stop), (0x30, .baselineLearn), (0x31, .baselineRead), (0x32, .baselineReserve),
    (0x33, .baselinePut), (0x40, .tierLimit), (0x51, .clearCounters), (0x52, .retainWrite), (0xFF, .reset)]

/-- The rows a query can be. -/
def queryRows : List Instr := [.queryStatus, .queryCounters, .queryLanes, .queryStreaks, .queryPending, .queryRetained]

/-- The codes of 12.3. -/
def knownCodes : List Nat :=
  [0x01, 0x02, 0x03, 0x04, 0x05, 0x06, 0x10, 0x11, 0x12, 0x13, 0x14, 0x20, 0x21, 0x30, 0x31, 0x32, 0x33, 0x40, 0x50, 0x51, 0x52, 0xFF]

theorem rowOf_of_mem {e : Nat × Instr} (he : e ∈ rowTable) {c : Command} (h : c.code = e.1) : rowOf c = e.2 := by
  unfold rowOf
  rw [h]
  fin_cases he <;> rfl

theorem rowOf_query {c : Command} (h : c.code = 0x50) : rowOf c = queryRow c := by
  unfold rowOf
  rw [h]
  rfl

theorem queryRow_mem (c : Command) : queryRow c ∈ queryRows := by
  unfold queryRow
  split
  · split <;> decide
  · decide

theorem rowOf_unknown {c : Command} (h : c.code ∉ knownCodes) : rowOf c = .unknownCommand := by
  simp only [knownCodes, List.mem_cons, List.not_mem_nil, not_or] at h
  unfold rowOf
  split <;> simp_all

/-- A known code is that of a row of the table, or a query. -/
theorem known_cases {n : Nat} (h : n ∈ knownCodes) : n = 0x50 ∨ ∃ row, (n, row) ∈ rowTable := by
  have hall : ∀ n ∈ knownCodes, n = 0x50 ∨ n ∈ rowTable.map (·.1) := by decide
  refine (hall n h).imp id fun hmem => ?_
  obtain ⟨e, he, rfl⟩ := List.mem_map.mp hmem
  exact ⟨e.2, he⟩

/-- No two codes of the table are one row. -/
theorem code_of_rowOf {e : Nat × Instr} (he : e ∈ rowTable) {c : Command} (h : rowOf c = e.2) : c.code = e.1 := by
  have hquery : ∀ e ∈ rowTable, e.2 ∉ queryRows := by decide
  have hunknown : ∀ e ∈ rowTable, e.2 ≠ .unknownCommand := by decide
  have hinj : ∀ e ∈ rowTable, ∀ e' ∈ rowTable, e.2 = e'.2 → e.1 = e'.1 := by decide
  by_cases hknown : c.code ∈ knownCodes
  case neg =>
    exact absurd (h.symm.trans (rowOf_unknown hknown)) (hunknown e he)
  case pos =>
    obtain hc | ⟨row, hrow⟩ := known_cases hknown
    · rw [rowOf_query hc] at h
      exact absurd (h ▸ queryRow_mem c) (hquery e he)
    · exact hinj _ hrow e he ((rowOf_of_mem hrow rfl).symm.trans h)

theorem rowOf_unknown_iff (c : Command) : rowOf c = .unknownCommand ↔ c.code ∉ knownCodes := by
  refine ⟨fun h hknown => ?_, rowOf_unknown⟩
  have hunknown : ∀ e ∈ rowTable, e.2 ≠ .unknownCommand := by decide
  have hquery : Instr.unknownCommand ∉ queryRows := by decide
  obtain hc | ⟨row, hrow⟩ := known_cases hknown
  · exact hquery (((rowOf_query hc).symm.trans h) ▸ queryRow_mem c)
  · exact hunknown _ hrow ((rowOf_of_mem hrow rfl).symm.trans h)

/-- R174: the kind word of a query of two words. -/
theorem queryRow_two {c : Command} (hcount : c.count = 2) (hops : c.ops.length = 2) : queryRow c = match c.nat 0 with
    | 0 => .queryStatus
    | 1 => .queryCounters
    | 2 => .queryLanes
    | 3 => .queryStreaks
    | 4 => .queryPending
    | 5 => .queryRetained
    | _ => .queryStatus := if_pos ⟨hcount, hops⟩

theorem queryRow_other {c : Command} (h : c.count ≠ 2 ∨ c.ops.length ≠ 2 ∨ 5 < c.nat 0) : queryRow c = .queryStatus := by
  by_cases htwo : c.count = 2 ∧ c.ops.length = 2
  case neg => exact if_neg htwo
  case pos =>
    have hkind : 5 < c.nat 0 := by omega
    obtain ⟨n, hn⟩ := Nat.exists_eq_add_of_lt hkind
    rw [queryRow_two htwo.1 htwo.2, hn, show 5 + n + 1 = n + 6 from by omega]
    rfl

/-! ### The words a command must have (R181) -/

theorem malformed_iff_of_required {c : Command} {n : Nat} (h : c.required = some n) : c.malformed = false ↔ rightCount c n := by
  simp only [Command.malformed, h, Bool.or_eq_false_iff, decide_eq_false_iff_not, not_not, rightCount]

theorem malformed_iff_of_free {c : Command} (h : c.required = none) : c.malformed = false ↔ c.count = c.ops.length := by
  simp [Command.malformed, h]

/-- R181: the rows whose words do not depend on what the frame holds. -/
def fixedCounts : List (Nat × Nat) :=
  [(0x01, 2), (0x02, 7), (0x03, 4), (0x05, 0), (0x06, 3), (0x10, 2), (0x12, 1), (0x13, 2), (0x14, 0), (0x20, 1), (0x21, 0),
    (0x30, 1), (0x31, 3), (0x32, 3), (0x40, 4), (0x50, 2), (0x51, 0), (0xFF, 0)]

theorem required_fixed {e : Nat × Nat} (he : e ∈ fixedCounts) {c : Command} (h : c.code = e.1) : c.required = some e.2 := by
  unfold Command.required
  rw [h]
  fin_cases he <;> rfl

theorem required_flat {c : Command} (h : c.code = 0x04) : c.required = some (3 + 2 * c.nat 2) := by
  unfold Command.required
  rw [h]
  rfl

theorem required_put {c : Command} (h : c.code = 0x33) : c.required = some (3 + c.nat 2) := by
  unfold Command.required
  rw [h]
  rfl

theorem required_retain {c : Command} (h : c.code = 0x52) : c.required = some (1 + 2 * c.nat 0) := by
  unfold Command.required
  rw [h]
  rfl

theorem required_write {c : Command} (h : c.code = 0x11) : c.required = (tableFields (c.nat 1)).map fun n => 4 + c.nat 3 * n := by
  unfold Command.required
  rw [h]
  rfl

/-! ### A row that does not act (R170, R171) -/

/-- The owning rule of a row of the table or of a query; QUERY COUNTERS answers the executed count of before. A RESET of the right
length is executed before its rule is reached (R177). -/
def owningRule (executed : Nat) : Instr → Command → Dev → Dev × Answer
  | .lineSetup => lineSetup
  | .placementWrite => placementWrite
  | .geometryWrite => geometryWrite
  | .flatWrite => flatWrite
  | .setCalibrationLock => setLock
  | .previewSet => previewSet
  | .bankOpen => bankOpen
  | .bankWrite => bankWrite
  | .bankCheck => bankCheck
  | .bankSchedule => bankSchedule
  | .bankCancel => bankCancel
  | .start => startCommand
  | .stop => stopCommand
  | .baselineLearn => baselineLearn
  | .baselineRead => baselineRead
  | .baselineReserve => baselineReserve
  | .baselinePut => baselinePut
  | .tierLimit => tierLimit
  | .clearCounters => clearCounters
  | .retainWrite => retainWrite
  | .queryStatus => queryStatus
  | .queryCounters => queryCounters executed
  | .queryLanes => queryLanes
  | .queryStreaks => queryStreaks
  | .queryPending => queryPending
  | .queryRetained => queryRetained
  | _ => fun _ d => (d, none)

theorem exec_of_row {row : Instr} (h : row ∈ rowTable.map (·.2) ++ queryRows) (hreset : row ≠ .reset) (s : State) :
    exec row s = runCommand row (owningRule s.dev.base.exec.executed row) s := by
  fin_cases h
  on_goal 21 => exact absurd rfl hreset
  all_goals rfl

theorem exec_reset_waiting {s : State} (h : ∀ c rest, s.dev.base.exec.queue = c :: rest → rowOf c ≠ .reset ∨ c.malformed = true) :
    exec .reset s = runCommand .reset (owningRule s.dev.base.exec.executed .reset) s := by
  show execReset s = _
  unfold execReset
  split
  · rename_i hq
    exact (runCommand_empty _ hq).symm
  · rename_i c rest hq
    refine if_neg fun hready => ?_
    obtain hrow | hform := h c rest hq
    · exact hrow hready.1
    · rw [hready.2] at hform
      cases hform

/-- A command's row is its owning rule at the head of the queue, but for an unknown code and a RESET that is executed at once. -/
theorem exec_rowOf (c : Command) {s : State} (hunknown : rowOf c ≠ .unknownCommand)
    (hreset : rowOf c = .reset → ∀ c' rest, s.dev.base.exec.queue = c' :: rest → rowOf c' ≠ .reset ∨ c'.malformed = true) :
    exec (rowOf c) s = runCommand (rowOf c) (owningRule s.dev.base.exec.executed (rowOf c)) s := by
  by_cases hr : rowOf c = .reset
  case pos => rw [hr, exec_reset_waiting (hreset hr)]
  case neg =>
    refine exec_of_row ?_ hr s
    have hknown : c.code ∈ knownCodes := by
      by_contra h
      exact hunknown (rowOf_unknown h)
    obtain hc | ⟨row, hrow⟩ := known_cases hknown
    · rw [rowOf_query hc]
      exact List.mem_append_right _ (queryRow_mem c)
    · rw [rowOf_of_mem hrow rfl]
      exact List.mem_append_left _ (List.mem_map_of_mem hrow)

theorem exec_unknown_waits {s : State} (h : ∀ c rest, s.dev.base.exec.queue = c :: rest → rowOf c ≠ .unknownCommand ∨ s.dev.canReply = false) :
    exec .unknownCommand s = .next s := by
  show execUnknownCommand s = _
  unfold execUnknownCommand
  split
  · rfl
  · rename_i c rest hq
    refine if_neg fun hready => ?_
    obtain hrow | hform := h c rest hq
    · exact hrow hready.1
    · rw [hready.2] at hform
      cases hform

theorem exec_otherRow {c c' : Command} {rest : List Command} {s : State} (hq : s.dev.base.exec.queue = c :: rest)
    (h : rowOf c' ≠ rowOf c) : exec (rowOf c') s = .next s := by
  have hhead : ∀ c₀ rest₀, s.dev.base.exec.queue = c₀ :: rest₀ → rowOf c₀ ≠ rowOf c' := fun c₀ rest₀ h₀ => by
    rw [hq] at h₀
    cases h₀
    exact h.symm
  by_cases hunknown : rowOf c' = .unknownCommand
  case pos =>
    rw [hunknown]
    rw [hunknown] at hhead
    exact exec_unknown_waits fun c₀ rest₀ h₀ => .inl (hhead c₀ rest₀ h₀)
  case neg =>
    rw [exec_rowOf c' hunknown fun hr c₀ rest₀ h₀ => .inl (hr ▸ hhead c₀ rest₀ h₀)]
    exact runCommand_otherHead hq h.symm

theorem exec_noHead (c : Command) {s : State} (hq : s.dev.base.exec.queue = []) : exec (rowOf c) s = .next s := by
  have hhead : ∀ {p : Command → Prop} c₀ rest₀, s.dev.base.exec.queue = c₀ :: rest₀ → p c₀ := fun c₀ rest₀ h₀ => by
    rw [hq] at h₀
    cases h₀
  by_cases hunknown : rowOf c = .unknownCommand
  case pos =>
    rw [hunknown]
    exact exec_unknown_waits hhead
  case neg =>
    rw [exec_rowOf c hunknown fun _ => hhead]
    exact runCommand_empty _ hq

/-- R170: with the reply queue full the head command waits, but for a RESET of the right length. -/
theorem exec_fullQueue {c : Command} {rest : List Command} {s : State} (hq : s.dev.base.exec.queue = c :: rest)
    (hfull : s.dev.canReply = false) (h : c.code ≠ 0xFF ∨ c.malformed = true) : exec (rowOf c) s = .next s := by
  by_cases hunknown : rowOf c = .unknownCommand
  case pos =>
    rw [hunknown]
    exact exec_unknown_waits fun _ _ _ => .inr hfull
  case neg =>
    rw [exec_rowOf c hunknown fun hr c₀ rest₀ h₀ => ?_]
    · exact runCommand_waits _ hfull
    · rw [hq] at h₀
      cases h₀
      exact h.imp (fun hcode hrow => hcode (code_of_rowOf (e := (0xFF, .reset)) (by decide) hrow)) id

end Sys2Proof.Machine

open Sys2Proof Sys2Proof.Machine

/-- Settles O48: the rows and the operand counts are read off the two tables of 12.3, and what befalls the head command off the
three ways a row can be its owning rule at the head of the queue. -/
theorem refusedFrameIsAnswered : Obligations.RefusedFrameIsAnswered := by
  refine ⟨?head, fun c' s hq => exec_noHead c' hq,
    fun e he c hc => malformed_iff_of_required (required_fixed he hc),
    fun c hc => malformed_iff_of_required (required_flat hc), fun c hc => malformed_iff_of_required (required_put hc),
    fun c hc => malformed_iff_of_required (required_retain hc), ?write, fun e he c hc => rowOf_of_mem he hc, ?query,
    fun c hc hother => (rowOf_query hc).trans (queryRow_other hother), rowOf_unknown_iff, ?noTable⟩
  case head =>
    rintro c rest s d hq rfl
    refine ⟨fun hreply => ⟨fun hcode => ?unknown, fun hrow hform => ?malformed⟩, fun hfull hwait => exec_fullQueue hq hfull hwait,
      fun c' hrow => exec_otherRow hq hrow⟩
    case unknown =>
      show execUnknownCommand s = _
      unfold execUnknownCommand
      rw [hq]
      exact if_pos ⟨rowOf_unknown hcode, hreply⟩
    case malformed =>
      rw [exec_rowOf c hrow fun _ c₀ rest₀ h₀ => ?_]
      · exact runCommand_malformed hq rfl hform hreply _
      · rw [hq] at h₀
        cases h₀
        exact .inr hform
  case write =>
    intro e he c hc htable
    refine malformed_iff_of_required ((required_write hc).trans ?_)
    rw [htable]
    fin_cases he <;> rfl
  case query =>
    intro e he c hc hcount hops hkind
    rw [rowOf_query hc, queryRow_two hcount hops, hkind]
    fin_cases he <;> rfl
  case noTable =>
    intro c hc htable
    refine malformed_iff_of_free ((required_write hc).trans ?_)
    obtain ⟨n, hn⟩ := Nat.exists_eq_add_of_lt htable
    rw [hn, show 8 + n + 1 = n + 9 from by omega]
    rfl

end

section
/-! R23, R47, R54 to R57, R175, R176: the rows that write a block of entries, and the counts. -/

namespace Sys2Proof.Machine

open Sys2Proof

/-! ### Blocks of operand words -/

theorem opsDrop_getD (c : Command) (k n : Nat) : (c.ops.drop k).getD n 0 = c.op (k + n) := by
  simp [Command.op, List.getD_eq_getElem?_getD, List.getElem?_drop]

theorem exists_pair {ws : List Word} {n : Nat} (h : ws.length = 2 * (n + 1)) :
    ∃ a b rest, ws = a :: b :: rest ∧ rest.length = 2 * n := by
  match ws, h with
  | a :: b :: rest, h => exact ⟨a, b, rest, rfl, by simpa [Nat.mul_succ] using h⟩

theorem flatPairs_eq (n : Nat) {ws : List Word} (h : ws.length = 2 * n) :
    flatPairs ws = (List.range n).map fun i => ((ws.getD (2 * i) 0).toNat, (ws.getD (2 * i + 1) 0).toNat) := by
  induction n generalizing ws with
  | zero =>
    rw [List.length_eq_zero_iff.mp h]
    rfl
  | succ n ih =>
    obtain ⟨a, b, ws, rfl, hlen⟩ := exists_pair h
    rw [List.range_succ_eq_map, List.map_cons, List.map_map, flatPairs, ih hlen]
    rfl

theorem retainPairs_eq (n : Nat) {ws : List Word} (h : ws.length = 2 * n) :
    retainPairs ws = (List.range n).map fun i => ((ws.getD (2 * i) 0).toNat, ws.getD (2 * i + 1) 0) := by
  induction n generalizing ws with
  | zero =>
    rw [List.length_eq_zero_iff.mp h]
    rfl
  | succ n ih =>
    obtain ⟨a, b, ws, rfl, hlen⟩ := exists_pair h
    rw [List.range_succ_eq_map, List.map_cons, List.map_map, retainPairs, ih hlen]
    rfl

/-! ### Blocks of table entries -/

section Blocks

variable {α : Type} [DecidableEq α] (d : α)

/-- Entries outside the block stay. -/
theorem tget_putEntries_out (l : List α) {k x : Nat} (t : Table α) (h : x < k ∨ k + l.length ≤ x) :
    tget d (putEntries d l k t) x = tget d t x := by
  induction l generalizing k t with
  | nil => rfl
  | cons a l ih =>
    rw [List.length_cons] at h
    exact (ih _ (by omega)).trans (tget_tset_other d t k x a (by omega))

theorem tget_putEntries_at (l : List α) (k : Nat) (t : Table α) {n : Nat} (h : n < l.length) :
    tget d (putEntries d l k t) (k + n) = l[n] := by
  induction l generalizing k n t with
  | nil => exact absurd h (Nat.not_lt_zero _)
  | cons a l ih =>
    cases n with
    | zero => exact (tget_putEntries_out d l _ (by omega)).trans (tget_tset_same d t k a)
    | succ n =>
      have hn := ih (k + 1) (tset d t k a) (n := n) (by simpa using h)
      rwa [Nat.add_assoc, Nat.add_comm 1 n] at hn

end Blocks

/-! ### FLAT_WRITE (R23) -/

theorem writeFlat_eq (block : List (Nat × Nat)) (k : Nat) (t : Table FlatEntry) :
    writeFlat block k t = putEntries FlatEntry.unity (block.map storedFlat) k t := by
  induction block generalizing k t with
  | nil => rfl
  | cons e block ih => exact ih _ _

theorem flatWrite_running {c : Command} {d : Dev} (h : d.base.banks.running = true) : flatWrite c d = refuse d .state := if_pos h

theorem flatWrite_locked {c : Command} {d : Dev} (h : d.base.banks.running = false) (hl : d.base.sens.locked = true) :
    flatWrite c d = refuse d .locked := by
  unfold flatWrite
  rw [h]
  exact if_pos hl

theorem flatWrite_unlocked {c : Command} {d : Dev} (h : d.base.banks.running = false) (hl : d.base.sens.locked = false) :
    flatWrite c d = if 3 < c.nat 0 ∨ c.nat 2 = 0 ∨ 256 < c.nat 2 ∨ 4096 < c.nat 1 + c.nat 2 then refuse d .range
      else takenClamped (d.setPort (c.nat 0) { d.base.port (c.nat 0) with
          flat := writeFlat (flatPairs (c.ops.drop 3)) (c.nat 1) (d.base.port (c.nat 0)).flat })
        ((flatPairs (c.ops.drop 3)).any fun e => decide (1023 < e.1) || decide (16383 < e.2)) := by
  unfold flatWrite
  rw [h, hl]
  rfl

/-- The entries of the block as the frame gives them. -/
theorem flatBlock_eq {c : Command} (h : c.malformed = false) (hcode : c.code = 0x04) : flatPairs (c.ops.drop 3) =
    (List.range (c.nat 2)).map fun i => (c.nat (3 + 2 * i), c.nat (4 + 2 * i)) := by
  have hlen := (Command.length_of_required h (required_flat hcode)).1
  rw [flatPairs_eq (c.nat 2) (by simp [hlen])]
  simp only [opsDrop_getD, Command.nat]
  refine List.map_congr_left fun i _ => ?_
  rw [show 3 + (2 * i + 1) = 4 + 2 * i from by omega]

/-! ### Spans of columns (R55 to R57) -/

theorem spanOk_iff (first count : Nat) : spanOk first count = true ↔ 1 ≤ count ∧ count ≤ 64 ∧ first + count ≤ 8192 := by
  unfold spanOk
  rw [Bool.and_eq_true, Bool.and_eq_true, decide_eq_true_iff, decide_eq_true_iff, decide_eq_true_iff, and_assoc]
  rfl

/-- What no BASELINE command on a span takes. -/
def badSpan (c : Command) : Prop := 1 < c.nat 0 ∨ c.nat 2 = 0 ∨ 64 < c.nat 2 ∨ 8192 < c.nat 1 + c.nat 2

/-- R55 to R57: the range tests, shared by the three commands on a span. -/
theorem span_refused {c : Command} {d : Dev} (h : badSpan c) (k : FaceId → Dev × Answer) :
    (match faceOf (c.nat 0) with
      | none => refuse d .range
      | some f => if spanOk (c.nat 1) (c.nat 2) then k f else refuse d .range) = refuse d .range := by
  split
  · rfl
  · rename_i f hf
    refine if_neg ?_
    rw [spanOk_iff]
    unfold badSpan at h
    have hface : ¬ 1 < c.nat 0 := fun habove => by
      rw [faceOf_above habove] at hf
      cases hf
    omega

theorem span_taken {c : Command} {d : Dev} {f : FaceId} (hf : c.nat 0 = faceCode f) (h : ¬ badSpan c) (k : FaceId → Dev × Answer) :
    (match faceOf (c.nat 0) with
      | none => refuse d .range
      | some f => if spanOk (c.nat 1) (c.nat 2) then k f else refuse d .range) = k f := by
  rw [hf, faceOf_code]
  refine if_pos ?_
  rw [spanOk_iff]
  unfold badSpan at h
  omega

theorem spanWords_eq (x : Pixel) (first count : Nat) : x.spanWords first count = (List.range count).flatMap fun n =>
    [word (x.col (first + n)).ref, word (if (x.col (first + n)).learned then 1 else 0)] := rfl

/-! ### BASELINE_PUT (R57) -/

/-- A put changes the columns alone. -/
theorem putSpan_pixel (vs : List Nat) (k : Nat) (x : Pixel) : putSpan vs k x = { x with cols := (putSpan vs k x).cols } := by
  induction vs generalizing k x with
  | nil => rfl
  | cons v vs ih => exact ih _ _

theorem putSpan_out (vs : List Nat) {k j : Nat} (x : Pixel) (h : j < k ∨ k + vs.length ≤ j) : (putSpan vs k x).col j = x.col j := by
  induction vs generalizing k x with
  | nil => rfl
  | cons v vs ih =>
    rw [List.length_cons] at h
    exact (ih _ (by omega)).trans (tget_tset_other _ _ _ _ _ (by omega))

theorem putSpan_at (vs : List Nat) (k : Nat) (x : Pixel) {n : Nat} (h : n < vs.length) :
    (putSpan vs k x).col (k + n) = putColumn (x.col (k + n)) vs[n] := by
  induction vs generalizing k n x with
  | nil => exact absurd h (Nat.not_lt_zero _)
  | cons v vs ih =>
    cases n with
    | zero => exact (putSpan_out vs _ (by omega)).trans (tget_tset_same _ _ _ _)
    | succ n =>
      have hn := ih (k + 1) { x with cols := tset PixelColumn.fresh x.cols k (putColumn (x.col k) v) } (n := n) (by simpa using h)
      have hkeep : ({ x with cols := tset PixelColumn.fresh x.cols k (putColumn (x.col k) v) } : Pixel).col (k + 1 + n) =
          x.col (k + 1 + n) := tget_tset_other _ _ _ _ _ (by omega)
      rw [hkeep, Nat.add_assoc, Nat.add_comm 1 n] at hn
      exact hn

/-- R57 test 4: the distance of a column's ref from its snapshot. -/
abbrev refDrift (x : Pixel) (c : Nat) (v : Nat) : Nat := (((x.col c).ref : Int) - v).natAbs

theorem driftedColumn_eq_none {x : Pixel} {drift : Nat} {l : List Nat} {c : Nat} (h : ∀ n < l.length, refDrift x (c + n) (l.getD n 0) ≤ drift) :
    driftedColumn x drift l c = none := by
  induction l generalizing c with
  | nil => rfl
  | cons v l ih =>
    refine (if_neg (not_lt.mpr (h 0 (Nat.succ_pos _)))).trans (ih fun n hn => ?_)
    have hnext := h (n + 1) (Nat.succ_lt_succ hn)
    rwa [Nat.add_comm n 1, ← Nat.add_assoc, Nat.add_comm 1 n] at hnext

theorem driftedColumn_eq_some {x : Pixel} {drift : Nat} {l : List Nat} {c n : Nat} (hn : n < l.length)
    (h : drift < refDrift x (c + n) (l.getD n 0)) (hbelow : ∀ m < n, refDrift x (c + m) (l.getD m 0) ≤ drift) :
    driftedColumn x drift l c = some (c + n) := by
  induction l generalizing c n with
  | nil => exact absurd hn (Nat.not_lt_zero _)
  | cons v l ih =>
    cases n with
    | zero => exact if_pos h
    | succ n =>
      have hshift : ∀ m, c + (m + 1) = c + 1 + m := fun m => by omega
      rw [hshift] at h ⊢
      refine (if_neg (not_lt.mpr (hbelow 0 (Nat.succ_pos _)))).trans (ih (Nat.lt_of_succ_lt_succ hn) h fun m hm => ?_)
      rw [← hshift]
      exact hbelow (m + 1) (Nat.succ_lt_succ hm)

section Put

variable {f : FaceId} {first : Nat} {values : List Nat} {d : Dev}

theorem putFace_unreserved (h : (d.face f).pixel.reservation = none) : putFace f first values d = refuse d .state := by
  unfold putFace
  rw [h]

theorem putFace_reserved {r : Reservation} (h : (d.face f).pixel.reservation = some r) : putFace f first values d =
    if first ≠ r.first ∨ values.length ≠ r.snapshot.length then refuse d .stale
    else match driftedColumn (d.face f).pixel (d.base.banks.contents f).detection.drift r.snapshot first with
      | some c => (d, some (.stale, [word (bits 0 13 c)]))
      | none => takenClamped (d.onFace f fun x => { x with pixel := { putSpan values first x.pixel with reservation := none } })
          (values.any fun v => decide (65520 < v)) := by
  unfold putFace
  split
  · rename_i hnone
    rw [h] at hnone
    cases hnone
  · rename_i r' hr
    rw [h] at hr
    cases hr
    rfl

theorem putFace_stale {r : Reservation} (h : (d.face f).pixel.reservation = some r)
    (hspan : first ≠ r.first ∨ values.length ≠ r.snapshot.length) : putFace f first values d = refuse d .stale :=
  (putFace_reserved h).trans (if_pos hspan)

variable {r : Reservation} (h : (d.face f).pixel.reservation = some r) (hfirst : first = r.first)
  (hlen : values.length = r.snapshot.length)
include h hfirst hlen

theorem putFace_drifted {c : Nat} (hc : driftedColumn (d.face f).pixel (d.base.banks.contents f).detection.drift r.snapshot first = some c) :
    putFace f first values d = (d, some (.stale, [word (bits 0 13 c)])) := by
  refine (putFace_reserved h).trans ((if_neg ?_).trans ?_)
  · exact not_or.mpr ⟨not_not_intro hfirst, not_not_intro hlen⟩
  · rw [hc]

theorem putFace_written (hc : driftedColumn (d.face f).pixel (d.base.banks.contents f).detection.drift r.snapshot first = none) :
    putFace f first values d =
      takenClamped (d.onFace f fun x => { x with pixel := { putSpan values first x.pixel with reservation := none } })
        (values.any fun v => decide (65520 < v)) := by
  refine (putFace_reserved h).trans ((if_neg ?_).trans ?_)
  · exact not_or.mpr ⟨not_not_intro hfirst, not_not_intro hlen⟩
  · rw [hc]

end Put

/-- What an update writes depends on the face alone. -/
theorem dev_onFace_congr {d : Dev} {f : FaceId} {g g' : Face → Face} (h : g (d.face f) = g' (d.face f)) :
    d.onFace f g = d.onFace f g' := by
  cases f with
  | lead => exact congrArg (fun x => { d with insp := { d.insp with lead := x } }) h
  | trail => exact congrArg (fun x => { d with insp := { d.insp with trail := x } }) h

theorem contents_drift (b : Banks) (f : FaceId) : (b.contents f).detection.drift = match b.activeOn f with
    | some i => (b.bank i).contents.detection.drift
    | none => 0 := by
  unfold Banks.contents
  cases b.activeOn f <;> rfl

theorem putValues_length {c : Command} (h : c.malformed = false) (hcode : c.code = 0x33) : (putValues c).length = c.nat 2 := by
  have hlen := (Command.length_of_required h (required_put hcode)).1
  simp [putValues, hlen]

theorem putValues_getElem {c : Command} {n : Nat} (h : n < (putValues c).length) : (putValues c)[n] = c.nat (3 + n) := by
  have hop : (c.ops.drop 3)[n]'(by simpa [putValues] using h) = c.op (3 + n) := by
    rw [← opsDrop_getD, List.getD_eq_getElem]
  simp only [putValues, List.getElem_map, hop]
  rfl

theorem word_bits_column {c : Nat} (h : c < 8192) : word (bits 0 13 c) = word c := by
  simp [bits, Nat.mod_eq_of_lt h]

end Sys2Proof.Machine

open Sys2Proof Sys2Proof.Machine

/-- Settles O23: the block is the frame's entries, each stored at its pixel. -/
theorem flatWriteStoresBlock : Obligations.FlatWriteStoresBlock := by
  rintro c rest s d h rfl
  refine ⟨fun hrun => runCommand_refused h (flatWrite_running hrun),
    fun hrun hlock => runCommand_refused h (flatWrite_locked hrun hlock), fun hrun hlock => ⟨fun hout => ?refused, ?taken⟩⟩
  case refused =>
    exact runCommand_refused h ((flatWrite_unlocked (d := s.dev.takeCommand rest) hrun hlock).trans (if_pos hout))
  case taken =>
    intro hport hpos hmax hpixels
    have hblock : flatPairs (c.ops.drop 3) = _ :=
      flatBlock_eq h.2.2.1 (code_of_rowOf (e := (0x04, .flatWrite)) (by decide) h.2.1)
    have hact := (flatWrite_unlocked (c := c) (d := s.dev.takeCommand rest) hrun hlock).trans (if_neg (by omega))
    rw [hblock, writeFlat_eq, List.map_map] at hact
    have hlen : ((List.range (c.nat 2)).map (storedFlat ∘ fun i => (c.nat (3 + 2 * i), c.nat (4 + 2 * i)))).length = c.nat 2 := by
      rw [List.length_map, List.length_range]
    refine ⟨_, _, runCommand_clamped h hact, ?code, fun n hn => ?entry, fun x hx => ?outside, ⟨_, port_setPort_same _ _ _⟩,
      fun p hp => ?ports, rfl, hlock, ?frame⟩
    case code =>
      by_cases hany : ∃ n < c.nat 2, 1023 < c.nat (3 + 2 * n) ∨ 16383 < c.nat (4 + 2 * n)
      · refine .inl ⟨if_pos ?_, hany⟩
        simpa [List.any_map, List.any_eq_true, List.mem_range] using hany
      · refine .inr ⟨if_neg ?_, fun n hn => ?_⟩
        · simpa [List.any_map, List.any_eq_true, List.mem_range] using hany
        · by_contra hover
          exact hany ⟨n, hn, by omega⟩
    case entry =>
      rw [dev_port_setPort, if_pos rfl, tget_putEntries_at _ _ _ _ (by rwa [hlen]), List.getElem_map, List.getElem_range]
      rfl
    case outside =>
      rw [dev_port_setPort, if_pos rfl, tget_putEntries_out _ _ _ (by rwa [hlen])]
      rfl
    case ports => exact (dev_port_setPort _ _ _ _).trans (if_neg hp)
    case frame =>
      exact ((takeCommand_touches s.dev rest).mono (by simp)).trans ((Touches.setPort _ _ _).mono (by simp))

/-- Settles O59: the span is tested, then the reservation, then the drift of each of its columns. -/
theorem baselinePutWritesReservedSpan : Obligations.BaselinePutWritesReservedSpan := by
  rintro c rest s d h rfl
  refine ⟨fun hbad => runCommand_refused h (span_refused hbad _), ?_⟩
  rintro f x hf rfl hpos hmax hcols
  have hgood : ¬ badSpan c := by
    unfold badSpan
    have hface : faceCode f ≤ 1 := by cases f <;> decide
    omega
  have hput : baselinePut c (s.dev.takeCommand rest) = putFace f (c.nat 1) (putValues c) (s.dev.takeCommand rest) :=
    span_taken hf hgood fun f => putFace f (c.nat 1) (putValues c) (s.dev.takeCommand rest)
  have hlen : (putValues c).length = c.nat 2 :=
    putValues_length h.2.2.1 (code_of_rowOf (e := (0x33, .baselinePut)) (by decide) h.2.1)
  refine ⟨fun hnone => runCommand_refused h (hput.trans (putFace_unreserved (d := s.dev.takeCommand rest) hnone)), ?_⟩
  rintro r drift hr hdrift
  replace hdrift : drift = (s.dev.base.banks.contents f).detection.drift := hdrift.trans (contents_drift _ _).symm
  refine ⟨fun hspan => ?stale, fun hfirst hcount => ⟨fun n hn hover hbelow => ?drifted, fun hwithin => ?written⟩⟩
  case stale =>
    refine runCommand_refused h (hput.trans (putFace_stale (d := s.dev.takeCommand rest) hr ?_))
    rwa [hlen]
  case drifted =>
    have hc : driftedColumn (s.dev.face f).pixel drift r.snapshot (c.nat 1) = some (c.nat 1 + n) :=
      driftedColumn_eq_some (by omega) hover hbelow
    rw [hdrift] at hc
    refine (runCommand_ready h _).trans ?_
    rw [hput, putFace_drifted (d := s.dev.takeCommand rest) hr hfirst (hlen.trans hcount) hc, word_bits_column (by omega)]
    rfl
  case written =>
    have hc : driftedColumn (s.dev.face f).pixel drift r.snapshot (c.nat 1) = none :=
      driftedColumn_eq_none fun n hn => hwithin n (by omega)
    rw [hdrift] at hc
    refine ⟨(putSpan (putValues c) (c.nat 1) (s.dev.face f).pixel).cols, ?exec, fun n hn => ?_, fun k hk => ?_⟩
    case exec =>
      have hany : ((putValues c).any fun v => decide (65520 < v)) = true ↔ ∃ n < c.nat 2, 65520 < c.nat (3 + n) := by
        rw [List.any_eq_true]
        constructor
        · rintro ⟨v, hv, hover⟩
          obtain ⟨n, hn, rfl⟩ := List.getElem_of_mem hv
          rw [putValues_getElem] at hover
          exact ⟨n, hlen ▸ hn, of_decide_eq_true hover⟩
        · rintro ⟨n, hn, hover⟩
          refine ⟨_, List.getElem_mem (hlen.symm ▸ hn), decide_eq_true ?_⟩
          rwa [putValues_getElem]
      refine (runCommand_clamped h (hput.trans
        (putFace_written (d := s.dev.takeCommand rest) hr hfirst (hlen.trans hcount) hc))).trans ?_
      have hface : (s.dev.takeCommand rest).onFace f (fun x =>
            { x with pixel := { putSpan (putValues c) (c.nat 1) x.pixel with reservation := none } }) =
          (s.dev.takeCommand rest).onFace f fun y => { y with pixel := { (s.dev.face f).pixel with
            cols := (putSpan (putValues c) (c.nat 1) (s.dev.face f).pixel).cols, reservation := none } } := by
        refine dev_onFace_congr ?_
        rw [putSpan_pixel]
        rfl
      simp only [hany, hface]
    · refine (putSpan_at _ _ _ (by rwa [hlen])).trans ?_
      rw [putValues_getElem]
      rfl
    · exact putSpan_out _ _ (by rwa [hlen])

end

section
/-! R47, R54 to R56, R175, R176: learning, reading and reserving refs; the counts and the retained words. -/

namespace Sys2Proof.Machine

open Sys2Proof

/-! ### BASELINE_LEARN, BASELINE_READ, BASELINE_RESERVE (R54 to R56) -/

/-- Every column of a cleared table has a sum and a count of 0, canonical or not. -/
theorem clearSums_zero (x : Pixel) (k : Nat) : (tget PixelColumn.fresh x.clearSums.cols k).sum = 0 ∧
    (tget PixelColumn.fresh x.clearSums.cols k).count = 0 := by
  by_cases hfresh : tget PixelColumn.fresh x.clearSums.cols k = PixelColumn.fresh
  · rw [hfresh]
    exact ⟨rfl, rfl⟩
  · obtain ⟨hmap, _⟩ := List.mem_filter.mp (mem_of_tget hfresh)
    obtain ⟨v, _, heq⟩ := List.mem_map.mp hmap
    have hvalue : tget PixelColumn.fresh x.clearSums.cols k = { v.2 with sum := 0, count := 0 } := (congrArg Prod.snd heq).symm
    rw [hvalue]
    exact ⟨rfl, rfl⟩

/-- R54: the named faces enter LEARNING. -/
def learnFaces (fs : FaceSet) (d : Dev) : Dev :=
  { d with insp := fs.faces.foldl (fun i f => enterLearning d.base f i) d.insp }

theorem learnFaces_named {fs : FaceSet} {f : FaceId} (h : f ∈ fs.faces) (d : Dev) : ((learnFaces fs d).face f).pixel =
    (d.face f).pixel.enterLearning (d.base.banks.contents f).detection.learnLength := by
  cases fs <;> cases f <;> first | rfl | simp [FaceSet.faces] at h

theorem learnFaces_other {fs : FaceSet} {f : FaceId} (h : f ∉ fs.faces) (d : Dev) :
    ((learnFaces fs d).face f).pixel = (d.face f).pixel := by
  cases fs <;> cases f <;> first | rfl | simp [FaceSet.faces] at h

theorem learnFaces_touches (fs : FaceSet) (d : Dev) : Touches [.pixel .lead, .pixel .trail] d (learnFaces fs d) :=
  Touches.insp (Within.foldl (fun i f => (Within.enterLearning (b := d.base) (f := f) i).mono (by cases f <;> simp)) _ _)

theorem facesOf_within {n : Nat} (h : n ≤ 2) : ∃ fs, facesOf n = some fs ∧ ∀ f, f ∈ fs.faces ↔ n = 2 ∨ n = faceCode f := by
  have hall : n = 0 ∨ n = 1 ∨ n = 2 := by omega
  obtain rfl | rfl | rfl := hall
  · exact ⟨.lead, rfl, fun f => by cases f <;> simp [FaceSet.faces, faceCode]⟩
  · exact ⟨.trail, rfl, fun f => by cases f <;> simp [FaceSet.faces, faceCode]⟩
  · exact ⟨.both, rfl, fun f => by cases f <;> simp [FaceSet.faces]⟩

theorem baselineLearn_above {c : Command} {d : Dev} (h : 2 < c.nat 0) : baselineLearn c d = refuse d .range := by
  unfold baselineLearn
  rw [facesOf_above h]

theorem baselineLearn_standby {c : Command} {d : Dev} {fs : FaceSet} (hfs : facesOf (c.nat 0) = some fs)
    (h : d.base.banks.running = false) : baselineLearn c d = refuse d .state := by
  unfold baselineLearn
  rw [hfs]
  dsimp only
  rw [h]
  exact if_neg (by decide)

theorem baselineLearn_running {c : Command} {d : Dev} {fs : FaceSet} (hfs : facesOf (c.nat 0) = some fs)
    (h : d.base.banks.running = true) : baselineLearn c d = taken (learnFaces fs d) [] := by
  unfold baselineLearn
  rw [hfs]
  exact if_pos h

/-! ### CLEAR_COUNTERS (R175) -/

theorem clearAll_port {d : Dev} (h : PortsLaw d.base) (n : Nat) :
    (clearAll d).base.port n = { d.base.port n with counts := PortCounts.zero } :=
  tget_tmap (fun p : Port => { p with counts := PortCounts.zero }) rfl h.1 n

/-! ### RETAIN_WRITE (R176) -/

/-- A word that no pair names stays. -/
theorem writeRetained_out {l : List (Nat × Word)} {k : Nat} (h : ∀ e ∈ l, e.1 ≠ k) (t : Table Word) :
    tget 0 (writeRetained l t) k = tget 0 t k := by
  induction l generalizing t with
  | nil => rfl
  | cons e l ih =>
    exact (ih (fun x hx => h x (List.mem_cons_of_mem _ hx)) _).trans
      (tget_tset_other _ _ _ _ _ (h e List.mem_cons_self).symm)

/-- The last pair that names a word gives it. -/
theorem writeRetained_last {l l' : List (Nat × Word)} {e : Nat × Word} (h : ∀ x ∈ l', x.1 ≠ e.1) (t : Table Word) :
    tget 0 (writeRetained (l ++ e :: l') t) e.1 = e.2 := by
  induction l generalizing t with
  | nil => exact (writeRetained_out h _).trans (tget_tset_same _ _ _ _)
  | cons x l ih => exact ih _

/-- The pairs of the frame. -/
theorem retainBlock_eq {c : Command} (h : c.malformed = false) (hcode : c.code = 0x52) : retainPairs (c.ops.drop 1) =
    (List.range (c.nat 0)).map fun i => (c.nat (1 + 2 * i), c.op (2 + 2 * i)) := by
  have hlen := (Command.length_of_required h (required_retain hcode)).1
  rw [retainPairs_eq (c.nat 0) (by simp [hlen])]
  simp only [opsDrop_getD, Command.nat]
  refine List.map_congr_left fun i _ => ?_
  rw [show 1 + (2 * i + 1) = 2 + 2 * i from by omega]

theorem range_split {n m : Nat} (h : n < m) : List.range m = List.range n ++ n :: (List.range (m - (n + 1))).map (n + 1 + ·) := by
  obtain ⟨k, rfl⟩ : ∃ k, m = n + 1 + k := ⟨m - (n + 1), by omega⟩
  rw [List.range_add, List.range_succ, List.append_assoc, Nat.add_sub_cancel_left]
  rfl


end Sys2Proof.Machine

open Sys2Proof Sys2Proof.Machine

/-- Settles O58: the tests, and one face's part of each command. -/
theorem baselinesAreLearnedReadAndReserved : Obligations.BaselinesAreLearnedReadAndReserved := by
  constructor
  case left =>
    rintro c rest s d h rfl
    refine ⟨fun habove => runCommand_refused h (baselineLearn_above habove), fun hfaces hrun => ?standby, fun hfaces hrun => ?running⟩
    case standby =>
      obtain ⟨fs, hfs, _⟩ := facesOf_within hfaces
      exact runCommand_refused h (baselineLearn_standby hfs hrun)
    case running =>
      obtain ⟨fs, hfs, hnamed⟩ := facesOf_within hfaces
      refine ⟨_, runCommand_taken h (baselineLearn_running (d := s.dev.takeCommand rest) hfs hrun), rfl, ?frame, fun f => ⟨_, rfl,
        fun hboth hface => ?other, fun hface => ?named⟩⟩
      case frame =>
        exact ((takeCommand_touches s.dev rest).mono (by simp)).trans ((learnFaces_touches fs _).mono (by simp))
      case other => exact learnFaces_other (fun hmem => ((hnamed f).mp hmem).elim hboth hface) _
      case named =>
        exact ⟨_, learnFaces_named ((hnamed f).mpr hface) _,
          fun k => ⟨(clearSums_zero _ k).1, (clearSums_zero _ k).2, fun hcanon => clearSums_col hcanon k⟩⟩
  case right =>
    rintro c rest s d bad f ws rfl rfl rfl
    exact ⟨fun h => ⟨fun hbad => runCommand_refused h (span_refused hbad _),
        fun hgood hf => runCommand_taken h (span_taken hf hgood _)⟩,
      fun h => ⟨fun hbad => runCommand_refused h (span_refused hbad _),
        fun hgood hf => runCommand_taken h (span_taken hf hgood _)⟩⟩

/-- Settles O50: the clear is the model's, field by field; of the pairs of a frame the last that names a word decides. -/
theorem countersClearAndWordsAreRetained : Obligations.CountersClearAndWordsAreRetained := by
  constructor
  case left =>
    intro c rest s h hports
    exact ⟨_, runCommand_taken h rfl, rfl, rfl, rfl, rfl, fun n => clearAll_port (d := s.dev.takeCommand rest) hports n,
      fun f => ⟨_, rfl, by cases f <;> rfl⟩, rfl, rfl, rfl⟩
  case right =>
    intro c rest s h
    have hblock : retainPairs (c.ops.drop 1) = _ :=
      retainBlock_eq h.2.2.1 (code_of_rowOf (e := (0x52, .retainWrite)) (by decide) h.2.1)
    have hact : retainWrite c (s.dev.takeCommand rest) =
        if c.nat 0 = 0 ∨ 8 < c.nat 0 ∨ (retainPairs (c.ops.drop 1)).any (fun e => decide (7 < e.1)) = true then
          refuse (s.dev.takeCommand rest) .range
        else taken ((s.dev.takeCommand rest).onExec fun x =>
          { x with retained := writeRetained (retainPairs (c.ops.drop 1)) x.retained }) [] := rfl
    have hany : (retainPairs (c.ops.drop 1)).any (fun e => decide (7 < e.1)) = true ↔ ∃ n < c.nat 0, 7 < c.nat (1 + 2 * n) := by
      rw [hblock]
      simp [List.any_map, List.any_eq_true, List.mem_range]
    refine ⟨fun hbad => runCommand_refused h (hact.trans (if_pos (by rwa [hany]))), fun hpos hmax hwithin => ?_⟩
    have hgood : ¬ (c.nat 0 = 0 ∨ 8 < c.nat 0 ∨ ∃ n < c.nat 0, 7 < c.nat (1 + 2 * n)) := by
      rintro (hzero | hover | ⟨n, hn, hover⟩)
      · omega
      · omega
      · exact absurd (hwithin n hn) (not_le.mpr hover)
    refine ⟨writeRetained (retainPairs (c.ops.drop 1)) s.dev.base.exec.retained,
      runCommand_taken h (hact.trans (if_neg (by rwa [hany]))), fun k hk => ?other, fun n hn hlast => ?last⟩
    case other =>
      refine writeRetained_out (fun e he => ?_) _
      rw [hblock] at he
      obtain ⟨n, hn, rfl⟩ := List.mem_map.mp he
      exact hk n (List.mem_range.mp hn)
    case last =>
      rw [hblock, range_split hn, List.map_append, List.map_cons, List.map_map]
      refine writeRetained_last (e := (c.nat (1 + 2 * n), c.op (2 + 2 * n))) (fun x hx => ?_) _
      obtain ⟨m, hm, rfl⟩ := List.mem_map.mp hx
      have hm' := List.mem_range.mp hm
      exact hlast (n + 1 + m) (by omega) (by omega)

end

section
/-! R157 to R160, R164, R166, R96: offers and losses, transmit completions and the pick of the arbiter. -/

namespace Sys2Proof.Machine

open Sys2Proof

/-! ### Buffers held and freed (R96, R158) -/

/-- Exactly the buffers of a set are freed, and nothing else changes. -/
def Frees (p : Nat → Prop) (o o' : Out) : Prop :=
  ∃ t, o' = { o with buffers := t } ∧ (∀ k, p k → tget none t k = none) ∧ ∀ k, ¬ p k → tget none t k = tget none o.buffers k

theorem Frees.refl {p : Nat → Prop} (hp : ∀ k, ¬ p k) (o : Out) : Frees p o o := ⟨o.buffers, rfl, fun k h => absurd h (hp k), fun _ _ => rfl⟩

theorem Frees.trans {p q : Nat → Prop} {o o' o'' : Out} (h : Frees p o o') (h' : Frees q o' o'') :
    Frees (fun k => p k ∨ q k) o o'' := by
  obtain ⟨t, rfl, hfreed, hkept⟩ := h
  obtain ⟨t', rfl, hfreed', hkept'⟩ := h'
  refine ⟨t', rfl, fun k hk => ?_, fun k hk => ?_⟩
  · by_cases hq : q k
    · exact hfreed' k hq
    · exact (hkept' k hq).trans (hfreed k (hk.resolve_right hq))
  · obtain ⟨hp, hq⟩ := not_or.mp hk
    exact (hkept' k hq).trans (hkept k hp)

theorem Frees.congr {p q : Nat → Prop} {o o' : Out} (h : Frees p o o') (hpq : ∀ k, q k ↔ p k) : Frees q o o' := by
  obtain ⟨t, ht, hfreed, hkept⟩ := h
  exact ⟨t, ht, fun k hk => hfreed k ((hpq k).mp hk), fun k hk => hkept k fun hp => hk ((hpq k).mpr hp)⟩

theorem held_eq_some (e : ExcerptState) (k : Nat) : e.held = some k ↔ e = .captured k ∨ e = .partly k := by
  cases e <;> simp [ExcerptState.held]

theorem held_eq_none (e : ExcerptState) : e.held = none ↔ e = .none ∨ e = .skipped ∨ e = .withdrawn := by
  cases e <;> simp [ExcerptState.held]

theorem freeRecord_frees (o : Out) (r : Defect) : Frees (fun k => r.excerpt.held = some k) o (o.freeRecord r) := by
  unfold Out.freeRecord
  split
  · rename_i b hb
    refine ⟨_, rfl, fun k hk => ?_, fun k hk => ?_⟩
    · rw [hb] at hk
      cases hk
      exact tget_tset_same _ _ _ _
    · exact tget_tset_other _ _ _ _ _ fun h => hk (h ▸ hb)
  · rename_i hnone
    exact Frees.refl (fun k hk => by rw [hnone] at hk; cases hk) o

theorem holds_defect (x : Defect) (k : Nat) : (Report.defect x).holds k ↔ x.excerpt.held = some k := by
  rw [held_eq_some]
  constructor
  · rintro ⟨y, hy, ⟨⟨⟩⟩ | ⟨_, _, _, ⟨⟩⟩ | ⟨_, _, _, ⟨⟩⟩⟩
    exact hy
  · exact fun h => ⟨x, h, .inl rfl⟩

theorem holds_through (x y : Defect) (md cd : Int) (k : Nat) :
    (Report.through x y md cd).holds k ↔ x.excerpt.held = some k ∨ y.excerpt.held = some k := by
  rw [held_eq_some, held_eq_some]
  constructor
  · rintro ⟨z, hz, ⟨⟨⟩⟩ | ⟨_, _, _, ⟨⟩⟩ | ⟨_, _, _, ⟨⟩⟩⟩
    · exact .inl hz
    · exact .inr hz
  · rintro (h | h)
    · exact ⟨x, h, .inr (.inl ⟨y, md, cd, rfl⟩)⟩
    · exact ⟨y, h, .inr (.inr ⟨x, md, cd, rfl⟩)⟩

/-- Only a DEFECT and a THROUGH hold buffers. -/
theorem holds_other {r : Report} (hd : ∀ x, r ≠ .defect x) (ht : ∀ x y md cd, r ≠ .through x y md cd) (k : Nat) : ¬ r.holds k := by
  rintro ⟨x, _, h | ⟨y, md, cd, h⟩ | ⟨y, md, cd, h⟩⟩
  · exact hd _ h
  · exact ht _ _ _ _ h
  · exact ht _ _ _ _ h

/-- R158: a dropped report frees exactly the buffers it holds. -/
theorem release_frees (o : Out) (r : Report) : Frees r.holds o (o.release r) := by
  cases r with
  | defect x => exact (freeRecord_frees o x).congr (holds_defect x)
  | through x y md cd => exact ((freeRecord_frees o x).trans (freeRecord_frees _ y)).congr (holds_through x y md cd)
  | reply _ | streak _ | lane _ | status _ _ _ | excerpt _ | preview _ | start _ _ _ =>
    exact Frees.refl (holds_other (by simp) (by simp)) o

/-! ### Offers (R157, R158) -/

theorem offer_accepted {o : Out} {q : QueueId} (r : Report) (h : (o.queue q).entries.length < capacity q) :
    o.offer q r = (o.setQueue q ((o.queue q).accept r)).pick := if_pos h

theorem offer_full {o : Out} {q : QueueId} (r : Report) (h : capacity q ≤ (o.queue q).entries.length) :
    o.offer q r = (o.setQueue q (o.queue q).lose).release r := if_neg (not_lt.mpr h)

/-! ### Transmit completion (R159, R160, R166) -/

/-- The EXCERPT entry of a record and the buffer it holds. -/
abbrev excerptEntry (r : Defect) (k : Nat) : Report :=
  .excerpt { face := r.face, cls := r.cls, first := r.first, last := r.last, buffer := k }

theorem appendExcerpt_held (o : Out) {r : Defect} {k : Nat} (h : r.excerpt = .captured k ∨ r.excerpt = .partly k) :
    o.appendExcerpt r = o.offer .excerpt (excerptEntry r k) := by
  unfold Out.appendExcerpt
  rw [(held_eq_some _ _).mpr h]

theorem appendExcerpt_none (o : Out) {r : Defect} (h : r.excerpt = .none ∨ r.excerpt = .skipped ∨ r.excerpt = .withdrawn) :
    o.appendExcerpt r = o := by
  unfold Out.appendExcerpt
  rw [(held_eq_none _).mpr h]

/-- R159: the frame is counted, its report's effect follows, then the pick. -/
theorem complete_sent {s : State} {t : InFlight} (h : s.dev.insp.out.tx = some t) :
    exec .transmitCompletion s = .next { s with dev := s.dev.onOut fun _ => (({ s.dev.insp.out with
      tx := none, framesSent := min (s.dev.insp.out.framesSent + 1) 4294967295 } : Out).sent t).pick } := by
  have hcomplete : s.dev.insp.out.complete = (({ s.dev.insp.out with
      tx := none, framesSent := min (s.dev.insp.out.framesSent + 1) 4294967295 } : Out).sent t).pick := by
    unfold Out.complete
    rw [h]
    rfl
  show Host.Outcome.next { s with dev := s.dev.onOut Out.complete } = _
  unfold Dev.onOut
  rw [hcomplete]

theorem complete_nothing {s : State} (h : s.dev.insp.out.tx = none) : exec .transmitCompletion s = .next s := by
  have hcomplete : s.dev.insp.out.complete = s.dev.insp.out := by
    unfold Out.complete
    rw [h]
  show Host.Outcome.next { s with dev := s.dev.onOut Out.complete } = _
  unfold Dev.onOut
  rw [hcomplete]

section Sent

variable (o : Out) {t : InFlight}

theorem sent_defect {r : Defect} (h : t.report = .defect r) : o.sent t = o.appendExcerpt r := by
  unfold Out.sent
  rw [h]

theorem sent_through {l r : Defect} {md cd : Int} (h : t.report = .through l r md cd) :
    o.sent t = (o.appendExcerpt l).appendExcerpt r := by
  unfold Out.sent
  rw [h]

theorem sent_excerpt {e : ExcerptEntry} (h : t.report = .excerpt e) : o.sent t = if t.live then o.freeBuffer e.buffer else o := by
  unfold Out.sent
  rw [h]

theorem sent_start {a : ResetCause} {b : Option Nat} {c : Bool} (h : t.report = .start a b c) :
    o.sent t = if t.live then { o with startPending := false } else o := by
  unfold Out.sent
  rw [h]

/-- The reports whose completion has no effect of its own. -/
theorem sent_other (h : (∃ r, t.report = .reply r) ∨ (∃ r, t.report = .streak r) ∨ (∃ r, t.report = .lane r) ∨
    (∃ p, t.report = .preview p) ∨ ∃ f u st, t.report = .status f u st) : o.sent t = o := by
  unfold Out.sent
  obtain ⟨_, h⟩ | ⟨_, h⟩ | ⟨_, h⟩ | ⟨_, h⟩ | ⟨_, _, _, h⟩ := h
  all_goals rw [h]

end Sent

/-! ### The pick (R159) -/

theorem pick_blocked {o : Out} (h : o.linkUp = false ∨ o.tx ≠ none) : o.pick = o := by
  refine if_neg ?_
  rw [Bool.and_eq_true, Option.isNone_iff_eq_none, not_and_or]
  exact h.imp (fun h => by rw [h]; decide) id

theorem pick_idle {o : Out} (hup : o.linkUp = true) (htx : o.tx = none) (hstart : o.startPending = false) :
    o.pick = match o.nextQueue with
      | some (q, t) => o.pickFrom q t
      | none => o := by
  unfold Out.pick
  rw [hup, htx, hstart]
  rfl

@[simp] theorem setQueue_toggle (o : Out) (q : QueueId) (x : Queue) : (o.setQueue q x).toggle = o.toggle := by cases q <;> rfl

theorem pickFrom_head {o : Out} {q : QueueId} {e : Queued} {rest : List Queued} (h : (o.queue q).entries = e :: rest) (toggle : FaceId) :
    o.pickFrom q toggle = { o.setQueue q { o.queue q with entries := rest } with
      toggle := toggle,
      tx := some { queue := some q, report := e.report, words := frameWords o.buffers e.report e.lostBefore, live := true } } := by
  unfold Out.pickFrom
  rw [h]

/-- The first queue of the order that holds an entry. -/
theorem nextQueue_first {o : Out} {before after : List QueueId} {q : QueueId} {e : Queued} {rest : List Queued}
    (horder : before ++ q :: after = pickOrder) (hbefore : ∀ p ∈ before, (o.queue p).entries = []) (hq : (o.queue q).entries = e :: rest) :
    o.nextQueue = some (q, o.toggle) := by
  have hfind : pickOrder.find? (fun q => !(o.queue q).entries.isEmpty) = some q := by
    rw [← horder, List.find?_append, List.find?_eq_none.mpr fun p hp => by simp [hbefore p hp], Option.none_or]
    exact List.find?_cons_of_pos (by simp [hq])
  unfold Out.nextQueue
  rw [hfind]

theorem nextQueue_preview {o : Out} (h : ∀ q ∈ pickOrder, (o.queue q).entries = []) : o.nextQueue = o.previewPick := by
  have hfind : pickOrder.find? (fun q => !(o.queue q).entries.isEmpty) = none :=
    List.find?_eq_none.mpr fun p hp => by simp [h p hp]
  unfold Out.nextQueue
  rw [hfind]

theorem previewPick_empty {o : Out} (hl : o.previewLead.entries = []) (ht : o.previewTrail.entries = []) : o.previewPick = none := by
  unfold Out.previewPick
  rw [hl, ht]
  rfl

/-- R159: one preview slot, or the slot the toggle names when both hold a line. -/
theorem previewPick_slot {o : Out} {f : FaceId} {e : Queued} {rest : List Queued} (h : (o.queue (previewQueue f)).entries = e :: rest)
    (hother : (o.queue (previewQueue (otherFace f))).entries = [] ∨ o.toggle = f) :
    o.previewPick = some (previewQueue f,
      if (o.queue (previewQueue (otherFace f))).entries = [] then o.toggle else otherFace f) := by
  unfold Out.previewPick
  cases f with
  | lead =>
    replace h : o.previewLead.entries = e :: rest := h
    change o.previewTrail.entries = [] ∨ o.toggle = .lead at hother
    show _ = some (_, if o.previewTrail.entries = [] then _ else _)
    rw [h]
    cases ht : o.previewTrail.entries with
    | nil => rfl
    | cons x l =>
      rw [ht] at hother
      rw [hother.resolve_left (by simp)]
      rfl
  | trail =>
    replace h : o.previewTrail.entries = e :: rest := h
    change o.previewLead.entries = [] ∨ o.toggle = .trail at hother
    show _ = some (_, if o.previewLead.entries = [] then _ else _)
    rw [h]
    cases hl : o.previewLead.entries with
    | nil => rfl
    | cons x l =>
      rw [hl] at hother
      rw [hother.resolve_left (by simp)]
      rfl

end Sys2Proof.Machine

open Sys2Proof Sys2Proof.Machine

/-- Settles O45: an offer is accepted or lost, and a lost report frees what it holds. -/
theorem offerIsAcceptedOrLost : Obligations.OfferIsAcceptedOrLost := by
  refine ⟨⟨rfl, rfl, rfl, rfl, rfl, rfl, rfl, rfl, rfl⟩, ?offer, ?route⟩
  case offer =>
    rintro o q r x rfl
    refine ⟨fun h => offer_accepted r h, fun h => ?_⟩
    obtain ⟨t, ht, hfreed, hkept⟩ := release_frees (o.setQueue q (o.queue q).lose) r
    refine ⟨t, (offer_full r h).trans ht, hfreed, fun k hk => ?_⟩
    rw [hkept k hk, setQueue_buffers]
  case route =>
    intro o r
    refine ⟨fun slot => ?off, fun level hlevel => ?express, rfl, rfl, rfl⟩
    case off =>
      have hroute : o.route .off slot r = o.release r := by cases slot <;> rfl
      rw [hroute]
      exact release_frees o r
    case express =>
      cases level with
      | off => exact absurd rfl hlevel
      | p0 | p1 | p2 => exact ⟨rfl, rfl⟩

/-- Settles O46: the completion by the report that was sent, then the pick by what waits. -/
theorem transmitCompletionPicksNext : Obligations.TransmitCompletionPicksNext := by
  refine ⟨?sent, fun s h => complete_nothing h, fun o => ⟨pick_blocked, fun hup htx => ⟨fun hstart => ?start, fun hstart => ⟨?queues, ?previews⟩⟩⟩⟩
  case sent =>
    rintro s o o' t rfl htx rfl
    rw [complete_sent htx]
    refine ⟨fun r hr => ⟨fun k hk => ?_, fun hn => ?_⟩, fun e he hlive => ?_, fun a b c hr hlive => ?_,
      fun l r md cd k m hr hl ht => ?_, fun l r md cd k hr hl ht => ?_, fun l r md cd m hr hl ht => ?_,
      fun l r md cd hr hl ht => ?_, ?_, fun hother => ?_⟩
    · rw [sent_defect _ hr, appendExcerpt_held _ hk]
    · rw [sent_defect _ hr, appendExcerpt_none _ hn]
    · rw [sent_excerpt _ he, if_pos hlive]
      rfl
    · rw [sent_start _ hr, if_pos hlive]
    · rw [sent_through _ hr, appendExcerpt_held _ hl, appendExcerpt_held _ ht]
    · rw [sent_through _ hr, appendExcerpt_held _ hl, appendExcerpt_none _ ht]
    · rw [sent_through _ hr, appendExcerpt_none _ hl, appendExcerpt_held _ ht]
    · rw [sent_through _ hr, appendExcerpt_none _ hl, appendExcerpt_none _ ht]
    · rintro hlive (⟨e, he⟩ | ⟨a, b, c, hr⟩)
      · rw [sent_excerpt _ he, hlive]
        rfl
      · rw [sent_start _ hr, hlive]
        rfl
    · rw [sent_other _ hother]
  case start =>
    rw [pick_of_startPending hstart, if_pos ⟨hup, htx⟩]
    rfl
  case queues =>
    intro before q after e rest horder hbefore hq
    rw [pick_idle hup htx hstart, nextQueue_first horder hbefore hq]
    refine (pickFrom_head hq o.toggle).trans ?_
    dsimp only
    rw [setQueue_toggle]
  case previews =>
    intro hempty
    constructor
    · intro f e rest hq hother
      rw [pick_idle hup htx hstart, nextQueue_preview hempty, previewPick_slot hq hother]
      exact pickFrom_head hq _
    · intro hl ht
      rw [pick_idle hup htx hstart, nextQueue_preview hempty, previewPick_empty hl ht]

end

section
/-! R118, R119, R121 to R123, R162: candidates at the correlator, the expiry test, and records at the preview path. -/

namespace Sys2Proof.Machine

open Sys2Proof

/-- Two states that differ in the line side alone. -/
theorem next_insp {s : State} {i j : Insp} (h : i = j) :
    (Host.Outcome.next { s with dev := { s.dev with insp := i } } : Host.Outcome State Fault Refusal) =
      .next { s with dev := { s.dev with insp := j } } := by rw [h]

/-! ### The preview path (R162) -/

/-- R162: the sum of a bin, column by column of the bin instead of entry by entry of the record. -/
theorem bin_sum {cols : Table RecordColumn} {value : Nat → Nat} (hkeys : (cols.map (·.1)).Nodup)
    (hvalue : ∀ k y, (k, y) ∈ cols → value k = y.value) (hvoid : ∀ k, (∀ e ∈ cols, e.1 ≠ k) → value k = 0) (b n : Nat) :
    ((cols.filter fun e => decide (n * b ≤ e.1) && decide (e.1 < (n + 1) * b)).map fun e => e.2.value).sum =
      ((List.range b).map fun m => value (n * b + m)).sum := by
  have hhigh : (n + 1) * b = n * b + b := Nat.succ_mul n b
  have hheld : ((cols.filter fun e => decide (n * b ≤ e.1) && decide (e.1 < (n + 1) * b)).map fun e => e.2.value) =
      ((cols.filter fun e => decide (n * b ≤ e.1) && decide (e.1 < (n + 1) * b)).map (·.1)).map value := by
    rw [List.map_map]
    exact List.map_congr_left fun e he => (hvalue e.1 e.2 (List.mem_of_mem_filter he)).symm
  have hbin : ((List.range b).map fun m => value (n * b + m)) = ((List.range b).map (n * b + ·)).map value := by
    rw [List.map_map]
    rfl
  have hnodup : ((cols.filter fun e => decide (n * b ≤ e.1) && decide (e.1 < (n + 1) * b)).map (·.1)).Nodup :=
    hkeys.sublist (List.filter_sublist.map _)
  have hrange : ((List.range b).map (n * b + ·)).Nodup := List.nodup_range.map fun _ _ h => Nat.add_left_cancel h
  rw [hheld, hbin, ← List.sum_toFinset value hnodup, ← List.sum_toFinset value hrange]
  refine Finset.sum_subset (fun k hk => ?_) fun k hk hnot => hvoid k fun e he hek => hnot ?_
  · obtain ⟨e, he, rfl⟩ := List.mem_map.mp (List.mem_toFinset.mp hk)
    have hwithin := (List.mem_filter.mp he).2
    simp only [Bool.and_eq_true, decide_eq_true_iff] at hwithin
    exact List.mem_toFinset.mpr (List.mem_map.mpr ⟨e.1 - n * b, List.mem_range.mpr (by omega), by omega⟩)
  · subst hek
    obtain ⟨m, hm, hkm⟩ := List.mem_map.mp (List.mem_toFinset.mp hk)
    have hm' := List.mem_range.mp hm
    refine List.mem_toFinset.mpr (List.mem_map_of_mem (List.mem_filter.mpr ⟨he, ?_⟩))
    simp only [Bool.and_eq_true, decide_eq_true_iff]
    omega

section Preview

variable {f : FaceId} {r : LineRecord} {i : Insp}

theorem previewLine_off (h : (i.face f).preview.decimation = 0) : previewLine f r i = i := if_pos h

theorem previewLine_counts (h : (i.face f).preview.counter + 1 < (i.face f).preview.decimation) : previewLine f r i =
    i.onFace f fun y => { y with preview := { (i.face f).preview with counter := (i.face f).preview.counter + 1 } } :=
  (if_neg (by omega)).trans (if_pos h)

theorem previewLine_due (h0 : 0 < (i.face f).preview.decimation)
    (h : (i.face f).preview.decimation ≤ (i.face f).preview.counter + 1) : previewLine f r i =
    takeSlot f (previewOf f (i.face f).preview.binning r)
      (i.onFace f fun y => { y with preview := { (i.face f).preview with counter := 0 } }) :=
  (if_neg (by omega)).trans (if_neg (by omega))

theorem takeSlot_empty {p : PreviewLine} (h : (i.out.queue (previewQueue f)).entries = []) :
    takeSlot f p i = i.offer (previewQueue f) (.preview p) := by
  unfold takeSlot
  split
  · rfl
  · rename_i e rest hq
    rw [h] at hq
    cases hq

theorem takeSlot_full {p : PreviewLine} {e : Queued} {rest : List Queued} (h : (i.out.queue (previewQueue f)).entries = e :: rest) :
    takeSlot f p i = Insp.onFace { i with
        out := i.out.setQueue (previewQueue f) { i.out.queue (previewQueue f) with entries := { e with report := .preview p } :: rest } } f
      fun x => { x with preview := { x.preview with replaced := min (x.preview.replaced + 1) 4294967295 } } := by
  unfold takeSlot
  split
  · rename_i hq
    rw [h] at hq
    cases hq
  · rename_i e' rest' hq
    rw [h] at hq
    cases hq
    rfl

theorem takePreviewLine_cons {rest : List LineRecord} (h : (i.face f).preview.inbox = r :: rest) : takePreviewLine f i =
    previewLine f r (i.onFace f fun x => { x with preview := { x.preview with inbox := rest } }) := by
  unfold takePreviewLine
  rw [h]

end Preview

/-! ### LEAD candidates (R118) -/

theorem reportLeadOnly_eq (reason : LeadOnlyReason) (c : Candidate) (i : Insp) : reportLeadOnly reason c i = { i with
    out := i.out.route (if c.level.rank < c.leadOnlyLevel.rank then c.leadOnlyLevel else c.level) c.slot
      (.defect { c.record with mark := .leadOnly reason }) } := rfl

theorem takeLead_room {c : Candidate} {i : Insp} (h : i.corr.list.length < 128) : takeLead c i = { i with corr := { i.corr with
    list := i.corr.list ++ [c], highWater := max i.corr.highWater (i.corr.list.length + 1) } } := by
  unfold takeLead
  cases hl : i.corr.list with
  | nil => simp [hl]
  | cons e tail =>
    rw [hl] at h
    have hroom : ¬ Config.maxPending ≤ (e :: tail).length := not_le.mpr h
    simp only [if_neg hroom, hl, List.length_append, List.length_singleton]

theorem takeLead_full {c e : Candidate} {tail : List Candidate} {i : Insp} (hl : i.corr.list = e :: tail) (h : 128 ≤ i.corr.list.length) :
    takeLead c i = { i with
      corr := { i.corr with
        list := tail ++ [c], evicted := min (i.corr.evicted + 1) 4294967295, highWater := max i.corr.highWater (tail.length + 1) },
      out := i.out.route (if e.level.rank < e.leadOnlyLevel.rank then e.leadOnlyLevel else e.level) e.slot
        (.defect { e.record with mark := .leadOnly .evicted }) } := by
  rw [hl] at h
  have hfull : Config.maxPending ≤ (e :: tail).length := h
  unfold takeLead
  simp only [hl, if_pos hfull, reportLeadOnly_eq, List.length_append, List.length_singleton]
  rfl

/-! ### TRAIL candidates (R119, R121) -/

theorem takeFirst_of_first {α : Type} {p : α → Bool} {before after : List α} {x : α} (hx : p x = true)
    (hbefore : ∀ y ∈ before, p y = false) : takeFirst p (before ++ x :: after) = some (x, before ++ after) := by
  induction before with
  | nil => exact if_pos hx
  | cons y before ih =>
    have hy : ¬ p y = true := by rw [hbefore y List.mem_cons_self]; decide
    refine (if_neg hy).trans ?_
    have hrest : takeFirst p (before.append (x :: after)) = _ := ih fun z hz => hbefore z (List.mem_cons_of_mem _ hz)
    rw [hrest]
    rfl

theorem takeFirst_eq_none {α : Type} {p : α → Bool} {l : List α} (h : ∀ y ∈ l, p y = false) : takeFirst p l = none := by
  induction l with
  | nil => rfl
  | cons y l ih =>
    have hy : ¬ p y = true := by rw [h y List.mem_cons_self]; decide
    refine (if_neg hy).trans ?_
    rw [ih fun z hz => h z (List.mem_cons_of_mem _ hz)]

theorem matchesEntry_iff (tol : Correlation) (t e : Defect) : matchesEntry tol t e = true ↔
    10 * (t.md - e.md).natAbs ≤ tol.md ∧ (t.cd - e.cd).natAbs ≤ tol.cd := by simp [matchesEntry]

/-- R119: the two tests of a match against a TRAIL candidate. -/
def entryTest (b : Base) (c : Candidate) (e : Candidate) : Bool :=
  matchesEntry (b.banks.contents .trail).correlation c.record e.record

theorem takeTrail_match (b : Base) {c e : Candidate} {rest : List Candidate} {i : Insp}
    (h : takeFirst (entryTest b c) i.corr.list = some (e, rest)) : takeTrail b c i = { i with
      corr := { i.corr with list := rest, matchCount := min (i.corr.matchCount + 1) 4294967295 },
      out := i.out.route (b.banks.contents .trail).policy.through.level (b.banks.contents .trail).policy.through.slot
        (.through e.record c.record (c.record.md - e.record.md) (c.record.cd - e.record.cd)) } := by
  unfold takeTrail
  split
  · rename_i e' rest' hfirst
    obtain ⟨rfl, rfl⟩ : e' = e ∧ rest' = rest := by simpa using hfirst.symm.trans h
    rfl
  · rename_i hnone
    cases hnone.symm.trans h

theorem takeTrail_alone (b : Base) {c : Candidate} {i : Insp} (h : takeFirst (entryTest b c) i.corr.list = none) :
    takeTrail b c i = { i with
      corr := { i.corr with trailOnly := min (i.corr.trailOnly + 1) 4294967295 },
      out := i.out.route c.level c.slot (.defect { c.record with mark := .trailOnly }) } := by
  unfold takeTrail
  split
  · rename_i hfirst
    cases hfirst.symm.trans h
  · rfl

/-- The waiting TRAIL work after a change. -/
def Insp.withTrail (i : Insp) (l : List TrailWork) : Insp := { i with corr := { i.corr with trailWork := l } }

/-- No expiry test stands at the front. -/
def FrontTaken (l : List TrailWork) : Prop := ∀ p m, l.head? ≠ some (.expiry p m)

theorem settleTrail_front {l : List TrailWork} (h : FrontTaken l) (i : Insp) : settleTrail l i = i.withTrail l := by
  match l with
  | [] => rfl
  | .candidate c :: rest => rfl
  | .expiry p m :: rest => exact absurd rfl (h p m)

theorem settleTrail_tests (tests : List (Int × Int)) {rest : List TrailWork} (h : FrontTaken rest) (i : Insp) :
    settleTrail (tests.map (fun e => TrailWork.expiry e.1 e.2) ++ rest) i =
      (tests.foldl (fun i e => expire e.1 e.2 i) i).withTrail rest := by
  induction tests generalizing i with
  | nil => exact settleTrail_front h i
  | cons e tests ih => exact ih _

theorem takeTrail_withTrail (b : Base) (c : Candidate) (l : List TrailWork) (i : Insp) :
    takeTrail b c (i.withTrail l) = (takeTrail b c i).withTrail l := by
  cases h : takeFirst (entryTest b c) i.corr.list with
  | none => rw [takeTrail_alone b h, takeTrail_alone b (i := i.withTrail l) h]; rfl
  | some e => rw [takeTrail_match b h, takeTrail_match b (i := i.withTrail l) h]; rfl

theorem takeNextTrail_candidate (b : Base) {c : Candidate} {rest : List TrailWork} {i : Insp} (h : i.corr.trailWork = .candidate c :: rest) :
    takeNextTrail b i = settleTrail rest (takeTrail b c i) := by
  unfold takeNextTrail
  rw [h]

/-! ### The expiry test (R123) -/

theorem foldl_reportLeadOnly (reason : LeadOnlyReason) (l : List Candidate) (i : Insp) :
    l.foldl (fun i c => reportLeadOnly reason c i) i = { i with
      out := l.foldl (fun o c => o.route (if c.level.rank < c.leadOnlyLevel.rank then c.leadOnlyLevel else c.level) c.slot
        (.defect { c.record with mark := .leadOnly reason })) i.out } := by
  induction l generalizing i with
  | nil => rfl
  | cons c l ih => exact (ih _).trans rfl

theorem expire_eq (p m : Int) (i : Insp) : expire p m i = { i with
    corr := { i.corr with
      list := i.corr.list.filter fun c => decide (p < c.record.md + m),
      expired := min (i.corr.expired + (i.corr.list.filter fun c => decide (c.record.md + m ≤ p)).length) 4294967295 },
    out := (i.corr.list.filter fun c => decide (c.record.md + m ≤ p)).foldl (fun o c =>
      o.route (if c.level.rank < c.leadOnlyLevel.rank then c.leadOnlyLevel else c.level) c.slot
        (.defect { c.record with mark := .leadOnly .expired })) i.out } := by
  have hstay : (fun c => !expiresAt p m c) = fun c : Candidate => decide (p < c.record.md + m) := funext fun c => by
    rw [expiresAt, ← decide_not]
    exact decide_eq_decide.mpr not_le
  unfold expire
  dsimp only
  rw [foldl_reportLeadOnly, hstay]
  rfl

theorem expire_withTrail (p m : Int) (l : List TrailWork) (i : Insp) : expire p m (i.withTrail l) = (expire p m i).withTrail l := by
  rw [expire_eq, expire_eq]
  rfl

theorem expires_withTrail (tests : List (Int × Int)) (l : List TrailWork) (i : Insp) :
    tests.foldl (fun i e => expire e.1 e.2 i) (i.withTrail l) = (tests.foldl (fun i e => expire e.1 e.2 i) i).withTrail l := by
  induction tests generalizing i with
  | nil => rfl
  | cons e tests ih =>
    rw [List.foldl_cons, List.foldl_cons, expire_withTrail, ih]

theorem expire_trailWork (p m : Int) (i : Insp) : (expire p m i).corr.trailWork = i.corr.trailWork := by rw [expire_eq]

theorem withTrail_self {i : Insp} {l : List TrailWork} (h : i.corr.trailWork = l) : i.withTrail l = i := by
  subst h
  rfl

/-! ### A handled TRAIL line at the correlator (R123) -/

/-- What a step of a TRAIL line leaves at the correlator: candidates sent on, and nothing else. -/
def SentOn (i j : Insp) : Prop :=
  ∃ closed : List Candidate, j.corr = { i.corr with trailWork := i.corr.trailWork ++ closed.map .candidate }

theorem SentOn.of_corr {i j : Insp} (h : j.corr = i.corr) : SentOn i j := ⟨[], by rw [h, List.map_nil, List.append_nil]⟩

theorem SentOn.trans {i j k : Insp} (h : SentOn i j) (h' : SentOn j k) : SentOn i k := by
  obtain ⟨l, hl⟩ := h
  obtain ⟨l', hl'⟩ := h'
  exact ⟨l ++ l', by rw [hl', hl, List.map_append, List.append_assoc]⟩

theorem SentOn.foldl {β : Type} {g : Insp → β → Insp} (hg : ∀ i x, SentOn i (g i x)) (l : List β) (i : Insp) : SentOn i (l.foldl g i) := by
  induction l generalizing i with
  | nil => exact SentOn.of_corr rfl
  | cons x l ih => exact (hg i x).trans (ih _)

theorem SentOn.within (b : Base) {l : List Part} {i j : Insp} (h : Within l i j) (hl : Part.corr ∉ l) : SentOn i j :=
  SentOn.of_corr (h b .corr hl)

theorem dispose_sentOn (b : Base) (o : ClassOutcome) (r : Defect) (i : Insp) : SentOn i (dispose b .trail o r i) := by
  cases ho : o.correlate with
  | true => exact ⟨[_], (dispose_correlating b r ho).2⟩
  | false => exact SentOn.of_corr (dispose_reported b r ho).2

theorem sendBlob_sentOn (b : Base) (reason : TruncReason) (line : Option (Word × Int)) (i : Insp) (e : Nat × Blob) :
    SentOn i (sendBlob b .trail reason line i e) := by
  obtain ⟨k, x⟩ := e
  rw [sendBlob_eq b rfl rfl rfl rfl]
  refine SentOn.trans ?_ (dispose_sentOn b _ _ _)
  exact SentOn.of_corr ((excerptAtClose_corr _ _ _ _).trans countClosed_corr)

theorem closeAllBlobs_sentOn (b : Base) (reason : TruncReason) (line : Option (Word × Int)) (i : Insp) :
    SentOn i (closeAllBlobs b .trail reason line i) := by
  rw [closeAllBlobs_eq]
  exact SentOn.trans (SentOn.of_corr (onFace_corr _ _ _)) (SentOn.foldl (fun i e => sendBlob_sentOn b reason line i e) _ _)

theorem endLine_sentOn (b : Base) (h : LineHead) (i : Insp) : SentOn i (endLine b .trail h i) := by
  unfold endLine
  exact SentOn.trans (SentOn.of_corr (onFace_corr _ _ _)) (SentOn.foldl (β := (Nat × Blob) × TruncReason) (fun i e => sendBlob_sentOn b e.2 _ i e.1) _ _)

theorem testSaturation_sentOn (b : Base) (line : Option Word) (i : Insp) : SentOn i (testSaturation .trail line i) :=
  SentOn.within b (Within.testSaturation _ _) (by simp)

theorem handleBlobLine_sentOn (b : Base) (r : LineRecord) (i : Insp) : SentOn i (handleBlobLine b .trail r i) := by
  have hface : ∀ i g, SentOn i (Insp.onFace i .trail g) := fun i g => SentOn.of_corr (onFace_corr _ _ _)
  unfold handleBlobLine
  dsimp only
  refine SentOn.trans ?_ (testSaturation_sentOn b _ _)
  refine SentOn.trans ?_ (endLine_sentOn b _ _)
  refine SentOn.trans ?_ (SentOn.foldl (fun i u => SentOn.within b (Within.linkRun r.head i u) (by simp)) _ _)
  refine SentOn.trans ?_ (hface _ _)
  split
  · exact (hface _ _).trans ((closeAllBlobs_sentOn b _ _ _).trans (testSaturation_sentOn b _ _))
  · exact hface _ _

/-- A line without flags forms no run. -/
theorem formRuns_unflagged (r : LineRecord) (bg : Nat) {cols : Table RecordColumn} (h : ∀ e ∈ cols, e.2.flag = none) :
    formRuns r bg cols none = [] := by
  induction cols with
  | nil => rfl
  | cons e cols ih =>
    obtain ⟨k, c⟩ := e
    have hflag : c.flag = none := h (k, c) List.mem_cons_self
    have hstep : runStep r bg none k c = (none, none) := by
      unfold runStep
      simp only [hflag, Option.map_none]
    unfold formRuns
    dsimp only
    rw [hstep]
    exact ih fun e he => h e (List.mem_cons_of_mem _ he)

theorem runs_unflagged {r : LineRecord} (h : ∀ e ∈ r.cols, e.2.flag = none) (bg : Nat) : r.runs bg = [] := by
  unfold LineRecord.runs
  rw [formRuns_unflagged r bg h]
  rfl

theorem closeAllBlobs_corr_of_none (b : Base) (reason : TruncReason) (line : Option (Word × Int)) {i : Insp}
    (h : (i.face .trail).blob.open_ = []) : (closeAllBlobs b .trail reason line i).corr = i.corr := by
  rw [closeAllBlobs_eq, h]
  exact onFace_corr _ _ _

theorem endLine_corr_of_none (b : Base) (h : LineHead) {i : Insp} (hopen : (i.face .trail).blob.open_ = []) :
    (endLine b .trail h i).corr = i.corr := by
  unfold endLine
  dsimp only
  rw [hopen]
  exact onFace_corr _ _ _

theorem testSaturation_corr (b : Base) (line : Option Word) (i : Insp) : (testSaturation .trail line i).corr = i.corr :=
  Within.testSaturation (f := .trail) line i b .corr (by simp)

/-- The forced close of a coating exit, before the runs of the line. -/
def exitClose (b : Base) (r : LineRecord) (i : Insp) : Insp :=
  if r.exit then testSaturation .trail (some r.head.index) (closeAllBlobs b .trail .pattern (some (r.head.index, r.head.pos)) i) else i

theorem exitClose_corr (b : Base) (r : LineRecord) {i : Insp} (h : (i.face .trail).blob.open_ = []) :
    (exitClose b r i).corr = i.corr := by
  unfold exitClose
  split
  · exact (testSaturation_corr b _ _).trans (closeAllBlobs_corr_of_none b _ _ h)
  · rfl

theorem exitClose_open (b : Base) (r : LineRecord) {i : Insp} (h : (i.face .trail).blob.open_ = []) :
    ((exitClose b r i).face .trail).blob.open_ = [] := by
  unfold exitClose
  split
  · rw [testSaturation_open, closeAllBlobs_open]
  · exact h

/-- With no blob open and no run on the line, nothing is sent on. -/
theorem handleBlobLine_quiet (b : Base) {r : LineRecord} {i : Insp} (hopen : (i.face .trail).blob.open_ = [])
    (hcols : ∀ e ∈ r.cols, e.2.flag = none) : (handleBlobLine b .trail r i).corr = i.corr := by
  have hbegin : ((i.onFace .trail fun x => { x with blob := { x.blob with lastLine := some r.head.index } }).face .trail).blob.open_ = [] := by
    rw [onFace_face]
    exact hopen
  unfold handleBlobLine
  dsimp only
  rw [runs_unflagged hcols]
  rw [testSaturation_corr b, endLine_corr_of_none b, List.take_nil, List.foldl_nil, onFace_corr]
  · exact (exitClose_corr b r hbegin).trans (onFace_corr _ _ _)
  · rw [List.take_nil, List.foldl_nil, onFace_face]
    exact exitClose_open b r hbegin

/-! ### The expiry test after a handled line -/

/-- A record of the TRAIL Blob Builder taken from those that wait, its line in the ring. -/
def trailRecordTaken (r : LineRecord) (rest : List LineRecord) (i : Insp) : Insp :=
  (i.onFace .trail fun x => { x with blob := { x.blob with inbox := rest } }).onFace .trail fun x =>
    { x with blob := { x.blob with ring := enterRing r x.blob.ring } }

theorem takeBlobLine_handled (b : Base) {i : Insp} {r : LineRecord} {rest : List LineRecord} (hin : (i.face .trail).blob.inbox = r :: rest)
    (hcls : r.head.cls = .inspection) (hphase : r.phase ≠ .idle) :
    takeBlobLine b .trail i = queueExpiry b r (handleBlobLine b .trail r (trailRecordTaken r rest i)) := by
  unfold takeBlobLine
  rw [hin]
  refine if_neg ?_
  simp [hcls, hphase]

/-- With no TRAIL work before it the test of a handled line is made at once. -/
theorem queueExpiry_alone (b : Base) (r : LineRecord) {i : Insp} (h : i.corr.trailWork = []) : queueExpiry b r i =
    expire (r.head.pos / 10240) (expiryMargin (b.banks.contents .trail) r.head.pitch) i := by
  unfold queueExpiry
  rw [h]
  exact withTrail_self ((expire_trailWork _ _ _).trans h)

/-- Behind a candidate the test of a handled line waits. -/
theorem queueExpiry_waits (b : Base) (r : LineRecord) {i : Insp} (hne : i.corr.trailWork ≠ []) (hfront : FrontTaken i.corr.trailWork) :
    queueExpiry b r i = i.withTrail (i.corr.trailWork ++
      [.expiry (r.head.pos / 10240) (expiryMargin (b.banks.contents .trail) r.head.pitch)]) := by
  refine settleTrail_front (fun p m => ?_) i
  rw [List.head?_append_of_ne_nil _ hne]
  exact hfront p m

/-- Candidates sent on behind waiting work leave no test at its front. -/
theorem frontTaken_append {l : List TrailWork} (h : FrontTaken l) (closed : List Candidate) : FrontTaken (l ++ closed.map .candidate) := by
  intro p m
  cases l with
  | nil => cases closed <;> simp
  | cons w l => exact h p m

end Sys2Proof.Machine

open Sys2Proof Sys2Proof.Machine

/-- Settles O38: the bin is the sum over its columns, and the record is not used, counted or binned by the decimation. -/
theorem previewPathTakesRecord : Obligations.PreviewPathTakesRecord := by
  refine ⟨fun cols b n value hkeys hvalue hvoid => congrArg (fun x => (x + b / 2) / b) (bin_sum hkeys hvalue hvoid b n), ?_⟩
  rintro f s r rest x p q rfl hin hq rfl
  replace hq : q = previewQueue f := hq.trans (by cases f <;> rfl)
  subst hq
  have htake := takePreviewLine_cons (i := s.dev.insp) hin
  have hx : ((s.dev.insp.onFace f fun x => { x with preview := { x.preview with inbox := rest } }).face f).preview =
      { (s.dev.face f).preview with inbox := rest } := by
    rw [onFace_face]
    rfl
  refine ⟨fun hoff => (next_insp (htake.trans (previewLine_off ?_))).trans ?_,
    fun hcount => (next_insp (htake.trans (previewLine_counts ?_))).trans ?_, fun hpos hdue => ?_⟩
  · rw [hx]
    exact hoff
  · cases f <;> rfl
  · rw [hx]
    exact hcount
  · cases f <;> rfl
  · have hline := htake.trans (previewLine_due (by rw [hx]; exact hpos) (by rw [hx]; exact hdue))
    have hout : ∀ i g, (Insp.onFace i f g).out.queue (previewQueue f) = i.out.queue (previewQueue f) := fun i g => by rw [onFace_out]
    refine ⟨fun hempty => (next_insp (hline.trans (takeSlot_empty ?_))).trans ?_,
      fun e tail hfull => (next_insp (hline.trans (takeSlot_full (e := e) (rest := tail) ?_))).trans ?_⟩
    · rw [hout, hout]
      exact hempty
    · cases f <;> rfl
    · rw [hout, hout]
      exact hfull
    · cases f <;> rfl

/-- Settles O39: a candidate joins the list, of which a full one has lost its head. -/
theorem leadCandidateJoinsPendingList : Obligations.LeadCandidateJoinsPendingList := by
  rintro s c rest x rfl hwork
  have hexec : exec .leadCandidate s = .next { s with dev := { s.dev with
      insp := takeLead c { s.dev.insp with corr := { s.dev.insp.corr with leadWork := rest } } } } := by
    show Host.Outcome.next { s with dev := { s.dev with insp := takeNextLead s.dev.insp } } = _
    unfold takeNextLead
    rw [hwork]
  exact ⟨fun hroom => hexec.trans (next_insp (takeLead_room hroom)),
    fun e tail hl hfull => hexec.trans (next_insp (takeLead_full hl hfull))⟩

/-- Settles O40: the search finds the first entry that passes both tests, or none. -/
theorem trailCandidateSearchesPendingList : Obligations.TrailCandidateSearchesPendingList := by
  rintro s c rest x md cd rfl hwork hfront rfl rfl
  have hexec : exec .trailCandidate s = .next { s with dev := { s.dev with
      insp := (takeTrail s.dev.base c s.dev.insp).withTrail rest } } := by
    show Host.Outcome.next { s with dev := { s.dev with insp := takeNextTrail s.dev.base s.dev.insp } } = _
    rw [takeNextTrail_candidate s.dev.base hwork, settleTrail_front hfront]
  have htest : ∀ e : Candidate, entryTest s.dev.base c e = true ↔ _ := fun e => matchesEntry_iff _ _ _
  have hfalse : ∀ e : Candidate, ¬ (_ ∧ _) → entryTest s.dev.base c e = false := fun e he =>
    Bool.eq_false_iff.mpr fun h => he ((htest e).mp h)
  refine ⟨fun before e after hl hmd hcd hbefore => ?_, fun hnone => ?_⟩
  · have hfirst : takeFirst (entryTest s.dev.base c) s.dev.insp.corr.list = some (e, before ++ after) := by
      rw [hl]
      exact takeFirst_of_first ((htest e).mpr ⟨hmd, hcd⟩) fun y hy => hfalse y (hbefore y hy)
    exact hexec.trans (next_insp (congrArg (Insp.withTrail · rest) (takeTrail_match s.dev.base hfirst)))
  · have halone := takeTrail_alone s.dev.base (i := s.dev.insp) (takeFirst_eq_none fun y hy => hfalse y (hnone y hy))
    exact hexec.trans (next_insp (congrArg (Insp.withTrail · rest) halone))

/-- Settles O41: the test in closed form; it is made at once with no TRAIL work before it, and else after the candidate it waits
behind, with which it commutes. -/
theorem expiryRemovesPassedEntries : Obligations.ExpiryRemovesPassedEntries := by
  refine ⟨fun p m i => ⟨by rw [expire_eq], by rw [expire_eq], fun b => Within.expire p m i b⟩, ?margin, ?quiet, ?waits, ?made⟩
  case margin =>
    rintro c pitch d rfl
    unfold expiryMargin ceilDiv
    omega
  case quiet =>
    intro s r rest hin hcls hphase hwork hopen hcols
    refine ⟨_, rfl, ?_⟩
    show (takeBlobLine s.dev.base .trail s.dev.insp).corr.list = _
    have hcorr : (handleBlobLine s.dev.base .trail r (trailRecordTaken r rest s.dev.insp)).corr = s.dev.insp.corr :=
      handleBlobLine_quiet s.dev.base hopen hcols
    rw [takeBlobLine_handled s.dev.base hin hcls hphase, queueExpiry_alone _ _ (by rw [hcorr]; exact hwork), expire_eq, hcorr]
  case waits =>
    rintro s r rest x p m hin hcls hphase rfl hfront rfl rfl
    obtain ⟨closed, hclosed⟩ := handleBlobLine_sentOn s.dev.base r (trailRecordTaken r rest s.dev.insp)
    refine ⟨_, closed, handleBlobLine s.dev.base .trail r (trailRecordTaken r rest s.dev.insp), rfl, hclosed, fun hnone => ?_,
      fun hsome => ?_⟩
    · exact (takeBlobLine_handled s.dev.base hin hcls hphase).trans (queueExpiry_alone _ _ hnone)
    · refine (takeBlobLine_handled s.dev.base hin hcls hphase).trans ((queueExpiry_waits _ _ hsome ?_).trans ?_)
      · rw [hclosed]
        exact frontTaken_append hfront closed
      · rw [Insp.withTrail, hclosed]
        rfl
  case made =>
    rintro s t c tests rest i hwork hfront ht rfl
    have hsearch : takeNextTrail s.dev.base (s.dev.insp.withTrail [.candidate c]) = (takeTrail s.dev.base c s.dev.insp).withTrail [] := by
      rw [takeNextTrail_candidate s.dev.base (rest := []) rfl, takeTrail_withTrail]
      rfl
    have htake : Host.Outcome.next { s with dev := { s.dev with insp := takeNextTrail s.dev.base (s.dev.insp.withTrail [.candidate c]) } } =
        .next t := ht
    rw [hsearch] at htake
    cases htake
    have hall : takeNextTrail s.dev.base s.dev.insp =
        (tests.foldl (fun i e => expire e.1 e.2 i) (takeTrail s.dev.base c s.dev.insp)).withTrail rest :=
      (takeNextTrail_candidate s.dev.base hwork).trans (settleTrail_tests tests hfront _)
    refine (next_insp hall).trans (next_insp ?_)
    rw [expires_withTrail]
    rfl

end

section
/-! R40, R41, R61, R89, R99 to R101: correction, classification, and a streak column's accumulator on one line. -/

namespace Sys2Proof.Machine

open Sys2Proof

/-! ### Correction (R40, R41) -/

/-- Rounding half up: the rounded value of a product over 4096 is at most `n` exactly when the product lies below n and a half. -/
theorem correctionRounded_le_iff (s : Nat) (e : FlatEntry) (n : Int) :
    correctionRounded s e ≤ n ↔ ((s : Int) - e.dark) * e.gain < 4096 * n + 2048 := by
  unfold correctionRounded
  generalize ((s : Int) - e.dark) * e.gain = x
  omega

theorem le_correctionRounded_iff (s : Nat) (e : FlatEntry) (n : Int) :
    n ≤ correctionRounded s e ↔ 4096 * n - 2048 ≤ ((s : Int) - e.dark) * e.gain := by
  unfold correctionRounded
  generalize ((s : Int) - e.dark) * e.gain = x
  omega

theorem correctionRounded_unity (s : Nat) : correctionRounded s { dark := 0, gain := 4096 } = s := by
  have hunity : correctionRounded s { dark := 0, gain := 4096 } = (((s : Int) - (0 : Nat)) * (4096 : Nat) + 2048) / 4096 := rfl
  rw [hunity]
  omega

theorem corrected_saturated (e : FlatEntry) : corrected 4095 e = 4095 := if_pos rfl

theorem corrected_below {s : Nat} (h : s < 4095) (e : FlatEntry) :
    corrected s e = (max 0 (min (correctionRounded s e) 4095)).toNat := if_neg (by omega)

theorem isClipped_iff (s : Nat) (e : FlatEntry) : isClipped s e = true ↔ s = 4095 ∨ 4095 < correctionRounded s e := by
  unfold isClipped
  rw [Bool.or_eq_true, decide_eq_true_iff, decide_eq_true_iff]

/-! ### Classification (R89) -/

theorem classify_rule {c : Contents} {pol : Polarity} {area width length k : Nat} (hk : k < 8)
    (h : (c.rule k).matchesBlob pol area width length = true)
    (hbelow : ∀ j < k, (c.rule j).matchesBlob pol area width length = false) :
    classify c false pol area width length = {
      code := k, correlate := (c.rule k).correlate, counts := (c.rule k).counts, excerpt := (c.rule k).excerpt,
      level := (c.rule k).level, slot := (c.rule k).slot } := by
  have hfind : (List.range 8).find? (fun k => (c.rule k).matchesBlob pol area width length) = some k := by
    rw [range_split hk, List.find?_append, List.find?_eq_none.mpr fun j hj => by simp [hbelow j (List.mem_range.mp hj)],
      Option.none_or]
    exact List.find?_cons_of_pos h
  unfold classify
  rw [hfind]
  rfl

theorem classify_none {c : Contents} {pol : Polarity} {area width length : Nat}
    (h : ∀ k < 8, (c.rule k).matchesBlob pol area width length = false) :
    classify c false pol area width length = {
      code := 9, correlate := false, counts := c.policy.unclassedCounts, excerpt := false,
      level := c.policy.unclassed.level, slot := c.policy.unclassed.slot } := by
  have hfind : (List.range 8).find? (fun k => (c.rule k).matchesBlob pol area width length) = none :=
    List.find?_eq_none.mpr fun k hk => by simp [h k (List.mem_range.mp hk)]
  unfold classify
  rw [hfind]
  rfl

theorem admits_iff (r : RulePolarity) (pol : Polarity) : r.admits pol = true ↔
    r = .either ∨ r = .bright ∧ pol = .bright ∨ r = .dark ∧ pol = .dark := by
  cases r <;> cases pol <;> decide

/-! ### A column's accumulator (R100, R101) -/

theorem inSpans_iff (l : List (Nat × Nat)) (c : Nat) : inSpans l c = true ↔ ∃ e ∈ l, e.1 ≤ c ∧ c ≤ e.2 := by
  simp [inSpans]

theorem detects_false_iff (k : PlanKind) : (!k.detects) = true ↔ k = .margin ∨ k = .exclude ∨ k = .unmapped := by
  cases k <;> decide

theorem columnKind_planned {plan : Option Plan} {lit : List (Nat × Nat)} {c : Nat} {k : PlanKind} :
    columnKind plan lit c = .planned k ↔ (∃ e ∈ lit, e.1 ≤ c ∧ c ≤ e.2) ∧ ∃ p, plan = some p ∧ (planEntry p c).kind = k := by
  rw [← inSpans_iff]
  unfold columnKind
  split_ifs with hlit
  · cases plan with
    | none => simp
    | some p => simp [hlit]
  · simp [hlit]

theorem zeroes_iff (r : LineRecord) (c : Nat) : zeroes r c = true ↔ r.head.cls = .inspection ∧ r.phase ≠ .idle ∧
    ∃ k, columnKind r.plan r.lit c = .planned k ∧ (k = .margin ∨ k = .exclude ∨ k = .unmapped) := by
  unfold zeroes
  rw [Bool.and_eq_true, Bool.and_eq_true, decide_eq_true_iff, decide_eq_true_iff, and_assoc]
  refine and_congr_right fun _ => and_congr_right fun _ => ?_
  cases hk : columnKind r.plan r.lit c with
  | planned k =>
    refine (detects_false_iff k).trans ⟨fun h => ⟨k, rfl, h⟩, ?_⟩
    rintro ⟨_, ⟨⟩, h⟩
    exact h
  | dark => exact ⟨fun h => by simp at h, fun ⟨_, h, _⟩ => by simp at h⟩
  | absent => exact ⟨fun h => by simp at h, fun ⟨_, h, _⟩ => by simp at h⟩

theorem detects_iff (y : RecordColumn) : y.detects = true ↔ ∃ e, y.entry = some e ∧ (e.kind = .lane ∨ e.kind = .guard) := by
  unfold RecordColumn.detects
  cases y.entry with
  | none => simp
  | some e => cases hk : e.kind <;> simp [hk, PlanKind.detects]

section Column

variable {b : Base} {f : FaceId} {r : LineRecord} {i : Insp} {c : Nat}

theorem streakColumn_zeroed (h : zeroes r c = true) :
    streakColumn b f r i c = i.onStreaks f fun x => x.setCol c (StreakColumn.quiet 0) := if_pos h

theorem streakColumn_held (h : zeroes r c = false) (he : ∀ e ∈ r.cols, e.1 = c → eligible r e.2 = false) :
    streakColumn b f r i c = i := by
  refine (if_neg (by rw [h]; decide)).trans ?_
  split
  · rename_i e hfind
    have hcol : e.1 = c := by simpa using List.find?_some hfind
    exact if_neg (by rw [he e (List.mem_of_find?_eq_some hfind) hcol]; decide)
  · rfl

theorem streakColumn_eligible {y : RecordColumn} (h : zeroes r c = false) (hfind : r.cols.find? (fun e => decide (e.1 = c)) = some (c, y))
    (he : eligible r y = true) : streakColumn b f r i c = eligibleStep b f r c y i := by
  refine (if_neg (by rw [h]; decide)).trans ?_
  rw [hfind]
  exact if_pos he

/-- The accumulator of a column. -/
def accOf (f : FaceId) (i : Insp) (c : Nat) : Int := ((i.streaks f).col c).acc

/-- Two states of a face's streak block with the same accumulators. -/
def SameAccs (f : FaceId) (i j : Insp) : Prop := ∀ c, accOf f j c = accOf f i c

theorem SameAccs.trans {i j k : Insp} (h : SameAccs f i j) (h' : SameAccs f j k) : SameAccs f i k := fun c => (h' c).trans (h c)

theorem SameAccs.of_cols {i j : Insp} (h : (j.streaks f).cols = (i.streaks f).cols) : SameAccs f i j := fun c => by
  unfold accOf Streaks.col
  rw [h]

theorem SameAccs.foldl {β : Type} {g : Insp → β → Insp} (hg : ∀ i x, SameAccs f i (g i x)) (l : List β) (i : Insp) :
    SameAccs f i (l.foldl g i) := by
  induction l generalizing i with
  | nil => exact fun _ => rfl
  | cons x l ih => exact (hg i x).trans (ih _)

/-- A column written with its own accumulator. -/
theorem SameAccs.of_set {i j : Insp} {c : Nat} {v : StreakColumn}
    (h : (j.streaks f).cols = tset (StreakColumn.quiet 0) (i.streaks f).cols c v) (hv : v.acc = accOf f i c) : SameAccs f i j := fun k => by
  unfold accOf Streaks.col
  rw [h, tget_tset]
  split_ifs with hk
  · subst hk
    exact hv
  · rfl

theorem mergeStreak_accs (line : Option (Word × Int)) (k : Nat) (i : Insp) (y : Nat × Streak) :
    SameAccs f i (mergeStreak b f line k i y) := fun c => by
  unfold mergeStreak accOf
  dsimp only
  rw [closeStreak_streaks, onStreaks_streaks]
  show (tget (StreakColumn.quiet 0) (Streaks.onStreak _ k _).cols c).acc = _
  rw [onStreak_cols, tget_renumber]
  split_ifs <;> rfl

theorem sendEvent_streaks (src : EventSource) (e : CountedEvent) (i : Insp) : (sendEvent f src e i).streaks f = i.streaks f := by
  simp [sendEvent, Insp.streaks]

theorem openStreak_accs (pix : RecordColumn) (level : Int) (k : Nat) (i : Insp) : SameAccs f i (openStreak b f r c pix level k i) := by
  refine SameAccs.of_set (c := c) (v := { StreakColumn.quiet ((i.streaks f).col c).acc with state := .streak, number := k }) ?_ rfl
  unfold openStreak
  dsimp only
  split
  · rw [route_streaks, onStreaks_streaks]
    rfl
  · rw [sendEvent_streaks, route_streaks, onStreaks_streaks]
    rfl

theorem holdOnset_accs (h : LineHead) (i : Insp) : SameAccs f i (holdOnset f h i) := by
  refine SameAccs.of_cols ?_
  unfold holdOnset offerStreakSaturation
  dsimp only
  split
  · rw [onStreaks_streaks]
  · rw [offerStatus_streaks, onStreaks_streaks]

theorem join_accs_same (k : Nat) (level : Int) (i : Insp) : SameAccs f i (i.onStreaks f fun x => x.join c k level) := by
  refine SameAccs.of_set (c := c) (v := { StreakColumn.quiet ((i.streaks f).col c).acc with state := .streak, number := k }) ?_ rfl
  rw [onStreaks_streaks]
  unfold Streaks.join
  dsimp only
  rw [onStreak_cols]
  rfl

theorem enterStreak_accs (pix : RecordColumn) (level : Int) (i : Insp) : SameAccs f i (enterStreak b f r c pix level i) := by
  unfold enterStreak
  dsimp only
  split
  · split
    · exact openStreak_accs pix level _ i
    · exact holdOnset_accs r.head i
  · refine SameAccs.trans ?_ (join_accs_same _ level _)
    exact SameAccs.foldl (fun i y => mergeStreak_accs _ _ i y) _ i

/-- R101: the accumulator of a column after an eligible line. -/
theorem eligibleStep_acc (y : RecordColumn) (i : Insp) : accOf f (eligibleStep b f r c y i) c =
    accumulate (accOf f i c) y.dev (b.banks.contents f).detection.leak (b.banks.contents f).detection.clip := by
  unfold eligibleStep
  dsimp only
  split
  · unfold accOf Streaks.col
    rw [onStreaks_streaks, onStreak_cols]
    exact (congrArg StreakColumn.acc (tget_tset_same _ _ _ _)).trans (memberStep_acc _ _ _)
  · have hset : ∀ v : StreakColumn, accOf f (i.onStreaks f fun x => x.setCol c v) c = v.acc := fun v => by
      unfold accOf Streaks.col
      rw [onStreaks_streaks]
      exact congrArg StreakColumn.acc (tget_tset_same _ _ _ _)
    split
    · rw [enterStreak_accs, hset]
      exact onsetStep_acc _ _ _ _
    · rw [hset]
      exact onsetStep_acc _ _ _ _

end Column

end Sys2Proof.Machine

open Sys2Proof Sys2Proof.Machine

/-- Settles O29: the rounded product against each of its bounds. -/
theorem correctionRoundsHalfUp : Obligations.CorrectionRoundsHalfUp := by
  intro s e hs
  refine ⟨corrected_le s e, corrected_saturated e, (isClipped_iff _ _).mpr (.inl rfl), ?unity, fun hbelow => ⟨?above, ?under, ?clipped⟩⟩
  case unity =>
    obtain rfl | hlt := Nat.eq_or_lt_of_le hs
    · exact corrected_saturated _
    · rw [corrected_below hlt, correctionRounded_unity]
      omega
  case above =>
    intro hpos
    rw [← le_correctionRounded_iff]
    rw [corrected_below hbelow] at hpos ⊢
    omega
  case under =>
    intro hlt
    rw [← correctionRounded_le_iff]
    rw [corrected_below hbelow] at hlt ⊢
    omega
  case clipped =>
    rw [isClipped_iff, ← Int.add_one_le_iff, le_correctionRounded_iff]
    omega

/-- Settles O35: the first rule that matches, none, or the length limit. -/
theorem classificationTakesLowestRule : Obligations.ClassificationTakesLowestRule := by
  intro c pol area width length
  refine ⟨⟨rfl, rfl, rfl, rfl, rfl, rfl⟩, fun k hk h hbelow => classify_rule hk h hbelow, classify_none, fun r => ?_⟩
  unfold ClassRule.matchesBlob
  simp only [Bool.and_eq_true, decide_eq_true_iff, admits_iff, and_assoc]

/-- Settles O37: zeroed, held, or stepped, by the line. -/
theorem streakColumnAccumulates : Obligations.StreakColumnAccumulates := by
  refine ⟨fun r c => ?zeroed, fun b f r i c hz he => streakColumn_held hz he, fun b f r i c k hcls hphase hkind hlane hguard => ?quiet,
    fun b f r i c y d hz hfind he hd => ?acc, fun r y => ?eligible⟩
  case zeroed =>
    rw [zeroes_iff]
    refine and_congr_right fun _ => and_congr_right fun _ => ⟨?_, ?_⟩
    · rintro ⟨k, hk, hkind⟩
      obtain ⟨hlit, p, hp, rfl⟩ := columnKind_planned.mp hk
      exact ⟨hlit, p, hp, hkind⟩
    · rintro ⟨hlit, p, hp, hkind⟩
      exact ⟨_, columnKind_planned.mpr ⟨hlit, p, hp, rfl⟩, hkind⟩
  case quiet =>
    refine streakColumn_zeroed ((zeroes_iff r c).mpr ⟨hcls, hphase, k, hkind, ?_⟩)
    cases k <;> simp_all
  case acc =>
    subst hd
    rw [streakColumn_eligible hz hfind he]
    refine (eligibleStep_acc y i).trans ?_
    unfold accumulate streakLevel clampInt
    push_cast
    rfl
  case eligible =>
    unfold eligible
    simp only [Bool.and_eq_true, decide_eq_true_iff, detects_iff, and_assoc]

end

section
/-! R64 to R66, R69 to R72: patch marks, the pattern step event by event, and the zone of a line. -/

namespace Sys2Proof.Machine

open Sys2Proof

/-! ### Marks (R64) -/

theorem marksCount_iff (b : Base) : b.marksCount = true ↔ b.banks.running = true ∧
    (0 < (b.banks.contents .lead).pattern.g ∨ 0 < (b.banks.contents .trail).pattern.g) := by
  simp [Base.marksCount]

theorem patchMark_ignored {s : State} (h : ¬ s.dev.base.marksCount = true) : exec .patchMark s = .next s := if_neg h

theorem patchMark_counted {s : State} (h : s.dev.base.marksCount = true) {ms : Marks}
    (hms : s.dev.insp.marks.event s.dev.base.motion.h = ms) :
    exec .patchMark s = .next { s with dev := { s.dev with insp := { s.dev.insp with marks := ms } } } := by
  subst hms
  exact if_pos h

theorem event_repeated {ms : Marks} {h : Int} (hl : ms.lastAccepted = some h) :
    ms.event h = { ms with repeated := min (ms.repeated + 1) 4294967295 } := if_pos hl

theorem event_dropped {ms : Marks} {h : Int} (hl : ms.lastAccepted ≠ some h) (hfull : 16 ≤ ms.list.length) :
    ms.event h = { ms with dropped := min (ms.dropped + 1) 4294967295 } := (if_neg hl).trans (if_pos hfull)

theorem event_accepted {ms : Marks} {h : Int} (hl : ms.lastAccepted ≠ some h) (hroom : ms.list.length < 16) :
    ms.event h = { ms with
      list := ms.list ++ [{ h := h, leadHandled := false, trailHandled := false }], lastAccepted := some h,
      accepted := min (ms.accepted + 1) 4294967295 } := (if_neg hl).trans (if_neg (not_le.mpr hroom))

/-! ### The next event of a step (R71) -/

section Event

variable {b : Base} {f : FaceId} {h : LineHead} {i : Insp}

theorem nextEvent_none (he : ∀ e ∈ nextEdge b f i, h.pos < e) (hl : ∀ l ∈ nextLimit b f i, h.pos < l) : nextEvent b f h i = none := by
  unfold nextEvent
  cases hedge : nextEdge b f i with
  | none =>
    cases hlimit : nextLimit b f i with
    | none => rfl
    | some l => exact if_neg (not_le.mpr (hl l hlimit))
  | some e =>
    have hpos := he e hedge
    cases hlimit : nextLimit b f i with
    | none => exact if_neg (not_le.mpr hpos)
    | some l =>
      have hpos' := hl l hlimit
      dsimp only
      rw [if_neg (not_le.mpr hpos), if_neg (not_le.mpr hpos'), ite_self]

theorem nextEvent_edge {e : Int} (he : nextEdge b f i = some e) (hpos : e ≤ h.pos) (hl : ∀ l ∈ nextLimit b f i, e ≤ l) :
    nextEvent b f h i = some (reachEdge b f h e i) := by
  unfold nextEvent
  rw [he]
  cases hlimit : nextLimit b f i with
  | none => exact if_pos hpos
  | some l => exact (if_pos (hl l hlimit)).trans (if_pos hpos)

theorem nextEvent_limit {l : Int} (hl : nextLimit b f i = some l) (hpos : l ≤ h.pos) (he : ∀ e ∈ nextEdge b f i, l < e) :
    nextEvent b f h i = some (reachLimit b f h i) := by
  unfold nextEvent
  rw [hl]
  cases hedge : nextEdge b f i with
  | none => exact if_pos hpos
  | some e => exact (if_neg (not_le.mpr (he e hedge))).trans (if_pos hpos)

theorem patternStep_of_event {j : Insp} (hj : nextEvent b f h i = some j) : patternStep b f h i = patternStep b f h j := by
  rw [patternStep_next, hj]

theorem patternStep_of_none (hn : nextEvent b f h i = none) : patternStep b f h i = i := by
  rw [patternStep_next, hn]

/-- R65: the edge of a face's oldest waiting entry, written out. -/
theorem nextEdge_eq : nextEdge b f i = (i.marks.list.find? fun m => !m.handledBy f).map fun m =>
    m.h + 1024 * ((b.motion.setup.die : Int) + b.registration f) := by
  unfold nextEdge Marks.waiting Base.edgeOf Base.dieOffset fineOf
  rfl

theorem limit_patch {x : Pattern} (p : PatternRecipe) (hs : x.state = some .synced ∨ x.state = some .coasting) :
    x.limit p = x.edge.map fun e => e + 1024 * ((p.c : Int) + p.g) + 1024 * (p.tolerance : Int) := by
  unfold Pattern.limit
  obtain hs | hs := hs
  all_goals
    rw [hs]
    cases x.edge <;> rfl

theorem limit_seeking {x : Pattern} (p : PatternRecipe) (hs : x.state = some .seeking) :
    x.limit p = x.seek.map fun o => o + 1024 * ((p.c : Int) + p.g) + 1024 * (p.tolerance : Int) := by
  unfold Pattern.limit
  rw [hs]
  cases x.seek <;> rfl

theorem limit_never {x : Pattern} (p : PatternRecipe) (hs : x.state = some .continuous ∨ x.state = some .lost ∨ x.state = none) :
    x.limit p = none := by
  unfold Pattern.limit
  obtain hs | hs | hs := hs
  all_goals rw [hs]

/-! ### An edge (R65, R69) -/

/-- R65: the face's oldest waiting entry is handled, and leaves once both faces have handled it. -/
theorem consume_split {ms : Marks} {before after : List Mark} {m : Mark} (hl : ms.list = before ++ m :: after)
    (hbefore : ∀ k ∈ before, k.handledBy f = true) (hm : m.handledBy f = false) :
    ms.consume f = { ms with list := (before ++ m.handle f :: after).filter fun k => !(k.leadHandled && k.trailHandled) } := by
  unfold Marks.consume
  rw [hl, handleFirst_split f before after m hbefore hm]

variable {e : Int}

/-- The line side once the face's oldest waiting entry is handled. -/
def Insp.consumed (i : Insp) (f : FaceId) : Insp := { i with marks := i.marks.consume f }

/-- The pattern state once a patch begins at an edge. -/
def Pattern.begun (x : Pattern) (e : Int) : Pattern :=
  { x with edge := some e, state := some .synced, consumed := count32 x.consumed }

theorem consumed_face : (Insp.face { i with marks := i.marks.consume f } f) = i.face f := by cases f <;> rfl

theorem reachEdge_passed (hs : (i.face f).pattern.state = some .continuous ∨ (i.face f).pattern.state = none) :
    reachEdge b f h e i = i.consumed f := by
  unfold reachEdge
  dsimp only
  obtain hs | hs := hs
  all_goals
    rw [consumed_face, hs]
    rfl

theorem reachEdge_sought (hs : (i.face f).pattern.state = some .seeking) : reachEdge b f h e i =
    (i.consumed f).onFace f fun y => { y with pattern := { (i.face f).pattern.begun e with seek := none } } := by
  unfold reachEdge
  dsimp only
  rw [consumed_face, hs]
  rfl

theorem reachEdge_patch (hs : (i.face f).pattern.state = some .synced ∨ (i.face f).pattern.state = some .coasting) :
    reachEdge b f h e i = if 1024 * ((b.banks.contents f).pattern.c : Int) + (i.face f).pattern.edge.getD e ≤ e then
        (i.consumed f).onFace f fun y => { y with pattern := { (i.face f).pattern.begun e with misses := 0 } }
      else (i.consumed f).onFace f fun y => { y with
        pattern := { (i.face f).pattern with early := count32 (i.face f).pattern.early } } := by
  unfold reachEdge
  dsimp only
  obtain hs | hs := hs
  all_goals
    rw [consumed_face, hs]
    rfl

theorem reachEdge_lost (hs : (i.face f).pattern.state = some .lost) : reachEdge b f h e i =
    ((i.consumed f).onFace f fun y => { y with pattern := { (i.face f).pattern.begun e with misses := 0 } }).offer .p2
      (.status (some f) false (.pattern .lost .synced .mark h.index (h.pos / 10240) (some (e / 10240)))) := by
  unfold reachEdge
  dsimp only
  rw [consumed_face, hs]
  unfold offerPattern Insp.offerStatus
  have hlost : (Insp.onFace { i with marks := i.marks.consume f } f fun y => { y with
      pattern := { (i.face f).pattern.begun e with misses := 0 } }).lost f = false := by
    unfold Insp.lost
    rw [onFace_face]
    rfl
  rw [← hlost]
  rfl

/-! ### A synthesis point and a seek limit (R70) -/

/-- R70: the pattern state after a miss. -/
def Pattern.missed (x : Pattern) : Pattern := { x with misses := x.misses + 1, missTotal := count32 x.missTotal }

theorem reachLimit_patch (hs : (i.face f).pattern.state = some .synced ∨ (i.face f).pattern.state = some .coasting) :
    reachLimit b f h i = if (i.face f).pattern.misses + 1 < 3 then
        i.onFace f fun y => { y with pattern := { (i.face f).pattern.missed with
          state := some .coasting, edge := (i.face f).pattern.edge.map (· + (b.banks.contents f).pattern.repeatLength) } }
      else offerPattern f .coasting .lost .miss h none (i.onFace f fun y => { y with pattern := { (i.face f).pattern.missed with
        state := some .lost, edge := none, lost := count32 (i.face f).pattern.lost } }) := by
  unfold reachLimit
  dsimp only
  obtain hs | hs := hs
  all_goals
    rw [hs]
    rfl

theorem reachLimit_seeking (hs : (i.face f).pattern.state = some .seeking) : reachLimit b f h i =
    offerPattern f .seeking .lost .seek h none (i.onFace f fun y => { y with
      pattern := { (i.face f).pattern with state := some .lost, seek := none, lost := count32 (i.face f).pattern.lost } }) := by
  unfold reachLimit
  dsimp only
  rw [hs]

/-- R72: the report of an entry into LOST is marked unsynchronised. -/
theorem offerPattern_lost {old : PatternState} {cause : PatternCause} {x : Pattern} (hx : x.state = some .lost) :
    offerPattern f old .lost cause h none (i.onFace f fun y => { y with pattern := x }) =
      (i.onFace f fun y => { y with pattern := x }).offer .p2
        (.status (some f) true (.pattern old .lost cause h.index (h.pos / 10240) none)) := by
  have hlost : (i.onFace f fun y => { y with pattern := x }).lost f = true := by
    unfold Insp.lost
    rw [onFace_face]
    exact decide_eq_true hx
  rw [← hlost]
  rfl

end Event

/-! ### The zone (R66) -/

theorem zoneAt_patch {x : Pattern} {p : PatternRecipe} {pos e : Int} (hs : x.state = some .synced ∨ x.state = some .coasting)
    (he : x.edge = some e) : zoneAt x p pos =
      if pos < e + 1024 * (p.gl : Int) then some .leadGuard
      else if pos < e + 1024 * ((p.c : Int) - p.gt) then some .coated
      else if pos < e + 1024 * (p.c : Int) then some .trailGuard
      else some .gap := by
  unfold zoneAt
  obtain hs | hs := hs
  all_goals
    rw [hs]
    dsimp only
    rw [he]
    rfl

end Sys2Proof.Machine

open Sys2Proof Sys2Proof.Machine

/-- Settles O43: the mark event, then the next event of a step, what an edge, a synthesis point and a seek limit do, and the zone. -/
theorem patchMarkEntersMarksList : Obligations.PatchMarkEntersMarksList := by
  refine ⟨?mark, ?step, ?edge, ?limit, ?zone⟩
  case mark =>
    rintro s m h rfl rfl
    refine ⟨fun hidle => patchMark_ignored ?_, fun hrun hg => ?_⟩
    · rw [marksCount_iff]
      rintro ⟨hrun, hg⟩
      obtain hstandby | ⟨hlead, htrail⟩ := hidle
      · rw [hrun] at hstandby
        cases hstandby
      · omega
    · have hcounts := (marksCount_iff s.dev.base).mpr ⟨hrun, hg⟩
      exact ⟨fun hl => patchMark_counted hcounts (event_repeated hl), fun hl hfull => patchMark_counted hcounts (event_dropped hl hfull),
        fun hl hroom => patchMark_counted hcounts (event_accepted hl hroom)⟩
  case step =>
    rintro b f h i x p edge limit rfl rfl hedge hlimit
    replace hedge : edge = nextEdge b f i := by
      rw [hedge, nextEdge_eq]
      cases f <;> rfl
    replace hlimit : limit = nextLimit b f i := by
      rw [hlimit]
      unfold nextLimit
      cases hs : (i.face f).pattern.state with
      | none => exact (limit_never _ (.inr (.inr hs))).symm
      | some st =>
        cases st with
        | continuous => exact (limit_never _ (.inl hs)).symm
        | lost => exact (limit_never _ (.inr (.inl hs))).symm
        | seeking => exact (limit_seeking _ hs).symm
        | synced => exact (limit_patch _ (.inl hs)).symm
        | coasting => exact (limit_patch _ (.inr hs)).symm
    subst hedge hlimit
    exact ⟨fun he hl => patternStep_of_none (nextEvent_none he hl),
      fun e he hpos hl => patternStep_of_event (nextEvent_edge he hpos hl),
      fun l hl hpos he => patternStep_of_event (nextEvent_limit hl hpos he)⟩
  case edge =>
    rintro b f h e i j x y p before after m m' rfl rfl hl hbefore hm hhandled rfl hj
    have hbefore' : ∀ k ∈ before, k.handledBy f = true := fun k hk => by
      have hk := hbefore k hk
      cases f <;> exact hk
    have hm' : m.handledBy f = false := by cases f <;> exact hm
    replace hhandled : m' = m.handle f := by
      rw [hhandled]
      cases f <;> rfl
    obtain rfl : j = i.consumed f := by
      unfold Insp.consumed
      rw [consume_split hl hbefore' hm', hj, hhandled]
    refine ⟨reachEdge_passed, reachEdge_sought, fun hs old hold => ⟨fun hend => ?_, fun hin => ?_⟩, reachEdge_lost⟩
    · refine (reachEdge_patch hs).trans (if_pos ?_)
      rw [hold, Option.getD_some]
      omega
    · refine (reachEdge_patch hs).trans (if_neg ?_)
      rw [hold, Option.getD_some]
      omega
  case limit =>
    rintro b f h i x y p rfl rfl rfl
    refine ⟨fun hs old hold => ⟨fun hfew => ?_, fun hmany => ?_⟩, fun hs => ?_⟩
    · rw [reachLimit_patch hs, if_pos (by omega), hold]
      rfl
    · rw [reachLimit_patch hs, if_neg (by omega), offerPattern_lost rfl]
      rfl
    · rw [reachLimit_seeking hs, offerPattern_lost rfl]
      rfl
  case zone =>
    intro x p pos
    refine ⟨?_, fun hs => ?_, fun hs => ?_, fun hs e he => ?_⟩
    · rintro (hs | hs)
      all_goals
        unfold zoneAt
        rw [hs]
    · unfold zoneAt
      rw [hs]
    · unfold zoneAt
      rw [hs]
    · rw [zoneAt_patch hs he]
      refine ⟨fun h => if_pos h, fun h1 h2 => ?_, fun h1 h2 h3 => ?_, fun h1 h2 h3 => ?_⟩
      · rw [if_neg (not_lt.mpr h1), if_pos h2]
      · rw [if_neg (not_lt.mpr h1), if_neg (not_lt.mpr h2), if_pos h3]
      · rw [if_neg (not_lt.mpr h1), if_neg (not_lt.mpr h2), if_neg (not_lt.mpr h3)]

end

section
/-! R19 to R21, R33: the tests of a placement in order, the record it stores, the slots it empties and the head it reports. -/

namespace Sys2Proof.Machine

open Sys2Proof

/-! ### The tests (R19) -/

section Tests

variable {c : Command} {d : Dev}

theorem placementWrite_busy
    (h : d.base.banks.running = true ∨ d.base.banks.bank0.state = .checking ∨ d.base.banks.bank1.state = .checking) :
    placementWrite c d = refuse d .state := by
  refine if_pos ?_
  simpa [Banks.isChecking] using h

variable (hrun : d.base.banks.running = false) (h0 : d.base.banks.bank0.state ≠ .checking)
  (h1 : d.base.banks.bank1.state ≠ .checking)
include hrun h0 h1

/-- R19: what is left once the STATE tests pass. -/
theorem placementWrite_open : placementWrite c d = if d.base.sens.locked then refuse d .locked
    else if 3 < c.nat 0 then refuse d .range
    else match readPlacement c with
      | none => refuse d .range
      | some p =>
        if p.fits = false then refuse d .range
        else if d.base.overlaps (c.nat 0) p then refuse d .overlap
        else taken (place (c.nat 0) p d) [] := by
  refine (if_neg ?_).trans rfl
  rw [hrun, Bool.false_or, (isChecking_false_iff _).mpr ⟨h0, h1⟩]
  decide

theorem placementWrite_locked (hlock : d.base.sens.locked = true) : placementWrite c d = refuse d .locked :=
  (placementWrite_open hrun h0 h1).trans (if_pos hlock)

theorem placementWrite_unread (hlock : d.base.sens.locked = false)
    (hread : 3 < c.nat 0 ∨ ∀ p, readPlacement c = some p → p.fits = false) : placementWrite c d = refuse d .range := by
  rw [placementWrite_open hrun h0 h1, hlock, if_neg Bool.false_ne_true]
  by_cases hport : 3 < c.nat 0
  · exact if_pos hport
  · rw [if_neg hport]
    have hfits := hread.resolve_left hport
    cases hp : readPlacement c with
    | none => rfl
    | some p => exact if_pos (hfits p hp)

theorem placementWrite_read (hlock : d.base.sens.locked = false) (hport : c.nat 0 ≤ 3) {p : Placement}
    (hread : readPlacement c = some p) (hfits : p.fits = true) : placementWrite c d =
      if d.base.overlaps (c.nat 0) p then refuse d .overlap else taken (place (c.nat 0) p d) [] := by
  rw [placementWrite_open hrun h0 h1, hlock, if_neg Bool.false_ne_true, if_neg (not_lt.mpr hport), hread]
  exact if_neg (by rw [hfits]; decide)

end Tests

/-- R19: what the operand words of a placement say once they are read. -/
theorem readPlacement_fields {c : Command} {p : Placement} (h : readPlacement c = some p) :
    c.nat 1 ≤ 1 ∧ c.nat 2 ≤ 1 ∧ c.nat 6 ≤ 1 ∧ c.nat 3 ≤ c.nat 4 ∧ c.nat 4 ≤ 4095 ∧ c.nat 5 ≤ 8191 ∧
      p.first = c.nat 3 ∧ p.last = c.nat 4 ∧ p.origin = c.nat 5 ∧ p.descending = decide (c.nat 6 = 1) := by
  unfold readPlacement at h
  split at h
  next en f desc hen hf hdesc =>
    have h1 : c.nat 1 ≤ 1 := by
      by_contra hgt
      rw [yesNo_above (by omega)] at hen
      cases hen
    have h2 : c.nat 2 ≤ 1 := by
      by_contra hgt
      rw [faceOf_above (by omega)] at hf
      cases hf
    have h6 : c.nat 6 ≤ 1 := by
      by_contra hgt
      rw [yesNo_above (by omega)] at hdesc
      cases hdesc
    split_ifs at h with hrange
    obtain ⟨hspan, hlast, horigin⟩ := hrange
    cases h
    rw [yesNo_within h6] at hdesc
    exact ⟨h1, h2, h6, hspan, Nat.le_of_lt_succ hlast, Nat.le_of_lt_succ horigin, rfl, rfl, rfl, (Option.some.inj hdesc).symm⟩
  next => cases h

/-- R19: a frame that carries a record whose fields are in range reads as that record. -/
theorem readPlacement_of_fields {c : Command} {p : Placement} (hen : c.nat 1 = if p.enabled then 1 else 0)
    (hface : c.nat 2 = faceCode p.face) (hfirst : c.nat 3 = p.first) (hlast : c.nat 4 = p.last) (horigin : c.nat 5 = p.origin)
    (hdesc : c.nat 6 = if p.descending then 1 else 0) (hspan : p.first ≤ p.last) (hl : p.last ≤ 4095) (ho : p.origin ≤ 8191) :
    readPlacement c = some p := by
  have hyes : ∀ b : Bool, yesNo (if b then 1 else 0) = some b := by decide
  unfold readPlacement
  rw [hen, hface, hfirst, hlast, horigin, hdesc, hyes, hyes, faceOf_code]
  exact if_pos ⟨hspan, Nat.lt_succ_of_le hl, Nat.lt_succ_of_le ho⟩

theorem fits_iff (p : Placement) :
    p.fits = true ↔ if p.descending then p.last - p.first ≤ p.origin else p.origin + (p.last - p.first) ≤ 8191 := by
  unfold Placement.fits
  split
  · exact decide_eq_true_iff
  · exact decide_eq_true_iff.trans Nat.lt_succ_iff

/-- R19 test 6: one column that two ports of a face both use. -/
def Base.shares (b : Base) (p : Placement) (m col : Nat) : Prop :=
  (b.port m).place.enabled = true ∧ (b.port m).place.face = p.face ∧
    p.span.1 ≤ col ∧ col ≤ p.span.2 ∧ (b.port m).place.span.1 ≤ col ∧ col ≤ (b.port m).place.span.2

theorem span_le (p : Placement) : p.span.1 ≤ p.span.2 := by
  unfold Placement.span
  split
  · exact Nat.sub_le _ _
  · exact Nat.le_add_right _ _

theorem spansMeet_iff {a b : Nat × Nat} (ha : a.1 ≤ a.2) (hb : b.1 ≤ b.2) :
    spansMeet a b = true ↔ ∃ col, b.1 ≤ col ∧ col ≤ b.2 ∧ a.1 ≤ col ∧ col ≤ a.2 := by
  unfold spansMeet
  rw [Bool.and_eq_true, decide_eq_true_iff, decide_eq_true_iff]
  constructor
  · rintro ⟨h1, h2⟩
    exact ⟨max a.1 b.1, le_max_right _ _, max_le h1 hb, le_max_left _ _, max_le ha h2⟩
  · rintro ⟨col, h1, h2, h3, h4⟩
    exact ⟨h3.trans h2, h1.trans h4⟩

theorem overlaps_iff (b : Base) (n : Nat) (p : Placement) :
    b.overlaps n p = true ↔ p.enabled = true ∧ ∃ m ∈ [0, 1, 2, 3], m ≠ n ∧ ∃ col, b.shares p m col := by
  unfold Base.overlaps Base.shares
  rw [Bool.and_eq_true, List.any_eq_true]
  refine and_congr_right fun _ => exists_congr fun m => and_congr_right fun _ => ?_
  rw [Bool.and_eq_true, Bool.and_eq_true, Bool.and_eq_true, decide_eq_true_iff, decide_eq_true_iff,
    spansMeet_iff (span_le _) (span_le _)]
  constructor
  · rintro ⟨⟨⟨hne, hen⟩, hf⟩, col, hcol⟩
    exact ⟨hne, col, hen, hf, hcol⟩
  · rintro ⟨hne, col, hen, hf, hcol⟩
    exact ⟨⟨⟨hne, hen⟩, hf⟩, col, hcol⟩

/-! ### The slots (R21) -/

theorem bound_iff (p : Placement) (f : FaceId) : p.bound = some f ↔ p.enabled = true ∧ p.face = f := by
  unfold Placement.bound
  split
  next hen => exact ⟨fun h => ⟨hen, Option.some.inj h⟩, fun h => congrArg some h.2⟩
  next hoff => exact ⟨nofun, fun h => absurd h.1 hoff⟩

/-- R21: the part once the slots of the faces a port was and is bound to are emptied. -/
def emptied (n : Nat) (p : Placement) (d : Dev) : Dev :=
  emptySlots p.bound (if (d.base.port n).place.bound = p.bound then d else emptySlots (d.base.port n).place.bound d)

theorem emptySlots_face (g : Option FaceId) (d : Dev) (f : FaceId) :
    (emptySlots g d).face f = if g = some f then { d.face f with asm := (d.face f).asm.abandon } else d.face f := by
  cases g with
  | none => rfl
  | some g =>
    by_cases hg : g = f
    · rw [hg, if_pos rfl]
      exact dev_onFace_face _ _ _
    · rw [if_neg fun h => hg (Option.some.inj h)]
      exact onFace_other _ _ (Ne.symm hg)

theorem emptySlots_touches (g : Option FaceId) (d : Dev) : Touches [.asm .lead, .asm .trail] d (emptySlots g d) := by
  cases g with
  | none => exact Touches.refl _ _
  | some g => exact (Touches.onFace (Within.asm _ g _)).mono (by cases g <;> decide)

/-- R21: a face the port was or is bound to is emptied once, the other not at all. -/
theorem emptied_face (n : Nat) (p : Placement) (d : Dev) (f : FaceId) : (emptied n p d).face f =
    if p.bound = some f ∨ (d.base.port n).place.bound = some f then { d.face f with asm := (d.face f).asm.abandon }
    else d.face f := by
  unfold emptied
  rw [emptySlots_face]
  by_cases hsame : (d.base.port n).place.bound = p.bound
  · rw [if_pos hsame]
    exact if_congr (by rw [hsame, or_self]) rfl rfl
  · rw [if_neg hsame, emptySlots_face]
    by_cases hnew : p.bound = some f
    · have hold : ¬ (d.base.port n).place.bound = some f := fun hold => hsame (hold.trans hnew.symm)
      rw [if_neg hold, if_pos hnew, if_pos (Or.inl hnew)]
    · rw [if_neg hnew]
      exact if_congr (by rw [or_iff_right hnew]) rfl rfl

theorem emptied_touches (n : Nat) (p : Placement) (d : Dev) : Touches [.asm .lead, .asm .trail] d (emptied n p d) := by
  refine Touches.trans ?_ (emptySlots_touches _ _)
  split
  · exact Touches.refl _ _
  · exact emptySlots_touches _ _

/-! ### An accepted placement (R21, R33) -/

section Accepted

variable (n : Nat) (p : Placement) (d : Dev)

/-- R21: the head an accepted placement gives its port. -/
def Placement.head (p : Placement) : HeadState := if p.enabled then .active else .off

/-- R33: the line that the head report of a placement `p` over `old` names. -/
def placeLine (p old : Placement) (d : Dev) : Word :=
  match p.bound.orElse fun _ => old.bound with
  | some f => (d.face f).grid.index
  | none => 0

/-- R21: the part once the placement is stored. -/
def placed : Dev := (emptied n p d).setPort n { d.base.port n with place := p, head := p.head, missing := 0 }

theorem place_eq : place n p d = if p.head = (d.base.port n).head then placed n p d
    else offerHead p.bound n (d.base.port n).head p.head .placement (placeLine p (d.base.port n).place (placed n p d))
      (placed n p d) := rfl

theorem placed_touches : Touches [.sens, .asm .lead, .asm .trail] d (placed n p d) :=
  ((emptied_touches n p d).mono (by simp)).trans ((Touches.setPort _ _ _).mono (by simp))

theorem placed_out : (placed n p d).insp.out = d.insp.out := placed_touches n p d .out (by simp)

theorem placed_grid (f : FaceId) : ((placed n p d).face f).grid = (d.face f).grid :=
  placed_touches n p d (.grid f) (by simp)

theorem placed_pattern (f : FaceId) : ((placed n p d).face f).pattern = (d.face f).pattern :=
  placed_touches n p d (.pattern f) (by simp)

theorem place_touches : Touches [.sens, .asm .lead, .asm .trail, .out] d (place n p d) := by
  have hplaced := (placed_touches n p d).mono (l' := [.sens, .asm .lead, .asm .trail, .out]) (by simp)
  rw [place_eq]
  split
  · exact hplaced
  · exact hplaced.trans (((Within.offerStatus _ _ _).mono (by simp)).touches)

theorem place_face (f : FaceId) : (place n p d).face f = (emptied n p d).face f := by
  rw [place_eq]
  split <;> rfl

theorem place_abandons (f : FaceId) : ((place n p d).face f).asm =
    if p.enabled = true ∧ p.face = f ∨ (d.base.port n).place.enabled = true ∧ (d.base.port n).place.face = f then
      (d.face f).asm.abandon
    else (d.face f).asm := by
  rw [place_face, emptied_face, apply_ite Face.asm]
  exact if_congr (or_congr (bound_iff _ _) (bound_iff _ _)) rfl rfl

theorem place_silent (hhead : (d.base.port n).head = p.head) : (place n p d).insp.out = d.insp.out := by
  rw [place_eq, if_pos hhead.symm, placed_out]

theorem placeLine_eq {p old : Placement} (h : p.enabled = true ∨ old.enabled = true) (d : Dev) :
    placeLine p old d = (d.face (if p.enabled then p.face else old.face)).grid.index := by
  unfold placeLine Placement.bound
  cases hp : p.enabled with
  | true => rfl
  | false =>
    rw [hp] at h
    rw [h.resolve_left Bool.false_ne_true]
    rfl

/-- R72: the mark of a report formed for the face a placement binds. -/
theorem lost_bound (p : Placement) (i : Insp) :
    (p.bound.map i.lost).getD false = (p.enabled && decide ((i.face p.face).pattern.state = some .lost)) := by
  unfold Placement.bound
  cases p.enabled <;> rfl

theorem place_reports (hhead : (d.base.port n).head ≠ p.head) (hbound : p.enabled = true ∨ (d.base.port n).place.enabled = true) :
    (place n p d).insp.out = d.insp.out.offer .p2
      (.status p.bound (p.enabled && decide ((d.face p.face).pattern.state = some .lost))
        (.head n (d.base.port n).head p.head .placement
          (d.face (if p.enabled then p.face else (d.base.port n).place.face)).grid.index)) := by
  have hlost : ((placed n p d).insp.face p.face).pattern = (d.face p.face).pattern := placed_pattern n p d p.face
  rw [place_eq, if_neg (Ne.symm hhead), placeLine_eq hbound, placed_grid]
  show (placed n p d).insp.out.offer .p2 (.status p.bound ((p.bound.map (placed n p d).insp.lost).getD false) _) = _
  rw [placed_out, lost_bound, hlost]

end Accepted

end Sys2Proof.Machine

open Sys2Proof Sys2Proof.Machine

/-- Settles O21: the tests of R19 in order, then the stored record, the emptied slots and the head report. -/
theorem placementWriteBindsPort : Obligations.PlacementWriteBindsPort := by
  refine ⟨?early, ?read⟩
  case early =>
    rintro c rest s d h rfl
    refine ⟨fun hbusy => runCommand_refused h (placementWrite_busy (d := s.dev.takeCommand rest) hbusy), fun hrun h0 h1 =>
      ⟨fun hlock => runCommand_refused h (placementWrite_locked (d := s.dev.takeCommand rest) hrun h0 h1 hlock),
        fun hlock hout => runCommand_refused h (placementWrite_unread (d := s.dev.takeCommand rest) hrun h0 h1 hlock ?_)⟩⟩
    refine or_iff_not_imp_left.mpr fun hport p hread => ?_
    obtain ⟨h1, h2, h6, hspan, hlast, horigin, hfirst', hlast', horigin', hdesc⟩ := readPlacement_fields hread
    rw [← Bool.not_eq_true, fits_iff, hfirst', hlast', horigin', hdesc]
    interval_cases c.nat 6
    · simp only [Nat.zero_ne_one, decide_false, Bool.false_eq_true, if_false]
      omega
    · simp only [decide_true, if_true]
      omega
  case read =>
    rintro c rest s p d h rfl hrun h0 h1 hlock hport hen hface hfirst hlast horigin hdesc hspan hl ho hfit
    have hread := readPlacement_of_fields hen (by rw [hface]; cases p.face <;> rfl) hfirst hlast horigin hdesc hspan hl ho
    have hwrite := placementWrite_read (d := s.dev.takeCommand rest) hrun h0 h1 hlock hport hread ((fits_iff p).mpr hfit)
    refine ⟨?overlap, fun hfree => ?stored⟩
    case overlap =>
      rintro ⟨hon, m, hm, hne, hmen, hmface, col, hcol⟩
      have hover : (s.dev.takeCommand rest).base.overlaps (c.nat 0) p = true :=
        (overlaps_iff _ _ _).mpr ⟨hon, m, hm, hne, col, hmen, hmface, hcol⟩
      exact runCommand_refused h (hwrite.trans (if_pos hover))
    case stored =>
      have hover : ¬ (s.dev.takeCommand rest).base.overlaps (c.nat 0) p = true := by
        rw [overlaps_iff]
        rintro ⟨hon, m, hm, hne, col, hmen, hmface, h1, h2, h3, h4⟩
        obtain hoff | hnone := hfree
        · rw [hon] at hoff
          cases hoff
        · exact hnone m hm hne hmen hmface col h1 h2 h3 h4
      have hport' := place_base (c.nat 0) p (s.dev.takeCommand rest)
      refine ⟨place (c.nat 0) p (s.dev.takeCommand rest), runCommand_taken h (hwrite.trans (if_neg hover)), ?port, fun m hm => ?_,
        place_abandons _ _ _, (congrArg Base.exec hport').trans rfl, (congrArg (·.sens.locked) hport').trans hlock, ?frame, ?report⟩
      case port =>
        rw [hport', port_setPort_same]
        rfl
      case frame =>
        exact ((takeCommand_touches s.dev rest).mono (by simp)).trans ((place_touches _ _ _).mono (by simp))
      case report =>
        rintro x head face bound rfl rfl rfl rfl
        exact ⟨place_silent (c.nat 0) p (s.dev.takeCommand rest), place_reports (c.nat 0) p (s.dev.takeCommand rest)⟩
      · rw [hport', port_setPort, if_neg hm]
        rfl

end

section
/-! R26, R28, R29, R31 to R33: a packet that is not discarded, the slot it fills, and the head that falls SILENT and wakes. -/

namespace Sys2Proof.Machine

open Sys2Proof

/-! ### Ports and slots -/

theorem tinsert_tinsert {α : Type} (t : Table α) (k : Nat) (v v' : α) : tinsert (tinsert t k v) k v' = tinsert t k v' := by
  induction t with
  | nil => simp [tinsert]
  | cons e rest ih =>
    obtain ⟨k', w⟩ := e
    by_cases hlt : k < k'
    · simp [tinsert, hlt]
    · by_cases heq : k = k'
      · simp [tinsert, heq]
      · simp [tinsert, hlt, heq, ih]

/-- A port that is enabled is listed, so that the later of two writes to it stands alone. -/
theorem setPort_setPort (d : Dev) (p : Nat) {x y : Port} (hx : x.place.enabled = true) (hy : y.place.enabled = true) :
    (d.setPort p x).setPort p y = d.setPort p y := by
  have hlisted : ∀ z : Port, z.place.enabled = true → z ≠ Port.powerOn := fun z hz h => by
    rw [h] at hz
    cases hz
  have htable : tset Port.powerOn (tset Port.powerOn d.base.sens.ports p x) p y = tset Port.powerOn d.base.sens.ports p y := by
    unfold tset
    rw [if_neg (hlisted x hx), if_neg (hlisted y hy), if_neg (hlisted y hy), tinsert_tinsert]
  unfold Dev.setPort Base.setPort
  dsimp only
  rw [htable]

/-- R29: no line leaves a face whose oldest slot is incomplete. -/
theorem settleSlots_stay {f : FaceId} {d : Dev} (h : ∀ o ∈ (d.face f).asm.slots.head?, o.complete = false) :
    settleSlots f d = d := by
  unfold settleSlots
  cases hs : (d.face f).asm.slots with
  | nil => rfl
  | cons o rest =>
    have ho : o.complete = false := h o (by rw [hs]; rfl)
    rw [List.length_cons]
    unfold leaveReady
    split
    · rfl
    next o' rest' hs' =>
      obtain ⟨rfl, rfl⟩ := List.cons.inj (hs.symm.trans hs')
      exact if_neg (by rw [ho]; decide)

theorem complete_false_iff (o : Slot) : o.complete = false ↔ ∃ q ∈ o.expected, q ∉ o.delivered := by
  simp [Slot.complete]

theorem onSlots_asm (d : Dev) (f : FaceId) (g : List Slot → List Slot) :
    ((d.onSlots f g).face f).asm = { (d.face f).asm with slots := g (d.face f).asm.slots } :=
  congrArg Face.asm (dev_onFace_face _ _ _)

/-- R29: what leaves once each slot of a face has changed in place. -/
theorem settleSlots_map (f : FaceId) (d : Dev) (g : Slot → Slot) :
    SlotsLeft f (d.face f).asm d.base.port ((d.face f).asm.slots.map g) (settleSlots f (d.onSlots f fun l => l.map g)) := by
  have h := (settleSlots_left f (d.onSlots f fun l => l.map g)).1
  rw [onSlots_asm] at h
  exact h

theorem settleSlots_map_stay {f : FaceId} {d : Dev} {g : Slot → Slot}
    (h : ∀ o ∈ (d.face f).asm.slots.head?, (g o).complete = false) :
    settleSlots f (d.onSlots f fun l => l.map g) = d.onSlots f fun l => l.map g := by
  refine settleSlots_stay fun o ho => ?_
  rw [onSlots_asm, List.head?_map] at ho
  obtain ⟨o', ho', rfl⟩ := Option.mem_map.mp ho
  exact h o' ho'

/-- R29: the only open line, complete, is handed on. -/
theorem SlotsLeft.single {f : FaceId} {a : Assembler} {ports : Nat → Port} {o : Slot} {d : Dev} (h : SlotsLeft f a ports [o] d)
    (hall : ∀ q ∈ o.expected, q ∈ o.delivered) :
    (d.face f).asm = { a with slots := [], handed := a.handed ++ [{ head := o.head, raw := o.raw }] } ∧
    ∀ q, d.base.port q = { ports q with
      missing := if q ∈ o.expected ∧ o.head.cls = .inspection then 0 else (ports q).missing } := by
  obtain ⟨before, after, hl, -, hafter, hasm, hports⟩ := h
  cases before with
  | nil =>
    rw [List.nil_append] at hl
    subst hl
    obtain ⟨q, hq, hout⟩ := hafter o rfl
    exact absurd (hall q hq) hout
  | cons o' before =>
    obtain ⟨rfl, hnil⟩ := List.cons.inj hl
    obtain ⟨rfl, rfl⟩ := List.append_eq_nil_iff.mp hnil.symm
    refine ⟨hasm, fun q => ?_⟩
    rw [hports, List.any_cons, List.any_nil, Bool.or_false]
    exact congrArg (fun n : Nat => ({ ports q with missing := n } : Port))
      (if_congr (decide_eq_true_iff (p := q ∈ o.expected ∧ o.head.cls = .inspection)) rfl rfl)

/-- A change that leaves the reports as they were. -/
theorem Touches.quiet {l : List Part} {d d' : Dev} (h : Touches (l ++ [.out]) d d') (hout : d'.insp.out = d.insp.out) :
    Touches l d d' := fun q hq => by
  by_cases hp : q = .out
  · rw [hp]
    exact hout
  · exact h q fun hm => (List.mem_append.mp hm).elim hq fun h' => hp (List.mem_singleton.mp h')

theorem settleSlots_touches (f : FaceId) (d : Dev) : Touches [.sens, .asm f] d (settleSlots f d) :=
  Touches.quiet (Touches.settleSlots d) (settleSlots_left f d).2

/-! ### The samples a packet places (R28) -/

theorem tget_foldl_tinsert_other {α : Type} (d : α) {k : Nat} (l : List (Nat × α)) (t : Table α) (h : ∀ e ∈ l, e.1 ≠ k) :
    tget d (l.foldl (fun t e => tinsert t e.1 e.2) t) k = tget d t k := by
  induction l generalizing t with
  | nil => rfl
  | cons e l ih =>
    rw [List.foldl_cons, ih _ fun e' he' => h e' (List.mem_cons_of_mem _ he')]
    exact tget_tinsert_other d t e.1 k e.2 (Ne.symm (h e List.mem_cons_self))

/-- The last of the values put at a key is the one that is read. -/
theorem tget_foldl_tinsert_last {α : Type} (d : α) {l before after : List (Nat × α)} {k : Nat} {v : α} (t : Table α)
    (hl : l = before ++ (k, v) :: after) (h : ∀ e ∈ after, e.1 ≠ k) :
    tget d (l.foldl (fun t e => tinsert t e.1 e.2) t) k = v := by
  rw [hl, List.foldl_append, List.foldl_cons, tget_foldl_tinsert_other d after _ h]
  exact tget_tinsert_same _ _ _ _

section Samples

variable (p : Nat) (pl : Placement) (declared : Nat) (samples : List Nat)

theorem mem_usedSamples (e : Nat × Sample) : e ∈ usedSamples p pl declared samples ↔
    ∃ n < min declared samples.length, pl.first ≤ n ∧ n ≤ pl.last ∧
      e = (pl.column n, { port := p, pixel := n, raw := samples.getD n 0 }) := by
  unfold usedSamples availableSamples
  rw [List.mem_map]
  constructor
  · rintro ⟨⟨v, n⟩, hmem, rfl⟩
    rw [List.mem_filter, decide_eq_true_iff, List.mem_zipIdx_iff_getElem?, List.getElem?_take] at hmem
    obtain ⟨hget, hfirst, hlast⟩ := hmem
    dsimp only at hget hfirst hlast
    split at hget
    next hn => exact ⟨n, hn, hfirst, hlast, by rw [List.getD_eq_getElem?_getD, hget]; rfl⟩
    next => cases hget
  · rintro ⟨n, hn, hfirst, hlast, rfl⟩
    refine ⟨(samples.getD n 0, n), ?_, rfl⟩
    rw [List.mem_filter, decide_eq_true_iff, List.mem_zipIdx_iff_getElem?, List.getElem?_take]
    have hlen : n < samples.length := lt_of_lt_of_le hn (min_le_right _ _)
    refine ⟨?_, hfirst, hlast⟩
    dsimp only
    rw [if_pos hn, List.getD_eq_getElem?_getD, List.getElem?_eq_getElem hlen]
    rfl

theorem usedSamples_rise : (usedSamples p pl declared samples).Pairwise fun a b => a.2.pixel < b.2.pixel := by
  unfold usedSamples
  refine List.pairwise_map.mpr (List.Pairwise.filter _ ?_)
  have hidx : (((samples.take (availableSamples declared samples)).zipIdx).map Prod.snd).Pairwise (· < ·) := by
    rw [List.zipIdx_map_snd]
    exact List.pairwise_lt_range'
  exact List.pairwise_map.mp hidx

/-- R28: the highest used pixel with a sample puts it at its face column. -/
theorem take_hit (o : Slot) (d : Sample) {n : Nat} (hn : n < min declared samples.length) (hfirst : pl.first ≤ n) (hlast : n ≤ pl.last)
    (hhigh : ∀ n' < min declared samples.length, n < n' → n' ≤ pl.last → pl.column n' ≠ pl.column n) :
    tget d (o.take p (usedSamples p pl declared samples)).raw (pl.column n) = { port := p, pixel := n, raw := samples.getD n 0 } := by
  obtain ⟨before, after, hl⟩ := List.append_of_mem ((mem_usedSamples p pl declared samples _).mpr ⟨n, hn, hfirst, hlast, rfl⟩)
  refine tget_foldl_tinsert_last d o.raw hl fun e he => ?_
  have hrise := usedSamples_rise p pl declared samples
  rw [hl] at hrise
  have hgt := List.rel_of_pairwise_cons (List.pairwise_append.mp hrise).2.1 he
  obtain ⟨n', hn', -, hlast', rfl⟩ := (mem_usedSamples p pl declared samples e).mp
    (by rw [hl]; exact List.mem_append_right _ (List.mem_cons_of_mem _ he))
  exact hhigh n' hn' hgt hlast'

theorem take_miss (o : Slot) (d : Sample) {col : Nat}
    (h : ∀ n < min declared samples.length, pl.first ≤ n → n ≤ pl.last → pl.column n ≠ col) :
    tget d (o.take p (usedSamples p pl declared samples)).raw col = tget d o.raw col := by
  refine tget_foldl_tinsert_other d _ _ fun e he => ?_
  obtain ⟨n, hn, hfirst, hlast, rfl⟩ := (mem_usedSamples p pl declared samples e).mp he
  exact h n hn hfirst hlast

end Samples

/-! ### A packet that is not discarded -/

section Packet

variable {p tag declared : Nat} {samples : List Nat} {s : State}

theorem exec_scanPacket (hp : p ≤ 3) (htag : tag ≤ 65535) (hsamples : ∀ v ∈ samples, v ≤ 4095) (damaged : Bool) (s : State) :
    exec (.scanPacket p tag declared samples damaged) s = .next { s with
      dev := packetArrival p tag declared samples damaged s.dev } :=
  if_pos (Iff.mpr (Laws.Delivery.scanPacket p tag declared samples damaged)
    ⟨Nat.lt_succ_of_le hp, Nat.lt_succ_of_le htag, fun v hv => Nat.lt_succ_of_le (hsamples v hv)⟩)

theorem packetArrival_matched {d : Dev} (hon : (d.base.port p).place.enabled = true) (h1 : 1 ≤ declared)
    (hmax : declared ≤ 4096) : packetArrival p tag declared samples false d =
      matchPacket (d.base.port p).place.face p tag (usedSamples p (d.base.port p).place declared samples)
        ((recoverPort (d.base.port p).place.face p tag d).onCounts p fun c => c.packet (d.base.port p).place declared samples) := by
  unfold packetArrival
  dsimp only
  rw [if_neg (by rw [hon]; decide), if_neg]
  rw [Bool.or_eq_true, Bool.or_eq_true, decide_eq_true_iff, decide_eq_true_iff]
  rintro ((hbad | hzero) | hlong)
  · cases hbad
  · omega
  · exact absurd hlong (not_lt.mpr hmax)

theorem recoverPort_awake (f : FaceId) {d : Dev} (h : (d.base.port p).head ≠ .silent) : recoverPort f p tag d = d := if_neg h

theorem recoverPort_silent (f : FaceId) {d : Dev} (h : (d.base.port p).head = .silent) : recoverPort f p tag d =
    (d.setPort p { d.base.port p with head := .active, missing := 0 }).offerStatus (some f)
      (.head p .silent .active .packet (BitVec.ofNat 32 tag)) := if_pos h

theorem packet_counts (k : PortCounts) (pl : Placement) : k.packet pl declared samples = countsAfter k pl.last declared samples.length :=
  rfl

section Match

variable (f : FaceId) (placed : List (Nat × Sample)) {d : Dev}

theorem matchPacket_late (h : ∀ o ∈ (d.face f).asm.slots, o.tag ≠ tag) :
    matchPacket f p tag placed d = d.onCounts p fun c => { c with late := count32 c.late } := by
  have hnone : ((d.face f).asm.slots.find? fun o => decide (o.tag = tag)) = none :=
    List.find?_eq_none.mpr fun o ho => by simpa using h o ho
  unfold matchPacket
  rw [hnone]

variable {o : Slot} (h : ((d.face f).asm.slots.find? fun o => decide (o.tag = tag)) = some o)
include h

theorem matchPacket_duplicate (hp : p ∈ o.delivered) :
    matchPacket f p tag placed d = d.onCounts p fun c => { c with duplicate := count32 c.duplicate } := by
  unfold matchPacket
  rw [h]
  exact if_pos (List.contains_iff_mem.mpr hp)

theorem matchPacket_taken (hp : p ∉ o.delivered) : matchPacket f p tag placed d =
    settleSlots f (d.onSlots f fun l => l.map fun o => if o.tag = tag then o.take p placed else o) := by
  unfold matchPacket
  rw [h]
  exact if_neg fun hc => hp (List.contains_iff_mem.mp hc)

end Match

end Packet

/-! ### A port accounted for a line that leaves (R31) -/

section Account

variable (f : FaceId) {o : Slot} {d : Dev} {p : Nat}

/-- R31: a port one more of whose packets is missing. -/
def Port.missed (x : Port) : Port := { x with counts := { x.counts with missingLines := count32 x.counts.missingLines } }

theorem accountPort_delivered (hp : p ∈ o.delivered) :
    accountPort f o d p = if o.head.cls = .creep then d else d.setPort p { d.base.port p with missing := 0 } := by
  unfold accountPort
  dsimp only
  rw [if_pos (List.contains_iff_mem.mpr hp)]
  exact if_congr decide_eq_true_iff rfl rfl

theorem accountPort_absent (hp : p ∉ o.delivered) : accountPort f o d p =
    if o.head.cls = .creep then d.setPort p (d.base.port p).missed
    else if (d.base.port p).missing + 1 < 16 then
      d.setPort p { (d.base.port p).missed with missing := (d.base.port p).missing + 1 }
    else silencePort f p o.head.index (d.setPort p (d.base.port p).missed) := by
  unfold accountPort
  dsimp only
  rw [if_neg fun hc => hp (List.contains_iff_mem.mp hc)]
  exact if_congr decide_eq_true_iff rfl rfl

/-- R31: the part once a port is SILENT and no longer expected, before its report. -/
def silenced (p : Nat) (d : Dev) : Dev :=
  (d.setPort p { d.base.port p with head := .silent, missing := 16 }).onSlots f fun l =>
    l.map fun s => if s.delivered.contains p then s else { s with expected := s.expected.filter (· ≠ p) }

theorem silencePort_eq (line : Word) : silencePort f p line d =
    (silenced f p d).offerStatus (some f) (.head p (d.base.port p).head .silent .missing line) := rfl

theorem silenced_slots : ((silenced f p d).face f).asm.slots = (d.face f).asm.slots.map fun o' =>
    if p ∈ o'.delivered then o' else { o' with expected := o'.expected.filter (· ≠ p) } := by
  unfold silenced Dev.onSlots
  rw [dev_onFace_face, setPort_face]
  exact List.map_congr_left fun o' _ => if_congr List.contains_iff_mem rfl rfl

theorem silenced_touches : Touches [.sens, .asm f] d (silenced f p d) :=
  ((Touches.setPort d p _).mono (by simp)).trans ((Touches.onSlots _ f _).mono (by simp))

end Account

/-! ### The port of a packet that is matched -/

section Matched

variable (f : FaceId) (p tag : Nat) (placed : List (Nat × Sample)) (d : Dev)

theorem matchPacket_touches : Touches [.sens, .asm f] d (matchPacket f p tag placed d) := by
  unfold matchPacket Dev.onCounts
  split
  · exact (Touches.setPort _ _ _).mono (by simp)
  · split
    · exact (Touches.setPort _ _ _).mono (by simp)
    · exact ((Touches.onSlots _ _ _).mono (by simp)).trans (settleSlots_touches _ _)

/-- R28: matching a packet changes counts, and it resets missing counts alone. -/
theorem matchPacket_port (q : Nat) : ∃ n k, (matchPacket f p tag placed d).base.port q =
    { d.base.port q with missing := n, counts := k } ∧ ((d.base.port q).missing = 0 → n = 0) := by
  have hcounts : ∀ g, ∃ n k, (d.onCounts p g).base.port q = { d.base.port q with missing := n, counts := k } ∧
      ((d.base.port q).missing = 0 → n = 0) := fun g => by
    unfold Dev.onCounts
    rw [dev_port_setPort]
    split
    next hq => exact ⟨(d.base.port q).missing, g (d.base.port p).counts, by rw [hq], id⟩
    next => exact ⟨_, _, rfl, id⟩
  unfold matchPacket
  split
  · exact hcounts _
  · split
    · exact hcounts _
    · obtain ⟨before, after, -, -, -, -, hports⟩ := (settleSlots_left f (d.onSlots f fun l =>
        l.map fun o => if o.tag = tag then o.take p placed else o)).1
      refine ⟨_, (d.base.port q).counts, hports q, fun h0 => ?_⟩
      rw [show ((d.onSlots f _).base.port q).missing = (d.base.port q).missing from rfl, h0, ite_self]

end Matched

end Sys2Proof.Machine

open Sys2Proof Sys2Proof.Machine

/-- Settles O27: the branches of the accounting, then the wake of the head before its packet is matched. -/
theorem headFallsSilentAndWakes : Obligations.HeadFallsSilentAndWakes := by
  refine ⟨?account, ?wake⟩
  case account =>
    rintro f o d p x y rfl rfl
    refine ⟨accountPort_delivered f, fun hp hc => (accountPort_absent f hp).trans (if_pos hc), fun hp hc hm => ?_,
      fun hp hc hm => ?_⟩
    · rw [accountPort_absent f hp, hc, if_neg (by decide), if_pos (by omega)]
      rfl
    · have hport := port_setPort_same d.base p (d.base.port p).missed
      refine ⟨silenced f p (d.setPort p (d.base.port p).missed), ?_, ?_, fun q hq => ?_, silenced_slots f, ?_⟩
      · rw [accountPort_absent f hp, hc, if_neg (by decide), if_neg (by omega), silencePort_eq]
        exact congrArg (fun z : HeadState => Dev.offerStatus _ _ (.head p z .silent .missing o.head.index))
          ((congrArg Port.head hport).trans rfl)
      · refine (port_setPort_same _ p _).trans ?_
        exact congrArg (fun z : Port => { z with head := HeadState.silent, missing := 16 }) hport
      · refine (dev_port_setPort _ p q _).trans ((if_neg hq).trans ?_)
        rw [dev_port_setPort, if_neg hq]
      · exact ((Touches.setPort d p _).mono (by simp)).trans (silenced_touches f)
  case wake =>
    rintro p tag declared samples s x hp htag hsamples rfl hon hsilent h1 hmax
    have hwoken := recoverPort_silent (p := p) (tag := tag) (s.dev.base.port p).place.face hsilent
    have hport : (recoverPort (s.dev.base.port p).place.face p tag s.dev).base.port p =
        { s.dev.base.port p with head := .active, missing := 0 } := by
      rw [hwoken]
      exact port_setPort_same _ _ _
    have harrive := packetArrival_matched (tag := tag) (samples := samples) hon h1 hmax
    rw [← hwoken, exec_scanPacket hp htag hsamples, exec_scanPacket hp htag hsamples]
    generalize hd : recoverPort (s.dev.base.port p).place.face p tag s.dev = d at hport harrive
    refine ⟨?_, _, rfl, ?_⟩
    · rw [harrive, packetArrival_matched (d := d) (by rw [hport]; exact hon) h1 hmax, hport,
        recoverPort_awake _ (by rw [hport]; exact nofun)]
    · have hcounted : (d.onCounts p fun k => k.packet (s.dev.base.port p).place declared samples).base.port p =
          { s.dev.base.port p with
            head := .active, missing := 0
            counts := (s.dev.base.port p).counts.packet (s.dev.base.port p).place declared samples } := by
        unfold Dev.onCounts
        rw [dev_port_setPort, if_pos rfl, hport]
      obtain ⟨n, k, hmatched, hzero⟩ := matchPacket_port (s.dev.base.port p).place.face p tag
        (usedSamples p (s.dev.base.port p).place declared samples)
        (d.onCounts p fun k => k.packet (s.dev.base.port p).place declared samples) p
      rw [hcounted] at hmatched hzero
      have hrecover : Touches [.sens, .out] s.dev d := by
        rw [← hd, hwoken]
        exact ((Touches.setPort _ _ _).mono (by simp)).trans ((Touches.offerStatus _ _ _).mono (by simp))
      dsimp only
      rw [harrive, hmatched]
      refine ⟨rfl, hzero rfl, rfl, rfl, rfl, (hrecover.mono (by simp)).trans ?_⟩
      exact ((Touches.setPort _ _ _).mono (by simp)).trans ((matchPacket_touches _ _ _ _ _).mono (by simp))

/-- Settles O26: late, duplicate, or taken; and what leaves once it is taken. -/
theorem packetFillsItsSlot : Obligations.PacketFillsItsSlot := by
  rintro p tag declared samples s x f a k hp htag hsamples rfl hon hawake rfl h1 hmax rfl rfl
  have hexec := exec_scanPacket (declared := declared) hp htag hsamples false s
  rw [packetArrival_matched hon h1 hmax, recoverPort_awake _ hawake] at hexec
  have hagain : ∀ g g' : PortCounts → PortCounts, (s.dev.onCounts p g).onCounts p g' =
      s.dev.setPort p { s.dev.base.port p with counts := g' (g (s.dev.base.port p).counts) } := fun g g' => by
    unfold Dev.onCounts
    rw [dev_port_setPort, if_pos rfl]
    exact setPort_setPort _ _ hon hon
  refine ⟨fun hlate => ?late, fun o ho => ⟨fun hdup => ?duplicate, fun hnew => ?taken⟩⟩
  case late =>
    exact hexec.trans (congrArg (fun d => Host.Outcome.next { s with dev := d })
      ((matchPacket_late (d := s.dev.onCounts p _) _ _ hlate).trans (hagain _ _)))
  case duplicate =>
    exact hexec.trans (congrArg (fun d => Host.Outcome.next { s with dev := d })
      ((matchPacket_duplicate (d := s.dev.onCounts p _) _ _ ho hdup).trans (hagain _ _)))
  case taken =>
    have hmatched := matchPacket_taken (p := p) (d := s.dev.onCounts p fun k => k.packet (s.dev.base.port p).place declared samples)
      (s.dev.base.port p).place.face (usedSamples p (s.dev.base.port p).place declared samples) ho hnew
    have hports : (s.dev.onCounts p fun k => k.packet (s.dev.base.port p).place declared samples).base.port = fun q =>
        if q = p then { s.dev.base.port p with
          counts := countsAfter (s.dev.base.port p).counts (s.dev.base.port p).place.last declared samples.length }
        else s.dev.base.port q := funext fun q => dev_port_setPort _ _ _ _
    have hleft := settleSlots_map (s.dev.base.port p).place.face
      (s.dev.onCounts p fun k => k.packet (s.dev.base.port p).place declared samples)
      (fun o => if o.tag = tag then o.take p (usedSamples p (s.dev.base.port p).place declared samples) else o)
    rw [← hmatched, hports] at hleft
    have htouches := ((Touches.setPort s.dev p { s.dev.base.port p with
        counts := (s.dev.base.port p).counts.packet (s.dev.base.port p).place declared samples }).mono
      (l' := [.sens, .asm (s.dev.base.port p).place.face]) (by simp)).trans (matchPacket_touches (s.dev.base.port p).place.face p tag
        (usedSamples p (s.dev.base.port p).place declared samples) _)
    refine ⟨_, fun o' => (o'.take p (usedSamples p (s.dev.base.port p).place declared samples)).raw, hexec,
      fun o' d n => take_hit _ _ _ _ o' d, fun o' d col => take_miss _ _ _ _ o' d, fun hwait => ?stays, fun hone hall => ?alone,
      hleft, rfl, htouches⟩
    case stays =>
      have hstay := settleSlots_map_stay (f := (s.dev.base.port p).place.face)
        (d := s.dev.onCounts p fun k => k.packet (s.dev.base.port p).place declared samples)
        (g := fun o => if o.tag = tag then o.take p (usedSamples p (s.dev.base.port p).place declared samples) else o)
        fun o' ho' => by
          obtain ⟨q, hq, hout, hother⟩ := hwait o' ho'
          rw [complete_false_iff]
          split
          next htag' =>
            refine ⟨q, hq, fun hin => ?_⟩
            obtain hin | hin := List.mem_append.mp hin
            · exact hout hin
            · exact hother htag' (List.mem_singleton.mp hin)
          next => exact ⟨q, hq, hout⟩
      rw [hmatched, hstay]
      rfl
    case alone =>
      have htag' : o.tag = tag := of_decide_eq_true (List.find?_some (p := fun o : Slot => decide (o.tag = tag)) ho)
      have hslots : ((s.dev.onCounts p fun k => k.packet (s.dev.base.port p).place declared samples).face
          (s.dev.base.port p).place.face).asm.slots = [o] := hone
      rw [hslots, List.map_singleton, if_pos htag'] at hleft
      obtain ⟨hasm, hsettled⟩ := hleft.single fun q hq => by
        obtain hin | rfl := hall q hq
        · exact List.mem_append_left _ hin
        · exact List.mem_append_right _ List.mem_cons_self
      refine ⟨hasm, fun q => ?_, rfl, htouches⟩
      refine (congrArg Port.missing (hsettled q)).trans ?_
      have hmissing : (if q = p then { s.dev.base.port p with
          counts := countsAfter (s.dev.base.port p).counts (s.dev.base.port p).place.last declared samples.length }
          else s.dev.base.port q).missing = (s.dev.base.port q).missing := by
        split
        next hq => rw [hq]
        next => rfl
      dsimp only
      rw [hmissing]
      rfl

end

section
/-! R129 to R137: counted events, bucket boundaries, and one change with its reports. -/

namespace Sys2Proof.Machine

open Sys2Proof

/-! ### One change (R136, R137) -/

section Commit

variable {b : Base} {f : FaceId}

theorem offerLanes_tier (c : LaneCause) (line : Option (Word × Int)) (old new : Tier) (lanes : List Nat) (i : Insp) :
    ((offerLanes b f c line old new lanes i).face f).tier = (i.face f).tier :=
  Within.offerLanes c line old new lanes i b (.tier f) (by simp)

theorem offerAlert_tier (na : Nat) (line : Option (Word × Int)) (old new : Tier) (i : Insp) :
    ((offerAlert na f line old new i).face f).tier = (i.face f).tier := by
  unfold offerAlert
  split
  · rfl
  · cases f <;> rfl

/-- R136: the state that a change leaves is the changed one with its alert tested. -/
theorem commitTiers_tier (direct : List Nat) (c : LaneCause) (line : Option (Word × Int)) (t : Tier) (i : Insp) :
    ((commitTiers b f direct c line t i).face f).tier = t.testAlert (b.na f) := by
  unfold commitTiers
  dsimp only
  rw [offerLanes_tier, offerAlert_tier, offerLanes_tier, onFace_face]

theorem testAlert_eq (t : Tier) (na : Nat) : t.testAlert na = { t with
    alert := decide (na ≤ t.atT2),
    alerts := if na ≤ t.atT2 ∧ t.alert = false then min (t.alerts + 1) 4294967295 else t.alerts } := by
  unfold Tier.testAlert
  dsimp only
  refine congrArg (fun n => { t with alert := decide (na ≤ t.atT2), alerts := n }) 
    (if_congr (P := (decide (na ≤ t.atT2) && !t.alert) = true) (Q := na ≤ t.atT2 ∧ t.alert = false) ?_ rfl rfl)
  rw [Bool.and_eq_true, decide_eq_true_iff, Bool.not_eq_true']

theorem testAlert_alert (t : Tier) (na : Nat) : (t.testAlert na).alert = decide (na ≤ (t.testAlert na).atT2) := rfl

end Commit

/-! ### Counted events (R131) -/

theorem residencyOk_iff (last pos : Option Int) (n : Nat) : residencyOk last pos n = true ↔
    ∀ q ∈ last, ∃ p, pos = some p ∧ (n : Int) * 1024000000 ≤ p - q := by
  unfold residencyOk
  cases last with
  | none => exact iff_of_true rfl nofun
  | some l =>
    cases pos with
    | none => exact iff_of_false Bool.false_ne_true fun h => Option.some_ne_none _ (h l rfl).choose_spec.1.symm
    | some p =>
      refine decide_eq_true_iff.trans ⟨fun h q hq => ⟨p, rfl, ?_⟩, fun h => ?_⟩
      · rw [← Option.some.inj hq]
        exact h
      · obtain ⟨p', hp', h⟩ := h l rfl
        rw [Option.some.inj hp']
        exact h

theorem escalates_iff (p : TierPolicy) (l : Lane) (pos : Option Int) : escalates p l pos = true ↔
    p.ne ≤ l.windowSum ∧ l.own < l.maxLimit ∧
      (p.ru = 0 ∨ ∀ q ∈ l.lastChange, ∃ y, pos = some y ∧ (p.ru : Int) * 1024000000 ≤ y - q) := by
  unfold escalates
  rw [Bool.and_eq_true, Bool.and_eq_true, Bool.or_eq_true, decide_eq_true_iff, decide_eq_true_iff, decide_eq_true_iff,
    residencyOk_iff, and_assoc]

theorem onFace_onFace (i : Insp) (f : FaceId) (g g' : Face → Face) : (i.onFace f g).onFace f g' = i.onFace f fun x => g' (g x) := by
  cases f <;> rfl

theorem onFace_congr {i : Insp} {f : FaceId} {g g' : Face → Face} (h : g (i.face f) = g' (i.face f)) : i.onFace f g = i.onFace f g' := by
  cases f
  · exact congrArg (fun x => { i with lead := x }) h
  · exact congrArg (fun x => { i with trail := x }) h

/-- R131: the lane of an event once its bucket has taken it. -/
def Tier.counted (x : Tier) (j : Nat) : Lane :=
  { x.lane j with buckets := tset 0 (x.lane j).buckets x.current (min ((x.lane j).bucket x.current + 1) 255) }

/-- R131: the state once a counted event of a sender has entered its bucket. -/
def Tier.entered (x : Tier) (src : EventSource) (rest : List CountedEvent) (j : Nat) : Tier :=
  { x.setEvents src rest with lanes := tset Lane.powerOn x.lanes j (x.counted j) }

theorem addEvent_setEvents (x : Tier) (src : EventSource) (rest : List CountedEvent) (j : Nat) :
    (x.setEvents src rest).addEvent j = x.entered src rest j := by cases src <;> rfl

theorem setEvents_events (x : Tier) (src : EventSource) (rest : List CountedEvent) : (x.setEvents src rest).events src = rest := by
  cases src <;> rfl

theorem entered_lane (x : Tier) (src : EventSource) (rest : List CountedEvent) (j k : Nat) :
    (x.entered src rest j).lane k = if k = j then x.counted j else x.lane k := tget_tset _ _ _ _ _

section Event

variable {b : Base} {f : FaceId} {src : EventSource} {i : Insp} {e : CountedEvent} {rest : List CountedEvent}
  (he : (i.face f).tier.events src = e :: rest)
include he

theorem takeEvent_eq : takeEvent b f src i =
    if (b.banks.activeOn f).isSome &&
        escalates (b.banks.contents f).tierPolicy ((i.face f).tier.counted e.lane) e.pos then
      commitTiers b f [e.lane] .escalate (e.index.bind fun n => e.pos.map fun pos => (n, pos))
        { (i.face f).tier.entered src rest e.lane with
          lanes := tset Lane.powerOn ((i.face f).tier.entered src rest e.lane).lanes e.lane
            { (i.face f).tier.counted e.lane with own := ((i.face f).tier.lane e.lane).own + 1, lastChange := e.pos }
          escalations := min ((i.face f).tier.escalations + 1) 4294967295 }
        (i.onFace f fun z => { z with tier := (i.face f).tier.entered src rest e.lane })
    else i.onFace f fun z => { z with tier := (i.face f).tier.entered src rest e.lane } := by
  have hlane : ((i.face f).tier.entered src rest e.lane).lane e.lane = (i.face f).tier.counted e.lane :=
    tget_tset_same _ _ _ _
  have hcount : ((i.face f).tier.entered src rest e.lane).escalations = (i.face f).tier.escalations := by cases src <;> rfl
  unfold takeEvent
  rw [he]
  unfold applyEvent
  dsimp only
  rw [onFace_onFace, onFace_face]
  dsimp only
  rw [addEvent_setEvents, hlane, hcount]
  obtain ⟨lane, pos, index⟩ := e
  cases index <;> cases pos <;> rfl

end Event

/-! ### Bucket boundaries (R133, R135) -/

theorem relaxes_iff (p : TierPolicy) (l : Lane) (y : Int) : relaxes p l y = true ↔
    l.windowSum < p.nd ∧ l.minLimit < l.own ∧ ∀ q ∈ l.lastChange, (p.rd : Int) * 1024000000 ≤ y - q := by
  unfold relaxes
  rw [Bool.and_eq_true, Bool.and_eq_true, decide_eq_true_iff, decide_eq_true_iff, residencyOk_iff, and_assoc]
  refine and_congr_right fun _ => and_congr_right fun _ => forall₂_congr fun q _ => ⟨?_, fun h => ⟨y, rfl, h⟩⟩
  rintro ⟨p, hp, h⟩
  rw [Option.some.inj hp]
  exact h

/-- R133: a lane after its relax test. -/
def Lane.relaxed (p : TierPolicy) (y : Int) (l : Lane) : Lane :=
  if relaxes p l y then { l with own := l.own - 1, lastChange := some y } else l

section Relax

variable {b : Base} {f : FaceId} {index : Word} {y : Int}

theorem relaxLane_stays {i : Insp} {n : Nat} (h : ¬ relaxes (b.banks.contents f).tierPolicy ((i.face f).tier.lane n) y = true) :
    relaxLane b f index y i n = i := if_neg h

theorem relaxLane_falls {i : Insp} {n : Nat} (h : relaxes (b.banks.contents f).tierPolicy ((i.face f).tier.lane n) y = true) :
    relaxLane b f index y i n = commitTiers b f [n] .relax (some (index, y))
      { (i.face f).tier with
        lanes := tset Lane.powerOn (i.face f).tier.lanes n
          { (i.face f).tier.lane n with own := ((i.face f).tier.lane n).own - 1, lastChange := some y }
        relaxations := count32 (i.face f).tier.relaxations } i := if_pos h

theorem relaxLane_lane (i : Insp) (n k : Nat) : ((relaxLane b f index y i n).face f).tier.lane k =
    if k = n then ((i.face f).tier.lane n).relaxed (b.banks.contents f).tierPolicy y else (i.face f).tier.lane k := by
  unfold Lane.relaxed
  by_cases h : relaxes (b.banks.contents f).tierPolicy ((i.face f).tier.lane n) y = true
  · rw [relaxLane_falls h, commitTiers_tier, if_pos h]
    exact tget_tset _ _ _ _ _
  · rw [relaxLane_stays h, if_neg h]
    split
    next hk => rw [hk]
    next => rfl

/-- R133: what the relax tests do not touch. -/
theorem relaxLane_keeps (i : Insp) (n : Nat) : ((relaxLane b f index y i n).face f).tier.current = (i.face f).tier.current ∧
    ((relaxLane b f index y i n).face f).tier.next = (i.face f).tier.next := by
  by_cases h : relaxes (b.banks.contents f).tierPolicy ((i.face f).tier.lane n) y = true
  · rw [relaxLane_falls h, commitTiers_tier]
    exact ⟨rfl, rfl⟩
  · rw [relaxLane_stays h]
    exact ⟨rfl, rfl⟩

/-- R133: the lanes of `l` whose relax test passes. -/
def falling (p : TierPolicy) (y : Int) (x : Tier) (l : List Nat) : List Nat := l.filter fun n => relaxes p (x.lane n) y

theorem falling_cons_of_pos {p : TierPolicy} {x : Tier} {n : Nat} (h : relaxes p (x.lane n) y = true) (l : List Nat) :
    falling p y x (n :: l) = n :: falling p y x l := List.filter_cons_of_pos h

theorem falling_cons_of_neg {p : TierPolicy} {x : Tier} {n : Nat} (h : ¬ relaxes p (x.lane n) y = true) (l : List Nat) :
    falling p y x (n :: l) = falling p y x l := List.filter_cons_of_neg h

theorem relaxLanes_keeps (l : List Nat) (i : Insp) :
    ((l.foldl (relaxLane b f index y) i).face f).tier.current = (i.face f).tier.current ∧
    ((l.foldl (relaxLane b f index y) i).face f).tier.next = (i.face f).tier.next :=
  ⟨foldl_same (π := fun i : Insp => (i.face f).tier.current) (fun i n => (relaxLane_keeps i n).1) l i,
    foldl_same (π := fun i : Insp => (i.face f).tier.next) (fun i n => (relaxLane_keeps i n).2) l i⟩

theorem relaxLanes_none {l : List Nat} {i : Insp} (h : falling (b.banks.contents f).tierPolicy y (i.face f).tier l = []) :
    l.foldl (relaxLane b f index y) i = i := by
  induction l with
  | nil => rfl
  | cons n l ih =>
    have h' := List.filter_eq_nil_iff.mp h
    rw [List.foldl_cons, relaxLane_stays (h' n List.mem_cons_self)]
    exact ih (List.filter_eq_nil_iff.mpr fun k hk => h' k (List.mem_cons_of_mem _ hk))

theorem falling_relaxLane {l : List Nat} {n : Nat} (hn : n ∉ l) (i : Insp) :
    falling (b.banks.contents f).tierPolicy y ((relaxLane b f index y i n).face f).tier l =
      falling (b.banks.contents f).tierPolicy y (i.face f).tier l := by
  refine List.filter_congr fun k hk => ?_
  have hne : k ≠ n := fun h => hn (h ▸ hk)
  rw [relaxLane_lane, if_neg hne]

theorem relaxLanes_lane {l : List Nat} (hl : l.Nodup) (i : Insp) (k : Nat) :
    ((l.foldl (relaxLane b f index y) i).face f).tier.lane k =
      if k ∈ l then ((i.face f).tier.lane k).relaxed (b.banks.contents f).tierPolicy y else (i.face f).tier.lane k := by
  induction l generalizing i with
  | nil => rw [if_neg List.not_mem_nil, List.foldl_nil]
  | cons n l ih =>
    obtain ⟨hn, hl⟩ := List.nodup_cons.mp hl
    rw [List.foldl_cons, ih hl, relaxLane_lane]
    by_cases hk : k = n
    · rw [hk, if_neg hn, if_pos rfl, if_pos List.mem_cons_self]
    · simp only [List.mem_cons, hk, false_or, if_false]

/-- R133: each fall is counted. -/
theorem relaxLanes_count {l : List Nat} (hl : l.Nodup) (i : Insp)
    (h : falling (b.banks.contents f).tierPolicy y (i.face f).tier l ≠ []) :
    ((l.foldl (relaxLane b f index y) i).face f).tier.relaxations = satAdd 4294967295 (i.face f).tier.relaxations
      (falling (b.banks.contents f).tierPolicy y (i.face f).tier l).length := by
  induction l generalizing i with
  | nil => exact absurd rfl h
  | cons n l ih =>
    obtain ⟨hn, hl⟩ := List.nodup_cons.mp hl
    have hrest := falling_relaxLane (b := b) (f := f) (index := index) (y := y) hn i
    rw [List.foldl_cons]
    by_cases hf : relaxes (b.banks.contents f).tierPolicy ((i.face f).tier.lane n) y = true
    · have hone : ((relaxLane b f index y i n).face f).tier.relaxations = satAdd 4294967295 (i.face f).tier.relaxations 1 := by
        rw [relaxLane_falls hf, commitTiers_tier]
        rfl
      rw [falling_cons_of_pos hf, List.length_cons]
      by_cases hnone : falling (b.banks.contents f).tierPolicy y (i.face f).tier l = []
      · rw [relaxLanes_none (hrest.trans hnone), hone, hnone]
        rfl
      · rw [ih hl _ (hrest ▸ hnone), hone, satAdd_satAdd, hrest, Nat.add_comm]
    · rw [falling_cons_of_neg hf] at h ⊢
      rw [relaxLane_stays hf]
      exact ih hl i h

/-- R133: after a fall the alert is tested. -/
theorem relaxLanes_alert {l : List Nat} (hl : l.Nodup) (i : Insp)
    (h : falling (b.banks.contents f).tierPolicy y (i.face f).tier l ≠ []) :
    ((l.foldl (relaxLane b f index y) i).face f).tier.alert =
      decide (b.na f ≤ ((l.foldl (relaxLane b f index y) i).face f).tier.atT2) := by
  induction l generalizing i with
  | nil => exact absurd rfl h
  | cons n l ih =>
    obtain ⟨hn, hl⟩ := List.nodup_cons.mp hl
    have hrest := falling_relaxLane (b := b) (f := f) (index := index) (y := y) hn i
    rw [List.foldl_cons]
    by_cases hnone : falling (b.banks.contents f).tierPolicy y (i.face f).tier l = []
    · rw [relaxLanes_none (hrest.trans hnone)]
      by_cases hf : relaxes (b.banks.contents f).tierPolicy ((i.face f).tier.lane n) y = true
      · rw [relaxLane_falls hf, commitTiers_tier]
        rfl
      · exact absurd ((falling_cons_of_neg hf l).trans hnone) h
    · exact ih hl _ (hrest ▸ hnone)

end Relax

section Boundary

variable {b : Base} {f : FaceId} {index : Word} {y : Int}

theorem rotate_lane {x : Tier} (h : twf Lane.powerOn x.lanes = true) (n : Nat) : x.rotate.lane n =
    { x.lane n with buckets := tset 0 (x.lane n).buckets ((x.current + 1) % 8) 0 } :=
  tget_tmap (fun l : Lane => { l with buckets := tset 0 l.buckets ((x.current + 1) % 8) 0 }) rfl h n

/-- R133: a face once the buckets are rotated and the lanes are tested, before its next boundary moves. -/
def relaxedFace (b : Base) (f : FaceId) (index : Word) (y : Int) (i : Insp) : Insp :=
  (List.range 16).foldl (relaxLane b f index y) (i.onFace f fun x => { x with tier := x.tier.rotate })

theorem rotated_tier (i : Insp) : ((i.onFace f fun x => { x with tier := x.tier.rotate }).face f).tier = (i.face f).tier.rotate := by
  rw [onFace_face]

theorem boundaryStep_eq (i : Insp) : boundaryStep b f index y i = (relaxedFace b f index y i).onFace f fun x =>
    { x with tier := { x.tier with next := x.tier.next.map (· + (b.banks.contents f).tierPolicy.span) } } := rfl

theorem boundaryStep_tier (i : Insp) : ((boundaryStep b f index y i).face f).tier =
    { ((relaxedFace b f index y i).face f).tier with
      next := ((relaxedFace b f index y i).face f).tier.next.map (· + (b.banks.contents f).tierPolicy.span) } := by
  rw [boundaryStep_eq, onFace_face]

theorem relaxedFace_keeps (i : Insp) : ((relaxedFace b f index y i).face f).tier.current = ((i.face f).tier.current + 1) % 8 ∧
    ((relaxedFace b f index y i).face f).tier.next = (i.face f).tier.next := by
  have h := relaxLanes_keeps (b := b) (f := f) (index := index) (y := y) (List.range 16)
    (i.onFace f fun x => { x with tier := x.tier.rotate })
  rw [rotated_tier] at h
  exact h

theorem boundaryStep_next (i : Insp) : ((boundaryStep b f index y i).face f).tier.next =
    (i.face f).tier.next.map (· + (b.banks.contents f).tierPolicy.span) := by
  rw [boundaryStep_tier, (relaxedFace_keeps i).2]

theorem boundarySteps_none {i : Insp} (h : ∀ nb ∈ (i.face f).tier.next, y < nb) (n : Nat) : boundarySteps b f index y n i = i := by
  cases n with
  | zero => rfl
  | succ n =>
    unfold boundarySteps
    split
    next nb hnb => exact if_neg (not_le.mpr (h nb hnb))
    next => rfl

theorem boundarySteps_due {i : Insp} {nb : Int} (hnb : (i.face f).tier.next = some nb) (hle : nb ≤ y) (n : Nat) :
    boundarySteps b f index y (n + 1) i = boundarySteps b f index y n (boundaryStep b f index y i) := by
  rw [boundarySteps, hnb]
  exact if_pos hle

/-- R133, R135: the number of boundaries at or below a line. -/
def boundariesDue (b : Base) (f : FaceId) (y : Int) (next : Option Int) : Nat :=
  (next.map fun nb => ((y - nb) / (b.banks.contents f).tierPolicy.span + 1).toNat).getD 0

theorem tierLineStart_eq (h : LineHead) (i : Insp) : tierLineStart b f h i =
    (boundarySteps b f h.index h.pos (boundariesDue b f h.pos (i.face f).tier.next) i).onFace f fun x =>
      { x with tier := { x.tier with lastPos := some h.pos, lastLine := some h.index } } := by
  unfold tierLineStart boundariesDue
  cases (i.face f).tier.next <;> rfl

theorem boundariesDue_step {nb : Int} (hle : nb ≤ y) (hw : 1 ≤ (b.banks.contents f).tierPolicy.w) :
    boundariesDue b f y (some nb) = boundariesDue b f y (some (nb + (b.banks.contents f).tierPolicy.span)) + 1 := by
  have hspan : 0 < (b.banks.contents f).tierPolicy.span := by
    unfold TierPolicy.span
    omega
  show ((y - nb) / _ + 1).toNat = ((y - (nb + _)) / _ + 1).toNat + 1
  generalize (b.banks.contents f).tierPolicy.span = n at hspan
  have hdiv : (y - (nb + n)) / n = (y - nb) / n - 1 := by
    rw [show y - (nb + n) = y - nb + n * (-1) from by omega, Int.add_mul_ediv_left _ _ (by omega)]
    omega
  have hnonneg : 0 ≤ (y - nb) / n := Int.ediv_nonneg (by omega) (by omega)
  omega

end Boundary

end Sys2Proof.Machine

open Sys2Proof Sys2Proof.Machine

/-- Settles O42: a counted event, the boundaries of a line one by one, one boundary lane by lane, and one change with its reports. -/
theorem countedEventFillsBucketAndEscalates : Obligations.CountedEventFillsBucketAndEscalates := by
  refine ⟨?event, ?line, ?boundary, ?lane, ?commit, ?lanes, fun x n => ⟨rfl, rfl, rfl, rfl⟩, fun f na line old new i => rfl⟩
  case event =>
    rintro f src s e rest x l l' p rfl hev rfl rfl rfl
    have he : (s.dev.insp.face f).tier.events src = e :: rest := by cases src <;> exact hev
    have htake := takeEvent_eq (b := s.dev.base) he
    have hcond : ((s.dev.base.banks.activeOn f).isSome && escalates (s.dev.base.banks.contents f).tierPolicy
          ((s.dev.face f).tier.counted e.lane) e.pos) = true ↔ s.dev.base.banks.activeOn f ≠ none ∧
        (s.dev.base.banks.contents f).tierPolicy.ne ≤ ((s.dev.face f).tier.counted e.lane).windowSum ∧
        ((s.dev.face f).tier.lane e.lane).own < ((s.dev.face f).tier.lane e.lane).maxLimit ∧
        ((s.dev.base.banks.contents f).tierPolicy.ru = 0 ∨ ∀ q ∈ ((s.dev.face f).tier.lane e.lane).lastChange,
          ∃ pos, e.pos = some pos ∧ ((s.dev.base.banks.contents f).tierPolicy.ru : Int) * 1024000000 ≤ pos - q) := by
      rw [Bool.and_eq_true, escalates_iff, ← Option.isSome_iff_ne_none]
      rfl
    have hframe : ∀ l : List Part, .tier f ∈ l → .out ∈ l → Touches l s.dev { s.dev with insp := takeEvent s.dev.base f src s.dev.insp } :=
      fun l ht ho => ((Within.takeEvent src s.dev.insp).mono (by simp [ht, ho])).touches
    refine ⟨_, rfl, ?_⟩
    by_cases hesc : ((s.dev.base.banks.activeOn f).isSome && escalates (s.dev.base.banks.contents f).tierPolicy
        ((s.dev.face f).tier.counted e.lane) e.pos) = true
    · replace htake := htake.trans (if_pos hesc)
      have htier := (congrArg (fun i : Insp => (i.face f).tier) htake).trans (commitTiers_tier _ _ _ _ _)
      refine ⟨(congrArg (Tier.events · src) htier).trans ?_, fun j hj => (congrArg (Tier.lane · j) htier).trans ?_,
        fun _ _ _ _ => ⟨(congrArg (Tier.lane · e.lane) htier).trans ?_, congrArg Tier.escalations htier, ?_, ⟨rfl, hframe _ (by simp) (by simp)⟩, ?_⟩,
        fun hno => ?_⟩
      · cases src <;> rfl
      · refine (tget_tset_other _ _ _ _ _ hj).trans ?_
        exact (entered_lane _ _ _ _ _).trans (if_neg hj)
      · exact tget_tset_same _ _ _ _
      · refine (congrArg Tier.alert htier).trans ((testAlert_alert _ _).trans ?_)
        exact congrArg (fun t : Tier => decide (s.dev.base.na f ≤ t.atT2)) htier.symm
      · rintro y rfl
        exact htake
      · obtain ⟨hactive, hsum, hown, hresident⟩ := hcond.mp hesc
        obtain hnone | hlow | hmax | ⟨hru, q, hq, hnear⟩ := hno
        · exact absurd hnone hactive
        · exact absurd hsum (not_le.mpr hlow)
        · exact absurd hown (not_lt.mpr hmax)
        · obtain ⟨pos, hpos, hfar⟩ := (hresident.resolve_left (by omega)) q hq
          exact absurd hfar (not_le.mpr (hnear pos hpos))
    · replace htake := htake.trans (if_neg hesc)
      have htier : ((takeEvent s.dev.base f src s.dev.insp).face f).tier = (s.dev.face f).tier.entered src rest e.lane := by
        rw [htake, onFace_face]
        rfl
      refine ⟨(congrArg (Tier.events · src) htier).trans ?_, fun j hj => (congrArg (Tier.lane · j) htier).trans ?_,
        fun hactive hsum hown hresident => absurd (hcond.mpr ⟨hactive, hsum, hown, hresident⟩) hesc,
        fun _ => ⟨htier, (congrArg (Tier.lane · e.lane) htier).trans ?_, rfl, ?_⟩⟩
      · cases src <;> rfl
      · exact (entered_lane _ _ _ _ _).trans (if_neg hj)
      · exact (entered_lane _ _ _ _ _).trans (if_pos rfl)
      · have hwithin : Within [.tier f] s.dev.insp (takeEvent s.dev.base f src s.dev.insp) := by
          rw [htake]
          exact Within.tier _ f _
        exact hwithin.touches
  case line =>
    intro b f h i
    refine ⟨fun hnone => ?_, fun nb hnb hle hw => ?_⟩
    · rw [tierLineStart_eq, boundarySteps_none hnone]
    · rw [tierLineStart_eq, tierLineStart_eq, boundaryStep_next, hnb, Option.map_some, boundariesDue_step hle hw,
        boundarySteps_due hnb hle]
  case boundary =>
    rintro b f index pos i j p x y old falls rfl rfl hcanon rfl rfl hold hfalls
    have hrotate : ∀ n, (i.face f).tier.rotate.lane n = old n := fun n => (rotate_lane hcanon n).trans (hold n).symm
    have hlanes : ∀ n, ((boundaryStep b f index pos i).face f).tier.lane n =
        if n ∈ List.range 16 then (old n).relaxed (b.banks.contents f).tierPolicy pos else old n := fun n => by
      rw [boundaryStep_tier]
      refine (relaxLanes_lane (b := b) (index := index) (y := pos) List.nodup_range _ n).trans ?_
      rw [rotated_tier, hrotate]
    replace hfalls : ∀ n, falls n ↔ n ∈ falling (b.banks.contents f).tierPolicy pos (i.face f).tier.rotate (List.range 16) :=
      fun n => by
        unfold falling
        rw [hfalls, List.mem_filter, List.mem_range, hrotate, relaxes_iff]
    have hnodup : (falling (b.banks.contents f).tierPolicy pos (i.face f).tier.rotate (List.range 16)).Nodup :=
      List.nodup_range.filter _
    have hquiet : falling (b.banks.contents f).tierPolicy pos (i.face f).tier.rotate (List.range 16) = [] →
        ((relaxedFace b f index pos i).face f).tier = (i.face f).tier.rotate := fun hnone => by
      unfold relaxedFace
      rw [relaxLanes_none (by rw [rotated_tier]; exact hnone), rotated_tier]
    refine ⟨?_, boundaryStep_next i, fun n hn => ?_, fun n hn => ?_, fun l hl hmem => ?_, fun hsome => ?_, fun hnone => ?_, ?_, rfl,
      hrotate, ?_⟩
    · exact (congrArg Tier.current (boundaryStep_tier i)).trans (relaxedFace_keeps i).1
    · obtain ⟨hlane, hrelax⟩ := List.mem_filter.mp ((hfalls n).mp hn)
      rw [hrotate] at hrelax
      rw [hlanes, if_pos hlane, Lane.relaxed, if_pos hrelax]
    · rw [hlanes]
      split
      next hlane =>
        refine if_neg fun hrelax => hn ((hfalls n).mpr (List.mem_filter.mpr ⟨hlane, ?_⟩))
        rw [hrotate]
        exact hrelax
      next => rfl
    · have hlen := ((List.perm_ext_iff_of_nodup hl hnodup).mpr fun n => (hmem n).trans (hfalls n)).length_eq
      rw [boundaryStep_tier, hlen]
      by_cases hnone : falling (b.banks.contents f).tierPolicy pos (i.face f).tier.rotate (List.range 16) = []
      · rw [hnone] at hlen
        refine .inr ⟨List.length_eq_zero_iff.mp hlen, ?_⟩
        rw [hquiet hnone]
        rfl
      · refine .inl ?_
        have hcount := relaxLanes_count (b := b) (f := f) (index := index) (y := pos) List.nodup_range
          (i.onFace f fun x => { x with tier := x.tier.rotate }) (by rw [rotated_tier]; exact hnone)
        rw [rotated_tier] at hcount
        exact hcount
    · obtain ⟨n, hn⟩ := hsome
      have hsome := List.ne_nil_of_mem ((hfalls n).mp hn)
      have halert := relaxLanes_alert (b := b) (f := f) (index := index) (y := pos) List.nodup_range
        (i.onFace f fun x => { x with tier := x.tier.rotate }) (by rw [rotated_tier]; exact hsome)
      rw [boundaryStep_tier]
      exact halert
    · rw [boundaryStep_tier, hquiet (List.eq_nil_iff_forall_not_mem.mpr fun n hn => hnone n ((hfalls n).mpr hn))]
      rfl
    · exact Within.boundaryStep index pos i b
    · refine (boundaryStep_eq i).trans (onFace_congr ?_)
      rw [boundaryStep_next, ← (relaxedFace_keeps i).2]
  case lane =>
    rintro b f index pos i n p x l falls rfl rfl rfl rfl
    refine ⟨fun hstay => relaxLane_stays fun hr => hstay ((relaxes_iff _ _ _).mp hr), fun hfall => ?_⟩
    exact relaxLane_falls ((relaxes_iff _ _ _).mpr hfall)
  case commit =>
    rintro b f direct cause line changed old new i na rfl rfl rfl
    unfold commitTiers
    dsimp only
    have hothers : laneNumbers.filter (fun n => !direct.contains n) = (List.range 16).filter fun n => decide (n ∉ direct) :=
      List.filter_congr fun n _ => by simp
    rw [testAlert_eq, hothers]
    rfl
  case lanes =>
    intro b f cause line old new n l i
    exact ⟨rfl, rfl⟩

end

section
/-! R138, R163: TIER_LIMIT on the named lanes of the named faces, and PREVIEW_SET on the named faces. -/

namespace Sys2Proof.Machine

open Sys2Proof

/-! ### TIER_LIMIT (R138) -/

theorem lanesOf_above {n : Nat} (h : 16 < n) : lanesOf n = none := by
  unfold lanesOf
  rw [if_neg (by omega), if_neg (by omega)]

theorem lanesOf_within {n : Nat} (h : n ≤ 16) : lanesOf n = some (if n = 16 then List.range 16 else [n]) := by
  unfold lanesOf
  by_cases hn : n = 16
  · rw [hn]
    rfl
  · rw [if_pos (by omega), if_neg hn]

/-- R138: the change on one face. -/
def limitFace (lanes : List Nat) (lo hi : Nat) (f : FaceId) (d : Dev) : Dev :=
  { d with insp := limitLanes d.base f lanes lo hi d.insp }

section Tests

variable {c : Command} {d : Dev}

theorem tierLimit_range (h : 2 < c.nat 0 ∨ 16 < c.nat 1 ∨ 3 < c.nat 2 ∨ 3 < c.nat 3 ∨ c.nat 3 < c.nat 2) :
    tierLimit c d = refuse d .range := by
  unfold tierLimit
  split
  next fs lanes hfs hlanes =>
    refine if_pos ?_
    obtain h | h | h := h
    · rw [facesOf_above h] at hfs
      cases hfs
    · rw [lanesOf_above h] at hlanes
      cases hlanes
    · omega
  next => rfl
  next => rfl

variable {fs : FaceSet} {lanes : List Nat} (hfs : facesOf (c.nat 0) = some fs) (hlanes : lanesOf (c.nat 1) = some lanes)
  (hlo : c.nat 2 ≤ c.nat 3) (hhi : c.nat 3 ≤ 3)
include hfs hlanes hlo hhi

theorem tierLimit_within : tierLimit c d = if d.base.banks.running = false then refuse d .state
    else taken (d.onFaces fs (limitFace lanes (c.nat 2) (c.nat 3))) [] := by
  unfold tierLimit
  rw [hfs, hlanes]
  exact if_neg (by omega)

end Tests

/-- R138: a tier state once the lanes of `l` take the limits. -/
def Tier.limit (x : Tier) (l : List Nat) (lo hi : Nat) : Tier :=
  l.foldl (fun y n => y.setLane n ((y.lane n).limit lo hi y.lastPos)) x

theorem limit_keeps (l : List Nat) (lo hi : Nat) (x : Tier) : x.limit l lo hi = { x with lanes := (x.limit l lo hi).lanes } := by
  induction l generalizing x with
  | nil => rfl
  | cons n l ih => exact ih _

/-- R138: buckets, boundaries and counts stay. -/
theorem limit_tested_keeps (l : List Nat) (lo hi na : Nat) (x : Tier) : ((x.limit l lo hi).testAlert na).current = x.current ∧
    ((x.limit l lo hi).testAlert na).next = x.next ∧ ((x.limit l lo hi).testAlert na).escalations = x.escalations ∧
    ((x.limit l lo hi).testAlert na).relaxations = x.relaxations := by
  have hkeeps := limit_keeps l lo hi x
  generalize (x.limit l lo hi).lanes = lanes at hkeeps
  rw [hkeeps]
  exact ⟨rfl, rfl, rfl, rfl⟩

theorem limit_lane {l : List Nat} (hl : l.Nodup) (lo hi : Nat) (x : Tier) (j : Nat) :
    (x.limit l lo hi).lane j = if j ∈ l then (x.lane j).limit lo hi x.lastPos else x.lane j := by
  induction l generalizing x with
  | nil => rw [if_neg List.not_mem_nil]; rfl
  | cons n l ih =>
    obtain ⟨hn, hl⟩ := List.nodup_cons.mp hl
    refine (ih hl _).trans ?_
    have hset : (x.setLane n ((x.lane n).limit lo hi x.lastPos)).lane j =
        if j = n then (x.lane n).limit lo hi x.lastPos else x.lane j := tget_tset _ _ _ _ _
    rw [hset]
    by_cases hj : j = n
    · rw [hj, if_neg hn, if_pos rfl, if_pos List.mem_cons_self]
    · simp only [List.mem_cons, hj, false_or, if_false]
      rfl

theorem lane_limit_eq (l : Lane) {lo hi : Nat} (h : lo ≤ hi) (lastPos : Option Int) : l.limit lo hi lastPos = { l with
    minLimit := lo, maxLimit := hi, own := max lo (min l.own hi)
    lastChange := if lo ≤ l.own ∧ l.own ≤ hi then l.lastChange else lastPos } := by
  have hkept : clampNat lo hi l.own = l.own ↔ lo ≤ l.own ∧ l.own ≤ hi := by
    unfold clampNat
    omega
  exact congrArg (fun q => { l with minLimit := lo, maxLimit := hi, own := max lo (min l.own hi), lastChange := q })
    (if_congr hkept rfl rfl)

section Limit

variable {b : Base} {f : FaceId} {lanes : List Nat} {lo hi : Nat}

theorem limitLanes_eq (i : Insp) : limitLanes b f lanes lo hi i =
    commitTiers b f lanes .limit (i.face f).tier.lastInspection ((i.face f).tier.limit lanes lo hi) i := rfl

theorem limitLanes_banks {b' : Base} (h : b'.banks = b.banks) (i : Insp) :
    limitLanes b' f lanes lo hi i = limitLanes b f lanes lo hi i := by
  rw [limitLanes_eq, limitLanes_eq]
  unfold commitTiers offerLanes Base.na
  rw [h]

theorem limitLanes_tier (i : Insp) : ((limitLanes b f lanes lo hi i).face f).tier =
    ((i.face f).tier.limit lanes lo hi).testAlert (b.na f) := by
  rw [limitLanes_eq, commitTiers_tier]

theorem limitLanes_other {g : FaceId} (h : g ≠ f) (i : Insp) : ((limitLanes b f lanes lo hi i).face g).tier = (i.face g).tier :=
  Within.limitLanes lanes lo hi i b (.tier g) (by simp [h])

theorem limitFace_touches (d : Dev) : Touches [.tier f, .out] d (limitFace lanes lo hi f d) :=
  (Within.limitLanes lanes lo hi d.insp).touches

/-- R138: the faces one after another; with BOTH, which comes first is left open (log 8). -/
theorem limitFaces_insp (fs : FaceSet) (d : Dev) : (d.onFaces fs (limitFace lanes lo hi)).insp = match fs with
    | .lead => limitLanes d.base .lead lanes lo hi d.insp
    | .trail => limitLanes d.base .trail lanes lo hi d.insp
    | .both => if Config.leadFirst d.base.free then limitLanes d.base .trail lanes lo hi (limitLanes d.base .lead lanes lo hi d.insp)
        else limitLanes d.base .lead lanes lo hi (limitLanes d.base .trail lanes lo hi d.insp) := by
  cases fs with
  | lead => rfl
  | trail => rfl
  | both =>
    show (d.bothFaces (limitFace lanes lo hi)).insp = _
    unfold Dev.bothFaces limitFace
    dsimp only
    split
    · rw [limitLanes_banks (b := d.base) rfl, limitLanes_banks (b := d.base) rfl]
      rfl
    · rw [limitLanes_banks (b := d.base) rfl, limitLanes_banks (b := d.base) rfl]
      rfl

theorem limitFaces_touches (fs : FaceSet) (d : Dev) :
    Touches [.free, .out, .tier .lead, .tier .trail] d (d.onFaces fs (limitFace lanes lo hi)) := by
  have hface : ∀ f d, Touches [.free, .out, .tier .lead, .tier .trail] d (limitFace lanes lo hi f d) := fun f d =>
    (limitFace_touches d).mono (by cases f <;> simp)
  cases fs with
  | lead => exact hface _ _
  | trail => exact hface _ _
  | both => exact Touches.bothFaces hface (by simp)

/-- R138: a named face takes the limits once, on the tier state it had; another face keeps its own. -/
theorem limitFaces_tier (fs : FaceSet) (d : Dev) (f : FaceId) : ((d.onFaces fs (limitFace lanes lo hi)).face f).tier =
    if f ∈ fs.faces then ((d.face f).tier.limit lanes lo hi).testAlert (d.base.na f) else (d.face f).tier := by
  have hinsp := limitFaces_insp (lanes := lanes) (lo := lo) (hi := hi) fs d
  unfold Dev.face
  rw [hinsp]
  have hlead : ∀ i, ((limitLanes d.base .lead lanes lo hi i).face .lead).tier = _ := fun i => limitLanes_tier i
  have htrail : ∀ i, ((limitLanes d.base .trail lanes lo hi i).face .trail).tier = _ := fun i => limitLanes_tier i
  have hleadOther : ∀ i, ((limitLanes d.base .trail lanes lo hi i).face .lead).tier = (i.face .lead).tier := fun i =>
    limitLanes_other (by decide) i
  have htrailOther : ∀ i, ((limitLanes d.base .lead lanes lo hi i).face .trail).tier = (i.face .trail).tier := fun i =>
    limitLanes_other (by decide) i
  cases fs <;> cases f
  · exact hlead _
  · exact htrailOther _
  · exact hleadOther _
  · exact htrail _
  all_goals
    dsimp only
    split
    · simp only [hlead, htrail, hleadOther, htrailOther]
      rfl
    · simp only [hlead, htrail, hleadOther, htrailOther]
      rfl

end Limit

/-! ### PREVIEW_SET (R163) -/

theorem previewSet_range {c : Command} {d : Dev} (h : 2 < c.nat 0 ∨ 1024 < c.nat 1 ∨ c.nat 2 ∉ [1, 2, 4, 8]) :
    previewSet c d = refuse d .range := by
  unfold previewSet
  split
  next => rfl
  next fs hfs =>
    refine if_pos (h.resolve_left fun habove => ?_)
    rw [facesOf_above habove] at hfs
    cases hfs

theorem previewSet_within {c : Command} {d : Dev} {fs : FaceSet} (hfs : facesOf (c.nat 0) = some fs) (hdec : c.nat 1 ≤ 1024)
    (hbin : c.nat 2 ∈ [1, 2, 4, 8]) :
    previewSet c d = taken { d with insp := fs.faces.foldl (setPreview (c.nat 1) (c.nat 2)) d.insp } [] := by
  unfold previewSet
  rw [hfs]
  exact if_neg (not_or.mpr ⟨not_lt.mpr hdec, not_not.mpr hbin⟩)

/-- The preview state of a face and its preview queue. -/
def Insp.previewSide (i : Insp) (f : FaceId) : Preview × Queue := ((i.face f).preview, i.out.queue (previewQueue f))

/-- R163: what the settings do to a face's preview state and queue. -/
def previewSettings (decimation binning : Nat) (e : Preview × Queue) : Preview × Queue :=
  ({ e.1 with decimation := decimation, binning := binning, counter := 0 },
    if decimation = 0 then e.2.dropPreview else e.2)

section Preview

variable (decimation binning : Nat)

theorem setPreview_named (i : Insp) (f : FaceId) :
    (setPreview decimation binning i f).previewSide f = previewSettings decimation binning (i.previewSide f) := by
  unfold setPreview previewSettings Insp.previewSide
  dsimp only
  by_cases h : decimation = 0
  · rw [if_pos h, if_pos h]
    cases f <;> rfl
  · rw [if_neg h, if_neg h]
    cases f <;> rfl

theorem setPreview_other {f g : FaceId} (h : g ≠ f) (i : Insp) :
    (setPreview decimation binning i f).previewSide g = i.previewSide g := by
  have hqueue : previewQueue g ≠ previewQueue f := by
    cases f <;> cases g <;> first | exact absurd rfl h | decide
  unfold setPreview Insp.previewSide
  dsimp only
  split
  · rw [queue_setQueue_other _ _ hqueue, onFace_out]
    exact Prod.ext (congrArg Face.preview (onFace_other _ _ h)) rfl
  · rw [onFace_out, onFace_other _ _ h]

theorem setPreviews_side {l : List FaceId} (hl : l.Nodup) (i : Insp) (f : FaceId) :
    (l.foldl (setPreview decimation binning) i).previewSide f =
      if f ∈ l then previewSettings decimation binning (i.previewSide f) else i.previewSide f := by
  induction l generalizing i with
  | nil => rw [if_neg List.not_mem_nil]; rfl
  | cons g l ih =>
    obtain ⟨hg, hl⟩ := List.nodup_cons.mp hl
    rw [List.foldl_cons, ih hl]
    by_cases hf : f = g
    · rw [hf, if_neg hg, if_pos List.mem_cons_self, setPreview_named]
    · rw [setPreview_other _ _ hf]
      simp only [List.mem_cons, hf, false_or]

/-- Outputs that differ in their preview queues alone. -/
def PreviewOnly (o o' : Out) : Prop := o' = { o with previewLead := o'.previewLead, previewTrail := o'.previewTrail }

theorem PreviewOnly.trans {o o' o'' : Out} (h : PreviewOnly o o') (h' : PreviewOnly o' o'') : PreviewOnly o o'' := by
  unfold PreviewOnly at *
  rw [h', h]

theorem setPreview_out (i : Insp) (f : FaceId) : PreviewOnly i.out (setPreview decimation binning i f).out := by
  unfold setPreview
  dsimp only
  split <;> cases f <;> rfl

theorem setPreviews_out (l : List FaceId) (i : Insp) : PreviewOnly i.out (l.foldl (setPreview decimation binning) i).out := by
  induction l generalizing i with
  | nil => rfl
  | cons g l ih => exact (setPreview_out _ _ i g).trans (ih _)

theorem setPreviews_within (l : List FaceId) (i : Insp) :
    Within [.out, .preview .lead, .preview .trail] i (l.foldl (setPreview decimation binning) i) := by
  refine Within.foldl (fun i f => ?_) l i
  have hface := (Within.preview i f fun x => { x.preview with decimation := decimation, binning := binning, counter := 0 }).mono
    (l' := [.out, .preview .lead, .preview .trail]) (by cases f <;> simp)
  unfold setPreview
  dsimp only
  split
  · exact hface.trans ((Within.withOut _ _).mono (by simp))
  · exact hface

end Preview

end Sys2Proof.Machine

open Sys2Proof Sys2Proof.Machine

/-- Settles O60: the tests of the two rows, then the faces one by one. -/
theorem tierLimitAndPreviewSetTakeEffect : Obligations.TierLimitAndPreviewSetTakeEffect := by
  refine ⟨?limit, ?preview⟩
  case limit =>
    rintro c rest s d h rfl
    refine ⟨fun hout => runCommand_refused h (tierLimit_range hout), fun hface hlane hlo hhi => ?_⟩
    obtain ⟨fs, hfs, hnamed⟩ := facesOf_within hface
    have hlanes := lanesOf_within hlane
    have hwithin := tierLimit_within (d := s.dev.takeCommand rest) hfs hlanes hlo hhi
    refine ⟨fun hrun => runCommand_refused h (hwithin.trans (if_pos hrun)), fun hrun => ?_⟩
    have hrun' : ¬ (s.dev.takeCommand rest).base.banks.running = false := by
      rw [show (s.dev.takeCommand rest).base.banks.running = true from hrun]
      decide
    refine ⟨_, runCommand_taken h (hwithin.trans (if_neg hrun')), fun f hboth hother => ?other, fun f hone => ?named, ?insp,
      ?exec, ?frame⟩
    case other =>
      refine (limitFaces_tier fs _ f).trans (if_neg fun hmem => ?_)
      exact ((hnamed f).mp hmem).elim hboth hother
    case named =>
      have hnodup : (if c.nat 1 = 16 then List.range 16 else [c.nat 1]).Nodup := by
        split
        · exact List.nodup_range
        · exact List.nodup_singleton _
      refine ⟨_, _, rfl, rfl, ?_⟩
      rw [limitFaces_tier, if_pos ((hnamed f).mpr hone)]
      obtain ⟨hcurrent, hnext, hesc, hrelax⟩ := limit_tested_keeps (if c.nat 1 = 16 then List.range 16 else [c.nat 1]) (c.nat 2)
        (c.nat 3) (s.dev.base.na f) (s.dev.face f).tier
      refine ⟨fun j hj => ?_, hcurrent, hnext, hesc, hrelax, rfl⟩
      refine (limit_lane hnodup _ _ _ j).trans ?_
      rw [lane_limit_eq _ hlo]
      refine if_congr ?_ rfl rfl
      split
      next hall => simp [hall, hj]
      next hnot => simp [hnot, eq_comm]
    case insp =>
      rintro lanes limit rfl hlimit
      replace hlimit : ∀ f i, limit f i =
          limitLanes s.dev.base f (if c.nat 1 = 16 then List.range 16 else [c.nat 1]) (c.nat 2) (c.nat 3) i := fun f i => by
        refine (hlimit f i _ rfl).trans ?_
        rw [limitLanes_eq]
        unfold Tier.lastInspection
        cases (i.face f).tier.lastLine <;> cases (i.face f).tier.lastPos <;> rfl
      have hinsp := limitFaces_insp (lanes := if c.nat 1 = 16 then List.range 16 else [c.nat 1]) (lo := c.nat 2) (hi := c.nat 3) fs
        (s.dev.takeCommand rest)
      have hbase : ∀ f i, limitLanes (s.dev.takeCommand rest).base f (if c.nat 1 = 16 then List.range 16 else [c.nat 1]) (c.nat 2)
          (c.nat 3) i = limit f i := fun f i => (limitLanes_banks rfl i).trans (hlimit f i).symm
      simp only [hbase] at hinsp
      refine ⟨fun f hf => ?_, fun hboth => ?_⟩
      · rw [hf] at hfs
        cases f with
        | lead =>
          obtain rfl : fs = .lead := Option.some.inj hfs.symm
          exact hinsp
        | trail =>
          obtain rfl : fs = .trail := Option.some.inj hfs.symm
          exact hinsp
      · rw [hboth] at hfs
        obtain rfl : fs = .both := Option.some.inj hfs.symm
        exact (ite_eq_or_eq _ _ _).imp hinsp.trans hinsp.trans
    case exec => exact limitFaces_touches fs _ .exec (by simp)
    case frame =>
      exact ((takeCommand_touches s.dev rest).mono (by simp)).trans ((limitFaces_touches fs _).mono (by simp))
  case preview =>
    rintro c rest s d h rfl
    refine ⟨fun hout => runCommand_refused h (previewSet_range hout), fun hface hdec hbin => ?_⟩
    obtain ⟨fs, hfs, hnamed⟩ := facesOf_within hface
    have hnodup : fs.faces.Nodup := by cases fs <;> decide
    refine ⟨_, runCommand_taken h (previewSet_within (d := s.dev.takeCommand rest) hfs hdec hbin), rfl, setPreviews_out _ _ _ _, ?_⟩
    rintro f q hq
    obtain rfl : q = previewQueue f := by cases f <;> exact hq
    have hside := setPreviews_side (c.nat 1) (c.nat 2) hnodup s.dev.insp f
    refine ⟨fun hboth hother => ?_, fun hone => ?_, ?_⟩
    · rw [if_neg fun hmem => ((hnamed f).mp hmem).elim hboth hother] at hside
      exact Prod.mk.inj hside
    · rw [if_pos ((hnamed f).mpr hone)] at hside
      obtain ⟨hpreview, hqueue⟩ := Prod.mk.inj hside
      exact ⟨hpreview, fun hpos => hqueue.trans (if_neg (by omega)), fun hzero => ⟨_, rfl, hqueue.trans (if_pos hzero)⟩⟩
    · exact ((takeCommand_touches s.dev rest).mono (by simp)).trans ((setPreviews_within _ _ _ _).touches.mono (by simp))

end

section
/-! R174: the six queries, and the words that their replies carry. -/

namespace Sys2Proof.Machine

open Sys2Proof

theorem withFace_above {n : Nat} (h : 1 < n) (d : Dev) (k : FaceId → Dev × Answer) : withFace n d k = refuse d .range := by
  unfold withFace
  rw [faceOf_above h]

theorem withFace_code (f : FaceId) (d : Dev) (k : FaceId → Dev × Answer) : withFace (faceCode f) d k = k f := by
  unfold withFace
  rw [faceOf_code]

end Sys2Proof.Machine

open Sys2Proof Sys2Proof.Machine

/-- Settles O49: each reply section by section. -/
theorem queriesAnswerAndChangeNothing : Obligations.QueriesAnswerAndChangeNothing := by
  rintro c rest s d opt pos flag queues rfl hopt hpos hflag rfl
  obtain rfl : opt = optWord := funext hopt
  obtain rfl : pos = optPos := funext hpos
  obtain rfl : flag = flagWord := funext hflag
  refine ⟨fun h => ⟨?status, fun hkind => ?_⟩, fun h => ?counters, fun h => ⟨fun hface => ?_, ?lanes⟩, fun h => ⟨fun hface => ?_, ?streaks⟩,
    fun h => ?pending, fun h => ?retained⟩
  case status =>
    rintro hkind m banks out columns rfl rfl rfl hcolumns
    obtain rfl : columns = columnWords (s.dev.takeCommand rest) := hcolumns.trans (columnWords_words _).symm
    refine runCommand_taken h ((if_pos hkind).trans (congrArg (taken _) ?_))
    unfold statusReply
    rw [motionStatus_words, sensorStatus_words, pixelStatus_words, patternStatus_words, blobStatus_words, streakStatus_words,
      tierStatus_words, bankStatus_words, linkStatus_words, execStatus_words]
    simp only [List.append_assoc]
    rfl
  case counters =>
    refine ⟨if Config.countsOwnQuery then (s.dev.takeCommand rest).base.exec.executed else s.dev.base.exec.executed, ?_, ?_⟩
    · split
      · exact .inr rfl
      · exact .inl rfl
    · refine runCommand_taken h ?_
      refine congrArg (taken _) ((countersReply_words _ _).trans ?_)
      rfl
  case lanes =>
    intro f hf
    refine ⟨_, rfl, runCommand_taken h ?_⟩
    unfold queryLanes
    rw [hf, withFace_code]
    rfl
  case streaks =>
    intro f hf
    refine runCommand_taken h ?_
    unfold queryStreaks
    rw [hf, withFace_code, streaksReply, streakRecordWords_words]
    rfl
  case pending =>
    refine runCommand_taken h ?_
    unfold queryPending pendingReply
    rw [pendingWords_words]
    rfl
  case retained =>
    exact runCommand_taken h rfl
  · exact runCommand_refused h (if_neg (by omega))
  · exact runCommand_refused h (withFace_above hface _ _)
  · exact runCommand_refused h (withFace_above hface _ _)

end

section
/-! R60, R148, R149: the eleven checks of a bank, the verdict of the first that fails, and the bank that the completion leaves. -/

namespace Sys2Proof.Machine

open Sys2Proof

/-! ### The decode (R60) -/

theorem topPriority_le (l : List Region) (m n : Nat) :
    l.foldl (fun m r => max m r.priority) m ≤ n ↔ m ≤ n ∧ ∀ q ∈ l, q.priority ≤ n := by
  induction l generalizing m with
  | nil => simp
  | cons r l ih => rw [List.foldl_cons, ih, max_le_iff, List.forall_mem_cons, and_assoc]

/-- R60: a covering region has the highest priority exactly where no covering region lies above it. -/
theorem priority_top_iff {l : List Region} {r : Region} (hr : r ∈ l) :
    r.priority = topPriority l ↔ ∀ q ∈ l, q.priority ≤ r.priority := by
  have hle : r.priority ≤ topPriority l := ((topPriority_le l 0 _).mp le_rfl).2 r hr
  constructor
  · intro h
    exact ((topPriority_le l 0 _).mp h.ge).2
  · intro h
    exact le_antisymm hle ((topPriority_le l 0 _).mpr ⟨Nat.zero_le _, h⟩)

theorem topRegions_eq (t : Table Region) (c : Nat) : topRegions t c =
    (coveringRegions t c).filter fun r => decide (r.priority = topPriority (coveringRegions t c)) := by
  unfold topRegions
  conv_rhs => rw [coveringRegions]
  rw [List.filter_filter]
  refine List.filter_congr fun r hr => ?_
  cases hcover : r.covers c with
  | false =>
    rw [show (r.present && decide (r.first ≤ c) && decide (c ≤ r.last)) = false from hcover, Bool.false_and, Bool.and_false]
  | true =>
    have hmem : r ∈ coveringRegions t c := List.mem_filter.mpr ⟨hr, hcover⟩
    rw [show (r.present && decide (r.first ≤ c) && decide (c ≤ r.last)) = true from hcover, Bool.true_and, Bool.and_true,
      Bool.eq_iff_iff, decide_eq_true_iff, List.all_eq_true]
    refine Iff.trans ?_ (priority_top_iff hmem).symm
    constructor
    · intro h q hq
      obtain ⟨hq, hcov⟩ := List.mem_filter.mp hq
      have h := h q hq
      rw [show (q.present && decide (q.first ≤ c) && decide (c ≤ q.last)) = true from hcov] at h
      exact of_decide_eq_true h
    · intro h q hq
      cases hcov : q.covers c with
      | false =>
        rw [show (q.present && decide (q.first ≤ c) && decide (c ≤ q.last)) = false from hcov]
        rfl
      | true => exact Bool.or_eq_true_iff.mpr (.inr (decide_eq_true (h q (List.mem_filter.mpr ⟨hq, hcov⟩))))

theorem decodeColumn_eq (t : Table Region) (c : Nat) : decodeColumn t c =
    ((topRegions t c).head?.map fun r => { kind := r.kind.plan, lane := if r.kind.hasLane then r.lane else none }).getD
      PlanEntry.unmapped := by
  rw [topRegions_eq, List.head?_filter]
  unfold decodeColumn
  dsimp only
  cases List.find? _ (coveringRegions t c) <;> rfl

theorem tied_iff (t : Table Region) (c : Nat) : tied t c = true ↔ 2 ≤ (topRegions t c).length := by
  rw [topRegions_eq]
  exact decide_eq_true_iff

/-! ### One check (R148) -/

/-- R148: a verdict says whether the check of a code fails, and what it names. -/
def Judged (b : Base) (c : Contents) (code : Nat) (v : Option Verdict) : Prop :=
  v = none ∧ ¬ CheckFails b c code ∨ ∃ f item, v = some (code, f, item) ∧ CheckFails b c code ∧
    CheckNames b c code (faceCode? f) (item.getD 65535) ∧ item.getD 65535 ≤ 65535

section Checks

variable {b : Base} {c : Contents}

/-- R148: a check that searches the faces, LEAD before TRAIL, and on a face the items in order. -/
theorem searchFaces_judged {code N : Nat} {find : FaceId → Option Nat} {q : FaceId → Nat → Bool}
    (hfails : CheckFails b c code ↔ ∃ f k, FaceFails b c code f k) (hcode : code ≤ 5) (hN : N ≤ 65535)
    (hfind : ∀ f, find f = (List.range N).find? (q f)) (hq : ∀ f k, FaceFails b c code f k ↔ k < N ∧ q f k = true) :
    Judged b c code (searchFaces code find) := by
  have hnone : ∀ f, find f = none → ∀ k, ¬ FaceFails b c code f k := fun f hf k hk => by
    rw [hfind] at hf
    obtain ⟨hk, hqk⟩ := (hq f k).mp hk
    exact List.find?_eq_none.mp hf k (List.mem_range.mpr hk) hqk
  have hsome : ∀ f k, find f = some k → FaceFails b c code f k ∧ (∀ j < k, ¬ FaceFails b c code f j) ∧ k ≤ 65535 := fun f k hf => by
    rw [hfind, List.find?_range_eq_some] at hf
    obtain ⟨hqk, hk, hbelow⟩ := hf
    have hk := List.mem_range.mp hk
    refine ⟨(hq f k).mpr ⟨hk, hqk⟩, fun j hj hfail => ?_, by omega⟩
    have h := hbelow j hj
    rw [((hq f j).mp hfail).2] at h
    cases h
  unfold searchFaces
  cases hl : find .lead with
  | some k =>
    obtain ⟨hfail, hbelow, hk⟩ := hsome .lead k hl
    refine .inr ⟨some .lead, some k, rfl, hfails.mpr ⟨.lead, k, hfail⟩, ?_, hk⟩
    unfold CheckNames
    rw [if_pos hcode]
    exact ⟨.lead, rfl, hfail, hbelow, nofun⟩
  | none =>
    cases ht : find .trail with
    | some k =>
      obtain ⟨hfail, hbelow, hk⟩ := hsome .trail k ht
      refine .inr ⟨some .trail, some k, rfl, hfails.mpr ⟨.trail, k, hfail⟩, ?_, hk⟩
      unfold CheckNames
      rw [if_pos hcode]
      exact ⟨.trail, rfl, hfail, hbelow, fun _ => hnone .lead hl⟩
    | none =>
      refine .inl ⟨rfl, fun h => ?_⟩
      obtain ⟨f, k, hfail⟩ := hfails.mp h
      cases f
      · exact hnone .lead hl k hfail
      · exact hnone .trail ht k hfail

theorem hasLane_iff (k : RegionKind) : k.hasLane = true ↔ k = .lane ∨ k = .guard := by cases k <;> decide

theorem coversDark_iff (f : FaceId) (r : Region) : b.coversDark f r = true ↔
    (r.kind = .lane ∨ r.kind = .guard) ∧ ∃ col, r.first ≤ col ∧ col ≤ r.last ∧ b.dark f col = true := by
  unfold Base.coversDark
  rw [Bool.and_eq_true, hasLane_iff, List.any_eq_true]
  refine and_congr_right fun _ => ⟨?_, ?_⟩
  · rintro ⟨n, hn, hdark⟩
    have hn := List.mem_range.mp hn
    exact ⟨r.first + n, by omega, by omega, hdark⟩
  · rintro ⟨col, hfirst, hlast, hdark⟩
    refine ⟨col - r.first, List.mem_range.mpr (by omega), ?_⟩
    rw [show r.first + (col - r.first) = col from by omega]
    exact hdark

theorem emptyFace_iff (f : FaceId) : b.emptyFace c f = true ↔
    (∃ p < 4, (b.port p).place.enabled = true ∧ (b.port p).place.face = f) ∧
      ∀ col < 8192, (decodeColumn (c.regions f) col).kind ≠ .lane := by
  unfold Base.emptyFace
  rw [Bool.and_eq_true, Bool.not_eq_true', List.any_eq_true, List.any_eq_false]
  refine and_congr ?_ ?_
  · refine exists_congr fun p => and_congr (show p ∈ List.range 4 ↔ _ from List.mem_range) ?_
    rw [Bool.and_eq_true, decide_eq_true_iff]
  · refine forall_congr' fun col => imp_congr List.mem_range ?_
    rw [decide_eq_true_iff]

theorem emptyFace_judged : Judged b c 5 ((([FaceId.lead, FaceId.trail]).find? (b.emptyFace c)).map fun f => (5, some f, none)) := by
  have hfails : ∀ f k, FaceFails b c 5 f k ↔ k = 65535 ∧ b.emptyFace c f = true := fun f k => by rw [emptyFace_iff]; rfl
  have hbelow : ∀ f, ∀ k < 65535, ¬ FaceFails b c 5 f k := fun f k hk h => by
    have := ((hfails f k).mp h).1
    omega
  cases hl : b.emptyFace c .lead with
  | true =>
    rw [List.find?_cons_of_pos hl]
    refine .inr ⟨some .lead, none, rfl, ⟨.lead, 65535, (hfails _ _).mpr ⟨rfl, hl⟩⟩, ?_, le_rfl⟩
    exact ⟨.lead, rfl, (hfails _ _).mpr ⟨rfl, hl⟩, hbelow _, nofun⟩
  | false =>
    have hlead : ∀ k, ¬ FaceFails b c 5 .lead k := fun k h => by
      rw [hfails, hl] at h
      exact Bool.false_ne_true h.2
    rw [List.find?_cons_of_neg (by rw [hl]; exact Bool.false_ne_true)]
    cases ht : b.emptyFace c .trail with
    | true =>
      rw [List.find?_cons_of_pos ht]
      refine .inr ⟨some .trail, none, rfl, ⟨.trail, 65535, (hfails _ _).mpr ⟨rfl, ht⟩⟩, ?_, le_rfl⟩
      exact ⟨.trail, rfl, (hfails _ _).mpr ⟨rfl, ht⟩, hbelow _, fun _ => hlead⟩
    | false =>
      rw [List.find?_cons_of_neg (by rw [ht]; exact Bool.false_ne_true)]
      refine .inl ⟨rfl, ?_⟩
      rintro ⟨f, k, h⟩
      cases f
      · exact hlead k h
      · rw [hfails, ht] at h
        exact Bool.false_ne_true h.2

theorem ruleFails_iff (k : Nat) : RuleFails c k ↔ k < 8 ∧ ((c.rule k).present && (c.rule k).reversed) = true := by
  unfold RuleFails ClassRule.reversed
  rw [Bool.and_eq_true, Bool.or_eq_true, Bool.or_eq_true, decide_eq_true_iff, decide_eq_true_iff, decide_eq_true_iff, or_assoc]

theorem reversed_judged : Judged b c 6 ((lowestRule c ClassRule.reversed).map fun k => (6, none, some k)) := by
  unfold lowestRule
  cases hfind : (List.range 8).find? fun k => (c.rule k).present && (c.rule k).reversed with
  | some k =>
    obtain ⟨hk, hmem, hbelow⟩ := List.find?_range_eq_some.mp hfind
    have hmem := List.mem_range.mp hmem
    have hfail : RuleFails c k := (ruleFails_iff k).mpr ⟨hmem, hk⟩
    refine .inr ⟨none, some k, rfl, ⟨k, hfail⟩, ⟨rfl, hfail, fun j hj h => ?_⟩, by rw [Option.getD_some]; omega⟩
    have hj := hbelow j hj
    rw [((ruleFails_iff j).mp h).2] at hj
    cases hj
  | none =>
    refine .inl ⟨rfl, ?_⟩
    rintro ⟨k, h⟩
    obtain ⟨hk, hrev⟩ := (ruleFails_iff k).mp h
    exact List.find?_eq_none.mp hfind k (List.mem_range.mpr hk) hrev

theorem slotUsers_judged : Judged b c 7
    (if 1 < c.users .a then some (7, none, some 1) else if 1 < c.users .b then some (7, none, some 2) else none) := by
  have husers : ∀ x, c.users x = slotUsers c x := fun x => rfl
  rw [husers, husers]
  by_cases ha : 1 < slotUsers c .a
  · rw [if_pos ha]
    exact .inr ⟨none, some 1, rfl, .inl ha, ⟨rfl, (if_pos ha).symm⟩, by decide⟩
  · rw [if_neg ha]
    by_cases hb : 1 < slotUsers c .b
    · rw [if_pos hb]
      exact .inr ⟨none, some 2, rfl, .inr hb, ⟨rfl, (if_neg ha).symm⟩, by decide⟩
    · rw [if_neg hb]
      exact .inl ⟨rfl, fun h => h.elim ha hb⟩

theorem tierFails_iff (t : Nat) : TierFails c t ↔ t ∈ List.range' 1 3 ∧ c.rises t = true := by
  unfold TierFails Contents.rises
  rw [Bool.or_eq_true, Bool.or_eq_true, decide_eq_true_iff, decide_eq_true_iff, decide_eq_true_iff, or_assoc, List.mem_range'_1,
    ← and_assoc]
  exact and_congr_left fun _ => by omega

theorem tierVerdict_judged : Judged b c 8 (tierVerdict c) := by
  unfold tierVerdict
  rw [show [1, 2, 3] = List.range' 1 3 from rfl]
  cases hfind : (List.range' 1 3).find? c.rises with
  | some t =>
    obtain ⟨hrise, hmem, hbelow⟩ := List.find?_range'_eq_some.mp hfind
    have hfail : TierFails c t := (tierFails_iff t).mpr ⟨hmem, hrise⟩
    have hrange := List.mem_range'_1.mp hmem
    refine .inr ⟨none, some t, rfl, .inl ⟨t, hfail⟩, ⟨rfl, .inl ⟨hfail, fun j hj h => ?_⟩⟩, by rw [Option.getD_some]; omega⟩
    obtain ⟨hj1, hjr⟩ := (tierFails_iff j).mp h
    have hj := hbelow j (List.mem_range'_1.mp hj1).1 hj
    rw [hjr] at hj
    cases hj
  | none =>
    have hnone : ∀ t, ¬ TierFails c t := fun t h => by
      obtain ⟨hmem, hrise⟩ := (tierFails_iff t).mp h
      exact List.find?_eq_none.mp hfind t hmem hrise
    dsimp only
    by_cases hpolicy : c.tierPolicy.maxTier < c.tierPolicy.minTier ∨ c.tierPolicy.ne ≤ c.tierPolicy.nd
    · rw [if_pos hpolicy]
      exact .inr ⟨none, none, rfl, .inr hpolicy, ⟨rfl, .inr ⟨rfl, hnone⟩⟩, le_rfl⟩
    · rw [if_neg hpolicy]
      exact .inl ⟨rfl, fun h => h.elim (fun ⟨t, ht⟩ => hnone t ht) hpolicy⟩

/-- R148: a check that names neither face nor item. -/
theorem plainCheck_judged {code : Nat} {fails : Bool} (hcode : code = 9 ∨ code = 10 ∨ code = 11)
    (h : fails = true ↔ CheckFails b c code) : Judged b c code (plainCheck code fails) := by
  cases hf : fails with
  | true =>
    refine .inr ⟨none, none, rfl, h.mp hf, ?_, le_rfl⟩
    obtain rfl | rfl | rfl := hcode <;> exact ⟨rfl, rfl⟩
  | false =>
    refine .inl ⟨rfl, fun hfail => ?_⟩
    rw [h.mpr hfail] at hf
    cases hf

theorem lowestRule_isSome (p : ClassRule → Bool) : (lowestRule c p).isSome = true ↔
    ∃ k < 8, (c.rule k).present = true ∧ p (c.rule k) = true := by
  unfold lowestRule
  rw [List.find?_isSome]
  refine exists_congr fun k => and_congr List.mem_range ?_
  exact Bool.and_eq_true _ _ ▸ Iff.rfl

theorem stationSpan_iff : stationSpanFails b.motion.setup c = true ↔ CheckFails b c 10 := by
  unfold stationSpanFails
  rw [Bool.and_eq_true, lowestRule_isSome, Bool.or_eq_true, decide_eq_true_iff, decide_eq_true_iff, Nat.mul_comm 1024 b.motion.setup.d]
  rfl

theorem streakSpan_iff : streakSpanFails b.motion.setup c = true ↔ CheckFails b c 11 := by
  have hout : ∀ um, (decide (linesOf um b.motion.setup.pitch = 0) || decide (65535 < linesOf um b.motion.setup.pitch)) = true ↔
      linesOutside um (b.motion.setup.n * b.motion.setup.e) := fun um => by
    rw [Bool.or_eq_true, decide_eq_true_iff, decide_eq_true_iff]
    rfl
  unfold streakSpanFails
  rw [Bool.or_eq_true, decide_eq_true_iff, List.any_cons, List.any_cons, List.any_nil, Bool.or_false, Bool.or_eq_true, hout, hout]
  rfl

end Checks

/-! ### The eleven checks in order (R148) -/

/-- R148: verdicts that say in turn what the checks from a code on say. -/
def JudgedFrom (b : Base) (c : Contents) : Nat → List (Option Verdict) → Prop
  | _, [] => True
  | n, v :: l => Judged b c n v ∧ JudgedFrom b c (n + 1) l

section Verdicts

variable {b : Base} {c : Contents}

theorem firstVerdict_passed {n : Nat} {l : List (Option Verdict)} (h : JudgedFrom b c n l)
    (hpass : ∀ m, n ≤ m → m < n + l.length → ¬ CheckFails b c m) : firstVerdict l = none := by
  induction l generalizing n with
  | nil => rfl
  | cons v l ih =>
    obtain ⟨hv, hl⟩ := h
    rw [List.length_cons] at hpass
    obtain ⟨rfl, -⟩ | ⟨f, item, -, hfail, -⟩ := hv
    · exact ih hl fun m hm hlt => hpass m (by omega) (by omega)
    · exact absurd hfail (hpass n le_rfl (by omega))

theorem firstVerdict_failed {n code : Nat} {l : List (Option Verdict)} (h : JudgedFrom b c n l) (hn : n ≤ code)
    (hlen : code < n + l.length) (hfail : CheckFails b c code) (hpass : ∀ m, n ≤ m → m < code → ¬ CheckFails b c m) :
    ∃ f item, firstVerdict l = some (code, f, item) ∧ CheckNames b c code (faceCode? f) (item.getD 65535) ∧
      item.getD 65535 ≤ 65535 := by
  induction l generalizing n with
  | nil =>
    rw [List.length_nil] at hlen
    omega
  | cons v l ih =>
    obtain ⟨hv, hl⟩ := h
    rw [List.length_cons] at hlen
    obtain ⟨rfl, hnot⟩ | ⟨f, item, rfl, hfails, hnames⟩ := hv
    · have hne : n ≠ code := fun he => hnot (he ▸ hfail)
      exact ih hl (by omega) (by omega) fun m hm hlt => hpass m (by omega) hlt
    · obtain rfl : n = code := by
        by_contra hne
        exact hpass n le_rfl (by omega) hfails
      exact ⟨f, item, rfl, hnames⟩

/-- The verdicts of R148, in the order of its table. -/
def verdicts (b : Base) (c : Contents) : List (Option Verdict) := [
  searchFaces 1 fun f => lowestRegion (c.regions f) fun r => decide (r.last < r.first),
  searchFaces 2 fun f => lowestRegion (c.regions f) (b.coversDark f),
  searchFaces 3 fun f => (List.range Config.columns).find? (tied (c.regions f)),
  searchFaces 4 fun f => lowestRegion (c.regions f) fun r => r.kind.hasLane && r.lane.isNone,
  (([FaceId.lead, FaceId.trail]).find? (b.emptyFace c)).map fun f => (5, some f, none),
  (lowestRule c ClassRule.reversed).map fun k => (6, none, some k),
  if 1 < c.users .a then some (7, none, some 1) else if 1 < c.users .b then some (7, none, some 2) else none,
  tierVerdict c,
  plainCheck 9 (decide (c.pattern.c ≤ c.pattern.gl + c.pattern.gt)),
  plainCheck 10 (stationSpanFails b.motion.setup c),
  plainCheck 11 (streakSpanFails b.motion.setup c)]

theorem judge_eq (b : Base) (c : Contents) : judge b c = firstVerdict (verdicts b c) := rfl

theorem verdicts_judged (b : Base) (c : Contents) : JudgedFrom b c 1 (verdicts b c) := by
  refine ⟨searchFaces_judged Iff.rfl (by decide) (N := 32) (by decide) (fun f => rfl) fun f k => ?_,
    searchFaces_judged Iff.rfl (by decide) (N := 32) (by decide) (fun f => rfl) fun f k => ?_,
    searchFaces_judged Iff.rfl (by decide) (N := 8192) (by decide) (fun f => rfl) fun f k => ?_,
    searchFaces_judged Iff.rfl (by decide) (N := 32) (by decide) (fun f => rfl) fun f k => ?_,
    emptyFace_judged, reversed_judged, slotUsers_judged, tierVerdict_judged, plainCheck_judged (.inl rfl) decide_eq_true_iff,
    plainCheck_judged (.inr (.inl rfl)) stationSpan_iff, plainCheck_judged (.inr (.inr rfl)) streakSpan_iff, trivial⟩
  · rw [Bool.and_eq_true, decide_eq_true_iff]
    rfl
  · rw [Bool.and_eq_true, coversDark_iff]
    exact and_congr_right fun _ => ⟨fun ⟨r, hr, h⟩ => hr ▸ h, fun h => ⟨_, rfl, h⟩⟩
  · rw [tied_iff]
    rfl
  · rw [Bool.and_eq_true, Bool.and_eq_true, hasLane_iff, Option.isNone_iff_eq_none]
    exact and_congr_right fun _ => ⟨fun ⟨r, hr, h⟩ => hr ▸ h, fun h => ⟨_, rfl, h⟩⟩

end Verdicts

/-! ### The completion (R148, R149) -/

theorem checkWord_failed {code : Nat} {f : Option FaceId} {item : Option Nat} (hcode : code ≤ 11) (hitem : item.getD 65535 ≤ 65535) :
    checkWord (some (code, f, item)) = BitVec.ofNat 32 (code * 16777216 + faceCode? f * 4194304 + item.getD 65535) := by
  have hface : faceCode? f ≤ 3 := by
    cases f with
    | none => decide
    | some f => cases f <;> decide
  refine congrArg (BitVec.ofNat 32) ?_
  show code % 2 ^ 8 * 2 ^ 24 + faceCode? f % 2 ^ 2 * 2 ^ 22 + item.getD 65535 % 2 ^ 16 * 2 ^ 0 = _
  rw [Nat.mod_eq_of_lt (by omega), Nat.mod_eq_of_lt (by omega), Nat.mod_eq_of_lt (by omega)]
  omega

/-- Two states that differ in the part alone. -/
theorem next_dev {s : State} {d d' : Dev} (h : d = d') :
    (Host.Outcome.next { s with dev := d } : Host.Outcome State Fault Refusal) = .next { s with dev := d' } := by rw [h]

theorem completeCheck_of {d : Dev} {i : BankId} (h : d.base.banks.checkingBank = some i) : completeCheck d =
    (d.onBanks fun b => { b.setBank i ((d.base.banks.bank i).judged d.base.motion.setup (judge d.base (d.base.banks.bank i).contents)) with
      checkTag := none }).reply 0x12 (d.base.banks.checkTag.getD 0) .done [checkWord (judge d.base (d.base.banks.bank i).contents)] := by
  unfold completeCheck
  rw [h]

theorem checkingBank_of {b : Banks} {i : BankId} (h : (b.bank i).state = .checking) (hother : (b.bank i.other).state ≠ .checking) :
    b.checkingBank = some i := by
  unfold Banks.checkingBank
  cases i with
  | bank0 => exact if_pos h
  | bank1 => exact (if_neg hother).trans (if_pos h)

theorem checkingBank_none {b : Banks} (h : ∀ i, (b.bank i).state ≠ .checking) : b.checkingBank = none :=
  (if_neg (h .bank0)).trans (if_neg (h .bank1))

end Sys2Proof.Machine

open Sys2Proof Sys2Proof.Machine

/-- Settles O55: the verdict of the first check that fails, or the compiled bank; and the decode of a column. -/
theorem checkCompletionJudgesBank : Obligations.CheckCompletionJudgesBank := by
  refine ⟨?completion, fun s h => ?_, fun t col => ⟨fun r hr => ?_, fun hnone => ?_⟩⟩
  case completion =>
    rintro s i x tag rfl hstate hother htag
    have hcomplete := completeCheck_of (checkingBank_of hstate hother)
    rw [htag, Option.getD_some, judge_eq] at hcomplete
    refine ⟨fun hpass => ⟨_, rfl, ?_⟩, fun n h1 hn hfail hbefore => ?_⟩
    · rw [firstVerdict_passed (verdicts_judged _ _) fun m hm hlt => hpass m hm (Nat.le_of_lt_succ hlt)] at hcomplete
      exact next_dev hcomplete
    · obtain ⟨f, item, hverdict, hnames, hitem⟩ :=
        firstVerdict_failed (verdicts_judged _ _) h1 (Nat.lt_succ_of_le hn) hfail hbefore
      rw [hverdict, checkWord_failed hn hitem] at hcomplete
      exact ⟨_, _, hnames, next_dev hcomplete⟩
  · have hnone : completeCheck s.dev = s.dev := by
      unfold completeCheck
      rw [checkingBank_none h]
    exact next_dev hnone
  · rw [decodeColumn_eq, hr]
    cases hkind : r.kind <;> simp [RegionKind.plan, RegionKind.hasLane, hkind]
  · rw [decodeColumn_eq, hnone]
    rfl

end

section
/-! R46, R68, R115, R139, R144, R150: START, and what each face takes from the bank that becomes active. -/

namespace Sys2Proof.Machine

open Sys2Proof

/-! ### One face (R150) -/

/-- R139: the tier state of a face loaded from the bank active on it. -/
def loadedTier (b : Base) (f : FaceId) (x : Tier) : Tier :=
  ({ x.load (b.banks.contents f).tierPolicy (b.facePos f) with lastPos := none, lastLine := none }).testAlert (b.na f)

/-- R150: a face started under the bank active on it. -/
def startedFace (b : Base) (f : FaceId) (x : Face) : Face := { x with
  pixel := { x.pixel.enterLearning (b.banks.contents f).detection.learnLength with lastPos := none },
  pattern := x.startPattern b f, streak := x.streak.start, tier := loadedTier b f x.tier }

section Start

variable {f : FaceId}

/-- R139: the alert report of a face that starts. -/
def startReport (f : FaceId) (na : Nat) (old new : Tier) (o : Out) : Out :=
  if old.alert = new.alert then o else o.offer .p2 (.status (some f) false (.alert new.alert new.atT2 na none none))

theorem startFace_insp (d : Dev) : (startFace f d).insp = offerAlert (d.base.na f) f none (d.face f).tier
    (loadedTier d.base f (d.face f).tier) (d.insp.onFace f (startedFace d.base f)) := by
  have htier : ∀ (i : Insp) (g : Face → Face), ((i.onFace f g).face f).tier = (g (i.face f)).tier := fun i g => by rw [onFace_face]
  unfold startFace enterLearning loadTiersAtStart
  dsimp only
  rw [onFace_onFace, htier, onFace_onFace]
  refine congrArg (offerAlert _ f none _ _) (onFace_congr ?_)
  rfl

theorem startFace_base (d : Dev) : (startFace f d).base = d.base := rfl

theorem offerAlert_face (na : Nat) (line : Option (Word × Int)) (old new : Tier) (i : Insp) (g : FaceId) :
    (offerAlert na f line old new i).face g = i.face g := by
  unfold offerAlert
  split
  · rfl
  · cases g <;> rfl

theorem startFace_face (d : Dev) (g : FaceId) :
    (startFace f d).face g = if g = f then startedFace d.base f (d.face f) else d.face g := by
  show (startFace f d).insp.face g = _
  rw [startFace_insp, offerAlert_face]
  split
  next hg => rw [hg, onFace_face]; rfl
  next hg => exact onFace_other _ _ hg

theorem started_not_lost (b : Base) (x : Face) : (startedFace b f x).pattern.state ≠ some .lost := by
  unfold startedFace Face.startPattern enterPattern
  dsimp only
  split <;> nofun

theorem startFace_out (d : Dev) : (startFace f d).insp.out =
    startReport f (d.base.na f) (d.face f).tier (loadedTier d.base f (d.face f).tier) d.insp.out := by
  have hlost : (d.insp.onFace f (startedFace d.base f)).lost f = false := by
    unfold Insp.lost
    rw [onFace_face]
    exact decide_eq_false (started_not_lost _ _)
  rw [startFace_insp]
  unfold offerAlert startReport
  split
  · exact onFace_out _ _ _
  · show (d.insp.onFace f (startedFace d.base f)).out.offer .p2 _ = _
    rw [onFace_out]
    exact congrArg (fun u => d.insp.out.offer .p2 (.status (some f) u _)) hlost

theorem startFace_touches (d : Dev) : Touches [.pixel f, .pattern f, .streak f, .tier f, .out] d (startFace f d) := by
  have hface := onFace_face d.insp f (startedFace d.base f)
  have hstarted : Within [.pixel f, .pattern f, .streak f, .tier f] d.insp (d.insp.onFace f (startedFace d.base f)) :=
    Within.onFace fun q hq hout b => by
      simp only [Part.ofFace, List.mem_cons, List.not_mem_nil, or_false] at hq
      obtain rfl | rfl | rfl | rfl | rfl | rfl | rfl | rfl := hq
      · exact (congrArg Face.grid hface).trans rfl
      · exact (congrArg Face.asm hface).trans rfl
      · exact absurd (by simp) hout
      · exact absurd (by simp) hout
      · exact (congrArg Face.blob hface).trans rfl
      · exact absurd (by simp) hout
      · exact absurd (by simp) hout
      · exact (congrArg Face.preview hface).trans rfl
  have hwithin : Within [.pixel f, .pattern f, .streak f, .tier f, .out] d.insp (startFace f d).insp := by
    rw [startFace_insp]
    exact (hstarted.mono (by simp)).trans ((Within.offerAlert _ _ _ _ _).mono (by simp))
  exact hwithin.touches

theorem startedFace_pixel (b : Base) (x : Face) : (startedFace b f x).pixel = { x.pixel with
    cols := x.pixel.clearSums.cols, phase := .learning, learnLines := 0,
    learnLength := (b.banks.contents f).detection.learnLength, lastPos := none } := rfl

theorem startedFace_pattern (b : Base) (x : Face) : (startedFace b f x).pattern = { x.pattern with
    state := some (if (b.banks.contents f).pattern.g = 0 then .continuous else .seeking), edge := none, misses := 0,
    seek := if (b.banks.contents f).pattern.g = 0 then none else some (b.motion.h + b.dieOffset f), lastZone := none } := by
  show x.startPattern b f = _
  unfold Face.startPattern enterPattern
  dsimp only
  split <;> rfl

/-! ### The loaded tiers (R139) -/

theorem tget_foldl_tset {α : Type} [DecidableEq α] (d v : α) (l : List Nat) (t : Table α) (j : Nat) :
    tget d (l.foldl (fun t k => tset d t k v) t) j = if j ∈ l then v else tget d t j := by
  induction l generalizing t with
  | nil => rw [if_neg List.not_mem_nil, List.foldl_nil]
  | cons k l ih =>
    rw [List.foldl_cons, ih, tget_tset]
    by_cases hj : j = k
    · simp [hj]
    · simp [hj]

theorem loadedTier_lane (b : Base) (x : Tier) {j : Nat} (hj : j < 16) :
    (loadedTier b f x).lane j = (b.banks.contents f).tierPolicy.lane :=
  (tget_foldl_tset Lane.powerOn (b.banks.contents f).tierPolicy.lane laneNumbers [] j).trans (if_pos (List.mem_range.mpr hj))

theorem loadedTier_fields (b : Base) (x : Tier) : ∃ t, loadedTier b f x = { x with
    lanes := t, current := 0, next := some (b.facePos f + (b.banks.contents f).tierPolicy.span),
    fa := (b.banks.contents f).tierPolicy.fa, lastPos := none, lastLine := none, alert := (loadedTier b f x).alert,
    alerts := if (loadedTier b f x).alert = true ∧ x.alert = false then min (x.alerts + 1) 4294967295 else x.alerts } := by
  refine ⟨(x.load (b.banks.contents f).tierPolicy (b.facePos f)).lanes, ?_⟩
  have halert : (loadedTier b f x).alert = true ↔ b.na f ≤
      ({ x.load (b.banks.contents f).tierPolicy (b.facePos f) with lastPos := none, lastLine := none } : Tier).atT2 :=
    decide_eq_true_iff
  have hcount := if_congr (and_congr_left' (c := x.alert = false) halert) (Eq.refl (min (x.alerts + 1) 4294967295)) (Eq.refl x.alerts)
  rw [hcount]
  conv_lhs => rw [loadedTier, testAlert_eq]
  rfl

end Start

/-! ### Both faces (R150) -/

/-- R150: the part once the bank is active and the part RUNNING. -/
def activated (i : BankId) (d : Dev) : Dev := d.onBanks fun b => { b.setState i (.active .both) with running := true }

section Part

variable (i : BankId) (d : Dev)

theorem startPart_order : ∃ first, startPart i d = startFace (otherFace first) (startFace first (activated i d).nextFree) :=
  bothFaces_order (activated i d) startFace

theorem startPart_face (f : FaceId) : ((startPart i d).face f) = startedFace (activated i d).base f (d.face f) := by
  obtain ⟨first, horder⟩ := startPart_order i d
  rw [horder, startFace_face, startFace_face, startFace_face]
  by_cases hf : f = first
  · rw [hf, if_neg (otherFace_ne first).symm, if_pos rfl]
    rfl
  · rw [if_pos (eq_other_of_ne hf), if_neg (otherFace_ne first), eq_other_of_ne hf]
    rfl

theorem startPart_base : (startPart i d).base = (activated i d).nextFree.base := by
  obtain ⟨first, horder⟩ := startPart_order i d
  rw [horder, startFace_base, startFace_base]

theorem startPart_out : ∃ faces, (faces = [FaceId.lead, .trail] ∨ faces = [.trail, .lead]) ∧ (startPart i d).insp.out =
    faces.foldl (fun o f => startReport f ((activated i d).base.na f) (d.face f).tier ((startPart i d).face f).tier o) d.insp.out := by
  obtain ⟨first, horder⟩ := startPart_order i d
  refine ⟨[first, otherFace first], by cases first <;> simp [otherFace], ?_⟩
  simp only [List.foldl_cons, List.foldl_nil, startPart_face]
  rw [horder, startFace_out, startFace_out, startFace_face, if_neg (otherFace_ne first)]
  rfl

theorem startPart_touches : Touches [.banks, .free, .out, .pixel .lead, .pattern .lead, .streak .lead, .tier .lead, .pixel .trail,
    .pattern .trail, .streak .trail, .tier .trail] d (startPart i d) := by
  refine Touches.trans (b := activated i d) ((Touches.onBanks d _).mono (by simp)) (Touches.bothFaces (fun f d => ?_) (by simp))
  exact (startFace_touches d).mono (by cases f <;> simp)

end Part

/-! ### The bank (R144, R150) -/

section Bank

variable {i : BankId} {d : Dev}

/-- R144: in STANDBY the bank that START activates is the one active on each face. -/
theorem activated_contents (hlaw : BankLaw d.base.banks) (hrun : d.base.banks.running = false) (f : FaceId) :
    (activated i d).base.banks.contents f = (d.base.banks.bank i).contents := by
  have hrest : ∀ j, (d.base.banks.bank j).state.activeOn f = false := fun j => by
    unfold BankLaw at hlaw
    rw [if_neg (by rw [hrun]; decide)] at hlaw
    have hj := hlaw j
    cases hs : (d.base.banks.bank j).state with
    | active fs =>
      rw [hs] at hj
      cases hj
    | vacant | opened | checking | checked | scheduled => rfl
  have hboth : FaceSet.both.has f = true := rfl
  have hactive : (activated i d).base.banks.activeOn f = some i := by
    unfold Banks.activeOn
    cases i with
    | bank0 => exact if_pos hboth
    | bank1 => exact (if_neg fun hb => Bool.false_ne_true ((hrest .bank0).symm.trans hb)).trans (if_pos hboth)
  unfold Banks.contents
  rw [hactive]
  cases i <;> rfl

end Bank

end Sys2Proof.Machine

open Sys2Proof Sys2Proof.Machine

/-- Settles O56: the tests, then both faces under the bank that has become active. -/
theorem startActivatesBank : Obligations.StartActivatesBank := by
  rintro c rest s d h rfl
  refine ⟨fun habove => runCommand_refused h (withBank_above habove _ _), ?_⟩
  rintro i x hbank rfl
  have hwith : ∀ k, withBank (c.nat 0) (s.dev.takeCommand rest) k = k i := fun k => by rw [hbank, withBank_code]
  refine ⟨fun hstate => runCommand_refused h ((hwith _).trans (if_pos hstate)), fun hlaw hrun hchecked => ?_⟩
  have hrow : startCommand c (s.dev.takeCommand rest) = taken (startPart i (s.dev.takeCommand rest)) [] :=
    (hwith _).trans (if_neg (not_or.mpr ⟨fun hb => Bool.false_ne_true (hrun.symm.trans hb), not_not.mpr hchecked⟩))
  have hcontents : ∀ f, (activated i (s.dev.takeCommand rest)).base.banks.contents f = (s.dev.base.banks.bank i).contents :=
    fun f => activated_contents (d := s.dev.takeCommand rest) hlaw hrun f
  have hoffset : ∀ g : FaceId, (activated i (s.dev.takeCommand rest)).base.dieOffset g = 1024 * ((s.dev.base.motion.setup.die : Int) +
      (match g with | .lead => 0 | .trail => (s.dev.base.banks.bank i).contents.pattern.r)) := fun g => by
    cases g with
    | lead => rfl
    | trail => exact congrArg (fun y : Contents => 1024 * ((s.dev.base.motion.setup.die : Int) + y.pattern.r)) (hcontents .trail)
  have hna : ∀ f, (activated i (s.dev.takeCommand rest)).base.na f = (s.dev.base.banks.bank i).contents.tierPolicy.na := fun f =>
    congrArg (fun y : Contents => y.tierPolicy.na) (hcontents f)
  have hbase := startPart_base i (s.dev.takeCommand rest)
  refine ⟨_, runCommand_taken h hrow, congrArg Base.banks hbase, (congrArg Base.exec hbase).trans rfl, fun f => ?face, ?out, ?frame⟩
  case face =>
    have hface := startPart_face i (s.dev.takeCommand rest) f
    have hpixel := (congrArg Face.pixel hface).trans (startedFace_pixel _ _)
    have hpattern := (congrArg Face.pattern hface).trans (startedFace_pattern _ _)
    have htier : ((startPart i (s.dev.takeCommand rest)).face f).tier =
        loadedTier (activated i (s.dev.takeCommand rest)).base f (s.dev.face f).tier := congrArg Face.tier hface
    have hstreak := congrArg Face.streak hface
    obtain ⟨t, hfields⟩ := loadedTier_fields (f := f) (activated i (s.dev.takeCommand rest)).base (s.dev.face f).tier
    rw [hcontents] at hpixel
    rw [hcontents, hoffset f] at hpattern
    rw [hcontents, ← htier] at hfields
    refine ⟨⟨_, rfl, _, hpixel, fun k => ⟨(clearSums_zero _ k).1, (clearSums_zero _ k).2, fun hcanon => clearSums_col hcanon k⟩⟩, hpattern,
      hstreak, fun j hj => ?_, ⟨_, _, t, rfl, rfl, hfields⟩, ?_⟩
    · rw [htier, loadedTier_lane _ _ hj, hcontents]
      rfl
    · rw [htier, ← hna f]
      exact testAlert_alert _ _
  case out =>
    obtain ⟨faces, horder, hout⟩ := startPart_out i (s.dev.takeCommand rest)
    simp only [hna] at hout
    exact ⟨faces, horder, hout⟩
  case frame =>
    exact ((takeCommand_touches s.dev rest).mono (by simp)).trans ((startPart_touches i _).mono (by simp))

end

section
/-! R164, R165, R169: the link going UP and DOWN and the frames that come in; 12.2 to 12.7, R180: the words of every frame sent. -/

namespace Sys2Proof.Machine

open Sys2Proof

/-! ### The link goes DOWN (R164) -/

section Down

variable (o : Out) (t : InFlight)

theorem setQueue_keeps (q : QueueId) (x : Queue) : (o.setQueue q x).linkUp = o.linkUp ∧ (o.setQueue q x).tx = o.tx ∧
    (o.setQueue q x).linkDowns = o.linkDowns ∧ (o.setQueue q x).inboundErrors = o.inboundErrors ∧
    (o.setQueue q x).startPending = o.startPending ∧ (o.setQueue q x).cause = o.cause ∧ (o.setQueue q x).tag = o.tag ∧
    (o.setQueue q x).kept = o.kept ∧ (o.setQueue q x).toggle = o.toggle ∧ (o.setQueue q x).framesSent = o.framesSent := by
  cases q <;> exact ⟨rfl, rfl, rfl, rfl, rfl, rfl, rfl, rfl, rfl, rfl⟩

theorem countLost_keeps : (o.countLost t).linkUp = o.linkUp ∧ (o.countLost t).tx = o.tx ∧
    (o.countLost t).linkDowns = o.linkDowns ∧ (o.countLost t).inboundErrors = o.inboundErrors ∧
    (o.countLost t).startPending = o.startPending ∧ (o.countLost t).cause = o.cause ∧ (o.countLost t).tag = o.tag ∧
    (o.countLost t).kept = o.kept ∧ (o.countLost t).toggle = o.toggle ∧ (o.countLost t).framesSent = o.framesSent := by
  unfold Out.countLost
  split
  · exact setQueue_keeps o _ _
  · exact ⟨rfl, rfl, rfl, rfl, rfl, rfl, rfl, rfl, rfl, rfl⟩

theorem countLost_buffers : (o.countLost t).buffers = o.buffers := by
  unfold Out.countLost
  split
  · exact setQueue_buffers _ _ _
  · rfl

theorem countLost_queue (q : QueueId) :
    (o.countLost t).queue q = if t.queue = some q then (o.queue q).lose else o.queue q := by
  unfold Out.countLost
  split
  next q' hq =>
    rw [queue_setQueue, hq]
    by_cases h : q = q'
    · rw [h, if_pos rfl, if_pos rfl]
    · rw [if_neg h, if_neg fun he => h (Option.some.inj he).symm]
  next hq => rw [hq, if_neg nofun]

/-- R158: a report that holds no buffer frees none. -/
theorem release_none {r : Report} (h : ∀ k, ¬ r.holds k) : o.release r = o := by
  have hrecord : ∀ (o : Out) (x : Defect), (∀ k, x.excerpt.held ≠ some k) → o.freeRecord x = o := fun o x hx => by
    unfold Out.freeRecord
    split
    next k hk => exact absurd hk (hx k)
    next => rfl
  cases r with
  | defect x => exact hrecord o x fun k hk => h k ((holds_defect x k).mpr hk)
  | through x y md cd =>
    show (o.freeRecord x).freeRecord y = o
    rw [hrecord o x fun k hk => h k ((holds_through x y md cd k).mpr (.inl hk)),
      hrecord o y fun k hk => h k ((holds_through x y md cd k).mpr (.inr hk))]
  | reply _ | streak _ | lane _ | status _ _ _ | excerpt _ | preview _ | start _ _ _ => rfl

/-- R164: what becomes of the buffers when a frame in transmission is lost. -/
def LosesBuffers (o : Out) (t : InFlight) (buffers : Table (Option Buffer)) : Prop :=
  (∀ k, t.report.holds k → tget none buffers k = none) ∧
  ((∀ e, t.report ≠ .excerpt e) → ∀ k, ¬ t.report.holds k → tget none buffers k = tget none o.buffers k) ∧
  (∀ e, t.report = .excerpt e → t.live = true → buffers = tset none o.buffers e.buffer none) ∧
  (∀ e, t.report = .excerpt e → t.live = false → buffers = o.buffers) ∧
  ((∀ k, ¬ t.report.holds k) → (∀ e, t.report ≠ .excerpt e) → buffers = o.buffers)

/-- R164, R158: a lost report that is no EXCERPT frees what it holds. -/
theorem LosesBuffers.of_release (hne : ∀ e, t.report ≠ .excerpt e) {o' : Out} (ho : o' = (o.countLost t).release t.report) :
    ∃ u, o' = { o.countLost t with buffers := u } ∧ LosesBuffers o t u := by
  obtain ⟨u, hu, hfreed, hkept⟩ := release_frees (o.countLost t) t.report
  rw [countLost_buffers] at hkept
  refine ⟨u, ho.trans hu, hfreed, fun _ => hkept, fun e he => absurd he (hne e), fun e he => absurd he (hne e), fun hnone _ => ?_⟩
  rw [release_none _ hnone] at hu
  exact (congrArg Out.buffers hu).symm.trans (countLost_buffers o t)

theorem loseFrame_eq : ∃ u, o.loseFrame t = { o.countLost t with buffers := u } ∧ LosesBuffers o t u := by
  have hbuffers := countLost_buffers o t
  cases hr : t.report with
  | excerpt e =>
    have hholds : ∀ k, ¬ t.report.holds k := holds_other (by simp [hr]) (by simp [hr])
    have hkept : LosesBuffers o t (if t.live then tset none o.buffers e.buffer none else o.buffers) := by
      refine ⟨fun k hk => absurd hk (hholds k), fun hne => absurd hr (hne e), fun e' he' hlive => ?_, fun e' he' hdead => ?_,
        fun _ hne => absurd hr (hne e)⟩
      · obtain rfl : e = e' := by rw [hr] at he'; exact Report.excerpt.inj he'
        exact if_pos hlive
      · exact if_neg (by rw [hdead]; decide)
    refine ⟨_, ?_, hkept⟩
    unfold Out.loseFrame Out.freeBuffer
    rw [hr]
    dsimp only
    split
    · rw [hbuffers]
    · rw [← hbuffers]
  | defect x | through x y md cd | reply x | streak x | lane x | status f u x | preview x | start a b c =>
    refine LosesBuffers.of_release o t (by simp [hr]) ?_
    obtain ⟨queue, report, words, live⟩ := t
    obtain rfl : report = _ := hr
    rfl

end Down

/-! ### The words of a frame (12.3 to 12.7) -/

/-- A frame with the check word behind it ends with the check word of what stands before it (R180). -/
theorem withCheck_last (ws : List Word) : (withCheck ws).getLast? = some (frameCheck (withCheck ws).dropLast) := by
  unfold withCheck
  rw [List.getLast?_concat, List.dropLast_concat]

section Codes

theorem faceCode_mod (f : FaceId) : faceCode f % 4 = faceCode f := by cases f <;> rfl
theorem faceCode?_mod (f : Option FaceId) : faceCode? f % 4 = faceCode? f := by
  cases f with
  | none => rfl
  | some f => exact faceCode_mod f
theorem flagCode_mod (x : Bool) : flagCode x % 2 = flagCode x := by cases x <;> rfl
theorem bankCode_mod (x : BankId) : bankCode x % 2 = bankCode x := by cases x <;> rfl
theorem polarityCode_mod (x : Polarity) : polarityCode x % 2 = polarityCode x := by cases x <;> rfl
theorem excerptCode_mod (x : ExcerptState) : excerptCode x % 8 = excerptCode x := by cases x <;> rfl
theorem truncCode_mod (x : TruncReason) : truncCode x % 8 = truncCode x := by cases x <;> rfl
theorem corrMarkCode_mod (x : CorrMark) : corrMarkCode x % 4 = corrMarkCode x := by cases x <;> rfl
theorem leadOnlyCode_mod (x : CorrMark) : leadOnlyCode x % 4 = leadOnlyCode x := by
  cases x with
  | leadOnly r => cases r <;> rfl
  | none | trailOnly => rfl
theorem streakReasonCode_mod (x : StreakReason) : streakReasonCode x % 8 = streakReasonCode x := by cases x <;> rfl
theorem laneCauseCode_mod (x : LaneCause) : laneCauseCode x % 8 = laneCauseCode x := by cases x <;> rfl
theorem motionCode_mod (x : MotionState) : motionCode x % 4 = motionCode x := by cases x <;> rfl
theorem headCode_mod (x : HeadState) : headCode x % 4 = headCode x := by cases x <;> rfl
theorem headCauseCode_mod (x : HeadCause) : headCauseCode x % 4 = headCauseCode x := by cases x <;> rfl
theorem patternCode_mod (x : PatternState) : patternCode x % 8 = patternCode x := by cases x <;> rfl
theorem patternCauseCode_mod (x : PatternCause) : patternCauseCode x % 4 = patternCauseCode x := by cases x <;> rfl
theorem replyCodeOf_mod (x : ReplyCode) : replyCodeOf x % 256 = replyCodeOf x := by cases x <;> rfl
theorem causeCode_mod (x : ResetCause) : causeCode x % 4 = causeCode x := by cases x <;> rfl

end Codes

/-- 12.5: the words of a record, its buffer field and its mark bit given. -/
def recordWords (r : Defect) (buffer mark : Nat) : List Word := [
  BitVec.ofNat 32 (r.cls % 16 * 268435456 + polarityCode r.polarity * 134217728 + excerptCode r.excerpt * 16777216 +
    buffer * 2097152 + truncCode r.trunc * 262144 + flagCode r.inGuard * 131072 + flagCode r.touched * 65536 +
    corrMarkCode r.mark * 16384 + leadOnlyCode r.mark * 4096 + r.tier % 4 * 1024 + mark * 512),
  BitVec.ofNat 32 (r.number % 256 * 16777216 + r.lane % 16 * 1048576 + r.peakCol % 8192), r.first, r.last, wordI r.md,
  wordI r.cd, BitVec.ofNat 32 (r.width % 65536 * 65536 + r.length % 65536), BitVec.ofNat 32 (r.area % 65536),
  BitVec.ofNat 32 (r.peak % 131072), BitVec.ofNat 32 r.sum]

theorem blobBlock_words (r : Defect) (u : Bool) : blobBlock r u = recordWords r (bufferField r % 8) (flagCode (u && r.unsync)) := by
  unfold blobBlock recordWords
  simp only [bits, Nat.reducePow, polarityCode_mod, excerptCode_mod, truncCode_mod, flagCode_mod, corrMarkCode_mod, leadOnlyCode_mod,
    Nat.mul_one]
  rfl

/-- 12.3: a frame with its header before its body and its check word behind. -/
def sentFrame (lost kind face : Nat) (unsync : Bool) (body : List Word) : List Word :=
  withCheck (BitVec.ofNat 32 (kind * 16777216 + (body.length + 3) % 16777216) ::
    BitVec.ofNat 32 (lost % 65536 * 65536 + face * 16384 + (if unsync then 8192 else 0)) :: body)

section Frames

variable {b : Table (Option Buffer)} {r : Report} {lost : Nat}

theorem frameWords_sent {kind face : Nat} {unsync : Bool} {body : List Word} (h : reportBody b r = (kind, face, unsync, body))
    (hkind : kind < 256) (hface : face % 4 = face) : frameWords b r lost = sentFrame lost kind face unsync body := by
  have hmark : flagCode unsync * 8192 = if unsync then 8192 else 0 := by cases unsync <;> rfl
  unfold frameWords sentFrame header
  rw [h, ← hmark]
  simp only [bits, Nat.reducePow, hface, flagCode_mod, Nat.mul_one, Nat.mod_eq_of_lt hkind]
  rfl

theorem frame_reply (r : Reply) : frameWords b (.reply r) lost = sentFrame lost 0x10 3 false
    (BitVec.ofNat 32 (r.code % 256 * 16777216 + r.tag % 256 * 65536 + replyCodeOf r.reply * 256) :: r.body) := by
  refine frameWords_sent ?_ (by decide) rfl
  simp only [reportBody, bits, Nat.reducePow, replyCodeOf_mod]
  rfl

theorem frame_defect (r : Defect) : frameWords b (.defect r) lost =
    sentFrame lost 0x20 (faceCode r.face) r.unsync (recordWords r (bufferField r % 8) 0) := by
  refine frameWords_sent ?_ (by decide) (faceCode_mod _)
  rw [reportBody, blobBlock_words]
  rfl

theorem frame_through (r t : Defect) (md cd : Int) : frameWords b (.through r t md cd) lost = sentFrame lost 0x21 2 (r.unsync || t.unsync)
    (recordWords r (bufferField r % 8) (flagCode r.unsync) ++ recordWords t (bufferField t % 8) (flagCode t.unsync) ++
      [wordI md, wordI cd]) := by
  refine frameWords_sent ?_ (by decide) rfl
  rw [reportBody, blobBlock_words, blobBlock_words, Bool.true_and, Bool.true_and]

/-- 12.6: the fields that every streak frame carries. -/
def streakCommon (r : StreakReport) : Nat :=
  r.number % 64 * 67108864 + polarityCode r.polarity * 33554432 + flagCode r.inGuard * 32768 + r.lane % 16 * 2048

theorem frame_streak_opened {r : StreakReport} (h : r.kind = .opened) : frameWords b (.streak r) lost =
    sentFrame lost 0x30 (faceCode r.face) r.unsync [
      BitVec.ofNat 32 (streakCommon r + r.tierAtOpen % 4 * 512), BitVec.ofNat 32 (r.founding % 8192 * 524288), 0, wordI r.start,
      wordI r.pos, 0, 0, 0, BitVec.ofNat 32 (r.peak % 131072)] := by
  refine frameWords_sent ?_ (by decide) (faceCode_mod _)
  simp only [reportBody, streakFrameKind, streakWords, streakCommon, h, bits, Nat.reducePow, polarityCode_mod, flagCode_mod, Nat.mul_one]
  rfl

theorem frame_streak_continued {r : StreakReport} (h : r.kind = .continued) : frameWords b (.streak r) lost =
    sentFrame lost 0x31 (faceCode r.face) r.unsync [
      BitVec.ofNat 32 (streakCommon r + r.tierNow % 4 * 128), BitVec.ofNat 32 (r.members % 16384 * 32),
      BitVec.ofNat 32 (r.colMin % 8192 * 65536 + r.colMax % 8192), wordI r.start, wordI r.pos, BitVec.ofNat 32 r.length,
      BitVec.ofNat 32 r.width, wordI r.cd, BitVec.ofNat 32 (r.peak % 131072)] := by
  refine frameWords_sent ?_ (by decide) (faceCode_mod _)
  simp only [reportBody, streakFrameKind, streakWords, streakCommon, h, bits, Nat.reducePow, polarityCode_mod, flagCode_mod, Nat.mul_one]
  rfl

theorem frame_streak_closed {r : StreakReport} {reason : StreakReason} {survivor : Option Nat} (h : r.kind = .closed reason survivor) :
    frameWords b (.streak r) lost = sentFrame lost 0x32 (faceCode r.face) r.unsync [
      BitVec.ofNat 32 (streakCommon r + streakReasonCode reason * 4194304 + survivor.getD 0 % 64 * 65536 + r.tierAtOpen % 4 * 512),
      BitVec.ofNat 32 (r.founding % 8192 * 524288), BitVec.ofNat 32 (r.colMin % 8192 * 65536 + r.colMax % 8192),
      wordI r.start, wordI r.pos, BitVec.ofNat 32 r.length, BitVec.ofNat 32 r.width, wordI r.cd,
      BitVec.ofNat 32 (r.peak % 131072)] := by
  refine frameWords_sent ?_ (by decide) (faceCode_mod _)
  simp only [reportBody, streakFrameKind, streakWords, streakCommon, h, bits, Nat.reducePow, polarityCode_mod, flagCode_mod,
    streakReasonCode_mod, Nat.mul_one]
  rfl

theorem frame_lane (r : LaneReport) : frameWords b (.lane r) lost = sentFrame lost 0x40 (faceCode r.face) r.unsync [
    BitVec.ofNat 32 (r.lane % 16 * 268435456 + laneCauseCode r.cause * 33554432 + r.oldTier % 4 * 8388608 +
      r.newTier % 4 * 2097152 + r.own % 4 * 524288 + r.minLimit % 4 * 131072 + r.maxLimit % 4 * 32768 +
      flagCode r.alert * 16384 + r.windowSum % 2048),
    r.index.getD 0xFFFFFFFF#32, (r.pos.map wordI).getD 0xFFFFFFFF#32] := by
  refine frameWords_sent ?_ (by decide) (faceCode_mod _)
  simp only [reportBody, laneWords, lineWords, bits, Nat.reducePow, laneCauseCode_mod, flagCode_mod, Nat.mul_one]
  rfl

theorem frame_status (f : Option FaceId) (u : Bool) (st : Status) :
    frameWords b (.status f u st) lost = sentFrame lost 0x50 (faceCode? f) u (statusWords st) :=
  frameWords_sent rfl (by decide) (faceCode?_mod f)

theorem frame_excerpt {e : ExcerptEntry} {x : Buffer} (h : tget none b e.buffer = some x) : frameWords b (.excerpt e) lost =
    sentFrame lost 0x60 (faceCode e.face) false
      (BitVec.ofNat 32 (e.cls % 16 * 268435456 + flagCode x.partly * 134217728 + e.buffer % 8 * 16777216) :: e.first ::
        e.last :: x.firstLine :: wordI x.firstCol :: cellWords x.cells) := by
  refine frameWords_sent ?_ (by decide) (faceCode_mod _)
  rw [reportBody, h, Option.getD_some]
  simp only [excerptWords, bits, Nat.reducePow, flagCode_mod]
  rfl

theorem frame_preview (p : PreviewLine) : frameWords b (.preview p) lost = sentFrame lost 0x70 (faceCode p.face) false
    (BitVec.ofNat 32 ((if p.cls = .creep then 2147483648 else 0) + p.binning % 16) :: p.index :: wordI p.pos ::
      cellWords p.bins) := by
  have hcls : flagCode (decide (p.cls = .creep)) * 2147483648 = if p.cls = .creep then 2147483648 else 0 := by
    cases p.cls <;> rfl
  refine frameWords_sent ?_ (by decide) (faceCode_mod _)
  rw [reportBody, ← hcls]
  simp only [previewWords, bits, Nat.reducePow, flagCode_mod, Nat.mul_one]
  rfl

end Frames

/-- 12.6: the words of a status frame, each kind's fields at their bits. -/
theorem statusWords_motion (old new : MotionState) (h : Int) (speed : Nat) : statusWords (.motion old new h speed) =
    [BitVec.ofNat 32 (16777216 + motionCode old * 4194304 + motionCode new * 1048576), wordI h, BitVec.ofNat 32 speed, 0] := by
  simp only [statusWords, bits, Nat.reducePow, motionCode_mod]
  rfl

theorem statusWords_head (port : Nat) (old new : HeadState) (cause : HeadCause) (line : Word) :
    statusWords (.head port old new cause line) = [BitVec.ofNat 32 (3 * 16777216 + port % 4 * 4194304 + headCode old * 1048576 +
      headCode new * 262144 + headCauseCode cause * 65536), line, 0, 0] := by
  simp only [statusWords, bits, Nat.reducePow, headCode_mod, headCauseCode_mod]
  rfl

theorem statusWords_learnDone (len : Nat) (index : Word) (n : Nat) : statusWords (.learnDone len index n) =
    [BitVec.ofNat 32 (4 * 16777216 + len % 8192), index, BitVec.ofNat 32 n, 0] := by
  simp only [statusWords, bits, Nat.reducePow, Nat.mul_one]
  rfl

theorem statusWords_blobSaturation (on : Bool) (n : Nat) (index : Option Word) : statusWords (.blobSaturation on n index) =
    [BitVec.ofNat 32 (5 * 16777216 + flagCode on * 8388608 + n % 512), index.getD 0xFFFFFFFF#32, 0, 0] := by
  simp only [statusWords, bits, Nat.reducePow, flagCode_mod, Nat.mul_one]
  rfl

theorem statusWords_streakSaturation (on : Bool) (n : Nat) (index : Option Word) : statusWords (.streakSaturation on n index) =
    [BitVec.ofNat 32 (6 * 16777216 + flagCode on * 8388608 + n % 128), index.getD 0xFFFFFFFF#32, 0, 0] := by
  simp only [statusWords, bits, Nat.reducePow, flagCode_mod, Nat.mul_one]
  rfl

theorem statusWords_pattern (old new : PatternState) (cause : PatternCause) (index : Word) (pos : Int) (edge : Option Int) :
    statusWords (.pattern old new cause index pos edge) = [BitVec.ofNat 32 (7 * 16777216 + patternCode old * 2097152 +
      patternCode new * 262144 + patternCauseCode cause * 65536), index, wordI pos, (edge.map wordI).getD 0] := by
  simp only [statusWords, bits, Nat.reducePow, patternCode_mod, patternCauseCode_mod]
  rfl

theorem statusWords_alert (on : Bool) (n na : Nat) (index : Option Word) (pos : Option Int) :
    statusWords (.alert on n na index pos) = [BitVec.ofNat 32 (8 * 16777216 + flagCode on * 8388608 + n % 32 * 65536 + na % 32),
      index.getD 0xFFFFFFFF#32, (pos.map wordI).getD 0xFFFFFFFF#32, 0] := by
  simp only [statusWords, lineWords, bits, Nat.reducePow, flagCode_mod, Nat.mul_one]
  rfl

theorem statusWords_bankSwitched (old new : BankId) (p : Int) (index : Word) (pos : Int) :
    statusWords (.bankSwitched old new p index pos) = [BitVec.ofNat 32 (9 * 16777216 + bankCode old * 8388608 +
      bankCode new * 4194304), wordI p, index, wordI pos] := by
  simp only [statusWords, bits, Nat.reducePow, bankCode_mod]
  rfl

theorem frame_start (b : Table (Option Buffer)) (lost : Nat) (cause : ResetCause) (tag : Option Nat) (kept : Bool) :
    frameWords b (.start cause tag kept) lost = sentFrame lost 0x80 3 false
      [BitVec.ofNat 32 (causeCode cause * 1073741824 + flagCode kept * 536870912 +
        (tag.map fun t => 256 + t % 256).getD 0)] := by
  refine frameWords_sent ?_ (by decide) rfl
  simp only [reportBody, bits, Nat.reducePow, causeCode_mod, flagCode_mod, Nat.mul_one]
  cases tag <;> simp [flagCode, word, Nat.add_assoc]

theorem cellWords_unique {pairs : List Nat → List Word} (hnil : pairs [] = []) (hone : ∀ x, pairs [x] = [BitVec.ofNat 32 (x % 4096)])
    (htwo : ∀ x y l, pairs (x :: y :: l) = BitVec.ofNat 32 (x % 4096 + y % 4096 * 65536) :: pairs l) (l : List Nat) :
    cellWords l = pairs l := by
  induction l using List.twoStepInduction with
  | nil => exact hnil.symm
  | singleton x =>
    rw [hone]
    simp only [cellWords, bits, Nat.reducePow, Nat.mul_one]
    rfl
  | cons_cons x y l ih _ =>
    rw [htwo, ← ih]
    simp only [cellWords, bits, Nat.reducePow, Nat.mul_one]
    rfl

/-! ### Inbound frames (R165, R169) -/

section Inbound

variable {ws : List Word} {d : Dev}

theorem frameGood_iff (ws : List Word) : frameGood ws = true ↔ ws.getLast? = some (frameCheck ws.dropLast) ∧
    ws.length = (ws.getD 0 0).toNat % 16777216 ∧ 3 ≤ ws.length ∧ ws.length ≤ 518 := by
  unfold frameGood
  rw [Bool.and_eq_true, Bool.and_eq_true, Bool.and_eq_true, decide_eq_true_iff, decide_eq_true_iff, decide_eq_true_iff,
    decide_eq_true_iff, and_assoc, and_assoc]
  rfl

theorem inboundFrame_down (h : d.insp.out.linkUp = false) : inboundFrame ws d = d := if_pos h

variable (hup : d.insp.out.linkUp = true)
include hup

theorem inboundFrame_up : inboundFrame ws d = if frameGood ws then commandArrival (commandOf ws) d
    else d.onOut fun o => { o with inboundErrors := min (o.inboundErrors + 1) 4294967295 } :=
  if_neg fun h => Bool.false_ne_true (h.symm.trans hup)

theorem inboundFrame_bad (h : ws.getLast? ≠ some (frameCheck ws.dropLast) ∨ ws.length ≠ (ws.getD 0 0).toNat % 16777216 ∨
    ws.length < 3 ∨ 518 < ws.length) :
    inboundFrame ws d = d.onOut fun o => { o with inboundErrors := min (o.inboundErrors + 1) 4294967295 } := by
  rw [inboundFrame_up hup, if_neg]
  rw [frameGood_iff]
  rintro ⟨hcheck, hlen, hshort, hlong⟩
  obtain h | h | h | h := h
  · exact h hcheck
  · exact h hlen
  · omega
  · omega

theorem inboundFrame_good (hcheck : ws.getLast? = some (frameCheck ws.dropLast))
    (hlen : ws.length = (ws.getD 0 0).toNat % 16777216) (hshort : 3 ≤ ws.length) (hlong : ws.length ≤ 518) :
    inboundFrame ws d = commandArrival (commandOf ws) d := by
  rw [inboundFrame_up hup, if_pos ((frameGood_iff ws).mpr ⟨hcheck, hlen, hshort, hlong⟩)]

end Inbound

section Arrival

variable {c : Command} {d : Dev}

theorem commandArrival_queued (h : d.base.exec.queue.length < 4) :
    commandArrival c d = d.onExec fun x => { x with queue := x.queue ++ [c] } := if_pos h

theorem commandArrival_busy (h : 4 ≤ d.base.exec.queue.length) (hreply : d.canReply = true) : commandArrival c d =
    (d.onExec fun x => { x with busy := min (x.busy + 1) 4294967295 }).reply c.code c.tag .busy [] :=
  (if_neg (not_lt.mpr h)).trans (if_pos hreply)

theorem commandArrival_discarded (h : 4 ≤ d.base.exec.queue.length) (hreply : d.canReply = false) :
    commandArrival c d = d.onExec fun x => { x with discarded := min (x.discarded + 1) 4294967295 } :=
  (if_neg (not_lt.mpr h)).trans (if_neg fun hr => Bool.false_ne_true (hreply.symm.trans hr))

end Arrival

/-! ### The link's own events (R164) -/

section Link

variable {o : Out}

/-- R164: the outbound side once the link is DOWN, before its frame in transmission is accounted. -/
def Out.cut (o : Out) (receiving : Bool) : Out := { o with
  linkUp := false, linkDowns := min (o.linkDowns + 1) 4294967295,
  inboundErrors := if receiving then min (o.inboundErrors + 1) 4294967295 else o.inboundErrors, tx := none }

theorem down_idle {receiving : Bool} (hup : o.linkUp = true) (htx : o.tx = none) : o.down receiving = o.cut receiving := by
  unfold Out.down
  rw [if_pos hup, htx]
  rfl

theorem down_sending {receiving : Bool} {t : InFlight} (hup : o.linkUp = true) (htx : o.tx = some t) :
    o.down receiving = (o.cut receiving).loseFrame t := by
  unfold Out.down
  rw [if_pos hup, htx]
  rfl

theorem down_down {receiving : Bool} (h : o.linkUp = false) : o.down receiving = o :=
  if_neg fun hup => Bool.false_ne_true (h.symm.trans hup)

end Link

end Sys2Proof.Machine

open Sys2Proof Sys2Proof.Machine

/-- Settles O47: the link's events, the arrival of a command, and the frames one kind after another. -/
theorem linkEventsTakeEffect : Obligations.LinkEventsTakeEffect := by
  refine ⟨fun s => ⟨fun hdown => ?_, fun hup => ?_, fun receiving hdown => ?_⟩, ?down, ?inbound, fun b r lost => withCheck_last _, ?frames,
    rfl, rfl, rfl, rfl, fun k => rfl, rfl, rfl, rfl, rfl, rfl, rfl, rfl, rfl, rfl, rfl, fun x => ⟨rfl, rfl⟩⟩
  case down =>
    rintro s receiving o rfl hup
    cases htx : s.dev.insp.out.tx with
    | none =>
      refine ⟨s.dev.insp.out.cut receiving, ?_, rfl, rfl, rfl, rfl, rfl, rfl, rfl, rfl, rfl, rfl, fun q _ => by cases q <;> rfl,
        fun t ht => absurd ht.symm (Option.some_ne_none t), fun _ => rfl⟩
      exact next_dev (congrArg (fun o => s.dev.onOut fun _ => o) (down_idle hup htx))
    | some t =>
      obtain ⟨u, hu, hholds, hkept, hlive, hdead, hnone⟩ := loseFrame_eq (s.dev.insp.out.cut receiving) t
      obtain ⟨hlink, htx', hdowns, herrors, hstart, hcause, htag, hkeep, htoggle, hsent⟩ :=
        countLost_keeps (s.dev.insp.out.cut receiving) t
      have hqueue : ∀ q, (s.dev.insp.out.cut receiving).queue q = s.dev.insp.out.queue q := fun q => by cases q <;> rfl
      have hcount : ∀ q, ({ (s.dev.insp.out.cut receiving).countLost t with buffers := u } : Out).queue q =
          if t.queue = some q then (s.dev.insp.out.queue q).lose else s.dev.insp.out.queue q := fun q => by
        rw [← hqueue, ← countLost_queue]
        cases q <;> rfl
      refine ⟨{ (s.dev.insp.out.cut receiving).countLost t with buffers := u }, ?_, hlink, htx', hdowns, herrors, hstart, hcause, htag,
        hkeep, htoggle, hsent, fun q hq => ?_, ?_,
        fun h => absurd h (Option.some_ne_none t)⟩
      · exact next_dev (congrArg (fun o => s.dev.onOut fun _ => o) ((down_sending hup htx).trans hu))
      · exact (hcount q).trans (if_neg (hq t rfl))
      · rintro t' ht
        obtain rfl : t = t' := Option.some.inj ht
        exact ⟨fun q hq => (hcount q).trans (if_pos hq), hholds, hkept, hlive, hdead, hnone⟩
  case inbound =>
    rintro ws s c rfl
    refine ⟨fun hdown => next_dev (inboundFrame_down hdown), fun hup => ⟨fun hbad => next_dev (inboundFrame_bad hup hbad),
      fun hcheck hlen hshort hlong => ?_⟩⟩
    have hgood := inboundFrame_good hup hcheck hlen hshort hlong
    exact ⟨fun hroom => next_dev (hgood.trans (commandArrival_queued hroom)),
      fun hfull hreply => next_dev (hgood.trans (commandArrival_busy hfull hreply)),
      fun hfull hreply => next_dev (hgood.trans (commandArrival_discarded hfull hreply))⟩
  case frames =>
    intro b lost sent pairs block hsent hnil hone htwo hblock
    replace hsent : ∀ kind face unsync body, sent kind face unsync body = sentFrame lost kind face unsync body :=
      fun kind face unsync body => hsent kind face unsync body _ rfl
    obtain rfl : sent = sentFrame lost := by
      funext kind face unsync body
      exact hsent kind face unsync body
    obtain rfl : block = recordWords := by
      funext r buffer mark
      exact hblock r buffer mark
    obtain rfl : pairs = cellWords := funext fun l => (cellWords_unique hnil hone htwo l).symm
    have hbuffer : ∀ (x : Defect) (k : Nat), x.excerpt = .captured k ∨ x.excerpt = .partly k → bufferField x % 8 = k % 8 :=
      fun x k hx => by
        unfold bufferField
        obtain hx | hx := hx <;> rw [hx]
    refine ⟨fun r => frame_reply r, fun r => ⟨bufferField r % 8, Nat.mod_lt _ (by decide), hbuffer r, frame_defect r, fun t md cd =>
      ⟨bufferField t % 8, Nat.mod_lt _ (by decide), hbuffer t, frame_through r t md cd⟩⟩, ?_, fun r => frame_lane r, ?_,
      fun e u hu => frame_excerpt hu, fun p => frame_preview p, fun cause tag kept => ?_⟩
    · rintro r w rfl
      exact ⟨frame_streak_opened, frame_streak_continued, fun reason survivor => frame_streak_closed⟩
    · rintro f u st face rfl
      have hface : faceCode? f = (f.map faceCode).getD 3 := by cases f <;> rfl
      rw [frame_status, ← hface]
      refine congrArg (sentFrame lost 80 (faceCode? f) u) ?_
      cases st with
      | motion old new h speed => exact statusWords_motion old new h speed
      | rewound h p => rfl
      | head port old new cause line => exact statusWords_head port old new cause line
      | learnDone len index n => exact statusWords_learnDone len index n
      | blobSaturation on n index => exact statusWords_blobSaturation on n index
      | streakSaturation on n index => exact statusWords_streakSaturation on n index
      | pattern old new cause index pos edge => exact statusWords_pattern old new cause index pos edge
      | alert on n na index pos => exact statusWords_alert on n na index pos
      | bankSwitched old new p index pos => exact statusWords_bankSwitched old new p index pos
    · rw [frame_start]
      cases tag <;> rfl
  · exact next_dev (congrArg (fun o => s.dev.onOut fun _ => o) (if_neg (by rw [hdown]; decide)))
  · exact next_dev (congrArg (fun o => s.dev.onOut fun _ => o) (if_pos hup))
  · exact next_dev (congrArg (fun o => s.dev.onOut fun _ => o) (down_down hdown))

end

section
/-! R144, R146: the readers of the table entries, and BANK_WRITE. -/

namespace Sys2Proof.Machine

open Sys2Proof

/-! ### The entries of the frame (R181) -/

/-- The words of entry `j` of a write whose entries have `n` fields. -/
def entryWords (c : Command) (n j : Nat) : List Word := ((c.ops.drop 4).drop (n * j)).take n

theorem groups_eq (n k : Nat) {ws : List Word} (h : ws.length = k * n) :
    groups n k ws = (List.range k).map fun j => (ws.drop (n * j)).take n := by
  induction k generalizing ws with
  | zero => rfl
  | succ k ih =>
    rw [Nat.succ_mul] at h
    rw [groups, if_neg (by omega), ih (by rw [List.length_drop]; omega), List.range_succ_eq_map, List.map_cons, List.map_map]
    simp [Function.comp_def, Nat.mul_succ, Nat.add_comm]

theorem word_entryWords {c : Command} {n j k : Nat} (h : k < n) : (entryWords c n j).getD k 0 = c.op (4 + k + n * j) := by
  rw [entryWords, List.drop_drop, List.getD_eq_getElem?_getD, List.getElem?_take_of_lt h, ← List.getD_eq_getElem?_getD,
    opsDrop_getD]
  exact congrArg c.op (by omega)

theorem field_entryWords {c : Command} {n j k : Nat} (h : k < n) : field (entryWords c n j) k = c.nat (4 + k + n * j) :=
  congrArg BitVec.toNat (word_entryWords h)

/-! ### Reading a block of entries -/

section ReadAll

variable {α : Type} {read : List Word → Option (α × Bool)}

theorem readAll_none {es : List (List Word)} (h : ∃ e ∈ es, read e = none) : readAll read es = none := by
  induction es with
  | nil => obtain ⟨e, he, _⟩ := h; exact absurd he List.not_mem_nil
  | cons a es ih =>
    rw [readAll]
    cases ha : read a with
    | none => rfl
    | some r =>
      obtain ⟨e, he, hnone⟩ := h
      obtain rfl | he := List.mem_cons.mp he
      · exact absurd (ha.symm.trans hnone) (Option.some_ne_none _)
      · rw [ih ⟨e, he, hnone⟩]

/-- Every entry reads: the block does, and a number was changed where one was in some entry. -/
theorem readAll_some {P : List Word → α → Prop} {off : List Word → Bool} {es : List (List Word)}
    (h : ∀ e ∈ es, ∃ x, read e = some (x, off e) ∧ P e x) :
    ∃ xs, readAll read es = some (xs, es.any off) ∧ List.Forall₂ P es xs := by
  induction es with
  | nil => exact ⟨[], rfl, .nil⟩
  | cons a es ih =>
    obtain ⟨x, hx, hP⟩ := h a List.mem_cons_self
    obtain ⟨xs, hxs, hall⟩ := ih fun e he => h e (List.mem_cons_of_mem _ he)
    refine ⟨x :: xs, ?_, .cons hP hall⟩
    rw [readAll, hx, hxs, List.any_cons]

theorem readAll_single (e : List Word) : readAll read [e] = (read e).map fun r => ([r.1], r.2) := by
  cases h : read e with
  | none => exact readAll_none ⟨e, List.mem_singleton_self e, h⟩
  | some r => simp [readAll, h]

end ReadAll

/-! ### The structural fields -/

def RegionKind.code : RegionKind → Nat
  | .lane => 0
  | .guard => 1
  | .margin => 2
  | .exclude => 3

def RulePolarity.code : RulePolarity → Nat
  | .bright => 0
  | .dark => 1
  | .either => 2

def ExpressSlot.code : ExpressSlot → Nat
  | .none => 0
  | .a => 1
  | .b => 2

theorem yesNo_iff {n : Nat} {b : Bool} : yesNo n = some b ↔ n = flagCode b := by
  match n with
  | 0 | 1 => cases b <;> decide
  | n + 2 => cases b <;> simp [yesNo, flagCode]

theorem kindOf_iff {n : Nat} {k : RegionKind} : kindOf n = some k ↔ n = k.code := by
  match n with
  | 0 | 1 | 2 | 3 => cases k <;> decide
  | n + 4 => cases k <;> simp [kindOf, RegionKind.code]

theorem rulePolarityOf_iff {n : Nat} {p : RulePolarity} : rulePolarityOf n = some p ↔ n = p.code := by
  match n with
  | 0 | 1 | 2 => cases p <;> decide
  | n + 3 => cases p <;> simp [rulePolarityOf, RulePolarity.code]

theorem levelOf_iff {n : Nat} {l : Level} : levelOf n = some l ↔ n = l.rank := by
  match n with
  | 0 | 1 | 2 | 3 => cases l <;> decide
  | n + 4 => cases l <;> simp [levelOf, Level.rank]

theorem slotOf_iff {n : Nat} {x : ExpressSlot} : slotOf n = some x ↔ n = x.code := by
  match n with
  | 0 | 1 | 2 => cases x <;> decide
  | n + 3 => cases x <;> simp [slotOf, ExpressSlot.code]

theorem below_iff {lim n m : Nat} : (if n < lim then some n else none) = some m ↔ n < lim ∧ m = n := by
  split <;> simp [*, eq_comm]

theorem laneOf_iff {n : Nat} {l : Option Nat} : laneOf n = some l ↔ l.getD 16 = n ∧ l ≠ some 16 ∧ n ≤ 16 := by
  unfold laneOf
  cases l <;> split <;> try split
  all_goals simp
  all_goals omega

theorem yesNo_exists {n : Nat} : (∃ b, yesNo n = some b) ↔ n ≤ 1 := by
  match n with
  | 0 | 1 => simp [yesNo]
  | n + 2 => simp [yesNo]

theorem kindOf_exists {n : Nat} : (∃ k, kindOf n = some k) ↔ n ≤ 3 := by
  match n with
  | 0 | 1 | 2 | 3 => simp [kindOf]
  | n + 4 => simp [kindOf]

theorem rulePolarityOf_exists {n : Nat} : (∃ p, rulePolarityOf n = some p) ↔ n ≤ 2 := by
  match n with
  | 0 | 1 | 2 => simp [rulePolarityOf]
  | n + 3 => simp [rulePolarityOf]

theorem levelOf_exists {n : Nat} : (∃ l, levelOf n = some l) ↔ n ≤ 3 := by
  match n with
  | 0 | 1 | 2 | 3 => simp [levelOf]
  | n + 4 => simp [levelOf]

theorem slotOf_exists {n : Nat} : (∃ x, slotOf n = some x) ↔ n ≤ 2 := by
  match n with
  | 0 | 1 | 2 => simp [slotOf]
  | n + 3 => simp [slotOf]

theorem below_exists {lim n : Nat} : (∃ m, (if n < lim then some n else none) = some m) ↔ n < lim := by
  split <;> simp [*]

theorem laneOf_exists {n : Nat} : (∃ l, laneOf n = some l) ↔ n ≤ 16 := by
  unfold laneOf
  split <;> try split
  all_goals simp
  all_goals omega

/-! ### The readers (R146) -/

theorem readRegion_iff {ws : List Word} {r : Region} {b : Bool} : readRegion ws = some (r, b) ↔
    b = false ∧ yesNo (field ws 0) = some r.present ∧ kindOf (field ws 1) = some r.kind ∧
    columnOf (field ws 2) = some r.first ∧ columnOf (field ws 3) = some r.last ∧ laneOf (field ws 4) = some r.lane ∧
    priorityOf (field ws 5) = some r.priority := by
  obtain ⟨p, k, f, l, n, q⟩ := r
  simp only [readRegion, Option.bind_eq_bind, Option.bind_eq_some_iff, Option.pure_def, Option.some.injEq, Prod.mk.injEq,
    Region.mk.injEq]
  constructor
  · rintro ⟨_, h0, _, h1, _, h2, _, h3, _, h4, _, h5, ⟨rfl, rfl, rfl, rfl, rfl, rfl⟩, rfl⟩
    exact ⟨rfl, h0, h1, h2, h3, h4, h5⟩
  · rintro ⟨rfl, h0, h1, h2, h3, h4, h5⟩
    exact ⟨_, h0, _, h1, _, h2, _, h3, _, h4, _, h5, ⟨rfl, rfl, rfl, rfl, rfl, rfl⟩, rfl⟩

theorem readRegion_exists {ws : List Word} : (∃ r, readRegion ws = some r) ↔ field ws 0 ≤ 1 ∧ field ws 1 ≤ 3 ∧
    field ws 2 ≤ 8191 ∧ field ws 3 ≤ 8191 ∧ field ws 4 ≤ 16 ∧ field ws 5 ≤ 3 := by
  rw [← yesNo_exists, ← kindOf_exists, ← laneOf_exists, ← Nat.lt_succ_iff, ← Nat.lt_succ_iff (n := 8191),
    ← Nat.lt_succ_iff (n := 3), ← below_exists, ← below_exists (n := field ws 3), ← below_exists (n := field ws 5)]
  constructor
  · rintro ⟨⟨r, b⟩, hr⟩
    obtain ⟨_, h0, h1, h2, h3, h4, h5⟩ := readRegion_iff.mp hr
    exact ⟨⟨_, h0⟩, ⟨_, h1⟩, ⟨_, h2⟩, ⟨_, h3⟩, ⟨_, h4⟩, ⟨_, h5⟩⟩
  · rintro ⟨⟨p, h0⟩, ⟨k, h1⟩, ⟨f, h2⟩, ⟨l, h3⟩, ⟨n, h4⟩, ⟨q, h5⟩⟩
    exact ⟨_, readRegion_iff (r := ⟨p, k, f, l, n, q⟩).mpr ⟨rfl, h0, h1, h2, h3, h4, h5⟩⟩

/-- Whether a size of a class rule is changed. -/
def ruleOff (ws : List Word) : Bool := [2, 3, 4, 5, 6, 7].any fun k => offRange 0 65535 (field ws k)

theorem readRule_iff {ws : List Word} {r : ClassRule} {b : Bool} : readRule ws = some (r, b) ↔
    b = ruleOff ws ∧ yesNo (field ws 0) = some r.present ∧ rulePolarityOf (field ws 1) = some r.polarity ∧
    (r.areaMin = size ws 2 ∧ r.areaMax = size ws 3 ∧ r.widthMin = size ws 4 ∧ r.widthMax = size ws 5 ∧
      r.lengthMin = size ws 6 ∧ r.lengthMax = size ws 7) ∧
    yesNo (field ws 8) = some r.correlate ∧ yesNo (field ws 9) = some r.counts ∧ yesNo (field ws 10) = some r.excerpt ∧
    levelOf (field ws 11) = some r.level ∧ slotOf (field ws 12) = some r.slot := by
  obtain ⟨p, q, a, a', w, w', l, l', co, cn, ex, lv, sl⟩ := r
  simp only [readRule, Option.bind_eq_bind, Option.bind_eq_some_iff, Option.pure_def, Option.some.injEq, Prod.mk.injEq,
    ClassRule.mk.injEq]
  constructor
  · rintro ⟨_, h0, _, h1, _, h8, _, h9, _, h10, _, h11, _, h12,
      ⟨rfl, rfl, rfl, rfl, rfl, rfl, rfl, rfl, rfl, rfl, rfl, rfl, rfl⟩, rfl⟩
    exact ⟨rfl, h0, h1, ⟨rfl, rfl, rfl, rfl, rfl, rfl⟩, h8, h9, h10, h11, h12⟩
  · rintro ⟨rfl, h0, h1, ⟨rfl, rfl, rfl, rfl, rfl, rfl⟩, h8, h9, h10, h11, h12⟩
    exact ⟨_, h0, _, h1, _, h8, _, h9, _, h10, _, h11, _, h12,
      ⟨rfl, rfl, rfl, rfl, rfl, rfl, rfl, rfl, rfl, rfl, rfl, rfl, rfl⟩, rfl⟩

theorem readRule_exists {ws : List Word} : (∃ r, readRule ws = some r) ↔ field ws 0 ≤ 1 ∧ field ws 1 ≤ 2 ∧
    field ws 8 ≤ 1 ∧ field ws 9 ≤ 1 ∧ field ws 10 ≤ 1 ∧ field ws 11 ≤ 3 ∧ field ws 12 ≤ 2 := by
  rw [← yesNo_exists, ← rulePolarityOf_exists, ← yesNo_exists, ← yesNo_exists, ← yesNo_exists, ← levelOf_exists,
    ← slotOf_exists]
  constructor
  · rintro ⟨⟨r, b⟩, hr⟩
    obtain ⟨_, h0, h1, _, h8, h9, h10, h11, h12⟩ := readRule_iff.mp hr
    exact ⟨⟨_, h0⟩, ⟨_, h1⟩, ⟨_, h8⟩, ⟨_, h9⟩, ⟨_, h10⟩, ⟨_, h11⟩, ⟨_, h12⟩⟩
  · rintro ⟨⟨p, h0⟩, ⟨q, h1⟩, ⟨co, h8⟩, ⟨cn, h9⟩, ⟨ex, h10⟩, ⟨lv, h11⟩, ⟨sl, h12⟩⟩
    exact ⟨_, readRule_iff (r := ⟨p, q, _, _, _, _, _, _, co, cn, ex, lv, sl⟩).mpr
      ⟨rfl, h0, h1, ⟨rfl, rfl, rfl, rfl, rfl, rfl⟩, h8, h9, h10, h11, h12⟩⟩

theorem readRoute_iff {ws : List Word} {l k : Nat} {r : Route} : readRoute ws l k = some r ↔
    field ws l = r.level.rank ∧ field ws k = r.slot.code := by
  obtain ⟨lv, sl⟩ := r
  simp only [readRoute, Option.bind_eq_bind, Option.bind_eq_some_iff, Option.pure_def, Option.some.injEq, Route.mk.injEq,
    levelOf_iff, slotOf_iff]
  constructor
  · rintro ⟨_, h1, _, h2, rfl, rfl⟩
    exact ⟨h1, h2⟩
  · rintro ⟨h1, h2⟩
    exact ⟨_, h1, _, h2, rfl, rfl⟩

theorem readPolicy_iff {ws : List Word} {p : Policy} {b : Bool} : readPolicy ws = some (p, b) ↔
    b = false ∧ readRoute ws 0 8 = some p.unclassed ∧ readRoute ws 1 9 = some p.elongated ∧
    readRoute ws 2 10 = some p.through ∧ levelOf (field ws 3) = some p.leadOnly ∧ readRoute ws 4 11 = some p.streakOpen ∧
    readRoute ws 5 12 = some p.streakContinue ∧ readRoute ws 6 13 = some p.streakClose ∧ readRoute ws 7 14 = some p.lane ∧
    yesNo (field ws 15) = some p.unclassedCounts ∧ yesNo (field ws 16) = some p.elongatedCounts := by
  obtain ⟨u, e, t, l, so, sc, sx, la, uc, ec⟩ := p
  simp only [readPolicy, Option.bind_eq_bind, Option.bind_eq_some_iff, Option.pure_def, Option.some.injEq, Prod.mk.injEq,
    Policy.mk.injEq]
  constructor
  · rintro ⟨_, h0, _, h1, _, h2, _, h3, _, h4, _, h5, _, h6, _, h7, _, h8, _, h9,
      ⟨rfl, rfl, rfl, rfl, rfl, rfl, rfl, rfl, rfl, rfl⟩, rfl⟩
    exact ⟨rfl, h0, h1, h2, h3, h4, h5, h6, h7, h8, h9⟩
  · rintro ⟨rfl, h0, h1, h2, h3, h4, h5, h6, h7, h8, h9⟩
    exact ⟨_, h0, _, h1, _, h2, _, h3, _, h4, _, h5, _, h6, _, h7, _, h8, _, h9,
      ⟨rfl, rfl, rfl, rfl, rfl, rfl, rfl, rfl, rfl, rfl⟩, rfl⟩

theorem Level.rank_le (l : Level) : l.rank ≤ 3 := by cases l <;> decide

theorem ExpressSlot.code_le (x : ExpressSlot) : x.code ≤ 2 := by cases x <;> decide

/-- The fields of a policy that reads name levels, slots and flags. -/
theorem readPolicy_within {ws : List Word} {r : Policy × Bool} (h : readPolicy ws = some r) :
    (∀ n < 8, field ws n ≤ 3) ∧ (∀ n < 7, field ws (8 + n) ≤ 2) ∧ field ws 15 ≤ 1 ∧ field ws 16 ≤ 1 := by
  obtain ⟨p, b⟩ := r
  obtain ⟨_, h0, h1, h2, h3, h4, h5, h6, h7, hu, he⟩ := readPolicy_iff.mp h
  have route {l k : Nat} {r : Route} (h : readRoute ws l k = some r) : field ws l ≤ 3 ∧ field ws k ≤ 2 := by
    obtain ⟨hl, hk⟩ := readRoute_iff.mp h
    exact ⟨hl.trans_le (Level.rank_le _), hk.trans_le (ExpressSlot.code_le _)⟩
  refine ⟨fun n hn => ?_, fun n hn => ?_, yesNo_exists.mp ⟨_, hu⟩, yesNo_exists.mp ⟨_, he⟩⟩
  · interval_cases n
    exacts [(route h0).1, (route h1).1, (route h2).1, levelOf_exists.mp ⟨_, h3⟩, (route h4).1, (route h5).1, (route h6).1,
      (route h7).1]
  · interval_cases n
    exacts [(route h0).2, (route h1).2, (route h2).2, (route h4).2, (route h5).2, (route h6).2, (route h7).2]

/-- Whether a number of the tier policy is changed. -/
def tierPolicyOff (ws : List Word) : Bool :=
  offRange 8 8000 (field ws 0) || offRange 1 255 (field ws 1) || offRange 0 254 (field ws 2) ||
    offRange 0 10000 (field ws 3) || offRange 0 10000 (field ws 4) || offRange 1 16 (field ws 5)

theorem readTierPolicy_none {ws : List Word} (h : 3 < field ws 6 ∨ 3 < field ws 7 ∨ 3 < field ws 8 ∨ 1 < field ws 9) :
    readTierPolicy ws = none := by
  by_contra hsome
  obtain ⟨r, hr⟩ := Option.ne_none_iff_exists'.mp hsome
  simp only [readTierPolicy, Option.bind_eq_bind, Option.bind_eq_some_iff] at hr
  obtain ⟨_, h6, _, h7, _, h8, _, h9, _⟩ := hr
  have := below_exists.mp ⟨_, h6⟩
  have := below_exists.mp ⟨_, h7⟩
  have := below_exists.mp ⟨_, h8⟩
  have := yesNo_exists.mp ⟨_, h9⟩
  omega

theorem readTierPolicy_some {ws : List Word} (h6 : field ws 6 ≤ 3) (h7 : field ws 7 ≤ 3) (h8 : field ws 8 ≤ 3)
    (h9 : field ws 9 ≤ 1) : readTierPolicy ws = some ({
      w := clampNat 8 8000 (field ws 0), ne := clampNat 1 255 (field ws 1), nd := clampNat 0 254 (field ws 2),
      ru := clampNat 0 10000 (field ws 3), rd := clampNat 0 10000 (field ws 4), na := clampNat 1 16 (field ws 5),
      fa := field ws 6, minTier := field ws 7, maxTier := field ws 8, learnOnEntry := decide (field ws 9 = 1) },
      tierPolicyOff ws) := by
  have tier {n : Nat} (h : n ≤ 3) : tierOf n = some n := if_pos (by omega)
  unfold readTierPolicy
  rw [tier h6, tier h7, tier h8, yesNo_within h9]
  rfl

theorem offRange_false {lo hi v : Nat} (h : lo ≤ hi) : offRange lo hi v = false ↔ lo ≤ v ∧ v ≤ hi := by
  rw [offRange, decide_eq_false_iff_not, not_not, clampNat]
  omega

theorem clampNat_zero (hi v : Nat) : clampNat 0 hi v = min v hi := Nat.zero_max _

/-! ### BANK_WRITE -/

theorem tableFields_above {n : Nat} (h : 8 < n) : tableFields n = none := by
  match n, h with
  | _ + 9, _ => rfl

theorem tableSize_eq (n : Nat) :
    tableSize n = if n ≤ 1 then 32 else if n = 2 then 8 else if n = 4 then 4 else 1 := by
  match n with
  | 0 | 1 | 2 | 3 | 4 => rfl
  | n + 5 => rw [if_neg (by omega), if_neg (by omega), if_neg (by omega)]; rfl

theorem bankWrite_checking {c : Command} {i : BankId} {d : Dev} (h : c.nat 0 = bankCode i)
    (hc : (d.base.banks.bank i).state = .checking) : bankWrite c d = refuse d .busy := by
  simp only [bankWrite, h, withBank_code, hc]

theorem bankWrite_opened {c : Command} {i : BankId} {d : Dev} (h : c.nat 0 = bankCode i)
    (ho : (d.base.banks.bank i).state = .opened) : bankWrite c d = writeOpenBank i c d := by
  simp only [bankWrite, h, withBank_code, ho]

theorem bankWrite_state {c : Command} {i : BankId} {d : Dev} (h : c.nat 0 = bankCode i)
    (hc : (d.base.banks.bank i).state ≠ .checking) (ho : (d.base.banks.bank i).state ≠ .opened) :
    bankWrite c d = refuse d .state := by
  cases hs : (d.base.banks.bank i).state with
  | checking => exact absurd hs hc
  | opened => exact absurd hs ho
  | vacant | checked | scheduled | active => simp only [bankWrite, h, withBank_code, hs]

theorem writeOpenBank_range {i : BankId} {c : Command} {d : Dev}
    (h : 8 < c.nat 1 ∨ c.nat 3 = 0 ∨ tableSize (c.nat 1) < c.nat 2 + c.nat 3) : writeOpenBank i c d = refuse d .range := by
  unfold writeOpenBank
  obtain h | h := h
  · rw [tableFields_above h]
  · cases tableFields (c.nat 1) with
    | none => rfl
    | some n => exact if_pos h

/-- A BANK_WRITE ready to execute on the OPEN bank `i`, of a table with `n` fields per entry, whose entries lie in the table. -/
structure OpenWrite (c : Command) (rest : List Command) (s : State) (i : BankId) (n : Nat) : Prop where
  ready : Ready .bankWrite c rest s
  bank : c.nat 0 = bankCode i
  opened : (s.dev.base.banks.bank i).state = .opened
  fields : tableFields (c.nat 1) = some n
  nonempty : 1 ≤ c.nat 3
  fits : c.nat 2 + c.nat 3 ≤ tableSize (c.nat 1)

namespace OpenWrite

variable {c : Command} {rest : List Command} {s : State} {i : BankId} {n : Nat}

/-- The entries of the frame. -/
def entries (c : Command) (n : Nat) : List (List Word) := (List.range (c.nat 3)).map (entryWords c n)

theorem groups_entries (h : OpenWrite c rest s i n) : groups n (c.nat 3) (c.ops.drop 4) = entries c n := by
  obtain ⟨_, hrow, hform, _⟩ := h.ready
  have hcode : c.code = 0x11 := code_of_rowOf (e := (0x11, .bankWrite)) (by decide) hrow
  have hreq : c.required = some (4 + c.nat 3 * n) := (required_write hcode).trans (congrArg _ h.fields)
  obtain ⟨hlen, _⟩ := Command.length_of_required hform hreq
  exact groups_eq n _ (by rw [List.length_drop]; omega)

theorem writes_none (h : OpenWrite c rest s i n)
    (hw : writeTable (c.nat 1) (c.nat 2) (entries c n) (s.dev.base.banks.bank i).contents = none) :
    exec .bankWrite s = .next (answered s c (s.dev.takeCommand rest) .range []) := by
  refine runCommand_refused h.ready ((bankWrite_opened (d := s.dev.takeCommand rest) h.bank h.opened).trans ?_)
  unfold writeOpenBank
  rw [h.fields]
  refine (if_neg fun hno => ?_).trans ?_
  · have := h.nonempty
    have := h.fits
    omega
  · dsimp only
    rw [h.groups_entries]
    exact hw ▸ rfl

/-- A write that reads stores its contents, with CLAMPED exactly where a number was changed. -/
theorem writes_some (h : OpenWrite c rest s i n) {store clamped : Contents → State}
    (hst : ∀ y, store y = answered s c ((s.dev.takeCommand rest).onBanks fun b =>
      b.setBank i { b.bank i with contents := y }) .done [])
    (hcl : ∀ y, clamped y = answered s c ((s.dev.takeCommand rest).onBanks fun b =>
      b.setBank i { b.bank i with contents := y }) .clamped []) {y : Contents} {b : Bool}
    (hw : writeTable (c.nat 1) (c.nat 2) (entries c n) (s.dev.base.banks.bank i).contents = some (y, b)) :
    exec .bankWrite s = .next (if b then clamped y else store y) := by
  have hact : bankWrite c (s.dev.takeCommand rest) = takenClamped ((s.dev.takeCommand rest).onBanks fun b =>
      b.setBank i { b.bank i with contents := y }) b := by
    refine (bankWrite_opened (d := s.dev.takeCommand rest) h.bank h.opened).trans ?_
    unfold writeOpenBank
    rw [h.fields]
    refine (if_neg fun hno => ?_).trans ?_
    · have := h.nonempty
      have := h.fits
      omega
    · dsimp only
      rw [h.groups_entries]
      exact hw ▸ rfl
  refine (runCommand_clamped h.ready hact).trans (congrArg _ ?_)
  rw [hst, hcl]
  cases b <;> rfl

theorem mem_entries {j : Nat} (h : j < c.nat 3) : entryWords c n j ∈ entries c n :=
  List.mem_map.mpr ⟨j, List.mem_range.mpr h, rfl⟩

theorem forall_entries {P : List Word → Prop} : (∀ e ∈ entries c n, P e) ↔ ∀ j < c.nat 3, P (entryWords c n j) := by
  simp only [entries, List.forall_mem_map, List.mem_range]

theorem entries_single (h : c.nat 3 = 1) : entries c n = [entryWords c n 0] := by
  rw [entries, h]
  rfl

/-- The stored entries lie in the table from the first index on; the others stay. -/
theorem entries_put {α : Type} [DecidableEq α] {P : List Word → α → Prop} {xs : List α}
    (h : List.Forall₂ P (entries c n) xs) (d : α) (t : Table α) (k : Nat) :
    (∀ j < c.nat 3, P (entryWords c n j) (tget d (putEntries d xs k t) (k + j))) ∧
    ∀ m, m < k ∨ k + c.nat 3 ≤ m → tget d (putEntries d xs k t) m = tget d t m := by
  have hlen : xs.length = c.nat 3 := by rw [← h.length_eq, entries, List.length_map, List.length_range]
  refine ⟨fun j hj => ?_, fun m hm => tget_putEntries_out d xs t (hlen ▸ hm)⟩
  rw [tget_putEntries_at d xs k t (hlen ▸ hj)]
  have hget := h.get (i := j) (by simpa [entries] using hj) (hlen ▸ hj)
  simpa [entries] using hget

end OpenWrite

/-- The contents with other regions of one face. -/
def Contents.withRegions (x : Contents) (f : FaceId) (t : Table Region) : Contents :=
  match f with
  | .lead => { x with regionsLead := t }
  | .trail => { x with regionsTrail := t }

theorem Contents.regions_withRegions (x : Contents) (f : FaceId) (t : Table Region) : (x.withRegions f t).regions f = t := by
  cases f <;> rfl

theorem writeTable_regions (f : FaceId) (k : Nat) (es : List (List Word)) (x : Contents) :
    writeTable (faceCode f) k es x = (readAll readRegion es).map fun r =>
      (x.withRegions f (putEntries Region.empty r.1 k (x.regions f)), r.2) := by
  cases f <;> rfl

/-- Every entry of the frame reads: the block is stored, and a number was changed where one was in some entry. -/
theorem readAll_entries {α : Type} [DecidableEq α] {read : List Word → Option (α × Bool)} {off : List Word → Bool}
    {c : Command} {n : Nat} (h : ∀ j < c.nat 3, ∃ x, read (entryWords c n j) = some (x, off (entryWords c n j))) (d : α)
    (t : Table α) (k : Nat) :
    ∃ xs, readAll read (OpenWrite.entries c n) = some (xs, (OpenWrite.entries c n).any off) ∧
      (∀ j < c.nat 3, read (entryWords c n j) =
        some (tget d (putEntries d xs k t) (k + j), off (entryWords c n j))) ∧
      ∀ m, m < k ∨ k + c.nat 3 ≤ m → tget d (putEntries d xs k t) m = tget d t m := by
  obtain ⟨xs, hxs, hall⟩ := readAll_some (read := read) (P := fun ws x => read ws = some (x, off ws)) (off := off)
    (OpenWrite.forall_entries.mpr fun j hj => (h j hj).imp fun _ hx => ⟨hx, hx⟩)
  exact ⟨xs, hxs, OpenWrite.entries_put hall d t k⟩

theorem any_entries {c : Command} {n : Nat} {off : List Word → Bool} :
    (OpenWrite.entries c n).any off = true ↔ ∃ j < c.nat 3, off (entryWords c n j) = true := by
  simp only [OpenWrite.entries, List.any_map, List.any_eq_true, List.mem_range, Function.comp_apply]

theorem flagCode_one {n : Nat} {b : Bool} (h : n = flagCode b) : b = true ↔ n = 1 := by
  cases b <;> simp [h, flagCode]

theorem readRegion_entry {c : Command} {j : Nat} : (∃ r, readRegion (entryWords c 6 j) = some r) ↔
    c.nat (4 + 6 * j) ≤ 1 ∧ c.nat (5 + 6 * j) ≤ 3 ∧ c.nat (6 + 6 * j) ≤ 8191 ∧ c.nat (7 + 6 * j) ≤ 8191 ∧
    c.nat (8 + 6 * j) ≤ 16 ∧ c.nat (9 + 6 * j) ≤ 3 := by
  simp only [readRegion_exists, field_entryWords, Nat.reduceLT, Nat.reduceAdd]

theorem readRule_entry {c : Command} {j : Nat} : (∃ r, readRule (entryWords c 13 j) = some r) ↔
    c.nat (4 + 13 * j) ≤ 1 ∧ c.nat (5 + 13 * j) ≤ 2 ∧ c.nat (12 + 13 * j) ≤ 1 ∧ c.nat (13 + 13 * j) ≤ 1 ∧
    c.nat (14 + 13 * j) ≤ 1 ∧ c.nat (15 + 13 * j) ≤ 3 ∧ c.nat (16 + 13 * j) ≤ 2 := by
  simp only [readRule_exists, field_entryWords, Nat.reduceLT, Nat.reduceAdd]

theorem readRegion_stored {c : Command} {j : Nat} (h : c.nat (4 + 6 * j) ≤ 1 ∧ c.nat (5 + 6 * j) ≤ 3 ∧
    c.nat (6 + 6 * j) ≤ 8191 ∧ c.nat (7 + 6 * j) ≤ 8191 ∧ c.nat (8 + 6 * j) ≤ 16 ∧ c.nat (9 + 6 * j) ≤ 3) :
    ∃ r, readRegion (entryWords c 6 j) = some (r, false) := by
  obtain ⟨⟨r, b⟩, hr⟩ := readRegion_entry.mpr h
  obtain ⟨rfl, _⟩ := readRegion_iff.mp hr
  exact ⟨r, hr⟩

theorem readRule_stored {c : Command} {j : Nat} (h : c.nat (4 + 13 * j) ≤ 1 ∧ c.nat (5 + 13 * j) ≤ 2 ∧
    c.nat (12 + 13 * j) ≤ 1 ∧ c.nat (13 + 13 * j) ≤ 1 ∧ c.nat (14 + 13 * j) ≤ 1 ∧ c.nat (15 + 13 * j) ≤ 3 ∧
    c.nat (16 + 13 * j) ≤ 2) :
    ∃ r, readRule (entryWords c 13 j) = some (r, ruleOff (entryWords c 13 j)) := by
  obtain ⟨⟨r, b⟩, hr⟩ := readRule_entry.mpr h
  obtain ⟨rfl, _⟩ := readRule_iff.mp hr
  exact ⟨r, hr⟩

/-- The fields of a region as it is stored. -/
theorem region_codes {c : Command} {j : Nat} {r : Region} (h : readRegion (entryWords c 6 j) = some (r, false)) :
    (r.present = true ↔ c.nat (4 + 6 * j) = 1) ∧ c.nat (5 + 6 * j) = r.kind.code ∧ r.first = c.nat (6 + 6 * j) ∧
    r.last = c.nat (7 + 6 * j) ∧ r.lane.getD 16 = c.nat (8 + 6 * j) ∧ r.lane ≠ some 16 ∧
    r.priority = c.nat (9 + 6 * j) := by
  obtain ⟨_, h0, h1, h2, h3, h4, h5⟩ := readRegion_iff.mp h
  simp only [field_entryWords, Nat.reduceLT, Nat.reduceAdd] at h0 h1 h2 h3 h4 h5
  obtain ⟨hl, hn, _⟩ := laneOf_iff.mp h4
  exact ⟨flagCode_one (yesNo_iff.mp h0), kindOf_iff.mp h1, (below_iff.mp h2).2, (below_iff.mp h3).2, hl, hn,
    (below_iff.mp h5).2⟩

/-- The fields of a class rule as it is stored. -/
theorem rule_codes {c : Command} {j : Nat} {r : ClassRule} {b : Bool}
    (h : readRule (entryWords c 13 j) = some (r, b)) :
    (r.present = true ↔ c.nat (4 + 13 * j) = 1) ∧ c.nat (5 + 13 * j) = r.polarity.code ∧
    r.areaMin = min (c.nat (6 + 13 * j)) 65535 ∧ r.areaMax = min (c.nat (7 + 13 * j)) 65535 ∧
    r.widthMin = min (c.nat (8 + 13 * j)) 65535 ∧ r.widthMax = min (c.nat (9 + 13 * j)) 65535 ∧
    r.lengthMin = min (c.nat (10 + 13 * j)) 65535 ∧ r.lengthMax = min (c.nat (11 + 13 * j)) 65535 ∧
    (r.correlate = true ↔ c.nat (12 + 13 * j) = 1) ∧ (r.counts = true ↔ c.nat (13 + 13 * j) = 1) ∧
    (r.excerpt = true ↔ c.nat (14 + 13 * j) = 1) ∧ c.nat (15 + 13 * j) = r.level.rank ∧
    c.nat (16 + 13 * j) = r.slot.code := by
  obtain ⟨_, h0, h1, ⟨s2, s3, s4, s5, s6, s7⟩, h8, h9, h10, h11, h12⟩ := readRule_iff.mp h
  simp only [size, clampNat_zero, field_entryWords, Nat.reduceLT, Nat.reduceAdd] at h0 h1 s2 s3 s4 s5 s6 s7 h8 h9 h10 h11 h12
  exact ⟨flagCode_one (yesNo_iff.mp h0), rulePolarityOf_iff.mp h1, s2, s3, s4, s5, s6, s7, flagCode_one (yesNo_iff.mp h8),
    flagCode_one (yesNo_iff.mp h9), flagCode_one (yesNo_iff.mp h10), levelOf_iff.mp h11, slotOf_iff.mp h12⟩

theorem ruleOff_iff {c : Command} {j : Nat} :
    ruleOff (entryWords c 13 j) = true ↔ ∃ m < 6, 65535 < c.nat (6 + m + 13 * j) := by
  have hsize {k : Nat} (hk : k < 13) : offRange 0 65535 (field (entryWords c 13 j) k) = true ↔ 65535 < c.nat (4 + k + 13 * j) := by
    rw [← Bool.not_eq_false, offRange_false (by omega), field_entryWords hk]
    omega
  have hfields : ([2, 3, 4, 5, 6, 7] : List Nat) = (List.range 6).map (2 + ·) := rfl
  rw [ruleOff, hfields, List.any_map, List.any_eq_true]
  refine exists_congr fun m => (and_congr_left' List.mem_range).trans (and_congr_right fun hm => ?_)
  exact (hsize (k := 2 + m) (by omega)).trans (by rw [← Nat.add_assoc])

/-! ### The other tables -/

/-- Whether a threshold of a tier is changed. -/
def tierOff (ws : List Word) : Bool :=
  offRange 1 4095 (field ws 0) || offRange 1 4095 (field ws 1) || offRange 1 65535 (field ws 2)

theorem readTier_eq (ws : List Word) : readTier ws = some ({
    tb := clampNat 1 4095 (field ws 0), td := clampNat 1 4095 (field ws 1), ts := clampNat 1 65535 (field ws 2) },
    tierOff ws) := rfl

theorem tierOff_iff {c : Command} {j : Nat} : tierOff (entryWords c 3 j) = false ↔
    1 ≤ c.nat (4 + 3 * j) ∧ c.nat (4 + 3 * j) ≤ 4095 ∧ 1 ≤ c.nat (5 + 3 * j) ∧ c.nat (5 + 3 * j) ≤ 4095 ∧
      1 ≤ c.nat (6 + 3 * j) ∧ c.nat (6 + 3 * j) ≤ 65535 := by
  simp only [tierOff, Bool.or_eq_false_iff, offRange_false, Nat.reduceLeDiff, field_entryWords, Nat.reduceLT, Nat.reduceAdd,
    and_assoc]

theorem writeTable_policy (k : Nat) (e : List Word) (x : Contents) :
    writeTable 3 k [e] x = (readPolicy e).map fun r => ({ x with policy := r.1 }, r.2) := by
  simp only [writeTable, readAll_single, Option.map_map]
  rfl

theorem writeTable_tierPolicy (k : Nat) (e : List Word) (x : Contents) :
    writeTable 5 k [e] x = (readTierPolicy e).map fun r => ({ x with tierPolicy := r.1 }, r.2) := by
  simp only [writeTable, readAll_single, Option.map_map]
  rfl

theorem writeTable_pattern (k : Nat) (e : List Word) (x : Contents) :
    writeTable 6 k [e] x = (readPattern e).map fun r => ({ x with pattern := r.1 }, r.2) := by
  simp only [writeTable, readAll_single, Option.map_map]
  rfl

theorem writeTable_detection (k : Nat) (e : List Word) (x : Contents) :
    writeTable 7 k [e] x = (readDetection e).map fun r => ({ x with detection := r.1 }, r.2) := by
  simp only [writeTable, readAll_single, Option.map_map]
  rfl

theorem writeTable_correlation (k : Nat) (e : List Word) (x : Contents) :
    writeTable 8 k [e] x = (readCorrelation e).map fun r => ({ x with correlation := r.1 }, r.2) := by
  simp only [writeTable, readAll_single, Option.map_map]
  rfl

/-- The words of a policy are those its levels, slots and flags are written as. -/
theorem readPolicy_codes {c : Command} {p : Policy}
    (hlevels : [p.unclassed, p.elongated, p.through, { level := p.leadOnly, slot := .none }, p.streakOpen, p.streakContinue,
      p.streakClose, p.lane].map (fun r => r.level.rank) = (List.range 8).map fun n => c.nat (4 + n))
    (hslots : p.routes.map (fun r => r.slot.code) = (List.range 7).map fun n => c.nat (12 + n))
    (hu : c.nat 19 = flagCode p.unclassedCounts) (he : c.nat 20 = flagCode p.elongatedCounts) :
    readPolicy (entryWords c 17 0) = some (p, false) := by
  have h8 : List.range 8 = [0, 1, 2, 3, 4, 5, 6, 7] := rfl
  have h7 : List.range 7 = [0, 1, 2, 3, 4, 5, 6] := rfl
  simp only [h8, h7, Policy.routes, List.map_cons, List.map_nil, List.cons.injEq, Nat.reduceAdd, and_true] at hlevels hslots
  obtain ⟨l0, l1, l2, l3, l4, l5, l6, l7⟩ := hlevels
  obtain ⟨s0, s1, s2, s3, s4, s5, s6⟩ := hslots
  rw [readPolicy_iff]
  simp only [readRoute_iff, levelOf_iff, yesNo_iff, field_entryWords, Nat.reduceLT, Nat.reduceAdd, Nat.mul_zero, Nat.add_zero]
  exact ⟨trivial, ⟨l0.symm, s0.symm⟩, ⟨l1.symm, s1.symm⟩, ⟨l2.symm, s2.symm⟩, l3.symm, ⟨l4.symm, s3.symm⟩,
    ⟨l5.symm, s4.symm⟩, ⟨l6.symm, s5.symm⟩, ⟨l7.symm, s6.symm⟩, hu, he⟩

/-- Whether a number of the pattern is changed. -/
def patternOff (ws : List Word) : Bool :=
  offRange 1000 2000000 (field ws 0) || offRange 0 500000 (field ws 1) || offRange 0 50000 (field ws 2) ||
    offRange 0 50000 (field ws 3) || decide (clampInt (-50000) 50000 (ws.getD 4 0).toInt ≠ (ws.getD 4 0).toInt) ||
    offRange 0 100000 (field ws 5)

theorem readPattern_eq (ws : List Word) : readPattern ws = some ({
    c := clampNat 1000 2000000 (field ws 0), g := clampNat 0 500000 (field ws 1), gl := clampNat 0 50000 (field ws 2),
    gt := clampNat 0 50000 (field ws 3), r := clampInt (-50000) 50000 (ws.getD 4 0).toInt,
    tolerance := clampNat 0 100000 (field ws 5) }, patternOff ws) := rfl

theorem patternOff_iff {c : Command} : patternOff (entryWords c 6 0) = false ↔
    1000 ≤ c.nat 4 ∧ c.nat 4 ≤ 2000000 ∧ c.nat 5 ≤ 500000 ∧ c.nat 6 ≤ 50000 ∧ c.nat 7 ≤ 50000 ∧ -50000 ≤ c.int 8 ∧
      c.int 8 ≤ 50000 ∧ c.nat 9 ≤ 100000 := by
  have hr : decide (clampInt (-50000) 50000 (c.int 8) ≠ c.int 8) = false ↔ -50000 ≤ c.int 8 ∧ c.int 8 ≤ 50000 := by
    rw [decide_eq_false_iff_not, not_not, clampInt]
    omega
  have hword : (((entryWords c 6 0).getD 4 0).toInt : Int) = c.int 8 := congrArg BitVec.toInt (word_entryWords (by decide))
  simp only [patternOff, hword, hr, Bool.or_eq_false_iff, offRange_false, Nat.reduceLeDiff, field_entryWords, Nat.reduceLT,
    Nat.reduceAdd, Nat.mul_zero, Nat.add_zero, Nat.zero_le, true_and, and_assoc]

/-- Whether a number of the detection settings is changed. -/
def detectionOff (ws : List Word) : Bool :=
  decide (storedShift (field ws 0) ≠ field ws 0) || offRange 16 4096 (field ws 1) || offRange 0 4095 (field ws 2) ||
    offRange 0 3 (field ws 3) || offRange 0 2 (field ws 4) || offRange 4 10 (field ws 5) || offRange 16 65535 (field ws 6) ||
    offRange 0 100000000 (field ws 7) || offRange 0 100000000 (field ws 8) || offRange 0 7 (field ws 9) ||
    offRange 0 1000 (field ws 10)

theorem readDetection_eq (ws : List Word) : readDetection ws = some ({
    k := storedShift (field ws 0), learnLength := clampNat 16 4096 (field ws 1), drift := clampNat 0 4095 (field ws 2),
    bg := clampNat 0 3 (field ws 3), mb := clampNat 0 2 (field ws 4), leak := clampNat 4 10 (field ws 5),
    clip := clampNat 16 65535 (field ws 6), minStreak := clampNat 0 100000000 (field ws 7),
    release := clampNat 0 100000000 (field ws 8), sg := clampNat 0 7 (field ws 9),
    interval := clampNat 0 1000 (field ws 10) }, detectionOff ws) := rfl

theorem storedShift_same {k : Nat} : decide (storedShift k ≠ k) = false ↔ k = 0 ∨ 4 ≤ k ∧ k ≤ 15 := by
  rw [decide_eq_false_iff_not, not_not, storedShift, clampNat]
  split <;> omega

theorem detectionOff_iff {c : Command} : detectionOff (entryWords c 11 0) = false ↔
    (c.nat 4 = 0 ∨ 4 ≤ c.nat 4 ∧ c.nat 4 ≤ 15) ∧ 16 ≤ c.nat 5 ∧ c.nat 5 ≤ 4096 ∧ c.nat 6 ≤ 4095 ∧ c.nat 7 ≤ 3 ∧
      c.nat 8 ≤ 2 ∧ 4 ≤ c.nat 9 ∧ c.nat 9 ≤ 10 ∧ 16 ≤ c.nat 10 ∧ c.nat 10 ≤ 65535 ∧ c.nat 11 ≤ 100000000 ∧
      c.nat 12 ≤ 100000000 ∧ c.nat 13 ≤ 7 ∧ c.nat 14 ≤ 1000 := by
  simp only [detectionOff, storedShift_same, Bool.or_eq_false_iff, offRange_false, Nat.reduceLeDiff, field_entryWords,
    Nat.reduceLT, Nat.reduceAdd, Nat.mul_zero, Nat.add_zero, Nat.zero_le, true_and, and_assoc]

/-- Whether a number of the correlation settings is changed. -/
def correlationOff (ws : List Word) : Bool := offRange 0 100000 (field ws 0) || offRange 0 10000 (field ws 1)

theorem readCorrelation_eq (ws : List Word) : readCorrelation ws =
    some ({ md := clampNat 0 100000 (field ws 0), cd := clampNat 0 10000 (field ws 1) }, correlationOff ws) := rfl

theorem correlationOff_iff {c : Command} :
    correlationOff (entryWords c 2 0) = false ↔ c.nat 4 ≤ 100000 ∧ c.nat 5 ≤ 10000 := by
  simp only [correlationOff, Bool.or_eq_false_iff, offRange_false, field_entryWords, Nat.reduceLT,
    Nat.reduceAdd, Nat.mul_zero, Nat.add_zero, Nat.zero_le, true_and]

theorem ite_changed {α : Type} {b : Bool} {p : Prop} [Decidable p] (h : b = false ↔ p) (x y : α) :
    (if b then y else x) = if p then x else y := by
  cases b
  · rw [if_pos (h.mp rfl)]; rfl
  · rw [if_neg fun hp => Bool.false_ne_true (h.mpr hp).symm]; rfl

end Sys2Proof.Machine

open Sys2Proof Sys2Proof.Machine

/-- Settles O52: an entry is read from its own words of the frame; one unread entry refuses the write, and the flags of the
changed numbers are joined. -/
theorem bankWriteStoresEntries : Obligations.BankWriteStoresEntries := by
  unfold Obligations.BankWriteStoresEntries
  rintro c rest s d h rfl
  refine ⟨fun h0 => runCommand_refused h (withBank_above h0 _ _), ?_⟩
  rintro i x store clamped hi rfl hst hcl
  refine ⟨fun hc => runCommand_refused h (bankWrite_checking hi hc),
    fun hc ho => runCommand_refused h (bankWrite_state hi hc ho), fun ho => ⟨fun hbad => ?_, ?_, ?_, ?_, ?_, ?_, ?_, ?_, ?_⟩⟩
  case refine_1 =>
    rw [← tableSize_eq] at hbad
    exact runCommand_refused h ((bankWrite_opened (d := s.dev.takeCommand rest) hi ho).trans (writeOpenBank_range hbad))
  case refine_2 =>
    intro f hf h1 h2
    have w : OpenWrite c rest s i 6 := ⟨h, hi, ho, by rw [hf]; cases f <;> rfl, h1, by rw [hf]; cases f <;> exact h2⟩
    constructor
    · rintro ⟨n, hn, hbad⟩
      have hnone : readRegion (entryWords c 6 n) = none := by
        by_contra hsome
        have hwithin := readRegion_entry.mp (Option.ne_none_iff_exists'.mp hsome)
        omega
      refine w.writes_none ?_
      rw [hf, writeTable_regions, readAll_none ⟨_, OpenWrite.mem_entries hn, hnone⟩]
      rfl
    · intro hok
      obtain ⟨xs, hxs, hin, hout⟩ := readAll_entries (off := fun _ => false)
        (fun n hn => readRegion_stored (hok n hn)) Region.empty
        ((s.dev.base.banks.bank i).contents.regions f) (c.nat 2)
      have hoff : (OpenWrite.entries c 6).any (fun _ => false) = false := by simp
      have hwrite := (writeTable_regions f (c.nat 2) _ (s.dev.base.banks.bank i).contents).trans (congrArg _ hxs)
      rw [← hf] at hwrite
      have hexec := w.writes_some hst hcl hwrite
      rw [hoff] at hexec
      refine ⟨_, hexec, fun n hn => ⟨_, rfl, ?_⟩, fun k hk => ?_, ?_⟩
      · rw [Contents.regions_withRegions]
        exact region_codes (hin n hn)
      · rw [Contents.regions_withRegions]
        exact hout k hk
      · cases f <;> rfl
  case refine_3 =>
    intro ht h1 h2
    have w : OpenWrite c rest s i 13 := ⟨h, hi, ho, by rw [ht]; rfl, h1, by rw [ht]; exact h2⟩
    have htable (k : Nat) (es : List (List Word)) (x : Contents) : writeTable (c.nat 1) k es x =
        (readAll readRule es).map fun r => ({ x with rules := putEntries ClassRule.empty r.1 k x.rules }, r.2) := by
      rw [ht]
      rfl
    constructor
    · rintro ⟨n, hn, hbad⟩
      have hnone : readRule (entryWords c 13 n) = none := by
        by_contra hsome
        have hwithin := readRule_entry.mp (Option.ne_none_iff_exists'.mp hsome)
        omega
      exact w.writes_none ((htable _ _ _).trans (congrArg _ (readAll_none ⟨_, OpenWrite.mem_entries hn, hnone⟩)))
    · intro hok
      obtain ⟨xs, hxs, hin, hout⟩ := readAll_entries (fun n hn => readRule_stored (hok n hn)) ClassRule.empty
        (s.dev.base.banks.bank i).contents.rules (c.nat 2)
      have hexec := w.writes_some hst hcl ((htable _ _ _).trans (congrArg _ hxs))
      refine ⟨{ (s.dev.base.banks.bank i).contents with
          rules := putEntries ClassRule.empty xs (c.nat 2) (s.dev.base.banks.bank i).contents.rules }, ?_,
        fun n hn => ⟨_, rfl, rule_codes (hin n hn)⟩, hout, rfl⟩
      cases hany : (OpenWrite.entries c 13).any ruleOff with
      | true =>
        rw [hany] at hexec
        obtain ⟨n, hn, hoff⟩ := any_entries.mp hany
        exact .inr ⟨hexec, n, hn, ruleOff_iff.mp hoff⟩
      | false =>
        rw [hany] at hexec
        refine .inl ⟨hexec, fun n hn m hm => Nat.not_lt.mp fun hlt => ?_⟩
        exact Bool.false_ne_true (hany.symm.trans (any_entries.mpr ⟨n, hn, ruleOff_iff.mpr ⟨m, hm, hlt⟩⟩))
  case refine_4 =>
    intro ht h2 h3
    have w : OpenWrite c rest s i 17 := ⟨h, hi, ho, by rw [ht]; rfl, by omega, by rw [ht, h2, h3]; decide⟩
    have htable : writeTable (c.nat 1) (c.nat 2) (OpenWrite.entries c 17) (s.dev.base.banks.bank i).contents =
        (readPolicy (entryWords c 17 0)).map fun r => ({ (s.dev.base.banks.bank i).contents with policy := r.1 }, r.2) := by
      rw [ht, OpenWrite.entries_single h3, writeTable_policy]
    constructor
    · intro hbad
      have hnone : readPolicy (entryWords c 17 0) = none := by
        by_contra hsome
        obtain ⟨r, hr⟩ := Option.ne_none_iff_exists'.mp hsome
        obtain ⟨hlevel, hslot, hu, he⟩ := readPolicy_within hr
        simp only [field_entryWords, Nat.reduceLT, Nat.reduceAdd, Nat.mul_zero, Nat.add_zero] at hu he
        obtain ⟨n, hn, hlt⟩ | ⟨n, hn, hlt⟩ | hlt | hlt := hbad
        · have := hlevel n hn
          rw [field_entryWords (by omega)] at this
          exact absurd hlt (Nat.not_lt.mpr this)
        · have := hslot n hn
          rw [field_entryWords (by omega), ← Nat.add_assoc] at this
          exact absurd hlt (Nat.not_lt.mpr this)
        · omega
        · omega
      exact w.writes_none (htable.trans (congrArg _ hnone))
    · intro p hlevels hslots hu he
      exact w.writes_some hst hcl (htable.trans (congrArg _ (readPolicy_codes hlevels hslots hu he)))
  case refine_5 =>
    intro ht h1 h2
    have w : OpenWrite c rest s i 3 := ⟨h, hi, ho, by rw [ht]; rfl, h1, by rw [ht]; exact h2⟩
    have htable (k : Nat) (es : List (List Word)) (x : Contents) : writeTable (c.nat 1) k es x =
        (readAll readTier es).map fun r => ({ x with tiers := putEntries TierRow.empty r.1 k x.tiers }, r.2) := by
      rw [ht]
      rfl
    obtain ⟨xs, hxs, hin, hout⟩ := readAll_entries (c := c) (n := 3) (read := readTier) (fun _ _ => ⟨_, readTier_eq _⟩)
      TierRow.empty
      (s.dev.base.banks.bank i).contents.tiers (c.nat 2)
    have hexec := w.writes_some hst hcl ((htable _ _ _).trans (congrArg _ hxs))
    refine ⟨{ (s.dev.base.banks.bank i).contents with
        tiers := putEntries TierRow.empty xs (c.nat 2) (s.dev.base.banks.bank i).contents.tiers }, ?_, fun n hn => ?_, hout, rfl⟩
    · cases hany : (OpenWrite.entries c 3).any tierOff with
      | true =>
        rw [hany] at hexec
        obtain ⟨n, hn, hoff⟩ := any_entries.mp hany
        refine .inr ⟨hexec, n, hn, ?_⟩
        by_contra hno
        exact Bool.false_ne_true ((tierOff_iff.mpr (by omega)).symm.trans hoff)
      | false =>
        rw [hany] at hexec
        refine .inl ⟨hexec, fun n hn => tierOff_iff.mp (Bool.eq_false_iff.mpr fun hoff => ?_)⟩
        exact Bool.false_ne_true (hany.symm.trans (any_entries.mpr ⟨n, hn, hoff⟩))
    · have hrow := congrArg Prod.fst (Option.some.inj (hin n hn))
      simp only [clampNat, field_entryWords, Nat.reduceLT, Nat.reduceAdd] at hrow
      exact hrow.symm
  case refine_6 =>
    intro ht h2 h3
    have w : OpenWrite c rest s i 10 := ⟨h, hi, ho, by rw [ht]; rfl, by omega, by rw [ht, h2, h3]; decide⟩
    have htable : writeTable (c.nat 1) (c.nat 2) (OpenWrite.entries c 10) (s.dev.base.banks.bank i).contents =
        (readTierPolicy (entryWords c 10 0)).map fun r =>
          ({ (s.dev.base.banks.bank i).contents with tierPolicy := r.1 }, r.2) := by
      rw [ht, OpenWrite.entries_single h3, writeTable_tierPolicy]
    constructor
    · intro hbad
      exact w.writes_none (htable.trans (congrArg _ (readTierPolicy_none (by
        simpa only [field_entryWords, Nat.reduceLT, Nat.reduceAdd, Nat.mul_zero, Nat.add_zero] using hbad))))
    · rintro h10 h11 h12 h13 y rfl
      have hread := readTierPolicy_some (ws := entryWords c 10 0) (by rwa [field_entryWords (by decide)])
        (by rwa [field_entryWords (by decide)]) (by rwa [field_entryWords (by decide)])
        (by rwa [field_entryWords (by decide)])
      simp only [clampNat_zero, field_entryWords, Nat.reduceLT, Nat.reduceAdd, Nat.mul_zero, Nat.add_zero] at hread
      refine (w.writes_some hst hcl (htable.trans (congrArg _ hread))).trans (congrArg _ (ite_changed ?_ _ _))
      simp only [tierPolicyOff, Bool.or_eq_false_iff, offRange_false, Nat.reduceLeDiff, field_entryWords, Nat.reduceLT,
        Nat.reduceAdd, Nat.mul_zero, Nat.add_zero, Nat.zero_le, true_and, and_assoc]
  case refine_7 =>
    rintro ht h2 h3 y rfl
    have w : OpenWrite c rest s i 6 := ⟨h, hi, ho, by rw [ht]; rfl, by omega, by rw [ht, h2, h3]; decide⟩
    have hread := readPattern_eq (entryWords c 6 0)
    simp only [clampNat_zero, word_entryWords, field_entryWords, Nat.reduceLT, Nat.reduceAdd, Nat.mul_zero, Nat.add_zero]
      at hread
    have htable : writeTable (c.nat 1) (c.nat 2) (OpenWrite.entries c 6) (s.dev.base.banks.bank i).contents =
        (readPattern (entryWords c 6 0)).map fun r => ({ (s.dev.base.banks.bank i).contents with pattern := r.1 }, r.2) := by
      rw [ht, OpenWrite.entries_single h3, writeTable_pattern]
    exact (w.writes_some hst hcl (htable.trans (congrArg _ hread))).trans (congrArg _ (ite_changed patternOff_iff _ _))
  case refine_8 =>
    rintro ht h2 h3 y rfl
    have w : OpenWrite c rest s i 11 := ⟨h, hi, ho, by rw [ht]; rfl, by omega, by rw [ht, h2, h3]; decide⟩
    have hread := readDetection_eq (entryWords c 11 0)
    simp only [storedShift, clampNat_zero, field_entryWords, Nat.reduceLT, Nat.reduceAdd, Nat.mul_zero, Nat.add_zero]
      at hread
    have htable : writeTable (c.nat 1) (c.nat 2) (OpenWrite.entries c 11) (s.dev.base.banks.bank i).contents =
        (readDetection (entryWords c 11 0)).map fun r =>
          ({ (s.dev.base.banks.bank i).contents with detection := r.1 }, r.2) := by
      rw [ht, OpenWrite.entries_single h3, writeTable_detection]
    exact (w.writes_some hst hcl (htable.trans (congrArg _ hread))).trans (congrArg _ (ite_changed detectionOff_iff _ _))
  case refine_9 =>
    rintro ht h2 h3 y rfl
    have w : OpenWrite c rest s i 2 := ⟨h, hi, ho, by rw [ht]; rfl, by omega, by rw [ht, h2, h3]; decide⟩
    have hread := readCorrelation_eq (entryWords c 2 0)
    simp only [clampNat_zero, field_entryWords, Nat.reduceLT, Nat.reduceAdd, Nat.mul_zero, Nat.add_zero] at hread
    have htable : writeTable (c.nat 1) (c.nat 2) (OpenWrite.entries c 2) (s.dev.base.banks.bank i).contents =
        (readCorrelation (entryWords c 2 0)).map fun r =>
          ({ (s.dev.base.banks.bank i).contents with correlation := r.1 }, r.2) := by
      rw [ht, OpenWrite.entries_single h3, writeTable_correlation]
    exact (w.writes_some hst hcl (htable.trans (congrArg _ hread))).trans (congrArg _ (ite_changed correlationOff_iff _ _))
end

section
/-! R75, R84 to R86, R93: one record at the Blob Builder. -/

namespace Sys2Proof.Machine

open Sys2Proof

/-! ### The end-of-line step (R84) -/

section EndOfLine

variable {mb : Nat} {b b' : Blob}

theorem endOfLine_span {u : Nat × Nat} (h : b'.lineSpan = some u) : endOfLine mb b' =
    ({ b' with lastSpan := some u, lineSpan := none }, if 512 ≤ (b'.last - b'.first).toNat + 1 then some .length else none) := by
  unfold endOfLine
  rw [h]
  rfl

theorem endOfLine_idle (h : b'.lineSpan = none) : endOfLine mb b' =
    if b'.idle < mb then ({ b' with idle := b'.idle + 1 }, none) else (b', some .none) := by
  unfold endOfLine
  rw [h]

theorem endOfLine_stays : endOfLine mb b' = (b, none) ↔
    b'.lineSpan = none ∧ b'.idle < mb ∧ b = { b' with idle := b'.idle + 1 } ∨
      ∃ u, b'.lineSpan = some u ∧ (b'.last - b'.first).toNat + 1 < 512 ∧ b = { b' with lastSpan := some u, lineSpan := none } := by
  cases hspan : b'.lineSpan with
  | none =>
    rw [endOfLine_idle hspan]
    by_cases hidle : b'.idle < mb <;> simp [hidle, hspan, eq_comm]
  | some u =>
    rw [endOfLine_span hspan]
    generalize (b'.last - b'.first).toNat + 1 = n
    by_cases hlong : 512 ≤ n
    · simp [hlong, Nat.not_lt.mpr hlong]
    · simp [hlong, Nat.lt_of_not_le hlong, eq_comm]

theorem endOfLine_closes {reason : TruncReason} : endOfLine mb b' = (b, some reason) ↔
    b'.lineSpan = none ∧ mb ≤ b'.idle ∧ b = b' ∧ reason = .none ∨
      ∃ u, b'.lineSpan = some u ∧ 512 ≤ (b'.last - b'.first).toNat + 1 ∧
        b = { b' with lastSpan := some u, lineSpan := none } ∧ reason = .length := by
  cases hspan : b'.lineSpan with
  | none =>
    rw [endOfLine_idle hspan]
    by_cases hidle : b'.idle < mb
    · simp [hidle, Nat.not_le.mpr hidle]
    · simp [hidle, Nat.le_of_not_lt hidle, eq_comm]
  | some u =>
    rw [endOfLine_span hspan]
    generalize (b'.last - b'.first).toNat + 1 = n
    by_cases hlong : 512 ≤ n <;> simp [hlong, eq_comm]

theorem mem_staying {t : Table (Option Blob)} {k : Nat} :
    (k, b) ∈ occupied (staying mb t) ↔ ∃ b', (k, b') ∈ occupied t ∧ endOfLine mb b' = (b, none) := by
  simp only [mem_occupied_iff, staying, List.mem_filterMap]
  constructor
  · rintro ⟨⟨k', v⟩, he, hv⟩
    cases v with
    | none => cases hv
    | some b' =>
      dsimp only at hv
      rcases hend : endOfLine mb b' with ⟨b'', _ | reason⟩ <;> rw [hend] at hv <;> cases hv
      exact ⟨b', he, hend⟩
  · rintro ⟨b', he, hend⟩
    exact ⟨_, he, by dsimp only; rw [hend]⟩

theorem mem_closing {t : Table (Option Blob)} {k : Nat} {reason : TruncReason} :
    ((k, b), reason) ∈ closing mb t ↔ ∃ b', (k, b') ∈ occupied t ∧ endOfLine mb b' = (b, some reason) := by
  simp only [closing, List.mem_filterMap]
  constructor
  · rintro ⟨⟨k', b'⟩, he, hv⟩
    dsimp only at hv
    rcases hend : endOfLine mb b' with ⟨b'', _ | reason⟩ <;> rw [hend] at hv <;> cases hv
    exact ⟨b', he, hend⟩
  · rintro ⟨b', he, hend⟩
    exact ⟨_, he, by dsimp only; rw [hend]⟩

end EndOfLine

/-! ### What a line leaves of the blob side -/

section Kept

variable {f : FaceId}

/-- What linking and closing leave: the ring, the waiting records, the last handled line and the dropped runs. -/
def Blobs.held (x : Blobs) : List RingEntry × List LineRecord × Option Word × Nat := (x.ring, x.inbox, x.lastLine, x.dropped)

theorem offerBlobSaturation_face (on : Bool) (line : Option Word) (i : Insp) :
    (offerBlobSaturation f on line i).face f = i.face f := rfl

theorem testSaturation_blob (line : Option Word) (i : Insp) : ((testSaturation f line i).face f).blob =
    { (i.face f).blob with saturated := (i.face f).blob.saturated && decide (192 < (i.face f).blob.openCount) } := by
  unfold testSaturation
  by_cases h : ((i.face f).blob.saturated && decide ((i.face f).blob.openCount ≤ 192)) = true
  · rw [if_pos h]
    simp only [Bool.and_eq_true, decide_eq_true_eq] at h
    rw [offerBlobSaturation_face, onFace_face]
    simp [Nat.not_lt.mpr h.2]
  · rw [if_neg h]
    cases hs : (i.face f).blob.saturated with
    | false => rw [Bool.false_and, ← hs]
    | true =>
      have hcount : 192 < (i.face f).blob.openCount := by simpa [hs] using h
      rw [Bool.true_and, decide_eq_true hcount, ← hs]

theorem testSaturation_held (line : Option Word) (i : Insp) :
    ((testSaturation f line i).face f).blob.held = (i.face f).blob.held := by
  rw [testSaturation_blob]
  rfl

theorem sendBlob_held (b : Base) (reason : TruncReason) (line : Option (Word × Int)) (i : Insp) (e : Nat × Blob) :
    ((sendBlob b f reason line i e).face f).blob.held = (i.face f).blob.held := by
  obtain ⟨n, hn⟩ := sendBlob_blob (f := f) (reason := reason) (line := line) (i := i) b e
  rw [hn]
  rfl

theorem sendBlob_saturated (b : Base) (reason : TruncReason) (line : Option (Word × Int)) (i : Insp) (e : Nat × Blob) :
    ((sendBlob b f reason line i e).face f).blob.saturated = (i.face f).blob.saturated := by
  obtain ⟨n, hn⟩ := sendBlob_blob (f := f) (reason := reason) (line := line) (i := i) b e
  rw [hn]

theorem closeAllBlobs_held (b : Base) (reason : TruncReason) (line : Option (Word × Int)) (i : Insp) :
    ((closeAllBlobs b f reason line i).face f).blob.held = (i.face f).blob.held := by
  rw [closeAllBlobs_eq]
  refine (foldl_same (π := fun i : Insp => (i.face f).blob.held) (fun i e => sendBlob_held b reason line i e) _ _).trans ?_
  rw [onFace_face]
  rfl

theorem linkRun_held (h : LineHead) (i : Insp) (u : Run) :
    ((linkRun f h i u).face f).blob.held = (i.face f).blob.held := by
  unfold linkRun discardRun
  dsimp only
  split
  · split
    · rw [onFace_face]; rfl
    · split
      · rw [onFace_face]; rfl
      · rw [offerBlobSaturation_face, onFace_face]; rfl
  · rw [onFace_face]; rfl

/-- The end of a line: the blobs that stay have stayed, and those that close are sent on in close order. -/
theorem endLine_eq (b : Base) (h : LineHead) (i : Insp) : endLine b f h i =
    (orderBy (fun a c => closesBefore h.index a.1 c.1) (closing (b.banks.contents f).detection.mb (i.face f).blob.open_)).foldl
      (fun i e => sendBlob b f e.2 (some (h.index, h.pos)) i e.1)
      (i.onFace f fun z => { z with
        blob := { z.blob with open_ := staying (b.banks.contents f).detection.mb z.blob.open_ } }) := by
  cases f <;> rfl

variable (b : Base) (h : LineHead) (i : Insp)

theorem endLine_held : ((endLine b f h i).face f).blob.held = (i.face f).blob.held := by
  rw [endLine_eq]
  refine (foldl_same (β := (Nat × Blob) × TruncReason) (π := fun i : Insp => (i.face f).blob.held)
    (fun i e => sendBlob_held b e.2 _ i e.1) _ _).trans ?_
  rw [onFace_face]
  rfl

theorem endLine_saturated : ((endLine b f h i).face f).blob.saturated = (i.face f).blob.saturated := by
  rw [endLine_eq]
  refine (foldl_same (β := (Nat × Blob) × TruncReason) (π := fun i : Insp => (i.face f).blob.saturated)
    (fun i e => sendBlob_saturated b e.2 _ i e.1) _ _).trans ?_
  rw [onFace_face]

theorem endLine_open : ((endLine b f h i).face f).blob.open_ =
    staying (b.banks.contents f).detection.mb (i.face f).blob.open_ := by
  rw [endLine_eq]
  refine (foldl_same (β := (Nat × Blob) × TruncReason) (π := fun i : Insp => (i.face f).blob.open_)
    (fun i e => sendBlob_open b e.2 _ i e.1) _ _).trans ?_
  rw [onFace_face]

end Kept

/-! ### Blobs begun on the line -/

section Begun

variable {f : FaceId}

theorem mem_occupied_put {α : Type} [DecidableEq α] {t : Table (Option α)} {k : Nat} {v : α} {e : Nat × α}
    (h : e ∈ occupied (tset none t k (some v))) : e = (k, v) ∨ e ∈ occupied t := by
  rw [mem_occupied_iff] at h ⊢
  obtain heq | he := mem_tinsert h
  · obtain ⟨k', v'⟩ := e
    simp only [Prod.mk.injEq, Option.some.injEq] at heq
    exact .inl (Prod.ext heq.1 heq.2)
  · exact .inr he

theorem mem_occupied_freed {l : List (Nat × Blob)} {t : Table (Option Blob)} {e : Nat × Blob}
    (h : e ∈ occupied (l.foldl (fun t e => tset none t e.1 none) t)) : e ∈ occupied t := by
  rw [freed_eq_filter, mem_occupied_iff] at h
  exact (mem_occupied_iff _ _).mpr (List.mem_of_mem_filter h)

/-- Every open blob of the face began on line `n`. -/
def BegunOn (f : FaceId) (n : Word) (i : Insp) : Prop := ∀ e ∈ occupied (i.face f).blob.open_, e.2.first = n

theorem absorb_first {n : Word} {b y : Blob} (hb : b.first = n) (hy : y.first = n) : (b.absorb n y).first = n := by
  have hfirst : (if lineAge n b.first < lineAge n y.first then y.first else b.first) = n := by rw [hb, hy, ite_self]
  unfold Blob.absorb
  dsimp only
  split <;> exact hfirst

theorem extend_first (b : Blob) (h : LineHead) (u : Run) : (b.extend h u).first = b.first := by
  unfold Blob.extend
  dsimp only
  split <;> rfl

theorem linkRun_begun {h : LineHead} {i : Insp} (u : Run) (hi : BegunOn f h.index i) : BegunOn f h.index (linkRun f h i u) := by
  have hsame {j : Insp} (hj : (j.face f).blob.open_ = (i.face f).blob.open_) : BegunOn f h.index j := fun e he =>
    hi e (hj ▸ he)
  unfold linkRun
  dsimp only
  split
  case h_1 =>
    split
    case h_1 =>
      intro e he
      rw [onFace_face] at he
      obtain rfl | he := mem_occupied_put he
      · rfl
      · exact hi e he
    case h_2 =>
      refine hsame ?_
      unfold discardRun
      dsimp only
      split
      · rw [onFace_face]
      · rw [offerBlobSaturation_face, onFace_face]
  case h_2 k b younger hlinked =>
    have hmem {e : Nat × Blob} (he : e ∈ (k, b) :: younger) : e.2.first = h.index := by
      rw [← hlinked, mem_orderBy] at he
      exact hi e (List.mem_of_mem_filter he)
    intro e he
    rw [onFace_face] at he
    obtain rfl | he := mem_occupied_put he
    · rw [extend_first]
      exact foldl_keeps_mem (p := fun b : Blob => b.first = h.index) younger
        (fun b e he hb => absorb_first hb (hmem (List.mem_cons_of_mem _ he))) (hmem List.mem_cons_self)
    · exact hi e (mem_occupied_freed he)

end Begun

/-! ### A handled line (R75) -/

section Handled

variable (b : Base) (f : FaceId) (r : LineRecord) (i : Insp)

/-- The record taken from those that wait, its line in the ring. -/
def recordTaken (rest : List LineRecord) : Insp :=
  i.onFace f fun x => { x with blob := { x.blob with inbox := rest, ring := enterRing r x.blob.ring } }

/-- The line becomes the last handled one. -/
def lineBegun : Insp := i.onFace f fun x => { x with blob := { x.blob with lastLine := some r.head.index } }

/-- After the forced close of a coating exit. -/
def lineExited : Insp :=
  if r.exit then testSaturation f (some r.head.index) (closeAllBlobs b f .pattern (some (r.head.index, r.head.pos)) i) else i

/-- After the runs are linked. -/
def lineLinked : Insp :=
  ((r.runs (b.banks.contents f).detection.bg).take 512).foldl (linkRun f r.head) (i.onFace f fun x => { x with
    blob := { x.blob with
      dropped := min (x.blob.dropped + ((r.runs (b.banks.contents f).detection.bg).length - 512)) 4294967295 } })

/-- The line before its end-of-line step. -/
def beforeEnd : Insp := lineLinked b f r (lineExited b f r (lineBegun f r i))

theorem handleBlobLine_eq : handleBlobLine b f r i =
    testSaturation f (some r.head.index) (endLine b f r.head (beforeEnd b f r i)) := rfl

theorem takeBlobLine_quiet {i : Insp} {rest : List LineRecord} (hin : (i.face f).blob.inbox = r :: rest)
    (hquiet : r.head.cls = .creep ∨ r.phase = .idle) : takeBlobLine b f i = recordTaken f r i rest := by
  unfold takeBlobLine
  rw [hin]
  refine (if_pos (by simpa using hquiet)).trans ?_
  cases f <;> rfl

theorem takeBlobLine_lead {i : Insp} {rest : List LineRecord} (hin : (i.face .lead).blob.inbox = r :: rest)
    (hcls : r.head.cls = .inspection) (hphase : r.phase ≠ .idle) :
    takeBlobLine b .lead i = handleBlobLine b .lead r (recordTaken .lead r i rest) := by
  unfold takeBlobLine
  rw [hin]
  exact if_neg (by simp [hcls, hphase])

theorem takeBlobLine_trail {i : Insp} {rest : List LineRecord} (hin : (i.face .trail).blob.inbox = r :: rest)
    (hcls : r.head.cls = .inspection) (hphase : r.phase ≠ .idle) :
    takeBlobLine b .trail i = queueExpiry b r (handleBlobLine b .trail r (recordTaken .trail r i rest)) := by
  have htaken : trailRecordTaken r rest i = recordTaken .trail r i rest := rfl
  rw [takeBlobLine_handled b hin hcls hphase, htaken]

theorem lineExited_held : ((lineExited b f r i).face f).blob.held = (i.face f).blob.held := by
  unfold lineExited
  split
  · rw [testSaturation_held, closeAllBlobs_held]
  · rfl

theorem beforeEnd_held (x : Blobs) (hx : x = (i.face f).blob) : ((beforeEnd b f r i).face f).blob.held =
    (x.ring, x.inbox, some r.head.index,
      min (x.dropped + ((r.runs (b.banks.contents f).detection.bg).length - 512)) 4294967295) := by
  have hexit := lineExited_held b f r (lineBegun f r i)
  rw [lineBegun, onFace_face, ← hx, Blobs.held, Blobs.held] at hexit
  simp only [Prod.mk.injEq] at hexit
  obtain ⟨hring, hinbox, hlast, hdropped⟩ := hexit
  unfold beforeEnd lineLinked
  refine (foldl_same (π := fun i : Insp => (i.face f).blob.held) (fun i u => linkRun_held r.head i u) _ _).trans ?_
  rw [onFace_face]
  simp only [Blobs.held, lineBegun, hring, hinbox, hlast, hdropped]

theorem handleBlobLine_held : ((handleBlobLine b f r i).face f).blob.held = ((beforeEnd b f r i).face f).blob.held := by
  rw [handleBlobLine_eq, testSaturation_held, endLine_held]

theorem handleBlobLine_open : ((handleBlobLine b f r i).face f).blob.open_ =
    staying (b.banks.contents f).detection.mb ((beforeEnd b f r i).face f).blob.open_ := by
  rw [handleBlobLine_eq, testSaturation_open, endLine_open]

theorem handleBlobLine_saturated : ((handleBlobLine b f r i).face f).blob.saturated =
    (((beforeEnd b f r i).face f).blob.saturated && decide (192 < ((handleBlobLine b f r i).face f).blob.openCount)) := by
  rw [handleBlobLine_eq, testSaturation_blob, endLine_saturated]
  rfl

/-- After a coating exit every blob open before the end of the line began on it. -/
theorem beforeEnd_begun (hexit : r.exit = true) : BegunOn f r.head.index (beforeEnd b f r i) := by
  unfold beforeEnd lineLinked
  refine foldl_keeps (p := BegunOn f r.head.index) (fun i u hi => linkRun_begun u hi) _ ?_
  intro e he
  rw [onFace_face, lineExited, if_pos hexit, testSaturation_open, closeAllBlobs_open] at he
  exact absurd he List.not_mem_nil

/-- A line without flags and without exit leaves the open blobs to the end of the line. -/
theorem beforeEnd_quiet (hexit : r.exit = false) (hflags : ∀ e ∈ r.cols, e.2.flag = none) :
    ((beforeEnd b f r i).face f).blob.open_ = (i.face f).blob.open_ := by
  unfold beforeEnd lineLinked lineExited lineBegun
  rw [runs_unflagged hflags, if_neg (by simp [hexit]), List.take_nil, List.foldl_nil, onFace_face, onFace_face]

theorem queueExpiry_within : Within [.corr, .out] i (queueExpiry b r i) := Within.settleTrail _ i

theorem queueExpiry_blob (x : FaceId) : ((queueExpiry b r i).face x).blob = (i.face x).blob :=
  queueExpiry_within b r i b (.blob x) (by simp)

/-- What the record leaves of the blob side, the line's expiry test made or queued. -/
theorem takeBlobLine_blob {rest : List LineRecord} (hin : (i.face f).blob.inbox = r :: rest)
    (hcls : r.head.cls = .inspection) (hphase : r.phase ≠ .idle) :
    ((takeBlobLine b f i).face f).blob = ((handleBlobLine b f r (recordTaken f r i rest)).face f).blob := by
  cases f
  · rw [takeBlobLine_lead b r hin hcls hphase]
  · rw [takeBlobLine_trail b r hin hcls hphase]
    exact queueExpiry_blob b r _ _

/-- R123: the expiry test of a handled line. -/
theorem queueExpiry_tests {tests : List (Int × Int)} {waiting : List TrailWork}
    (hwork : i.corr.trailWork = tests.map (fun e => TrailWork.expiry e.1 e.2) ++ waiting) (hfront : FrontTaken waiting) :
    (waiting = [] → queueExpiry b r i =
      (expire (r.head.pos / 10240) (expiryMargin (b.banks.contents .trail) r.head.pitch)
        (tests.foldl (fun i e => expire e.1 e.2 i) i)).withTrail []) ∧
    (waiting ≠ [] → queueExpiry b r i = (tests.foldl (fun i e => expire e.1 e.2 i) i).withTrail
      (waiting ++ [.expiry (r.head.pos / 10240) (expiryMargin (b.banks.contents .trail) r.head.pitch)])) := by
  unfold queueExpiry
  rw [hwork]
  constructor
  · rintro rfl
    have h := settleTrail_tests (tests ++ [(toUnits r.head.pos, expiryMargin (b.banks.contents .trail) r.head.pitch)])
      (rest := []) (by simp [FrontTaken]) i
    rw [List.map_append, List.append_nil, List.foldl_append] at h
    rw [List.append_nil]
    exact h
  · intro hne
    rw [List.append_assoc]
    refine settleTrail_tests tests (fun p m => ?_) i
    rw [List.head?_append_of_ne_nil _ hne]
    exact hfront p m

end Handled

end Sys2Proof.Machine

open Sys2Proof Sys2Proof.Machine

/-- Settles O33: the state before the end of the line is followed through the forced close and the runs; the end of the line and
the saturation test then give every field. -/
theorem blobBuilderHandlesRecord : Obligations.BlobBuilderHandlesRecord := by
  unfold Obligations.BlobBuilderHandlesRecord
  refine ⟨?record, ?endOfLine, fun n a c => closesBefore_iff n a c, ?saturation⟩
  case record =>
    rintro f s r rest x ring mb rfl hin rfl rfl
    constructor
    · intro hquiet
      refine (next_insp (takeBlobLine_quiet s.dev.base f r hin hquiet)).trans ?_
      cases f <;> rfl
    · intro hcls hphase
      have hblob := takeBlobLine_blob s.dev.base f r s.dev.insp hin hcls hphase
      have hheld := beforeEnd_held s.dev.base f r (recordTaken f r s.dev.insp rest) _ rfl
      rw [← handleBlobLine_held, ← hblob] at hheld
      simp only [Blobs.held, Prod.mk.injEq, recordTaken, onFace_face] at hheld
      obtain ⟨hring, hinbox, hlast, hdropped⟩ := hheld
      have hopen := handleBlobLine_open s.dev.base f r (recordTaken f r s.dev.insp rest)
      have hsaturated := handleBlobLine_saturated s.dev.base f r (recordTaken f r s.dev.insp rest)
      rw [← hblob] at hopen hsaturated
      have hmem (k : Nat) (b : Blob) : (k, b) ∈ occupied ((takeBlobLine s.dev.base f s.dev.insp).face f).blob.open_ ↔
          ∃ b', (k, b') ∈ occupied ((beforeEnd s.dev.base f r (recordTaken f r s.dev.insp rest)).face f).blob.open_ ∧
            endOfLine (s.dev.base.banks.contents f).detection.mb b' = (b, none) := by
        rw [hopen, mem_staying]
      refine ⟨{ s with dev := { s.dev with insp := takeBlobLine s.dev.base f s.dev.insp } }, rfl, hring, hinbox, hlast, ?begun,
        ?quiet, ?steps, rfl, Within.touches (Within.takeBlobLine s.dev.insp)⟩
      case begun =>
        rintro ⟨k, b⟩ he
        obtain ⟨b', hb', hend⟩ := (hmem k b).mp he
        have hfirst : r.exit = true → b'.first = r.head.index := fun hexit => beforeEnd_begun _ _ _ _ hexit _ hb'
        obtain ⟨hspan, _, rfl⟩ | ⟨u, _, _, rfl⟩ := endOfLine_stays.mp hend
        · exact ⟨hspan, hfirst⟩
        · exact ⟨rfl, hfirst⟩
      case quiet =>
        intro hexit hflags
        have hquiet := beforeEnd_quiet s.dev.base f r (recordTaken f r s.dev.insp rest) hexit hflags
        rw [recordTaken, onFace_face] at hquiet
        constructor
        · intro k b hb hspan hidle
          exact (hmem k _).mpr ⟨b, hquiet ▸ hb, endOfLine_stays.mpr (.inl ⟨hspan, hidle, rfl⟩)⟩
        · intro k b hb
          obtain ⟨b', hb', hend⟩ := (hmem k b).mp hb
          refine ⟨b', hquiet ▸ hb', fun hspan => ?_⟩
          obtain ⟨_, hidle, heq⟩ | ⟨u, hu, _, _⟩ := endOfLine_stays.mp hend
          · exact ⟨hidle, heq⟩
          · exact absurd (hspan.symm.trans hu) (Option.some_ne_none u).symm
      case steps =>
        rintro runs i j l y rfl hi hj hl rfl
        have hbegun : i = lineBegun f r (recordTaken f r s.dev.insp rest) := by
          rw [hi, lineBegun, recordTaken, onFace_onFace]
          cases f <;> rfl
        have hbefore : l = beforeEnd s.dev.base f r (recordTaken f r s.dev.insp rest) := by
          rw [hl, hj, hbegun]
          rfl
        subst hbefore
        refine ⟨?tests, hdropped, hsaturated, ?opened⟩
        case tests =>
          rintro z hz
          obtain rfl : z = handleBlobLine s.dev.base f r (recordTaken f r s.dev.insp rest) := hz
          refine ⟨?_, ?_⟩
          · rintro rfl
            exact takeBlobLine_lead s.dev.base r hin hcls hphase
          · rintro rfl tests waiting z' z'' p m hwork hfront rfl rfl rfl rfl
            have hmade := queueExpiry_tests s.dev.base r _ hwork hfront
            have hlater := takeBlobLine_trail s.dev.base r hin hcls hphase
            exact ⟨fun h => hlater.trans (hmade.1 h), fun h => hlater.trans (hmade.2 h)⟩
        case opened =>
          intro k b
          refine (hmem k b).trans ?_
          exact exists_congr fun b' => and_congr_right fun _ => endOfLine_stays
  case endOfLine =>
    rintro b f h i mb l rfl rfl
    refine ⟨endLine_eq b h i, fun k x reason => ?_⟩
    rw [mem_orderBy, mem_closing]
    exact exists_congr fun x' => and_congr_right fun _ => endOfLine_closes
  case saturation =>
    rintro f line i n rfl
    constructor
    · intro hs hn
      have htest : ((i.face f).blob.saturated && decide ((i.face f).blob.openCount ≤ 192)) = true := by simp [hs, hn]
      refine (if_pos htest).trans ?_
      rw [offerBlobSaturation, onFace_face]
      rfl
    · intro h
      have htest : ((i.face f).blob.saturated && decide ((i.face f).blob.openCount ≤ 192)) = false := by
        obtain hs | hn := h
        · simp [hs]
        · simp [hn]
      exact if_neg (fun hb => Bool.false_ne_true (htest.symm.trans hb))
end

section
/-! R76, R77: the runs of a line. -/

namespace Sys2Proof.Machine

open Sys2Proof

/-! ### One column of a line (R76) -/

/-- The run that a column opens, where it is flagged. -/
def freshRun (r : LineRecord) (k : Nat) (c : RecordColumn) : Option OpenRun :=
  c.flag.map fun pol => { run := Run.begin_ r pol k c, at_ := k, bridges := 0 }

/-- The column extends the run: flagged with its polarity, next to the last one seen. -/
def Extends (o : OpenRun) (k : Nat) (c : RecordColumn) : Prop := o.at_ + 1 = k ∧ c.flag = some o.run.polarity

/-- The column is a bridge that the run may take. -/
def Bridges (bg : Nat) (o : OpenRun) (k : Nat) (c : RecordColumn) : Prop :=
  o.at_ + 1 = k ∧ c.flag = none ∧ c.detects = true ∧ o.bridges + 1 ≤ bg

section FormRuns

variable {r : LineRecord} {bg : Nat} {k : Nat} {c : RecordColumn} {rest : Table RecordColumn} {o : OpenRun}

theorem formRuns_start : formRuns r bg ((k, c) :: rest) none = formRuns r bg rest (freshRun r k c) := rfl

theorem formRuns_extends (h : Extends o k c) : formRuns r bg ((k, c) :: rest) (some o) =
    formRuns r bg rest (some { run := o.run.extend r k c, at_ := k, bridges := 0 }) := by
  obtain ⟨hk, hflag⟩ := h
  simp [formRuns, runStep, hk, hflag]

theorem formRuns_bridges (h : Bridges bg o k c) : formRuns r bg ((k, c) :: rest) (some o) =
    formRuns r bg rest (some { o with at_ := k, bridges := o.bridges + 1 }) := by
  obtain ⟨hk, hflag, hdetects, hfew⟩ := h
  simp [formRuns, runStep, hk, hflag, hdetects, hfew]

theorem formRuns_breaks (h : ¬ Extends o k c) (h' : ¬ Bridges bg o k c) : formRuns r bg ((k, c) :: rest) (some o) =
    o.run :: formRuns r bg rest (freshRun r k c) := by
  have hstep : runStep r bg (some o) k c = (some o.run, freshRun r k c) := by
    unfold runStep freshRun
    by_cases hk : o.at_ + 1 = k
    · cases hflag : c.flag with
      | some pol =>
        have hpol : pol ≠ o.run.polarity := fun hp => h ⟨hk, hp ▸ hflag⟩
        simp [hk, hpol]
      | none =>
        have hno : (c.detects && decide (o.bridges + 1 ≤ bg)) = false := by
          rw [← Bool.not_eq_true, Bool.and_eq_true, decide_eq_true_eq]
          exact fun hd => h' ⟨hk, hflag, hd⟩
        simp only [hk, ne_eq, not_true_eq_false, if_false, hno, Bool.false_eq_true, Option.map_none]
    · simp [hk]
  rw [formRuns, hstep]
  rfl

theorem formRuns_end : formRuns r bg [] (some o) = [o.run] := rfl

end FormRuns

/-! ### The shape of a run -/

/-- What every run is, whatever the order of the columns. -/
structure RunShape (cols : Table RecordColumn) (u : Run) : Prop where
  order : u.first ≤ u.last
  counted : 1 ≤ u.count
  few : u.count ≤ u.last + 1 - u.first
  first : ∃ y, (u.first, y) ∈ cols ∧ y.flag = some u.polarity
  last : ∃ y, (u.last, y) ∈ cols ∧ y.flag = some u.polarity
  peak : ∃ y, (u.peakCol, y) ∈ cols ∧ y.flag = some u.polarity ∧ u.peak = y.dev.natAbs
  within : u.first ≤ u.peakCol ∧ u.peakCol ≤ u.last

/-- An open run has its shape, and was last seen its bridges past its last flagged column. -/
def OpenShape (cols : Table RecordColumn) (o : OpenRun) : Prop := RunShape cols o.run ∧ o.at_ = o.run.last + o.bridges

section Shape

variable {r : LineRecord} {bg : Nat} {cols : Table RecordColumn} {k : Nat} {c : RecordColumn}

theorem Run.extend_kept (u : Run) : (u.extend r k c).polarity = u.polarity ∧ (u.extend r k c).first = u.first ∧
    (u.extend r k c).last = k ∧ (u.extend r k c).count = u.count + 1 ∧ (u.extend r k c).sum = u.sum + c.dev.natAbs := by
  unfold Run.extend
  dsimp only
  split <;> exact ⟨rfl, rfl, rfl, rfl, rfl⟩

/-- The peak fields of a run that a column extends. -/
theorem Run.extend_peak (u : Run) :
    u.peak < c.dev.natAbs ∧ (u.extend r k c).peak = c.dev.natAbs ∧ (u.extend r k c).peakCol = k ∧
      (u.extend r k c).peakGuard = c.isGuard ∧ (u.extend r k c).peakLane = c.lane ∧
      (u.extend r k c).tier = r.tierOf c.lane ∨
    c.dev.natAbs ≤ u.peak ∧ (u.extend r k c).peak = u.peak ∧ (u.extend r k c).peakCol = u.peakCol ∧
      (u.extend r k c).peakGuard = u.peakGuard ∧ (u.extend r k c).peakLane = u.peakLane ∧
      (u.extend r k c).tier = u.tier := by
  unfold Run.extend
  dsimp only
  by_cases h : u.peak < c.dev.natAbs
  · rw [if_pos h]
    exact .inl ⟨h, rfl, rfl, rfl, rfl, rfl⟩
  · rw [if_neg h]
    exact .inr ⟨Nat.not_lt.mp h, rfl, rfl, rfl, rfl, rfl⟩

theorem RunShape.begin_ {pol : Polarity} (hc : (k, c) ∈ cols) (hflag : c.flag = some pol) :
    RunShape cols (Run.begin_ r pol k c) where
  order := Nat.le_refl k
  counted := Nat.le_refl 1
  few := by simp [Run.begin_]
  first := ⟨c, hc, hflag⟩
  last := ⟨c, hc, hflag⟩
  peak := ⟨c, hc, hflag, rfl⟩
  within := ⟨Nat.le_refl k, Nat.le_refl k⟩

theorem RunShape.extend {u : Run} (h : RunShape cols u) (hk : u.last < k) (hc : (k, c) ∈ cols)
    (hflag : c.flag = some u.polarity) : RunShape cols (u.extend r k c) := by
  obtain ⟨hpol, hfirst, hlast, hcount, _⟩ := u.extend_kept (r := r) (k := k) (c := c)
  have horder := h.order
  have hfew := h.few
  obtain ⟨hlow, hhigh⟩ := h.within
  refine ⟨?_, ?_, ?_, ?_, ?_, ?_, ?_⟩
  · omega
  · omega
  · omega
  · rw [hfirst, hpol]
    exact h.first
  · rw [hlast, hpol]
    exact ⟨c, hc, hflag⟩
  · obtain ⟨_, hpeak, hcol, _⟩ | ⟨_, hpeak, hcol, _⟩ := u.extend_peak (r := r) (k := k) (c := c)
    · rw [hcol, hpol, hpeak]
      exact ⟨c, hc, hflag, rfl⟩
    · rw [hcol, hpol, hpeak]
      exact h.peak
  · obtain ⟨_, _, hcol, _⟩ | ⟨_, _, hcol, _⟩ := u.extend_peak (r := r) (k := k) (c := c)
    · omega
    · omega

theorem freshRun_some {o : OpenRun} (h : freshRun r k c = some o) : ∃ pol, c.flag = some pol ∧
    o = { run := Run.begin_ r pol k c, at_ := k, bridges := 0 } := by
  obtain ⟨pol, hpol, rfl⟩ := Option.map_eq_some_iff.mp h
  exact ⟨pol, hpol, rfl⟩

theorem freshRun_shape {o : OpenRun} (hc : (k, c) ∈ cols) (h : freshRun r k c = some o) : OpenShape cols o := by
  obtain ⟨pol, hflag, rfl⟩ := freshRun_some h
  exact ⟨RunShape.begin_ hc hflag, rfl⟩

theorem OpenShape.extend {o : OpenRun} (h : OpenShape cols o) (hc : (k, c) ∈ cols) (he : Extends o k c) :
    OpenShape cols { run := o.run.extend r k c, at_ := k, bridges := 0 } := by
  obtain ⟨hshape, hat⟩ := h
  obtain ⟨hk, hflag⟩ := he
  exact ⟨hshape.extend (by omega) hc hflag, (o.run.extend_kept (r := r) (k := k) (c := c)).2.2.1.symm⟩

theorem OpenShape.bridge {o : OpenRun} (h : OpenShape cols o) (hb : Bridges bg o k c) :
    OpenShape cols { o with at_ := k, bridges := o.bridges + 1 } := by
  obtain ⟨hshape, hat⟩ := h
  obtain ⟨hk, _⟩ := hb
  refine ⟨hshape, ?_⟩
  dsimp only
  omega

theorem formRuns_shape (rest : Table RecordColumn) (hrest : ∀ e ∈ rest, e ∈ cols) (cur : Option OpenRun)
    (hcur : ∀ o, cur = some o → OpenShape cols o) : ∀ u ∈ formRuns r bg rest cur, RunShape cols u := by
  induction rest generalizing cur with
  | nil =>
    intro u hu
    cases cur with
    | none => exact absurd hu List.not_mem_nil
    | some o =>
      obtain rfl := List.mem_singleton.mp hu
      exact (hcur o rfl).1
  | cons e rest ih =>
    obtain ⟨k, c⟩ := e
    have hc : (k, c) ∈ cols := hrest _ List.mem_cons_self
    have hmem : ∀ e ∈ rest, e ∈ cols := fun e he => hrest e (List.mem_cons_of_mem _ he)
    cases cur with
    | none => exact ih hmem _ fun o ho => freshRun_shape hc ho
    | some o =>
      have hopen := hcur o rfl
      by_cases hext : Extends o k c
      · rw [formRuns_extends hext]
        exact ih hmem _ fun o' ho => Option.some.inj ho ▸ hopen.extend hc hext
      · by_cases hbr : Bridges bg o k c
        · rw [formRuns_bridges hbr]
          exact ih hmem _ fun o' ho => Option.some.inj ho ▸ hopen.bridge hbr
        · rw [formRuns_breaks hext hbr]
          intro u hu
          obtain rfl | hu := List.mem_cons.mp hu
          · exact hopen.1
          · exact ih hmem _ (fun o ho => freshRun_shape hc ho) u hu

end Shape

/-! ### The flagged columns lie in runs -/

section Cover

variable {r : LineRecord} {bg : Nat}

/-- An open run ends as a run of its polarity and first column that reaches as far. -/
theorem open_ends (rest : Table RecordColumn) {o : OpenRun} (hat : o.run.last ≤ o.at_) : ∃ u ∈ formRuns r bg rest (some o),
    u.polarity = o.run.polarity ∧ u.first = o.run.first ∧ o.run.last ≤ u.last := by
  induction rest generalizing o with
  | nil => exact ⟨o.run, List.mem_singleton_self _, rfl, rfl, Nat.le_refl _⟩
  | cons e rest ih =>
    obtain ⟨k, c⟩ := e
    by_cases hext : Extends o k c
    · obtain ⟨hpol, hfirst, hlast, _⟩ := o.run.extend_kept (r := r) (k := k) (c := c)
      obtain ⟨u, hu, hup, huf, hul⟩ := ih (o := { run := o.run.extend r k c, at_ := k, bridges := 0 }) hlast.le
      have hk := hext.1
      refine ⟨u, (formRuns_extends hext) ▸ hu, hup.trans hpol, huf.trans hfirst, ?_⟩
      dsimp only at hul
      omega
    · by_cases hbr : Bridges bg o k c
      · rw [formRuns_bridges hbr]
        obtain ⟨hk, _⟩ := hbr
        exact ih (o := { o with at_ := k, bridges := o.bridges + 1 }) (by dsimp only; omega)
      · rw [formRuns_breaks hext hbr]
        exact ⟨o.run, List.mem_cons_self, rfl, rfl, Nat.le_refl _⟩

theorem fresh_ends (rest : Table RecordColumn) {k : Nat} {c : RecordColumn} {pol : Polarity} (h : c.flag = some pol) :
    ∃ u ∈ formRuns r bg rest (freshRun r k c), u.polarity = pol ∧ u.first ≤ k ∧ k ≤ u.last := by
  have hfresh : freshRun r k c = some { run := Run.begin_ r pol k c, at_ := k, bridges := 0 } := by rw [freshRun, h]; rfl
  rw [hfresh]
  obtain ⟨u, hu, hpol, hfirst, hlast⟩ := open_ends (r := r) (bg := bg) rest
    (o := { run := Run.begin_ r pol k c, at_ := k, bridges := 0 }) (Nat.le_refl k)
  exact ⟨u, hu, hpol, hfirst.le, hlast⟩

/-- Every flagged column lies in a run of its polarity. -/
theorem formRuns_cover (rest : Table RecordColumn) (cur : Option OpenRun)
    (hcur : ∀ o, cur = some o → o.run.first ≤ o.run.last ∧ o.run.last ≤ o.at_) {k : Nat} {c : RecordColumn} {pol : Polarity}
    (hc : (k, c) ∈ rest) (hflag : c.flag = some pol) :
    ∃ u ∈ formRuns r bg rest cur, u.polarity = pol ∧ u.first ≤ k ∧ k ≤ u.last := by
  induction rest generalizing cur with
  | nil => exact absurd hc List.not_mem_nil
  | cons e rest ih =>
    obtain ⟨k', c'⟩ := e
    have hfresh : ∀ o, freshRun r k' c' = some o → o.run.first ≤ o.run.last ∧ o.run.last ≤ o.at_ := by
      intro o ho
      obtain ⟨pol, _, rfl⟩ := freshRun_some ho
      exact ⟨Nat.le_refl _, Nat.le_refl _⟩
    have start : ∃ u ∈ formRuns r bg rest (freshRun r k' c'), u.polarity = pol ∧ u.first ≤ k ∧ k ≤ u.last := by
      obtain heq | hc := List.mem_cons.mp hc
      · obtain ⟨rfl, rfl⟩ := Prod.mk.inj heq
        exact fresh_ends rest hflag
      · exact ih _ hfresh hc
    cases cur with
    | none => exact start
    | some o =>
      obtain ⟨horder, hreach⟩ := hcur o rfl
      by_cases hext : Extends o k' c'
      · rw [formRuns_extends hext]
        obtain ⟨hk, hpol'⟩ := hext
        obtain ⟨hpol, hfirst, hlast, _⟩ := o.run.extend_kept (r := r) (k := k') (c := c')
        obtain heq | hc := List.mem_cons.mp hc
        · obtain ⟨rfl, rfl⟩ := Prod.mk.inj heq
          obtain ⟨u, hu, hup, huf, hul⟩ := open_ends (r := r) (bg := bg) rest
            (o := { run := o.run.extend r k c, at_ := k, bridges := 0 }) hlast.le
          dsimp only at hup huf hul
          refine ⟨u, hu, hup.trans (hpol.trans (Option.some.inj (hpol'.symm.trans hflag))), ?_, ?_⟩
          · omega
          · omega
        · refine ih _ (fun o' ho => ?_) hc
          obtain rfl := Option.some.inj ho
          dsimp only
          omega
      · by_cases hbr : Bridges bg o k' c'
        · rw [formRuns_bridges hbr]
          obtain ⟨hk, hnone, _⟩ := hbr
          obtain heq | hc := List.mem_cons.mp hc
          · obtain ⟨rfl, rfl⟩ := Prod.mk.inj heq
            exact absurd (hnone.symm.trans hflag) (Option.some_ne_none _).symm
          · refine ih _ (fun o' ho => ?_) hc
            obtain rfl := Option.some.inj ho
            dsimp only
            omega
        · rw [formRuns_breaks hext hbr]
          obtain ⟨u, hu, h⟩ := start
          exact ⟨u, List.mem_cons_of_mem _ hu, h⟩

end Cover

/-! ### Columns in order -/

section Ordered

/-- Two lists in the order of their keys that hold the same elements are equal. -/
theorem eq_of_ordered {α : Type} {l l' : List (Nat × α)} (hl : l.Pairwise fun a c => a.1 < c.1)
    (hl' : l'.Pairwise fun a c => a.1 < c.1) (h : ∀ e, e ∈ l ↔ e ∈ l') : l = l' := by
  have hnodup {l : List (Nat × α)} (h : l.Pairwise fun a c => a.1 < c.1) : l.Nodup :=
    h.imp fun hlt heq => absurd (congrArg Prod.fst heq) (Nat.ne_of_lt hlt)
  have hperm : l.Perm l' := (List.perm_ext_iff_of_nodup (hnodup hl) (hnodup hl')).mpr h
  exact hperm.eq_of_pairwise (fun a b _ _ hab hba => absurd hba (Nat.lt_asymm hab)) hl hl'

/-- The columns of a record in order. -/
def Ordered (cols : Table RecordColumn) : Prop := cols.Pairwise fun a c => a.1 < c.1

theorem ordered_iff {cols : Table RecordColumn} : (cols.map (·.1)).Pairwise (· < ·) ↔ Ordered cols := List.pairwise_map

variable {cols : Table RecordColumn} {k : Nat} {y y' : RecordColumn}

theorem Ordered.functional (h : Ordered cols) (hy : (k, y) ∈ cols) (hy' : (k, y') ∈ cols) : y = y' := by
  induction cols with
  | nil => exact absurd hy List.not_mem_nil
  | cons e cols ih =>
    obtain ⟨hlt, hcols⟩ := List.pairwise_cons.mp h
    obtain heq | hin := List.mem_cons.mp hy
    · obtain heq' | hin' := List.mem_cons.mp hy'
      · exact (Prod.mk.inj (heq.trans heq'.symm)).2
      · exact absurd (hlt _ hin') (by rw [← heq]; exact Nat.lt_irrefl _)
    · obtain heq' | hin' := List.mem_cons.mp hy'
      · exact absurd (hlt _ hin) (by rw [← heq']; exact Nat.lt_irrefl _)
      · exact ih hcols hin hin'

/-- A column flagged with a polarity. -/
def Flagged (cols : Table RecordColumn) (pol : Polarity) (k : Nat) : Prop := ∃ y, (k, y) ∈ cols ∧ y.flag = some pol

/-- A column that a run may bridge. -/
def Bridge (cols : Table RecordColumn) (k : Nat) : Prop := ∃ y, (k, y) ∈ cols ∧ y.flag = none ∧ y.detects = true

theorem Bridge.not_flagged (h : Ordered cols) {pol : Polarity} (hb : Bridge cols k) : ¬ Flagged cols pol k := by
  rintro ⟨y, hy, hflag⟩
  obtain ⟨y', hy', hnone, _⟩ := hb
  exact absurd (hnone.symm.trans ((h.functional hy' hy) ▸ hflag)) (Option.some_ne_none _).symm

/-- The flagged columns of a run. -/
def insideOf (cols : Table RecordColumn) (first last : Nat) (pol : Polarity) : Table RecordColumn :=
  cols.filter fun e => decide (first ≤ e.1 ∧ e.1 ≤ last ∧ e.2.flag = some pol)

theorem mem_insideOf {first last : Nat} {pol : Polarity} {e : Nat × RecordColumn} :
    e ∈ insideOf cols first last pol ↔ e ∈ cols ∧ first ≤ e.1 ∧ e.1 ≤ last ∧ e.2.flag = some pol := by
  simp only [insideOf, List.mem_filter, decide_eq_true_eq]

theorem insideOf_ordered (h : Ordered cols) (first last : Nat) (pol : Polarity) : Ordered (insideOf cols first last pol) :=
  List.Pairwise.filter _ h

theorem insideOf_single (h : Ordered cols) {pol : Polarity} (hc : (k, y) ∈ cols) (hflag : y.flag = some pol) :
    insideOf cols k k pol = [(k, y)] := by
  refine eq_of_ordered (insideOf_ordered h _ _ _) (List.pairwise_singleton _ _) fun e => ?_
  obtain ⟨k', y'⟩ := e
  rw [mem_insideOf, List.mem_singleton, Prod.mk.injEq]
  constructor
  · rintro ⟨he, hlow, hhigh, _⟩
    obtain rfl := Nat.le_antisymm hhigh hlow
    exact ⟨rfl, h.functional he hc⟩
  · rintro ⟨rfl, rfl⟩
    exact ⟨hc, Nat.le_refl _, Nat.le_refl _, hflag⟩

theorem insideOf_extend (h : Ordered cols) {pol : Polarity} {first last : Nat} (hfirst : first ≤ last) (hk : last < k)
    (hc : (k, y) ∈ cols) (hflag : y.flag = some pol) (hgap : ∀ m, last < m → m < k → ¬ Flagged cols pol m) :
    insideOf cols first k pol = insideOf cols first last pol ++ [(k, y)] := by
  refine eq_of_ordered (insideOf_ordered h _ _ _) ?_ fun e => ?_
  · refine List.pairwise_append.mpr ⟨insideOf_ordered h _ _ _, List.pairwise_singleton _ _, fun a ha c hc => ?_⟩
    obtain ⟨_, _, hle, _⟩ := mem_insideOf.mp ha
    obtain rfl := List.mem_singleton.mp hc
    dsimp only
    omega
  · obtain ⟨k', y'⟩ := e
    rw [List.mem_append, mem_insideOf, mem_insideOf, List.mem_singleton, Prod.mk.injEq]
    constructor
    · rintro ⟨he, hlow, hhigh, hf⟩
      dsimp only at hlow hhigh hf
      by_cases hle : k' ≤ last
      · exact .inl ⟨he, hlow, hle, hf⟩
      · have heq : k' = k := by
          by_contra hne
          exact hgap k' (by omega) (by omega) ⟨y', he, hf⟩
        subst heq
        exact .inr ⟨rfl, h.functional he hc⟩
    · rintro (⟨he, hlow, hhigh, hf⟩ | ⟨rfl, rfl⟩)
      · exact ⟨he, hlow, by dsimp only at hhigh ⊢; omega, hf⟩
      · exact ⟨hc, by dsimp only; omega, Nat.le_refl _, hflag⟩

end Ordered

/-! ### The contents of a run -/

/-- Count, sum and peak fields of a run are those of its flagged columns. -/
structure RunStats (r : LineRecord) (inside : Table RecordColumn) (u : Run) : Prop where
  count : u.count = inside.length
  sum : u.sum = (inside.map fun e => e.2.dev.natAbs).sum
  bound : ∀ e ∈ inside, e.2.dev.natAbs < u.peak ∨ e.2.dev.natAbs = u.peak ∧ u.peakCol ≤ e.1
  peak : ∃ y, (u.peakCol, y) ∈ inside ∧ u.peak = y.dev.natAbs ∧ u.peakGuard = y.isGuard ∧ u.peakLane = y.lane ∧
    u.tier = r.tiers.getD y.lane 0

/-- What a run on ordered columns holds between its ends. -/
structure RunBody (r : LineRecord) (bg : Nat) (cols : Table RecordColumn) (u : Run) : Prop where
  between : ∀ k, u.first ≤ k → k ≤ u.last → Flagged cols u.polarity k ∨ Bridge cols k
  gaps : ∀ k, u.first ≤ k → k + bg ≤ u.last → ∃ m, k ≤ m ∧ m ≤ k + bg ∧ Flagged cols u.polarity m
  stats : RunStats r (insideOf cols u.first u.last u.polarity) u

/-- The columns seen since the last flagged one of an open run are bridges, and not too many. -/
structure OpenBody (r : LineRecord) (bg : Nat) (cols : Table RecordColumn) (o : OpenRun) : Prop where
  shape : OpenShape cols o
  body : RunBody r bg cols o.run
  tail : ∀ k, o.run.last < k → k ≤ o.at_ → Bridge cols k
  few : o.bridges ≤ bg

/-- No flagged column of the run's polarity can be reached past its end. -/
def Stops (bg : Nat) (cols : Table RecordColumn) (u : Run) : Prop :=
  ∀ k, u.last < k → k ≤ u.last + bg + 1 → Flagged cols u.polarity k → ∃ m, u.last < m ∧ m < k ∧ ¬ Bridge cols m

section Body

variable {r : LineRecord} {bg : Nat} {cols : Table RecordColumn} {k : Nat} {c : RecordColumn}

theorem RunStats.extend {inside : Table RecordColumn} {u : Run} (h : RunStats r inside u) (hlt : ∀ e ∈ inside, e.1 < k) :
    RunStats r (inside ++ [(k, c)]) (u.extend r k c) := by
  obtain ⟨_, _, _, hcount, hsum⟩ := u.extend_kept (r := r) (k := k) (c := c)
  obtain ⟨y, hy, hpeak, hguard, hlane, htier⟩ := h.peak
  have hcol := hlt _ hy
  dsimp only at hcol
  refine ⟨?_, ?_, fun e he => ?_, ?_⟩
  · rw [hcount, h.count, List.length_append, List.length_singleton]
  · rw [hsum, h.sum, List.map_append, List.sum_append, List.map_singleton, List.sum_singleton]
  · obtain ⟨hwins, hp, hpc, _⟩ | ⟨hloses, hp, hpc, _⟩ := u.extend_peak (r := r) (k := k) (c := c)
    · rw [hp, hpc]
      obtain he | he := List.mem_append.mp he
      · have := h.bound e he
        omega
      · obtain rfl := List.mem_singleton.mp he
        exact .inr ⟨rfl, Nat.le_refl _⟩
    · rw [hp, hpc]
      obtain he | he := List.mem_append.mp he
      · exact h.bound e he
      · obtain rfl := List.mem_singleton.mp he
        dsimp only
        omega
  · obtain ⟨_, hp, hpc, hg, hl, ht⟩ | ⟨_, hp, hpc, hg, hl, ht⟩ := u.extend_peak (r := r) (k := k) (c := c)
    · rw [hp, hpc, hg, hl, ht]
      exact ⟨c, List.mem_append_right _ (List.mem_singleton_self _), rfl, rfl, rfl, rfl⟩
    · rw [hp, hpc, hg, hl, ht]
      exact ⟨y, List.mem_append_left _ hy, hpeak, hguard, hlane, htier⟩

theorem freshRun_body (hs : Ordered cols) (hc : (k, c) ∈ cols) {o : OpenRun} (h : freshRun r k c = some o) :
    OpenBody r bg cols o := by
  have hshape := freshRun_shape hc h
  obtain ⟨pol, hflag, rfl⟩ := freshRun_some h
  have hflagged : Flagged cols pol k := ⟨c, hc, hflag⟩
  refine ⟨hshape, ⟨fun m hlow hhigh => ?_, fun m hlow hhigh => ?_, ?_⟩, fun m hlow hhigh => ?_, Nat.zero_le _⟩
  · exact .inl (Nat.le_antisymm hhigh hlow ▸ hflagged)
  · have : k ≤ m := hlow
    have : m + bg ≤ k := hhigh
    exact ⟨k, by omega, by omega, hflagged⟩
  · show RunStats r (insideOf cols k k pol) _
    rw [insideOf_single hs hc hflag]
    refine ⟨rfl, rfl, fun e he => ?_, c, List.mem_singleton_self _, rfl, rfl, rfl, rfl⟩
    obtain rfl := List.mem_singleton.mp he
    exact .inr ⟨rfl, Nat.le_refl _⟩
  · exact absurd hlow (Nat.not_lt.mpr hhigh)

theorem OpenBody.extend (hs : Ordered cols) {o : OpenRun} (h : OpenBody r bg cols o) (hc : (k, c) ∈ cols) (he : Extends o k c) :
    OpenBody r bg cols { run := o.run.extend r k c, at_ := k, bridges := 0 } := by
  have hshape := h.shape.extend (r := r) hc he
  obtain ⟨hk, hflag⟩ := he
  obtain ⟨hrun, hat⟩ := h.shape
  have hfew := h.few
  have horder := hrun.order
  obtain ⟨hpol, hfirst, hlast, _, _⟩ := o.run.extend_kept (r := r) (k := k) (c := c)
  have hflagged : Flagged cols o.run.polarity k := ⟨c, hc, hflag⟩
  have hgap : ∀ m, o.run.last < m → m < k → ¬ Flagged cols o.run.polarity m := fun m hlow hhigh =>
    (h.tail m hlow (by omega)).not_flagged hs
  refine ⟨hshape, ⟨fun m hlow hhigh => ?_, fun m hlow hhigh => ?_, ?_⟩, fun m hlow hhigh => ?_, Nat.zero_le _⟩
  · dsimp only at hlow hhigh ⊢
    rw [hfirst] at hlow
    rw [hlast] at hhigh
    rw [hpol]
    obtain hle | hlt := Nat.lt_or_ge o.run.last m |>.symm
    · exact h.body.between m hlow hle
    · obtain heq | hlt' := Nat.eq_or_lt_of_le hhigh
      · exact .inl (heq ▸ hflagged)
      · exact .inr (h.tail m hlt (by omega))
  · dsimp only at hlow hhigh ⊢
    rw [hfirst] at hlow
    rw [hlast] at hhigh
    rw [hpol]
    by_cases hin : m + bg ≤ o.run.last
    · exact h.body.gaps m hlow hin
    · by_cases hle : m ≤ o.run.last
      · exact ⟨o.run.last, hle, by omega, hrun.last⟩
      · exact ⟨k, by omega, by omega, hflagged⟩
  · dsimp only
    rw [hfirst, hlast, hpol, insideOf_extend hs horder (by omega) hc hflag hgap]
    refine h.body.stats.extend fun e he => ?_
    obtain ⟨_, _, hle, _⟩ := mem_insideOf.mp he
    omega
  · dsimp only at hlow hhigh
    omega

theorem OpenBody.bridge {o : OpenRun} (h : OpenBody r bg cols o) (hc : (k, c) ∈ cols) (hb : Bridges bg o k c) :
    OpenBody r bg cols { o with at_ := k, bridges := o.bridges + 1 } := by
  have hshape := h.shape.bridge hb
  obtain ⟨hk, hnone, hdetects, hfew⟩ := hb
  refine ⟨hshape, h.body, fun m hlow hhigh => ?_, hfew⟩
  obtain heq | hlt := Nat.eq_or_lt_of_le hhigh
  · exact heq ▸ ⟨c, hc, hnone, hdetects⟩
  · exact h.tail m hlow (by dsimp only at hlt; omega)

/-- The columns of the record up to a place are seen, and those after it are still to come. -/
def SeenTo (cols rest : Table RecordColumn) (at_ : Nat) : Prop :=
  (∀ e ∈ cols, e.1 ≤ at_ ∨ e ∈ rest) ∧ Ordered rest ∧ ∀ e ∈ rest, at_ < e.1

theorem seenTo_of_suffix (hs : Ordered cols) {pre rest : Table RecordColumn} (h : cols = pre ++ (k, c) :: rest) :
    SeenTo cols rest k := by
  subst h
  obtain ⟨_, hrest, hlt⟩ := List.pairwise_append.mp hs
  obtain ⟨hk, hrest⟩ := List.pairwise_cons.mp hrest
  refine ⟨fun e he => ?_, hrest, hk⟩
  obtain he | he := List.mem_append.mp he
  · exact .inl (Nat.le_of_lt (hlt e he _ List.mem_cons_self))
  · obtain rfl | he := List.mem_cons.mp he
    · exact .inl (Nat.le_refl _)
    · exact .inr he

/-- A run that neither extends nor bridges at the next column stops there. -/
theorem OpenBody.stops (hs : Ordered cols) {rest : Table RecordColumn} {o : OpenRun} (h : OpenBody r bg cols o)
    (hseen : SeenTo cols rest o.at_)
    (hnext : ∀ k c more, rest = (k, c) :: more → ¬ Extends o k c ∧ ¬ Bridges bg o k c) : Stops bg cols o.run := by
  obtain ⟨hcols, hrest, hlater⟩ := hseen
  obtain ⟨_, hat⟩ := h.shape
  rintro j hlow hhigh ⟨y, hy, hflag⟩
  obtain hle | hin := hcols _ hy
  · exact absurd ⟨y, hy, hflag⟩ ((h.tail j hlow hle).not_flagged hs)
  · cases rest with
    | nil => exact absurd hin List.not_mem_nil
    | cons e more =>
      obtain ⟨k, c⟩ := e
      obtain ⟨hext, hbr⟩ := hnext k c more rfl
      obtain ⟨hk, _⟩ := List.pairwise_cons.mp hrest
      have hbelow : ∀ e ∈ (k, c) :: more, k ≤ e.1 := by
        intro e he
        obtain rfl | he := List.mem_cons.mp he
        · exact Nat.le_refl _
        · exact Nat.le_of_lt (hk e he)
      have hkj := hbelow _ hin
      have hkat := hlater _ List.mem_cons_self
      dsimp only at hkj hkat
      have hat_first {y' : RecordColumn} (hy' : (o.at_ + 1, y') ∈ cols) : o.at_ + 1 = k ∧ y' = c := by
        obtain hle | hin' := hcols _ hy'
        · dsimp only at hle
          omega
        · have hle := hbelow _ hin'
          dsimp only at hle
          obtain heq | hmore := List.mem_cons.mp hin'
          · exact Prod.mk.inj heq
          · have := hk _ hmore
            dsimp only at this
            omega
      have hne : j ≠ o.at_ + 1 := by
        rintro rfl
        obtain ⟨hkeq, rfl⟩ := hat_first hy
        exact hext ⟨hkeq, hflag⟩
      refine ⟨o.at_ + 1, by omega, by omega, ?_⟩
      rintro ⟨y', hy', hnone, hdetects⟩
      obtain ⟨hkeq, rfl⟩ := hat_first hy'
      by_cases hfew : o.bridges + 1 ≤ bg
      · exact hbr ⟨hkeq, hnone, hdetects, hfew⟩
      · omega

theorem formRuns_body (hs : Ordered cols) (rest pre : Table RecordColumn) (hpre : cols = pre ++ rest) (cur : Option OpenRun)
    (hcur : ∀ o, cur = some o → OpenBody r bg cols o ∧ SeenTo cols rest o.at_) :
    ∀ u ∈ formRuns r bg rest cur, RunBody r bg cols u ∧ Stops bg cols u := by
  induction rest generalizing cur pre with
  | nil =>
    intro u hu
    cases cur with
    | none => exact absurd hu List.not_mem_nil
    | some o =>
      obtain rfl := List.mem_singleton.mp hu
      obtain ⟨hopen, hseen⟩ := hcur o rfl
      exact ⟨hopen.body, hopen.stops hs hseen fun k c more h => absurd h (List.cons_ne_nil _ _).symm⟩
  | cons e rest ih =>
    obtain ⟨k, c⟩ := e
    have hc : (k, c) ∈ cols := hpre ▸ List.mem_append_right _ List.mem_cons_self
    have hnextPre : cols = (pre ++ [(k, c)]) ++ rest := by rw [hpre, List.append_assoc]; rfl
    have hseenK : SeenTo cols rest k := seenTo_of_suffix hs hpre
    have hfresh : ∀ o, freshRun r k c = some o → OpenBody r bg cols o ∧ SeenTo cols rest o.at_ := by
      intro o ho
      refine ⟨freshRun_body hs hc ho, ?_⟩
      obtain ⟨_, _, rfl⟩ := freshRun_some ho
      exact hseenK
    cases cur with
    | none => exact ih _ hnextPre _ hfresh
    | some o =>
      obtain ⟨hopen, hseen⟩ := hcur o rfl
      by_cases hext : Extends o k c
      · rw [formRuns_extends hext]
        exact ih _ hnextPre _ fun o' ho => Option.some.inj ho ▸ ⟨hopen.extend hs hc hext, hseenK⟩
      · by_cases hbr : Bridges bg o k c
        · rw [formRuns_bridges hbr]
          exact ih _ hnextPre _ fun o' ho => Option.some.inj ho ▸ ⟨hopen.bridge hc hbr, hseenK⟩
        · rw [formRuns_breaks hext hbr]
          intro u hu
          obtain rfl | hu := List.mem_cons.mp hu
          · refine ⟨hopen.body, hopen.stops hs hseen fun k' c' more h => ?_⟩
            obtain ⟨heq, _⟩ := List.cons.inj h
            obtain ⟨rfl, rfl⟩ := Prod.mk.inj heq
            exact ⟨hext, hbr⟩
          · exact ih _ hnextPre _ hfresh u hu

/-! ### The runs stand in column order -/

theorem formRuns_low (rest : Table RecordColumn) (cur : Option OpenRun) (lo : Nat) (hrest : ∀ e ∈ rest, lo ≤ e.1)
    (hcur : ∀ o, cur = some o → lo ≤ o.run.first) : ∀ u ∈ formRuns r bg rest cur, lo ≤ u.first := by
  induction rest generalizing cur with
  | nil =>
    intro u hu
    cases cur with
    | none => exact absurd hu List.not_mem_nil
    | some o =>
      obtain rfl := List.mem_singleton.mp hu
      exact hcur o rfl
  | cons e rest ih =>
    obtain ⟨k, c⟩ := e
    have hmem : ∀ e ∈ rest, lo ≤ e.1 := fun e he => hrest e (List.mem_cons_of_mem _ he)
    have hfresh : ∀ o, freshRun r k c = some o → lo ≤ o.run.first := by
      intro o ho
      obtain ⟨_, _, rfl⟩ := freshRun_some ho
      exact hrest _ List.mem_cons_self
    cases cur with
    | none => exact ih _ hmem hfresh
    | some o =>
      by_cases hext : Extends o k c
      · rw [formRuns_extends hext]
        refine ih _ hmem fun o' ho => ?_
        obtain rfl := Option.some.inj ho
        exact (hcur o rfl).trans (o.run.extend_kept (r := r) (k := k) (c := c)).2.1.ge
      · by_cases hbr : Bridges bg o k c
        · rw [formRuns_bridges hbr]
          exact ih _ hmem fun o' ho => Option.some.inj ho ▸ hcur o rfl
        · rw [formRuns_breaks hext hbr]
          intro u hu
          obtain rfl | hu := List.mem_cons.mp hu
          · exact hcur o rfl
          · exact ih _ hmem hfresh u hu

theorem formRuns_pairwise (rest : Table RecordColumn) (hs : Ordered rest) (cur : Option OpenRun)
    (hcur : ∀ o, cur = some o → ∀ e ∈ rest, o.run.last < e.1) :
    (formRuns r bg rest cur).Pairwise fun u v => u.last < v.first := by
  induction rest generalizing cur with
  | nil =>
    cases cur with
    | none => exact List.Pairwise.nil
    | some o => exact List.pairwise_singleton _ _
  | cons e rest ih =>
    obtain ⟨k, c⟩ := e
    obtain ⟨hlt, hrest⟩ := List.pairwise_cons.mp hs
    have hfresh : ∀ o, freshRun r k c = some o → ∀ e ∈ rest, o.run.last < e.1 := by
      intro o ho
      obtain ⟨_, _, rfl⟩ := freshRun_some ho
      exact hlt
    cases cur with
    | none => exact ih hrest _ hfresh
    | some o =>
      by_cases hext : Extends o k c
      · rw [formRuns_extends hext]
        refine ih hrest _ fun o' ho => ?_
        obtain rfl := Option.some.inj ho
        exact fun e he => (o.run.extend_kept (r := r) (k := k) (c := c)).2.2.1.trans_lt (hlt e he)
      · by_cases hbr : Bridges bg o k c
        · rw [formRuns_bridges hbr]
          refine ih hrest _ fun o' ho e he => ?_
          obtain rfl := Option.some.inj ho
          exact hcur o rfl e (List.mem_cons_of_mem _ he)
        · rw [formRuns_breaks hext hbr]
          refine List.pairwise_cons.mpr ⟨fun u hu => ?_, ih hrest _ hfresh⟩
          refine (hcur o rfl _ List.mem_cons_self).trans_le
            (formRuns_low rest _ k (fun e he => Nat.le_of_lt (hlt e he)) (fun o' ho => ?_) u hu)
          obtain ⟨_, _, rfl⟩ := freshRun_some ho
          exact Nat.le_refl _

end Body

end Sys2Proof.Machine
end

section
/-! R79 to R83: linking the runs of a line to the blobs of a face. -/

namespace Sys2Proof.Machine

open Sys2Proof

/-! ### Spans and peaks -/

theorem spanUnion_none (a : Option (Nat × Nat)) : spanUnion a none = a ∧ spanUnion none a = a := by
  cases a <;> exact ⟨rfl, rfl⟩

theorem spanUnion_comm (a c : Option (Nat × Nat)) : spanUnion a c = spanUnion c a := by
  cases a <;> cases c <;> simp [spanUnion, Nat.min_comm, Nat.max_comm]

theorem spanUnion_assoc (a b c : Option (Nat × Nat)) : spanUnion (spanUnion a b) c = spanUnion a (spanUnion b c) := by
  cases a <;> cases b <;> cases c <;> simp [spanUnion, Nat.min_assoc, Nat.max_assoc]

/-- Folding a list in at its front, for an operation without order. -/
theorem foldl_join {α : Type} {op : α → α → α} (hcomm : ∀ a b, op a b = op b a) (hassoc : ∀ a b c, op (op a b) c = op a (op b c))
    (l : List α) (b u : α) : (b :: l).foldl op u = op (l.foldl op b) u := by
  have : Std.Associative op := ⟨hassoc⟩
  rw [List.foldl_cons, List.foldl_assoc, hcomm]

theorem foldl_of_perm {α : Type} {op : α → α → α} (hcomm : ∀ a b, op a b = op b a) (hassoc : ∀ a b c, op (op a b) c = op a (op b c))
    {l l' : List α} (h : l.Perm l') (u : α) : l.foldl op u = l'.foldl op u := by
  have : Std.Associative op := ⟨hassoc⟩
  have : Std.Commutative op := ⟨hcomm⟩
  exact h.foldl_eq u

theorem foldl_or {α : Type} (p : α → Bool) (l : List α) (u : Bool) : (l.map p).foldl or u = (u || l.any p) := by
  induction l generalizing u with
  | nil => simp
  | cons a l ih => rw [List.map_cons, List.foldl_cons, ih, List.any_cons, Bool.or_assoc]

/-- The peak fields of a blob. -/
def Blob.peakFields (b : Blob) : Nat × Nat × Bool × Nat × Nat := (b.peak, b.peakCol, b.peakGuard, b.peakLane, b.tier)

/-- A peak that another does not replace. -/
def Covers (p c p' c' : Nat) : Prop := p' < p ∨ p' = p ∧ c ≤ c'

theorem peakWins_iff {p c p' c' : Nat} : peakWins p c p' c' = true ↔ p' < p ∨ p' = p ∧ c < c' := by
  simp only [peakWins, Bool.or_eq_true, Bool.and_eq_true, decide_eq_true_eq]
  omega

theorem peakWins_covers {p c p' c' : Nat} (h : peakWins p c p' c' = true) : Covers p c p' c' := by
  rw [peakWins_iff] at h
  unfold Covers
  omega

theorem covers_of_loses {p c p' c' : Nat} (h : peakWins p c p' c' = false) : Covers p' c' p c := by
  rw [← Bool.not_eq_true, peakWins_iff] at h
  unfold Covers
  omega

theorem Covers.refl (p c : Nat) : Covers p c p c := .inr ⟨rfl, Nat.le_refl c⟩

theorem Covers.trans {p c p' c' p'' c'' : Nat} (h : Covers p c p' c') (h' : Covers p' c' p'' c'') : Covers p c p'' c'' := by
  unfold Covers at *
  omega

/-! ### Folding a younger blob in (R83) -/

section Absorb

variable (n : Word) (b y : Blob)

theorem absorb_kept : (b.absorb n y).polarity = b.polarity ∧ (b.absorb n y).count = min (b.count + y.count) 65535 ∧
    (b.absorb n y).sum = min (b.sum + y.sum) 4294967295 ∧ (b.absorb n y).colMin = min b.colMin y.colMin ∧
    (b.absorb n y).colMax = max b.colMax y.colMax ∧ (b.absorb n y).touched = (b.touched || y.touched) ∧
    (b.absorb n y).lastSpan = spanUnion b.lastSpan y.lastSpan ∧
    (b.absorb n y).lineSpan = spanUnion b.lineSpan y.lineSpan ∧
    (b.absorb n y).first = if lineAge n b.first < lineAge n y.first then y.first else b.first := by
  unfold Blob.absorb
  dsimp only
  split <;> exact ⟨rfl, rfl, rfl, rfl, rfl, rfl, rfl, rfl, rfl⟩

theorem absorb_peak : ((b.absorb n y).peakFields = y.peakFields ∨ (b.absorb n y).peakFields = b.peakFields) ∧
    Covers (b.absorb n y).peak (b.absorb n y).peakCol b.peak b.peakCol ∧
    Covers (b.absorb n y).peak (b.absorb n y).peakCol y.peak y.peakCol := by
  unfold Blob.absorb
  dsimp only
  by_cases h : peakWins y.peak y.peakCol b.peak b.peakCol = true
  · rw [if_pos h]
    rw [peakWins_iff] at h
    refine ⟨.inl rfl, ?_, Covers.refl _ _⟩
    show Covers y.peak y.peakCol b.peak b.peakCol
    unfold Covers
    omega
  · rw [if_neg h]
    rw [peakWins_iff] at h
    refine ⟨.inr rfl, Covers.refl _ _, ?_⟩
    show Covers b.peak b.peakCol y.peak y.peakCol
    unfold Covers
    omega

variable (h : LineHead) (u : Run)

theorem extend_kept : (b.extend h u).polarity = b.polarity ∧ (b.extend h u).first = b.first ∧
    (b.extend h u).last = h.index ∧ (b.extend h u).lastPos = h.pos ∧ (b.extend h u).pitch = h.pitch ∧
    (b.extend h u).idle = 0 ∧ (b.extend h u).count = min (b.count + u.count) 65535 ∧
    (b.extend h u).sum = min (b.sum + u.sum) 4294967295 ∧ (b.extend h u).colMin = min b.colMin u.first ∧
    (b.extend h u).colMax = max b.colMax u.last ∧ (b.extend h u).touched = (b.touched || u.touched) ∧
    (b.extend h u).lastSpan = b.lastSpan ∧
    (b.extend h u).lineSpan = spanUnion b.lineSpan (some (u.first, u.last)) := by
  unfold Blob.extend
  dsimp only
  split <;> exact ⟨rfl, rfl, rfl, rfl, rfl, rfl, rfl, rfl, rfl, rfl, rfl, rfl, rfl⟩

/-- The peak fields of a run. -/
def Run.peakFields : Nat × Nat × Bool × Nat × Nat := (u.peak, u.peakCol, u.peakGuard, u.peakLane, u.tier)

theorem extend_wins (hw : peakWins u.peak u.peakCol b.peak b.peakCol = true) : (b.extend h u).peakFields = u.peakFields := by
  unfold Blob.extend
  dsimp only
  rw [if_pos hw]
  rfl

theorem extend_loses (hw : peakWins u.peak u.peakCol b.peak b.peakCol = false) :
    (b.extend h u).peakFields = b.peakFields := by
  unfold Blob.extend
  dsimp only
  rw [if_neg (fun ht => Bool.false_ne_true (hw.symm.trans ht))]
  rfl

/-! ### Folding the younger blobs in, in turn -/

variable {b n}

/-- The survivor with every younger blob folded in. -/
def merged (n : Word) (b : Blob) (younger : List Blob) : Blob := younger.foldl (fun b y => b.absorb n y) b

theorem merged_polarity (l : List Blob) : (merged n b l).polarity = b.polarity :=
  foldl_same (π := Blob.polarity) (fun b y => (absorb_kept n b y).1) l b

theorem merged_count (l : List Blob) (m : Nat) : min ((merged n b l).count + m) 65535 =
    min (((b :: l).map (·.count)).sum + m) 65535 := by
  induction l generalizing b with
  | nil => simp [merged]
  | cons y l ih =>
    have := ih (b := b.absorb n y)
    simp only [List.map_cons, List.sum_cons, (absorb_kept n b y).2.1] at this ⊢
    refine this.trans ?_
    omega

theorem merged_sum (l : List Blob) (m : Nat) : min ((merged n b l).sum + m) 4294967295 =
    min (((b :: l).map (·.sum)).sum + m) 4294967295 := by
  induction l generalizing b with
  | nil => simp [merged]
  | cons y l ih =>
    have := ih (b := b.absorb n y)
    simp only [List.map_cons, List.sum_cons, (absorb_kept n b y).2.2.1] at this ⊢
    refine this.trans ?_
    omega

/-- A field that folding in joins by an operation is joined over the list. -/
theorem merged_field {α : Type} {π : Blob → α} {op : α → α → α} (hop : ∀ b y, π (b.absorb n y) = op (π b) (π y))
    (l : List Blob) : π (merged n b l) = (l.map π).foldl op (π b) := by
  induction l generalizing b with
  | nil => rfl
  | cons y l ih => exact (ih (b := b.absorb n y)).trans (by rw [hop, List.map_cons, List.foldl_cons])

theorem merged_first (l : List Blob) (hold : ∀ y ∈ l, lineAge n y.first ≤ lineAge n b.first) :
    (merged n b l).first = b.first := by
  refine foldl_keeps_mem (p := fun x : Blob => x.first = b.first) l (fun x y hy hx => ?_) rfl
  have hle := hold y hy
  rw [(absorb_kept n x y).2.2.2.2.2.2.2.2, hx, if_neg (Nat.not_lt.mpr hle)]

/-- The peak fields of the survivor are those of one of the blobs, whose peak no other replaces. -/
theorem merged_peak (l : List Blob) : (∃ e ∈ b :: l, (merged n b l).peakFields = e.peakFields) ∧
    ∀ e ∈ b :: l, Covers (merged n b l).peak (merged n b l).peakCol e.peak e.peakCol := by
  induction l generalizing b with
  | nil =>
    refine ⟨⟨b, List.mem_cons_self, rfl⟩, fun e he => ?_⟩
    obtain rfl := List.mem_singleton.mp he
    exact Covers.refl _ _
  | cons y l ih =>
    obtain ⟨hone, hold, hnew⟩ := absorb_peak n b y
    obtain ⟨⟨e, he, hpeak⟩, hall⟩ := ih (b := b.absorb n y)
    have hsurvivor := hall _ List.mem_cons_self
    refine ⟨?_, fun x hx => ?_⟩
    · obtain rfl | he := List.mem_cons.mp he
      · obtain hy | hb := hone
        · exact ⟨y, by simp, hpeak.trans hy⟩
        · exact ⟨b, by simp, hpeak.trans hb⟩
      · exact ⟨e, by simp [he], hpeak⟩
    · obtain rfl | hx := List.mem_cons.mp hx
      · exact hsurvivor.trans hold
      · obtain rfl | hx := List.mem_cons.mp hx
        · exact hsurvivor.trans hnew
        · exact hall x (List.mem_cons_of_mem _ hx)

end Absorb

/-! ### Which blob survives (R83) -/

theorem survives_iff (n : Word) (a b : Nat × Blob) : survives n a b = true ↔
    lineAge n b.2.first < lineAge n a.2.first ∨ lineAge n a.2.first = lineAge n b.2.first ∧
      (a.2.colMin < b.2.colMin ∨ a.2.colMin = b.2.colMin ∧ a.1 < b.1) := by
  simp [survives]

theorem survives_trans (n : Word) (a b c : Nat × Blob) (hab : survives n a b = true) (hbc : survives n b c = true) :
    survives n a c = true := by
  rw [survives_iff] at *
  omega

theorem survives_irrefl (n : Word) (a : Nat × Blob) : survives n a a = false := by
  rw [← Bool.not_eq_true, survives_iff]
  omega

/-! ### Linking one run -/

theorem connects_iff (u : Run) (b : Blob) : connects u b = true ↔ u.polarity = b.polarity ∧
    ∃ lo hi, b.lastSpan = some (lo, hi) ∧ lo ≤ u.last + 1 ∧ u.first ≤ hi + 1 := by
  unfold connects
  cases hspan : b.lastSpan with
  | none => simp
  | some e =>
    obtain ⟨lo, hi⟩ := e
    simp only [Bool.and_eq_true, decide_eq_true_eq, Option.some.injEq, Prod.mk.injEq]
    refine and_congr_right fun _ => ⟨fun ⟨h, h'⟩ => ⟨lo, hi, ⟨rfl, rfl⟩, h, h'⟩, ?_⟩
    rintro ⟨_, _, ⟨rfl, rfl⟩, h⟩
    exact h

theorem tget_freed {l : List (Nat × Blob)} {t : Table (Option Blob)} {j : Nat} :
    tget none (l.foldl (fun t e => tset none t e.1 none) t) j = if j ∈ l.map (·.1) then none else tget none t j := by
  induction l generalizing t with
  | nil => rfl
  | cons e l ih =>
    rw [List.foldl_cons, ih, List.map_cons]
    by_cases he : j = e.1
    · rw [he, tget_tset_same, ite_self, if_pos List.mem_cons_self]
    · rw [tget_tset_other _ _ _ _ _ he]
      simp only [List.mem_cons, he, false_or]

theorem void_iff {r : LineRecord} {k : Nat} : r.void k = true ↔ ∀ e ∈ r.cols, e.1 ≠ k := by
  simp [LineRecord.void]

theorem touchesVoid_iff {r : LineRecord} {u : Run} : u.touchesVoid r = true ↔
    (0 < u.first ∧ ∀ e ∈ r.cols, e.1 ≠ u.first - 1) ∨ (u.last < 8191 ∧ ∀ e ∈ r.cols, e.1 ≠ u.last + 1) := by
  have hlast : u.last + 1 < Config.columns ↔ u.last < 8191 := by
    unfold Config.columns
    omega
  simp only [Run.touchesVoid, Bool.or_eq_true, Bool.and_eq_true, decide_eq_true_eq, void_iff, hlast]

/-- A blob's peak fields, field by field. -/
theorem peakFields_eq {b : Blob} {p c : Nat} {g : Bool} {l t : Nat} :
    b.peakFields = (p, c, g, l, t) ↔ b.peak = p ∧ b.peakCol = c ∧ b.peakGuard = g ∧ b.peakLane = l ∧ b.tier = t := by
  simp only [Blob.peakFields, Prod.mk.injEq]

section Link

variable {f : FaceId} {h : LineHead} {i : Insp} {u : Run} {x : Blobs}

/-- The open blobs a run connects to. -/
def linkedTo (u : Run) (x : Blobs) : List (Nat × Blob) := (occupied x.open_).filter fun e => connects u e.2

theorem linkedTo_nil (hnone : ∀ e ∈ occupied x.open_, connects u e.2 = false) : linkedTo u x = [] :=
  List.filter_eq_nil_iff.mpr fun e he => by simp [hnone e he]

theorem linkRun_opens (hx : x = (i.face f).blob) (hnone : linkedTo u x = []) {k : Nat} (hk : lowestFree 256 x.open_ = some k) :
    linkRun f h i u = i.onFace f fun z => { z with
      blob := { x with open_ := tset none x.open_ k (some (newBlob h u)) } } := by
  subst hx
  have horder : orderBy (survives h.index) ((occupied (i.face f).blob.open_).filter fun e => connects u e.2) = [] :=
    congrArg (orderBy (survives h.index)) hnone
  simp only [linkRun, horder, Config.maxBlobs, hk]

theorem linkRun_full (hx : x = (i.face f).blob) (hnone : linkedTo u x = []) (hk : lowestFree 256 x.open_ = none) :
    linkRun f h i u = discardRun f h i := by
  subst hx
  have horder : orderBy (survives h.index) ((occupied (i.face f).blob.open_).filter fun e => connects u e.2) = [] :=
    congrArg (orderBy (survives h.index)) hnone
  simp only [linkRun, horder, Config.maxBlobs, hk]

theorem linkRun_joins (hx : x = (i.face f).blob) {k : Nat} {b : Blob} {younger : List (Nat × Blob)}
    (horder : orderBy (survives h.index) (linkedTo u x) = (k, b) :: younger) :
    linkRun f h i u = i.onFace f fun z => { z with
      blob := { x with
        open_ := tset none (younger.foldl (fun t e => tset none t e.1 none) x.open_) k
          (some ((merged h.index b (younger.map (·.2))).extend h u)),
        merges := min (x.merges + younger.length) 4294967295 } } := by
  subst hx
  have horder' : orderBy (survives h.index) ((occupied (i.face f).blob.open_).filter fun e => connects u e.2) =
      (k, b) :: younger := horder
  simp only [linkRun, horder', merged, List.foldl_map, satAdd]

theorem discardRun_blob (hx : x = (i.face f).blob) : ((discardRun f h i).face f).blob = { x with
    discarded := min (x.discarded + 1) 4294967295, saturated := true,
    satEntries := if x.saturated then x.satEntries else min (x.satEntries + 1) 4294967295 } := by
  subst hx
  unfold discardRun
  dsimp only
  cases hs : (i.face f).blob.saturated with
  | true =>
    rw [if_pos rfl, if_pos rfl, onFace_face]
    rfl
  | false =>
    rw [if_neg Bool.false_ne_true, if_neg Bool.false_ne_true, offerBlobSaturation_face, onFace_face]
    rfl

theorem discardRun_out (hx : x = (i.face f).blob) : (discardRun f h i).out = if x.saturated then i.out
    else i.out.offer .p2 (.status (some f) (decide ((i.face f).pattern.state = some .lost))
      (.blobSaturation true x.openCount (some h.index))) := by
  subst hx
  unfold discardRun
  dsimp only
  cases hs : (i.face f).blob.saturated with
  | true => rw [if_pos rfl, if_pos rfl, onFace_out]
  | false =>
    rw [if_neg Bool.false_ne_true, if_neg Bool.false_ne_true]
    cases f <;> rfl

/-- The parts of the survivor of several blobs, and of the slots. -/
theorem oldest_first {l : List (Nat × Blob)} {n : Word} {k : Nat} {b : Blob} {younger : List (Nat × Blob)}
    (hkeys : l.Pairwise fun a c => a.1 < c.1) (horder : orderBy (survives n) l = (k, b) :: younger) :
    ((k, b) :: younger).Perm l ∧ (∀ e ∈ l, e.1 ≠ k → e ∈ younger) ∧ (∀ e ∈ younger, e.1 ≠ k) ∧
    ∀ e ∈ younger, lineAge n e.2.first < lineAge n b.first ∨ lineAge n e.2.first = lineAge n b.first ∧
      (b.colMin < e.2.colMin ∨ b.colMin = e.2.colMin ∧ k < e.1) := by
  have hperm : ((k, b) :: younger).Perm l := horder ▸ orderBy_perm _ l
  have hsorted := orderBy_sorted (survives_trans n) (survives_irrefl n) l
  rw [horder] at hsorted
  obtain ⟨hfirst, _⟩ := List.pairwise_cons.mp hsorted
  have hne : ((k, b) :: younger).Pairwise fun a c => a.1 ≠ c.1 :=
    (hperm.symm.pairwise_iff fun hab hba => hab hba.symm).mp (hkeys.imp fun hlt => Nat.ne_of_lt hlt)
  obtain ⟨hdistinct, _⟩ := List.pairwise_cons.mp hne
  refine ⟨hperm, fun e he hek => ?_, fun e he => (hdistinct e he).symm, fun e he => ?_⟩
  · obtain rfl | he := List.mem_cons.mp (hperm.mem_iff.mpr he)
    · exact absurd rfl hek
    · exact he
  · have hold := hfirst e he
    have hkey := hdistinct e he
    rw [← Bool.not_eq_true, survives_iff] at hold
    dsimp only at hold hkey
    omega

end Link

end Sys2Proof.Machine

open Sys2Proof Sys2Proof.Machine

/-- Settles O34: the run being formed keeps its shape and contents column by column; a run then opens, extends or joins, the
survivor's fields being folded over the younger blobs. -/
theorem runsFormAndLinkToBlobs : Obligations.RunsFormAndLinkToBlobs := by
  unfold Obligations.RunsFormAndLinkToBlobs
  refine ⟨?shape, ?columns, connects_iff, fun a c => rfl, spanUnion_none, ?link⟩
  case shape =>
    intro r bg u hu
    obtain ⟨u', hu', rfl⟩ := List.mem_map.mp hu
    have h := formRuns_shape r.cols (fun e he => he) none (fun o ho => absurd ho (Option.some_ne_none o).symm) u' hu'
    exact ⟨h.order, h.counted, h.few, h.first, h.last, h.peak, h.within.1, h.within.2⟩
  case columns =>
    rintro r bg runs flagged bridge hordered rfl hflagged hbridge
    have hs : Ordered r.cols := ordered_iff.mp hordered
    obtain rfl : flagged = Flagged r.cols := funext fun pol => funext fun k => propext (hflagged pol k)
    obtain rfl : bridge = Bridge r.cols := funext fun k => propext (hbridge k)
    refine ⟨?_, fun pol k hf => ?_, fun u hu => ?_⟩
    · exact List.pairwise_map.mpr
        (formRuns_pairwise r.cols hs none fun o ho => absurd ho (Option.some_ne_none o).symm)
    · obtain ⟨y, hy, hflag⟩ := hf
      obtain ⟨u, hu, h⟩ := formRuns_cover (r := r) (bg := bg) r.cols none
        (fun o ho => absurd ho (Option.some_ne_none o).symm) hy hflag
      exact ⟨_, List.mem_map_of_mem hu, h⟩
    · obtain ⟨u', hu', rfl⟩ := List.mem_map.mp hu
      obtain ⟨hbody, hstops⟩ := formRuns_body hs r.cols [] rfl none
        (fun o ho => absurd ho (Option.some_ne_none o).symm) u' hu'
      refine ⟨hbody.between, hbody.gaps, hstops, ?_⟩
      rintro inside rfl
      have hstats := hbody.stats
      exact ⟨hstats.count, hstats.sum, hstats.bound, hstats.peak, touchesVoid_iff⟩
  case link =>
    rintro f h i u x hx
    refine ⟨?opens, ?full, ?joins, ?merges⟩
    case opens =>
      intro k hnone hk hfree hlow
      have hlink := linkRun_opens (h := h) hx (linkedTo_nil hnone) (lowestFree_some hk hfree hlow)
      refine ⟨⟨newBlob h u, hlink, ?_, rfl, rfl, rfl, rfl, rfl, rfl, rfl, rfl, rfl, rfl, rfl, rfl, rfl, rfl, rfl, rfl, rfl,
        rfl⟩, fun j hj => ?_, ?_⟩
      · rw [hlink, onFace_face, tget_tset_same]
      · rw [hlink, onFace_face]
        dsimp only
        rw [tget_tset_other none _ _ _ _ hj]
      · rw [hlink, onFace_out]
    case full =>
      intro hnone hfull
      have hlink := linkRun_full (h := h) hx (linkedTo_nil hnone) (lowestFree_none hfull)
      refine ⟨?_, fun bk => Within.linkRun h i u bk, ?_⟩
      · rw [hlink, discardRun_blob hx]
      · rw [hlink, discardRun_out hx]
    case joins =>
      intro k b hmerges hone
      have horder : orderBy (survives h.index) (linkedTo u x) = [(k, b)] := by rw [linkedTo, hone]; rfl
      have hlink := linkRun_joins hx horder
      have hcount : min (x.merges + ([] : List (Nat × Blob)).length) 4294967295 = x.merges := Nat.min_eq_left hmerges
      rw [hcount] at hlink
      obtain ⟨hpol, hfirst, hlast, hpos, hpitch, hidle, hcnt, hsum, hmin, hmax, htouched, hspan, hline⟩ :=
        extend_kept b h u
      refine ⟨b.extend h u, hlink, ?_, hpol, hfirst, hlast, hpos, hcnt, hsum, hmin, hmax, hspan, hidle, hline, hpitch,
        htouched, fun hw => ?_, fun hl => ?_⟩
      · rw [hlink, onFace_face]
        rfl
      · exact peakFields_eq.mp (extend_wins b h u (peakWins_iff.mpr hw))
      · refine peakFields_eq.mp (extend_loses b h u ?_)
        rw [← Bool.not_eq_true, peakWins_iff]
        omega
    case merges =>
      rintro l rfl hlen hcanon
      cases horder : orderBy (survives h.index) (linkedTo u x) with
      | nil =>
        have hempty : linkedTo u x = [] := (horder ▸ orderBy_perm _ (linkedTo u x) : List.Perm [] _).symm.eq_nil
        rw [linkedTo] at hempty
        rw [hempty] at hlen
        exact absurd hlen (by decide)
      | cons e younger =>
        obtain ⟨k, b⟩ := e
        have hkeys : (linkedTo u x).Pairwise fun a c => a.1 < c.1 := List.Pairwise.filter _ (occupied_pairwise hcanon)
        obtain ⟨hperm, hyounger, hkey, hold⟩ := oldest_first hkeys horder
        have hlink := linkRun_joins hx horder
        have hmem : (k, b) ∈ linkedTo u x := hperm.mem_iff.mp List.mem_cons_self
        have hlength : (linkedTo u x).length - 1 = younger.length := by rw [← hperm.length_eq, List.length_cons, Nat.add_sub_cancel]
        obtain ⟨hconnected, _⟩ := (connects_iff u b).mp (List.mem_filter.mp hmem).2
        have hblobs : (b :: younger.map (·.2)).Perm ((linkedTo u x).map (·.2)) :=
          List.Perm.map (fun e : Nat × Blob => e.2) hperm
        have hfields {α : Type} (π : Blob → α) : (π b :: (younger.map (·.2)).map π).Perm ((linkedTo u x).map fun e => π e.2) := by
          have := hblobs.map π
          rwa [List.map_map] at this
        have hages : ∀ y ∈ younger.map (·.2), lineAge h.index y.first ≤ lineAge h.index b.first := by
          intro y hy
          obtain ⟨e, he, rfl⟩ := List.mem_map.mp hy
          have := hold e he
          omega
        obtain ⟨hpol, hfirst, hlast, hpos, hpitch, hidle, hcnt, hsum, hmin, hmax, htouched, hspan, hline⟩ :=
          extend_kept (merged h.index b (younger.map (·.2))) h u
        refine ⟨k, b, (merged h.index b (younger.map (·.2))).extend h u, tset none
            (younger.foldl (fun t e => tset none t e.1 none) x.open_) k
            (some ((merged h.index b (younger.map (·.2))).extend h u)), hmem, fun e he hek => hold e (hyounger e he hek), ?link, tget_tset_same _ _ _ _, fun e he hek => ?gone,
          fun j hj => ?others, hpol.trans ((merged_polarity _).trans hconnected.symm), hfirst.trans (merged_first _ hages), hlast,
          hpos, hpitch, hidle, ?count, ?sum, ?colMin, ?colMax, ?touched, ?lastSpan, ?lineSpan, ?_⟩
        case link =>
          rw [hlink, ← hlength]
          rfl
        case gone =>
          rw [tget_tset_other _ _ _ _ _ hek, tget_freed, if_pos (List.mem_map_of_mem (hyounger e he hek))]
        case others =>
          have hjk : j ≠ k := (hj _ hmem).symm
          have hjy : j ∉ younger.map (·.1) := by
            rintro hin
            obtain ⟨e, he, rfl⟩ := List.mem_map.mp hin
            exact hj e (hperm.mem_iff.mp (List.mem_cons_of_mem _ he)) rfl
          rw [tget_tset_other _ _ _ _ _ hjk, tget_freed, if_neg hjy]
        case count =>
          rw [hcnt, merged_count, (hblobs.map _).sum_eq, List.map_map]
          rfl
        case sum =>
          rw [hsum, merged_sum, (hblobs.map _).sum_eq, List.map_map]
          rfl
        case colMin =>
          rw [hmin, merged_field (π := Blob.colMin) (op := min) (fun b y => (absorb_kept h.index b y).2.2.2.1),
            ← foldl_join Nat.min_comm Nat.min_assoc]
          exact foldl_of_perm Nat.min_comm Nat.min_assoc (hfields _) _
        case colMax =>
          rw [hmax, merged_field (π := Blob.colMax) (op := max) (fun b y => (absorb_kept h.index b y).2.2.2.2.1),
            ← foldl_join Nat.max_comm Nat.max_assoc]
          exact foldl_of_perm Nat.max_comm Nat.max_assoc (hfields _) _
        case touched =>
          rw [htouched, merged_field (π := Blob.touched) (op := or) (fun b y => (absorb_kept h.index b y).2.2.2.2.2.1),
            ← foldl_join Bool.or_comm Bool.or_assoc]
          exact (foldl_of_perm Bool.or_comm Bool.or_assoc (hfields _) _).trans (foldl_or _ _ _)
        case lastSpan =>
          rw [hspan, merged_field (π := Blob.lastSpan) (op := spanUnion)
            (fun b y => (absorb_kept h.index b y).2.2.2.2.2.2.1)]
          have hperm' := foldl_of_perm spanUnion_comm spanUnion_assoc (hfields Blob.lastSpan) none
          rw [List.foldl_cons, (spanUnion_none _).2] at hperm'
          exact hperm'
        case lineSpan =>
          rw [hline, merged_field (π := Blob.lineSpan) (op := spanUnion)
            (fun b y => (absorb_kept h.index b y).2.2.2.2.2.2.2.1), ← foldl_join spanUnion_comm spanUnion_assoc]
          exact foldl_of_perm spanUnion_comm spanUnion_assoc (hfields _) _
        obtain ⟨⟨y, hy, hpeak⟩, hcovers⟩ := merged_peak (n := h.index) (b := b) (younger.map (·.2))
        obtain ⟨e, he, rfl⟩ := List.mem_map.mp (hblobs.mem_iff.mp hy)
        have hcovered : ∀ e ∈ linkedTo u x, Covers (merged h.index b (younger.map (·.2))).peak
            (merged h.index b (younger.map (·.2))).peakCol e.2.peak e.2.peakCol := fun e he =>
          hcovers e.2 (hblobs.mem_iff.mpr (List.mem_map_of_mem he))
        cases hw : peakWins u.peak u.peakCol (merged h.index b (younger.map (·.2))).peak
            (merged h.index b (younger.map (·.2))).peakCol with
        | true =>
          obtain ⟨hp, hc, hg, hl, ht⟩ := peakFields_eq.mp (extend_wins _ h u hw)
          refine ⟨.inl ⟨hp, hc, hg, hl, ht⟩, ?_, fun e he => ?_⟩
          · rw [hp, hc]
            exact Covers.refl _ _
          · rw [hp, hc]
            exact Covers.trans (peakWins_covers hw) (hcovered e he)
        | false =>
          obtain ⟨hp, hc, hg, hl, ht⟩ := peakFields_eq.mp (extend_loses _ h u hw)
          obtain ⟨hp', hc', hg', hl', ht'⟩ := peakFields_eq.mp hpeak
          refine ⟨.inr ⟨e, he, hp.trans hp', hc.trans hc', hg.trans hg', hl.trans hl', ht.trans ht'⟩, ?_, fun e he => ?_⟩
          · rw [hp, hc]
            exact covers_of_loses hw
          · rw [hp, hc]
            exact hcovered e he
end

section
/-! R102 to R112: one record at the Streak Tracker. -/

namespace Sys2Proof.Machine

open Sys2Proof

/-! ### The streak side of a face -/

theorem onStreaks_congr {i : Insp} {f : FaceId} {g g' : Streaks → Streaks} (h : g (i.streaks f) = g' (i.streaks f)) :
    i.onStreaks f g = i.onStreaks f g' := onFace_congr (congrArg (fun y => { i.face f with streak := y }) h)

theorem onStreaks_onStreaks (i : Insp) (f : FaceId) (g g' : Streaks → Streaks) :
    (i.onStreaks f g).onStreaks f g' = i.onStreaks f fun x => g' (g x) := onFace_onFace i f _ _

theorem onStreaks_tier (i : Insp) (f : FaceId) (g : Streaks → Streaks) : ((i.onStreaks f g).face f).tier = (i.face f).tier := by
  unfold Insp.onStreaks
  rw [onFace_face]

/-- What the steps of a line leave of the streak side: the waiting records and the last handled line. -/
def Streaks.taken (x : Streaks) : List LineRecord × Option (Word × Int) := (x.inbox, x.last)

/-- What a step leaves: the records that wait, the last handled line; and the events it sends on join those that wait. -/
def StreakStep (f : FaceId) (i j : Insp) : Prop :=
  (j.streaks f).taken = (i.streaks f).taken ∧
    ∃ l, (j.face f).tier = { (i.face f).tier with streakEvents := (i.face f).tier.streakEvents ++ l }

namespace StreakStep

variable {f : FaceId} {i j k : Insp}

theorem refl (f : FaceId) (i : Insp) : StreakStep f i i := ⟨rfl, [], by rw [List.append_nil]⟩

theorem trans (h : StreakStep f i j) (h' : StreakStep f j k) : StreakStep f i k := by
  obtain ⟨ht, l, hl⟩ := h
  obtain ⟨ht', l', hl'⟩ := h'
  exact ⟨ht'.trans ht, l ++ l', by rw [hl', hl, List.append_assoc]⟩

theorem foldl {β : Type} {g : Insp → β → Insp} (hg : ∀ i x, StreakStep f i (g i x)) (l : List β) (i : Insp) :
    StreakStep f i (l.foldl g i) := by
  induction l generalizing i with
  | nil => exact refl f i
  | cons x l ih => exact (hg i x).trans (ih _)

theorem of_tier (h : (j.streaks f).taken = (i.streaks f).taken) (ht : (j.face f).tier = (i.face f).tier) : StreakStep f i j :=
  ⟨h, [], by rw [ht, List.append_nil]⟩

theorem onStreaks (i : Insp) {g : Streaks → Streaks} (h : (g (i.streaks f)).taken = (i.streaks f).taken) :
    StreakStep f i (i.onStreaks f g) := of_tier (by rw [onStreaks_streaks, h]) (onStreaks_tier i f g)

theorem route (i : Insp) (t : Route) (r : Report) : StreakStep f i (i.route t r) :=
  of_tier (by rw [route_streaks]) (by rw [route_face])

theorem offerStatus (i : Insp) (st : Status) : StreakStep f i (i.offerStatus (some f) st) :=
  of_tier (by rw [offerStatus_streaks]) (by rw [offerStatus_face])

end StreakStep

section Steps

variable {b : Base} {f : FaceId}

theorem onStreak_taken (x : Streaks) (k : Nat) (g : Streak → Streak) : (x.onStreak k g).taken = x.taken := by
  unfold Streaks.onStreak
  split <;> rfl

theorem sendEvent_step (e : CountedEvent) (i : Insp) : StreakStep f i (sendEvent f .streakTracker e i) := by
  refine ⟨by rw [sendEvent_streaks], [e], ?_⟩
  unfold sendEvent
  rw [onFace_face]
  rfl

theorem closeStreak_step (reason : StreakReason) (survivor : Option Nat) (line : Option (Word × Int)) (k : Nat) (g : Streak)
    (i : Insp) : StreakStep f i (closeStreak b f reason survivor line k g i) := by
  refine StreakStep.of_tier ?_ ?_
  · rw [closeStreak_streaks]
    rfl
  · exact Within.closeStreak (f := f) (b := b) reason survivor line k g i b (.tier f) (by simp)

theorem mergeStreak_step (line : Option (Word × Int)) (k : Nat) (i : Insp) (y : Nat × Streak) :
    StreakStep f i (mergeStreak b f line k i y) := by
  unfold mergeStreak
  exact (StreakStep.onStreaks i (onStreak_taken _ _ _)).trans (closeStreak_step _ _ _ _ _ _)

theorem enterStreak_step (r : LineRecord) (c : Nat) (y : RecordColumn) (level : Int) (i : Insp) :
    StreakStep f i (enterStreak b f r c y level i) := by
  unfold enterStreak
  dsimp only
  split
  · split
    · unfold openStreak
      dsimp only
      split
      · exact (StreakStep.onStreaks i rfl).trans (StreakStep.route _ _ _)
      · exact (StreakStep.onStreaks i rfl).trans ((StreakStep.route _ _ _).trans (sendEvent_step _ _))
    · unfold holdOnset offerStreakSaturation
      dsimp only
      split
      · exact StreakStep.onStreaks i rfl
      · exact (StreakStep.onStreaks i rfl).trans (StreakStep.offerStatus _ _)
  · exact (StreakStep.foldl (fun i y => mergeStreak_step _ _ i y) _ i).trans (StreakStep.onStreaks _ (onStreak_taken _ _ _))

theorem streakColumn_step (r : LineRecord) (i : Insp) (c : Nat) : StreakStep f i (streakColumn b f r i c) := by
  unfold streakColumn
  split
  · exact StreakStep.onStreaks i rfl
  · split
    · split
      · unfold eligibleStep
        dsimp only
        split
        · exact StreakStep.onStreaks i (onStreak_taken _ _ _)
        · split
          · exact (StreakStep.onStreaks i rfl).trans (enterStreak_step _ _ _ _ _)
          · exact StreakStep.onStreaks i rfl
      · exact StreakStep.refl f i
    · exact StreakStep.refl f i

theorem closeReleased_step (line : Option (Word × Int)) (i : Insp) : StreakStep f i (closeReleased b f line i) :=
  StreakStep.foldl (β := Nat × Streak) (fun i _ => closeStreak_step _ _ _ _ _ i) _ i

theorem continueStep_step (r : LineRecord) (n : Int) (i : Insp) (e : Nat × Streak) : StreakStep f i (continueStep b f r n i e) := by
  unfold continueStep
  dsimp only
  split
  · exact (StreakStep.onStreaks i rfl).trans (StreakStep.route _ _ _)
  · exact StreakStep.refl f i

theorem continueTests_step (r : LineRecord) (i : Insp) : StreakStep f i (continueTests b f r i) := by
  unfold continueTests
  dsimp only
  split
  · exact StreakStep.refl f i
  · exact StreakStep.foldl (fun i e => continueStep_step r _ i e) _ i

/-! ### Streaks without a member (R105) -/

/-- Every open streak of the face has a member. -/
def AllHeld (f : FaceId) (i : Insp) : Prop := ∀ e ∈ occupied (i.streaks f).open_, e.2.members ≠ 0

theorem closeReleased_held (line : Option (Word × Int)) (i : Insp) : AllHeld f (closeReleased b f line i) := by
  intro e he
  unfold closeReleased at he
  rw [closeStreaks_open, freed_eq_filter, mem_occupied_iff, List.mem_filter, ← mem_occupied_iff] at he
  obtain ⟨hopen, hkey⟩ := he
  intro hzero
  exact of_decide_eq_true hkey (List.mem_map_of_mem (List.mem_filter.mpr ⟨hopen, decide_eq_true hzero⟩))

theorem continueTests_held (r : LineRecord) {i : Insp} (h : AllHeld f i) : AllHeld f (continueTests b f r i) := by
  unfold continueTests
  dsimp only
  split
  · exact h
  · refine foldl_keeps_mem (p := AllHeld f) _ (fun j e he hj => ?_) h
    unfold continueStep
    dsimp only
    split
    · intro x hx
      rw [route_streaks, onStreaks_streaks] at hx
      obtain rfl | hx := mem_occupied_put hx
      · exact h e he
      · exact hj x hx
    · exact hj

end Steps

/-! ### The columns of a line -/

section Walk

theorem mem_tinsert_keys {α : Type} (t : Table α) (k : Nat) (v : α) (c : Nat) :
    c ∈ (tinsert t k v).map (·.1) ↔ c = k ∨ c ∈ t.map (·.1) := by
  induction t with
  | nil => simp [tinsert]
  | cons e t ih =>
    obtain ⟨k', v'⟩ := e
    unfold tinsert
    split
    · simp
    · split
      · rename_i hk
        subst hk
        simp
      · rw [List.map_cons, List.mem_cons, ih, List.map_cons, List.mem_cons]
        exact or_left_comm

theorem tinsert_ordered {α : Type} {t : Table α} (h : (t.map (·.1)).Pairwise (· < ·)) (k : Nat) (v : α) :
    ((tinsert t k v).map (·.1)).Pairwise (· < ·) := by
  induction t with
  | nil => exact List.pairwise_singleton _ _
  | cons e t ih =>
    obtain ⟨k', v'⟩ := e
    obtain ⟨hlt, ht⟩ := List.pairwise_cons.mp h
    unfold tinsert
    split
    · rename_i hk
      refine List.pairwise_cons.mpr ⟨fun c hc => ?_, h⟩
      obtain rfl | hc := List.mem_cons.mp hc
      · exact hk
      · exact hk.trans (hlt c hc)
    · split
      · rename_i hk
        subst hk
        exact h
      · rename_i hle hne
        refine List.pairwise_cons.mpr ⟨fun c hc => ?_, ih ht⟩
        obtain rfl | hc := (mem_tinsert_keys t k v c).mp hc
        · dsimp only
          omega
        · exact hlt c hc

theorem walkFold_keys {α : Type} (cols : Table α) (t : Table Unit) (h : (t.map (·.1)).Pairwise (· < ·)) :
    ((cols.foldl (fun t e => tinsert t e.1 ()) t).map (·.1)).Pairwise (· < ·) ∧
    ∀ c, c ∈ (cols.foldl (fun t e => tinsert t e.1 ()) t).map (·.1) ↔ c ∈ cols.map (·.1) ∨ c ∈ t.map (·.1) := by
  induction cols generalizing t with
  | nil => exact ⟨h, fun c => by simp⟩
  | cons e cols ih =>
    obtain ⟨hord, hmem⟩ := ih _ (tinsert_ordered h e.1 ())
    refine ⟨hord, fun c => ?_⟩
    rw [List.foldl_cons, hmem, mem_tinsert_keys, List.map_cons, List.mem_cons, or_left_comm, or_assoc]

theorem twf_ne {α : Type} [DecidableEq α] {d : α} {t : Table α} (h : twf d t = true) {e : Nat × α} (he : e ∈ t) : e.2 ≠ d := by
  induction t with
  | nil => exact absurd he List.not_mem_nil
  | cons x t ih =>
    obtain rfl | he := List.mem_cons.mp he
    · exact twf_head h
    · exact ih (twf_tail h) he

theorem mem_keys_iff {α : Type} [DecidableEq α] {d : α} {t : Table α} (h : twf d t = true) (c : Nat) :
    c ∈ t.map (·.1) ↔ tget d t c ≠ d := by
  constructor
  · intro hc
    obtain ⟨⟨k, v⟩, he, rfl⟩ := List.mem_map.mp hc
    rw [tget_of_mem h he]
    exact twf_ne h he
  · intro hne
    exact List.mem_map.mpr ⟨_, mem_of_tget hne, rfl⟩

/-- The walk of a line, rising, goes over its columns and those with streak state. -/
theorem streakWalk_spec (r : LineRecord) {x : Streaks} (h : twf (StreakColumn.quiet 0) x.cols = true) :
    (streakWalk r x).Pairwise (· < ·) ∧
    ∀ c, c ∈ streakWalk r x ↔ (∃ y, (c, y) ∈ r.cols) ∨ x.col c ≠ StreakColumn.quiet 0 := by
  have hkeys : ((x.cols.map fun e => (e.1, ())).map (·.1)) = x.cols.map (·.1) := by
    rw [List.map_map]
    rfl
  have hord : ((x.cols.map fun e => (e.1, ())).map (·.1)).Pairwise (· < ·) := by
    rw [hkeys]
    exact List.pairwise_map.mpr (twf_keys h)
  obtain ⟨hwalk, hmem⟩ := walkFold_keys r.cols _ hord
  refine ⟨hwalk, fun c => (hmem c).trans (or_congr ?_ ?_)⟩
  · rw [List.mem_map]
    exact ⟨fun ⟨e, he, hc⟩ => ⟨e.2, hc ▸ he⟩, fun ⟨y, hy⟩ => ⟨(c, y), hy, rfl⟩⟩
  · rw [hkeys]
    exact mem_keys_iff h c

end Walk

section Line

variable {b : Base} {f : FaceId}

/-- The steps of a line after its columns. -/
def lineSteps (b : Base) (f : FaceId) (r : LineRecord) (walk : List Nat) (i : Insp) : Insp :=
  continueTests b f r (closeReleased b f (some (r.head.index, r.head.pos)) (walk.foldl (streakColumn b f r) i))

theorem streakLine_eq (b : Base) (f : FaceId) (r : LineRecord) (i : Insp) : streakLine b f r i =
    lineSteps b f r (streakWalk r { i.streaks f with last := some (r.head.index, r.head.pos) })
      (i.onStreaks f fun x => { x with last := some (r.head.index, r.head.pos) }) := by
  unfold streakLine
  dsimp only
  rw [onStreaks_streaks]
  rfl

theorem lineSteps_step (r : LineRecord) (walk : List Nat) (i : Insp) : StreakStep f i (lineSteps b f r walk i) :=
  (StreakStep.foldl (fun i c => streakColumn_step r i c) walk i).trans
    ((closeReleased_step _ _).trans (continueTests_step r _))

theorem lineSteps_held (r : LineRecord) (walk : List Nat) (i : Insp) : AllHeld f (lineSteps b f r walk i) :=
  continueTests_held r (closeReleased_held _ _)

/-- Taking a record: the record leaves those that wait, its line becomes the last handled one, and the steps follow. -/
theorem takeStreakLine_eq {r : LineRecord} {rest : List LineRecord} {i : Insp} (h : (i.streaks f).inbox = r :: rest) :
    takeStreakLine b f i = lineSteps b f r
      (streakWalk r { i.streaks f with inbox := rest, last := some (r.head.index, r.head.pos) })
      (i.onStreaks f fun x => { x with inbox := rest, last := some (r.head.index, r.head.pos) }) := by
  unfold takeStreakLine
  rw [h]
  dsimp only
  rw [streakLine_eq, onStreaks_onStreaks, onStreaks_streaks]

end Line

/-! ### A column outside a streak (R103) -/

section Column

variable {b : Base} {f : FaceId} {r : LineRecord} {i : Insp} {c : Nat} {y : RecordColumn} {v : StreakColumn} {level : Int}
  {ts : Nat} {k : Compiled}

theorem member_iff : v.member = true ↔ v.state = .streak ∨ v.state = .releasing := by
  unfold StreakColumn.member
  cases v.state <;> simp

theorem not_member (h : v.state = .quiet ∨ v.state = .onset) : v.member = false := by
  unfold StreakColumn.member
  obtain h | h := h <;> rw [h]

theorem onStreak_some {x : Streaks} {n : Nat} {g : Streak} (h : x.streak n = some g) (change : Streak → Streak) :
    x.onStreak n change = x.setStreak n (some (change g)) := by
  unfold Streaks.onStreak
  rw [h]

/-- An eligible line at a column outside a streak. -/
theorem streakColumn_outside (h : EligibleAt b f r i c y v level ts k) (hv : v.state = .quiet ∨ v.state = .onset) :
    streakColumn b f r i c = if (onsetStep v (hotOf level ts) k.minLines r.head.pos).2 = true
      then enterStreak b f r c y level (i.onStreaks f fun x => x.setCol c (onsetStep v (hotOf level ts) k.minLines r.head.pos).1)
      else i.onStreaks f fun x => x.setCol c (onsetStep v (hotOf level ts) k.minLines r.head.pos).1 := by
  obtain ⟨hzero, hfind, helig, hcompiled, rfl, rfl, rfl⟩ := h
  have hmin : b.minLines f = k.minLines := by rw [Base.minLines, hcompiled]; rfl
  rw [streakColumn_eligible hzero hfind helig]
  unfold eligibleStep
  dsimp only
  refine (if_neg fun hm => Bool.false_ne_true ((not_member hv).symm.trans hm)).trans ?_
  rw [hmin]
  rfl

/-- An eligible line at a member of a streak. -/
theorem streakColumn_member (h : EligibleAt b f r i c y v level ts k) (hv : v.state = .streak ∨ v.state = .releasing) {g : Streak}
    (hg : (i.streaks f).streak v.number = some g) :
    streakColumn b f r i c = i.onStreaks f fun x =>
      (x.setCol c (memberStep v (heldTo g.polarity level ts) k.releaseLines).1).setStreak v.number (some { g with
        peak := max g.peak level.natAbs,
        members := if (memberStep v (heldTo g.polarity level ts) k.releaseLines).2 then g.members - 1 else g.members }) := by
  obtain ⟨hzero, hfind, helig, hcompiled, rfl, rfl, rfl⟩ := h
  have hrelease : b.releaseLines f = k.releaseLines := by rw [Base.releaseLines, hcompiled]; rfl
  rw [streakColumn_eligible hzero hfind helig]
  unfold eligibleStep
  dsimp only
  refine (if_pos (member_iff.mpr hv)).trans ?_
  rw [hg, hrelease]
  refine onStreaks_congr ?_
  exact onStreak_some (x := (i.streaks f).setCol c _) hg _

/-- A hot line at a column of the other polarity in ONSET. -/
theorem onsetStep_other {pol : Polarity} {pos : Int} (hv : v.state = .onset) (hpol : v.onsetPolarity ≠ pol) (n : Nat) :
    onsetStep v (some pol) n pos = (StreakColumn.quiet v.acc, false) := by
  unfold onsetStep
  dsimp only
  rw [hv]
  exact if_neg hpol

theorem onsetStep_same {pol : Polarity} {pos : Int} (hv : v.state = .onset) (hpol : v.onsetPolarity = pol) (n : Nat) :
    onsetStep v (some pol) n pos = ({ v with onsetCount := if v.onsetCount < n then v.onsetCount + 1 else v.onsetCount },
      decide (n ≤ if v.onsetCount < n then v.onsetCount + 1 else v.onsetCount)) := by
  unfold onsetStep
  dsimp only
  rw [hv]
  exact if_pos hpol

theorem onsetStep_quiet {pol : Polarity} {pos : Int} (hv : v.state = .quiet) (n : Nat) :
    onsetStep v (some pol) n pos = ({
      acc := v.acc, state := .onset, onsetPolarity := pol, onsetCount := 1, onsetPos := some pos, releaseCount := 0,
      number := 0 }, decide (n ≤ 1)) := by
  unfold onsetStep
  dsimp only
  rw [hv]
  rfl

theorem memberStep_held {held : Bool} (h : held = true) (lines : Nat) :
    memberStep v held lines = ({ v with state := .streak, releaseCount := 0 }, false) := if_pos h

/-- R104: the lines that a member has not been held to the release threshold. -/
def releaseRun (v : StreakColumn) : Nat := if v.state = .releasing then v.releaseCount + 1 else 1

theorem memberStep_free {held : Bool} (h : held = false) (hv : v.state = .streak ∨ v.state = .releasing) (lines : Nat) :
    memberStep v held lines = if lines ≤ releaseRun v then (StreakColumn.quiet v.acc, true)
      else ({ v with state := .releasing, releaseCount := releaseRun v }, false) := by
  unfold memberStep releaseRun
  rw [h]
  obtain hv | hv := hv <;> rw [hv] <;> rfl

theorem memberStep_releasing {held : Bool} (h : held = false) (hv : v.state = .streak ∨ v.state = .releasing) {lines : Nat}
    (hn : releaseRun v < lines) :
    memberStep v held lines = ({ v with state := .releasing, releaseCount := releaseRun v }, false) :=
  (memberStep_free h hv lines).trans (if_neg (Nat.not_le.mpr hn))

theorem memberStep_leaves {held : Bool} (h : held = false) (hv : v.state = .streak ∨ v.state = .releasing) {lines : Nat}
    (hn : lines ≤ releaseRun v) : memberStep v held lines = (StreakColumn.quiet v.acc, true) :=
  (memberStep_free h hv lines).trans (if_pos hn)

end Column

/-! ### Closing (R110, R111) -/

section Close

variable {b : Base} {f : FaceId} {reason : StreakReason} {survivor : Option Nat} {n : Word} {p : Int} {k : Nat} {g : Streak} {i : Insp}

/-- The report of a close. -/
def closedOut (b : Base) (f : FaceId) (reason : StreakReason) (survivor : Option Nat) (p : Int) (k : Nat) (g : Streak) (i : Insp) : Out :=
  i.out.route (b.banks.contents f).policy.streakClose.level (b.banks.contents f).policy.streakClose.slot
    (.streak (streakReport (.closed reason survivor) f (i.face f).asm.geometry (i.lost f) k g p (p - g.start) 0))

/-- Ending saturation is reported, unless the close is made by STOP. -/
theorem closeStreak_saturated (hs : (i.streaks f).saturated = true) (hr : reason ≠ .stop) :
    (closeStreak b f reason survivor (some (n, p)) k g i).out = (closedOut b f reason survivor p k g i).offer .p2
      (.status (some f) (i.lost f) (.streakSaturation false
        (occupied (tset none (i.streaks f).open_ k none)).length (some n))) := by
  unfold closeStreak
  dsimp only
  rw [if_pos hs, if_neg hr]
  cases f <;> rfl

theorem closeStreak_stop (hr : reason = .stop) :
    (closeStreak b f reason survivor (some (n, p)) k g i).out = closedOut b f reason survivor p k g i := by
  subst hr
  cases hs : (i.streaks f).saturated with
  | false => exact closeStreak_out _ _ _ _ _ _ hs
  | true =>
    unfold closeStreak
    dsimp only
    rw [if_pos hs, if_pos rfl]
    cases f <;> rfl

end Close

/-! ### The number of open streaks -/

section Count

variable {α : Type} [DecidableEq α]

theorem occupied_keys_nodup {t : Table (Option α)} (h : twf none t = true) : ((occupied t).map (·.1)).Nodup :=
  List.pairwise_map.mpr ((occupied_pairwise h).imp Nat.ne_of_lt)

theorem mem_occupied_keys {t : Table (Option α)} (h : twf none t = true) (k : Nat) :
    k ∈ (occupied t).map (·.1) ↔ tget none t k ≠ none := by
  constructor
  · intro hk
    obtain ⟨⟨k, v⟩, he, rfl⟩ := List.mem_map.mp hk
    rw [(mem_occupied h).mp he]
    exact Option.some_ne_none v
  · intro hk
    obtain ⟨v, hv⟩ := Option.ne_none_iff_exists'.mp hk
    exact List.mem_map_of_mem (f := Prod.fst) ((mem_occupied h).mpr hv)

/-- Freeing one occupied slot of a table leaves one fewer. -/
theorem occupied_length_of_freed {t t' : Table (Option α)} (h : twf none t = true) (h' : twf none t' = true) {a : Nat}
    (ha : tget none t a ≠ none) (hslots : ∀ j, tget none t' j ≠ none ↔ tget none t j ≠ none ∧ j ≠ a) :
    (occupied t').length = (occupied t).length - 1 := by
  have hperm : ((occupied t').map (·.1)).Perm (((occupied t).map (·.1)).erase a) := by
    refine (List.perm_ext_iff_of_nodup (occupied_keys_nodup h') ((occupied_keys_nodup h).erase a)).mpr fun j => ?_
    rw [mem_occupied_keys h', hslots, (occupied_keys_nodup h).mem_erase_iff, mem_occupied_keys h]
    exact and_comm
  have hlen := hperm.length_eq
  rwa [List.length_map, List.length_erase_of_mem ((mem_occupied_keys h a).mpr ha), List.length_map] at hlen

end Count

/-! ### Entering a streak (R107 to R110) -/

section Enter

variable {b : Base} {f : FaceId} {r : LineRecord} {c : Nat} {y : RecordColumn} {level : Int} {i : Insp}

theorem enterStreak_opens {k : Nat} (hnone : (i.streaks f).inReach ((i.streaks f).col c).onsetPolarity c
      ((b.banks.contents f).detection.sg + 1) = []) (hk : lowestFree 64 (i.streaks f).open_ = some k) :
    enterStreak b f r c y level i = openStreak b f r c y level k i := by
  simp only [enterStreak, hnone, Config.maxStreaks, hk]

theorem enterStreak_holds (hnone : (i.streaks f).inReach ((i.streaks f).col c).onsetPolarity c
      ((b.banks.contents f).detection.sg + 1) = []) (hk : lowestFree 64 (i.streaks f).open_ = none) :
    enterStreak b f r c y level i = holdOnset f r.head i := by
  simp only [enterStreak, hnone, Config.maxStreaks, hk]

theorem mergeStreak_satEntries (line : Option (Word × Int)) (k : Nat) (i : Insp) (y : Nat × Streak) :
    ((mergeStreak b f line k i y).streaks f).satEntries = (i.streaks f).satEntries := by
  unfold mergeStreak
  rw [closeStreak_streaks, onStreaks_streaks]
  unfold Streaks.onStreak
  split <;> rfl

/-- Merging one streak away, while the face is saturated: the first close ends it. -/
theorem mergeStreak_saturated {n : Word} {p : Int} {k : Nat} {a : Nat × Streak} {e : Streak}
    (hwf : twf none (i.streaks f).open_ = true) (hs : (i.streaks f).saturated = true)
    (he : (i.streaks f).streak k = some e) (ha : (i.streaks f).streak a.1 ≠ none) (hak : a.1 ≠ k) :
    (mergeStreak b f (some (n, p)) k i a).out = (closedOut b f .merged (some k) p a.1 a.2 i).offer .p2
      (.status (some f) (i.lost f) (.streakSaturation false ((i.streaks f).openCount - 1) (some n))) := by
  have hcount {v : Streak} : (occupied (tset none (tset none (i.streaks f).open_ k (some v)) a.1 none)).length =
      (i.streaks f).openCount - 1 := by
    refine occupied_length_of_freed hwf (twf_tset _ _ (twf_tset _ _ hwf)) ha fun j => ?_
    rw [tget_tset, tget_tset]
    by_cases hja : j = a.1
    · simp [hja]
    · by_cases hjk : j = k
      · subst hjk
        have : tget none (i.streaks f).open_ j ≠ none := fun h => Option.some_ne_none e (he.symm.trans h)
        simp [hja, this]
      · simp [hja, hjk]
  unfold mergeStreak
  dsimp only
  have hstreak : { i.streaks f with
      cols := renumber k a.1 (i.streaks f).cols, merges := count32 (i.streaks f).merges }.streak k = some e := he
  rw [closeStreak_saturated ?saturated (by decide)]
  case saturated =>
    rw [onStreaks_streaks, onStreak_some hstreak]
    exact hs
  · rw [closedOut, closedOut, onStreaks_out, onStreaks_asm, onStreaks_lost, onStreaks_streaks, onStreak_some hstreak]
    exact congrArg (fun m => Out.offer _ .p2 (.status (some f) (i.lost f) (.streakSaturation false m (some n)))) hcount

/-- The closes that merging `others` makes, in turn. -/
def closesOut (b : Base) (f : FaceId) (p : Int) (k : Nat) (i : Insp) (o : Out) (a : Nat × Streak) : Out :=
  o.route (b.banks.contents f).policy.streakClose.level (b.banks.contents f).policy.streakClose.slot
    (.streak (streakReport (.closed .merged (some k)) f (i.face f).asm.geometry (i.lost f) a.1 a.2 p (p - a.2.start) 0))

theorem closesOut_within {j : Insp} (h : Within [.streak f, .out] i j) (p : Int) (k : Nat) :
    closesOut b f p k j = closesOut b f p k i := by
  have hasm : (j.face f).asm = (i.face f).asm := h b (.asm f) (by simp)
  have hpattern : (j.face f).pattern = (i.face f).pattern := h b (.pattern f) (by simp)
  unfold closesOut Insp.lost
  rw [hasm, hpattern]

theorem mergeStreaks_saturated {n : Word} {p : Int} {k : Nat} {a : Nat × Streak} {more : List (Nat × Streak)} {e : Streak}
    (hwf : twf none (i.streaks f).open_ = true) (hs : (i.streaks f).saturated = true)
    (he : (i.streaks f).streak k = some e) (ha : (i.streaks f).streak a.1 ≠ none) (hk : ∀ y ∈ a :: more, y.1 ≠ k) :
    ((a :: more).foldl (mergeStreak b f (some (n, p)) k) i).out =
      more.foldl (closesOut b f p k i) ((closesOut b f p k i i.out a).offer .p2
        (.status (some f) (i.lost f) (.streakSaturation false ((i.streaks f).openCount - 1) (some n)))) := by
  have hstreaks := mergeStreak_streaks (b := b) (some (n, p)) k i a e he
  have hfirst := mergeStreak_saturated (n := n) (p := p) (b := b) hwf hs he ha (hk a List.mem_cons_self)
  have hwithin : Within [.streak f, .out] i (mergeStreak b f (some (n, p)) k i a) := Within.mergeStreak _ _ _ _
  have hkeep := closesOut_within (b := b) hwithin p k
  generalize hprime : mergeStreak b f (some (n, p)) k i a = i' at *
  obtain ⟨j, rfl, _, _, _, _, _, _, hout⟩ := mergeStreaks (b := b) (f := f) n p k more i' { e with
      colMin := min e.colMin a.2.colMin, colMax := max e.colMax a.2.colMax, members := e.members + a.2.members,
      peak := max e.peak a.2.peak } (by
    rw [hstreaks, Streaks.streak]
    dsimp only
    rw [tget_tset_other _ _ _ _ _ (hk a List.mem_cons_self).symm, tget_tset_same])
    fun y hy => hk y (List.mem_cons_of_mem _ hy)
  have hsaturated : (i'.streaks f).saturated = false := by rw [hstreaks]
  rw [List.foldl_cons, hprime, hout hsaturated, hfirst]
  exact congrArg (fun close => more.foldl close _) hkeep

theorem mergeStreaks_kept (line : Option (Word × Int)) (k : Nat) (others : List (Nat × Streak)) (i : Insp) :
    ((others.foldl (mergeStreak b f line k) i).streaks f).satEntries = (i.streaks f).satEntries ∧
    ((others.foldl (mergeStreak b f line k) i).streaks f).taken = (i.streaks f).taken :=
  ⟨foldl_same (π := fun i : Insp => (i.streaks f).satEntries) (fun i y => mergeStreak_satEntries line k i y) others i,
    (StreakStep.foldl (fun i y => mergeStreak_step line k i y) others i).1⟩

/-- R107: the column that joins, and the record of the streak it joins. -/
theorem join_streaks {k : Nat} {g : Streak} {x : Streaks} (h : x.streak k = some g) : x.join c k level = { x with
    cols := tset (StreakColumn.quiet 0) x.cols c { StreakColumn.quiet (x.col c).acc with state := .streak, number := k },
    open_ := tset none x.open_ k (some { g with
      colMin := min g.colMin c, colMax := max g.colMax c, members := g.members + 1, peak := max g.peak level.natAbs }) } :=
  onStreak_some (x := x.setCol c { StreakColumn.quiet (x.col c).acc with state := .streak, number := k }) h _

theorem renumbered_acc (k : Nat) (gone : List Nat) (v : StreakColumn) : (renumbered k gone v).acc = v.acc := by
  unfold renumbered
  split <;> rfl

end Enter

end Sys2Proof.Machine

open Sys2Proof Sys2Proof.Machine

/-- Settles O36: every step of a line keeps what is taken and sends its events on; a column steps by its state, and entering a
streak opens, holds, or joins after merging. -/
theorem streakTrackerHandlesRecord : Obligations.StreakTrackerHandlesRecord := by
  unfold Obligations.StreakTrackerHandlesRecord
  refine ⟨?record, ?outside, ?enter, ?member, fun b f line i => rfl, ?close, ?tests, ?continues, ?report⟩
  case record =>
    rintro f s r rest x rfl hin
    have htake := takeStreakLine_eq (b := s.dev.base) (f := f) (i := s.dev.insp) hin
    have hbegin : ((s.dev.insp.onStreaks f fun x =>
        { x with inbox := rest, last := some (r.head.index, r.head.pos) }).streaks f).taken =
        (rest, some (r.head.index, r.head.pos)) := by
      rw [onStreaks_streaks]
      rfl
    obtain ⟨htaken, l, htier⟩ := lineSteps_step (b := s.dev.base) (f := f) r
      (streakWalk r { s.dev.insp.streaks f with inbox := rest, last := some (r.head.index, r.head.pos) })
      (s.dev.insp.onStreaks f fun x => { x with inbox := rest, last := some (r.head.index, r.head.pos) })
    have hheld : AllHeld f (takeStreakLine s.dev.base f s.dev.insp) := htake ▸ lineSteps_held r _ _
    rw [← htake, hbegin] at htaken
    rw [← htake, onStreaks_tier] at htier
    obtain ⟨hinbox, hlast⟩ := Prod.mk.inj htaken
    refine ⟨{ s with dev := { s.dev with insp := takeStreakLine s.dev.base f s.dev.insp } }, rfl, hinbox, hlast, hheld,
      ⟨rfl, Within.touches (Within.takeStreakLine s.dev.insp)⟩, ⟨l, htier⟩, fun hwf => ?_⟩
    obtain ⟨hrising, hwalk⟩ := streakWalk_spec r (x := { s.dev.insp.streaks f with
      inbox := rest, last := some (r.head.index, r.head.pos) }) hwf
    exact ⟨_, hrising, hwalk, htake⟩
  case outside =>
    intro b f r i c y v level ts k h hv
    have hcol := streakColumn_outside h hv
    refine ⟨fun hlow hhigh => ?_, ?_⟩
    · have hhot : hotOf level ts = none := by rw [hotOf, if_neg (by omega), if_neg (by omega)]
      rw [hhot] at hcol
      exact hcol
    · rintro pol w j hpol rfl rfl
      have hhot : hotOf level ts = some pol := by
        cases pol with
        | bright => exact if_pos hpol
        | dark =>
          obtain ⟨hbelow, hdark⟩ : level < ts ∧ level ≤ -(ts : Int) := hpol
          exact (if_neg (by omega)).trans (if_pos hdark)
      rw [hhot] at hcol
      refine ⟨fun hons hother => ?_, fun hsame => ?_⟩
      · rw [onsetStep_other hons hother] at hcol
        exact hcol
      · obtain hquiet | hons := hv
        · rw [onsetStep_quiet hquiet] at hcol
          have hno : v.state ≠ .onset := by rw [hquiet]; decide
          rw [if_neg hno]
          exact hcol.trans (if_congr decide_eq_true_iff rfl rfl)
        · rw [onsetStep_same hons (hsame hons)] at hcol
          rw [if_pos hons]
          exact hcol.trans (if_congr decide_eq_true_iff rfl rfl)
  case enter =>
    rintro b f r c y level i x p l v rfl rfl rfl hl
    have hreach : (i.streaks f).inReach ((i.streaks f).col c).onsetPolarity c ((b.banks.contents f).detection.sg + 1) =
        orderBy older l := by rw [hl]; rfl
    refine ⟨fun n k => near_iff _ _ _ _, ?opens, ?holds, ?joins⟩
    case opens =>
      rintro k hk rfl hfree hlow g j rfl rfl
      exact (enterStreak_opens hreach (lowestFree_some hk hfree hlow)).trans (by cases f <;> rfl)
    case holds =>
      rintro rfl hfull
      have hhold := enterStreak_holds (y := y) (level := level) (r := r) hreach (lowestFree_none hfull)
      refine ⟨fun hs => hhold.trans (if_pos hs), fun hs => hhold.trans ((if_neg ?_).trans ?_)⟩
      · exact fun ht => Bool.false_ne_true (hs.symm.trans ht)
      · cases f <;> rfl
    case joins =>
      intro hwf hne
      obtain ⟨k, e, others, hperm, hsorted, he, hkeys, henter⟩ := enterStreak_inReach r c y level i l hl hwf hne
      obtain ⟨j, hj, hstreak, hslots, hcols, hopened, hheld, hcounts, hout⟩ :=
        mergeStreaks (b := b) r.head.index r.head.pos k others i e he hkeys
      obtain ⟨hsat, htaken⟩ := mergeStreaks_kept (b := b) (f := f) (some (r.head.index, r.head.pos)) k others i
      rw [← hj] at henter hsat htaken
      obtain ⟨hinbox, hlast⟩ := Prod.mk.inj htaken
      have hjoin : (enterStreak b f r c y level i).streaks f = (j.streaks f).join c k level := by
        rw [henter, onStreaks_streaks]
      rw [join_streaks hstreak] at hjoin
      have hsame : (enterStreak b f r c y level i).out = j.out := by rw [henter, onStreaks_out]
      have hwithin : Within [.streak f, .out] i (enterStreak b f r c y level i) := by
        rw [henter, hj]
        exact Within.after (Within.onStreaks _ f _) <|
          Within.after (Within.foldl (fun i y => Within.mergeStreak _ _ i y) _ _) <| Within.refl _ _
      refine ⟨k, e, others, enterStreak b f r c y level i, hperm, hsorted.imp fun h => (older_iff _ _).mp h, rfl, ?streak, ?slots,
        ?cols, (congrArg Streaks.opened hjoin).trans hopened, (congrArg Streaks.held hjoin).trans hheld,
        (congrArg Streaks.satEntries hjoin).trans hsat, (congrArg Streaks.inbox hjoin).trans hinbox,
        (congrArg Streaks.last hjoin).trans hlast, hwithin b, ?alone, ?merging⟩
      case streak =>
        rw [hjoin, Streaks.streak]
        dsimp only
        rw [tget_tset_same]
      case slots =>
        intro m hm
        rw [hjoin, Streaks.streak]
        dsimp only
        rw [tget_tset_other none _ _ _ _ hm]
        exact hslots m hm
      case cols =>
        intro n
        rw [hjoin, Streaks.col]
        refine (tget_tset _ _ _ _ _).trans ?_
        by_cases hn : n = c
        · rw [if_pos hn, if_pos hn, hcols, renumbered_acc]
        · rw [if_neg hn, if_neg hn]
          exact hcols n
      case alone =>
        rintro rfl
        rw [List.foldl_nil] at hj
        rw [hjoin, hsame, hj]
        exact ⟨rfl, rfl, rfl, rfl⟩
      case merging =>
        intro hothers
        obtain ⟨hmerges, hclosed, hsaturated⟩ := hcounts hothers
        rw [hjoin, hsame]
        refine ⟨hmerges, hclosed, hsaturated, fun close hclose => ?_⟩
        obtain rfl : close = closesOut b f r.head.pos k i := funext fun o => funext fun a => hclose o a
        refine ⟨hout, fun hs a more hcons => ?_⟩
        subst hcons
        rw [hj]
        have hopen : (a.1, a.2) ∈ occupied (i.streaks f).open_ := by
          have hmem := hperm.mem_iff.mp (List.mem_cons_of_mem (k, e) List.mem_cons_self)
          rw [hl] at hmem
          exact (List.mem_filter.mp hmem).1
        have hslot : (i.streaks f).streak a.1 ≠ none :=
          fun h => Option.some_ne_none a.2 (((mem_occupied hwf).mp hopen).symm.trans h)
        exact mergeStreaks_saturated hwf hs he hslot hkeys
  case member =>
    rintro b f r i c y v level ts k g held n change h hv hg rfl rfl hchange
    have hcol := streakColumn_member h hv hg
    have hheld : heldTo g.polarity level ts = true ↔ (match g.polarity with
        | .bright => ((3 * ts / 4 : Nat) : Int) ≤ level
        | .dark => level ≤ -((3 * ts / 4 : Nat) : Int)) := by
      unfold heldTo
      cases g.polarity <;> exact decide_eq_true_iff
    refine ⟨fun hh => ?_, fun hh hn => ?_, fun hh hn => ?_⟩
    · rw [memberStep_held (hheld.mpr hh)] at hcol
      exact hcol.trans (hchange _ _).symm
    · rw [memberStep_releasing (Bool.eq_false_iff.mpr fun ht => hh (hheld.mp ht)) hv hn] at hcol
      exact hcol.trans (hchange _ _).symm
    · rw [memberStep_leaves (Bool.eq_false_iff.mpr fun ht => hh (hheld.mp ht)) hv hn] at hcol
      exact hcol.trans (hchange _ _).symm
  case close =>
    rintro b f reason survivor n p k g i j x o rfl rfl rfl
    refine ⟨Within.closeStreak _ _ _ _ _ _ b, closeStreak_streaks _ _ _ _ _ _, ?_⟩
    by_cases hr : reason = .stop
    · exact (closeStreak_stop hr).trans (if_neg fun h => h.2 hr).symm
    · cases hs : (i.streaks f).saturated with
      | false => exact (closeStreak_out _ _ _ _ _ _ hs).trans (if_neg fun h => Bool.false_ne_true h.1).symm
      | true =>
        refine (closeStreak_saturated hs hr).trans ?_
        rw [if_pos ⟨rfl, hr⟩, closeStreak_streaks]
        rfl
  case tests =>
    rintro b f r i d rfl
    refine ⟨fun h => if_pos (by simpa using h), fun hpos hphase => ?_⟩
    refine if_neg ?_
    simp only [Bool.or_eq_true, decide_eq_true_eq, not_or]
    exact ⟨by omega, hphase⟩
  case continues =>
    rintro b f r i interval due k g g' rfl rfl
    exact ⟨fun h => if_neg (by dsimp only; omega), fun h => if_pos h⟩
  case report =>
    intro kind f q unsync k g pos length tier
    rw [streakReport, spanCentre_eq]
    rfl
end

section
/-! R39 to R49: one line at the Pixel Chain; its record, its columns, and the end of a learning phase. -/

namespace Sys2Proof.Machine

open Sys2Proof

/-! ### The pattern step of a CONTINUOUS face (R69, R71) -/

/-- What every event keeps, the pattern step keeps. -/
theorem patternStep_keeps {b : Base} {f : FaceId} {h : LineHead} {P : Insp → Prop}
    (hevent : ∀ i j, P i → nextEvent b f h i = some j → P j) {i : Insp} (hi : P i) : P (patternStep b f h i) := by
  unfold patternStep
  generalize patternFuel i.marks = n
  induction n generalizing i with
  | zero => exact hi
  | succ n ih =>
    rw [patternSteps_succ]
    cases hnext : nextEvent b f h i with
    | none => exact hi
    | some j => exact ih (hevent i j hi hnext)

theorem nextEvent_no_limit {b : Base} {f : FaceId} {h : LineHead} {i j : Insp} (hl : nextLimit b f i = none)
    (hj : nextEvent b f h i = some j) : ∃ e, j = reachEdge b f h e i := by
  unfold nextEvent at hj
  rw [hl] at hj
  cases hedge : nextEdge b f i with
  | none =>
    rw [hedge] at hj
    exact absurd hj (Option.some_ne_none j).symm
  | some e =>
    rw [hedge] at hj
    dsimp only at hj
    obtain hif | hif := ite_eq_or_eq (e ≤ h.pos) (some (reachEdge b f h e i)) none
    · exact ⟨e, (Option.some.inj (hif.symm.trans hj)).symm⟩
    · exact absurd (hif.symm.trans hj) (Option.some_ne_none j).symm

theorem patternStep_continuous {b : Base} {f : FaceId} {h : LineHead} {i : Insp}
    (hs : (i.face f).pattern.state = some .continuous) : ((patternStep b f h i).face f).pattern = (i.face f).pattern := by
  refine patternStep_keeps (P := fun j => (j.face f).pattern = (i.face f).pattern) (fun j k hj hk => ?_) rfl
  have hstate : (j.face f).pattern.state = some .continuous := by rw [hj, hs]
  obtain ⟨e, rfl⟩ := nextEvent_no_limit (limit_never _ (.inl hstate)) hk
  rw [reachEdge_passed (.inl hstate)]
  exact (congrArg Face.pattern consumed_face).trans hj

/-! ### The face's line -/

theorem switchTarget_none {b : Base} {f : FaceId} {y : Int} (h : NoSwitchDue b.banks f y) : switchTarget b f y = none := by
  unfold switchTarget
  cases hp : b.banks.switchPos with
  | none => rfl
  | some p =>
    obtain hlt | hno := h p hp
    · exact if_neg (by omega)
    · dsimp only
      split
      · cases f
        · exact (if_neg (hno .bank0)).trans (if_neg (hno .bank1))
        · exact (if_neg (hno .bank0)).trans (if_neg (hno .bank1))
      · rfl

section Line

variable (b : Base) (f : FaceId) (h : LineHead) (raw : Table Sample) (i : Insp)

/-- The face with the line's position kept (R11), before the line's start. -/
def linePlaced : Insp := i.onFace f fun x => { x with pixel := { x.pixel with
  lastPos := if b.banks.running then some h.pos else x.pixel.lastPos } }

/-- The face's pixel side after the columns of the line, from the state after the line's start. -/
def linePixel : Pixel := pixelAfter (lineContext b f h i) b (i.face f).pixel raw

/-- The record handed on, and the columns kept, before the end of a learning phase. -/
def lineHanded : Insp :=
  handOn f (lineRecord b f h i raw) (keepZone f h (lineContext b f h i).zone (i.onFace f fun y => { y with
    pixel := linePixel b f h raw i }))

/-- The line ends the learning phase. -/
def EndsLearning : Prop :=
  (lineContext b f h i).learnsLine = true ∧ (linePixel b f h raw i).learnLength ≤ (linePixel b f h raw i).learnLines

theorem processLine_ends {ln : HandedLine} {i : Insp} (hend : EndsLearning b f ln.head (b.litSamples f ln.raw)
      (lineStart b f ln.head (linePlaced b f ln.head i))) :
    processLine b f ln i = endLearning b f ln.head (lineHanded b f ln.head (b.litSamples f ln.raw)
      (lineStart b f ln.head (linePlaced b f ln.head i))) := by
  obtain ⟨hlearns, hlength⟩ := hend
  exact if_pos (by rw [Bool.and_eq_true, decide_eq_true_eq]; exact ⟨hlearns, hlength⟩)

theorem processLine_goes_on {ln : HandedLine} {i : Insp} (hend : ¬ EndsLearning b f ln.head (b.litSamples f ln.raw)
      (lineStart b f ln.head (linePlaced b f ln.head i))) :
    processLine b f ln i = lineHanded b f ln.head (b.litSamples f ln.raw)
      (lineStart b f ln.head (linePlaced b f ln.head i)) := by
  refine if_neg fun hboth => hend ?_
  rw [Bool.and_eq_true, decide_eq_true_eq] at hboth
  exact hboth

theorem lineHanded_face : (lineHanded b f h raw i).face f = { i.face f with
    pixel := linePixel b f h raw i,
    pattern := if h.cls = .inspection then { (i.face f).pattern with lastZone := (lineContext b f h i).zone }
      else (i.face f).pattern,
    blob := { (i.face f).blob with inbox := (i.face f).blob.inbox ++ [lineRecord b f h i raw] },
    streak := { (i.face f).streak with inbox := (i.face f).streak.inbox ++ [lineRecord b f h i raw] },
    preview := { (i.face f).preview with inbox := (i.face f).preview.inbox ++ [lineRecord b f h i raw] } } := by
  unfold lineHanded handOn keepZone
  rw [onFace_face]
  by_cases hcls : h.cls = .inspection
  · rw [if_pos hcls, if_pos hcls, onFace_face, onFace_face]
  · rw [if_neg hcls, if_neg hcls, onFace_face]

theorem lineHanded_out : (lineHanded b f h raw i).out = i.out := by
  unfold lineHanded handOn keepZone
  rw [onFace_out]
  split
  · rw [onFace_out, onFace_out]
  · rw [onFace_out]

theorem lineHanded_marks : (lineHanded b f h raw i).marks = i.marks := by
  unfold lineHanded handOn keepZone
  split <;> cases f <;> rfl

/-- R49: the end of a learning phase. -/
theorem endLearning_face : (endLearning b f h i).face f = { i.face f with
    pixel := { (i.face f).pixel with
      cols := tmap PixelColumn.fresh PixelColumn.learn (i.face f).pixel.cols, phase := .detecting } } := by
  unfold endLearning
  rw [offerStatus_face, onFace_face]

theorem lineStart_same (hno : b.banks.running = false ∨ h.cls = .creep) : lineStart b f h i = i := by
  refine if_neg ?_
  obtain hno | hno := hno <;> simp [hno]

theorem lineStart_steps (hrun : b.banks.running = true) (hcls : h.cls = .inspection) :
    lineStart b f h i = patternStep b f h (tierLineStart b f h i) := if_pos (by simp [hrun, hcls])

/-- The line's start leaves the face's pixel side. -/
theorem lineStart_pixel : ((lineStart b f h i).face f).pixel = (i.face f).pixel :=
  Within.lineStart (b := b) (f := f) h i b (.pixel f) (by simp)

theorem lineStart_continuous (hs : (i.face f).pattern.state = some .continuous) :
    ((lineStart b f h i).face f).pattern = (i.face f).pattern := by
  have htier : ((tierLineStart b f h i).face f).pattern = (i.face f).pattern :=
    Within.tierLineStart (f := f) h i b (.pattern f) (by simp)
  unfold lineStart
  split
  · rw [patternStep_continuous (by rw [htier, hs]), htier]
  · rfl

/-- The line's record and start after which the face's line is processed, no switch being due. -/
theorem takePixelLine_eq {d : Dev} {ln : HandedLine} {rest : List HandedLine} (hin : (d.face f).asm.handed = ln :: rest)
    (hno : NoSwitchDue d.base.banks f ln.head.pos) : takePixelLine f d = { d with
      insp := processLine d.base f ln (d.insp.onFace f fun x => { x with asm := { x.asm with handed := rest } }) } := by
  unfold takePixelLine
  rw [hin]
  dsimp only
  unfold pixelLine
  have htarget : switchTarget (d.onFace f fun x => { x with asm := { x.asm with handed := rest } }).base f ln.head.pos = none :=
    switchTarget_none (b := d.base) hno
  rw [htarget]
  rfl

/-! ### The columns of a line -/

/-- Writing the entries of a list leaves at each key the last one written. -/
theorem tget_foldl_write {α β : Type} [DecidableEq α] (d : α) (v : Nat × β → α) (l : List (Nat × β)) (t : Table α) (k : Nat) :
    tget d (l.foldl (fun t e => tset d t e.1 (v e)) t) k =
      ((l.filter fun e => decide (e.1 = k)).map v).getLast?.getD (tget d t k) := by
  induction l generalizing t with
  | nil => rfl
  | cons e l ih =>
    rw [List.foldl_cons, ih, tget_tset]
    by_cases he : e.1 = k
    · subst he
      rw [if_pos rfl, List.filter_cons_of_pos (by simp), List.map_cons, List.getLast?_cons, Option.getD_some]
    · rw [if_neg (Ne.symm he), List.filter_cons_of_neg (by simpa using he)]

theorem linePixel_col (k : Nat) : (linePixel b f h raw i).col k =
    ((raw.filter fun e => decide (e.1 = k)).map fun e =>
      ((lineContext b f h i).column (b.flatOf e.2) ((i.face f).pixel.col e.1) e.1 e.2.raw).2).getLast?.getD
      ((i.face f).pixel.col k) := by
  unfold linePixel pixelAfter Pixel.col LineContext.columns
  dsimp only
  rw [List.foldl_map]
  exact tget_foldl_write PixelColumn.fresh (fun e : Nat × Sample => ((lineContext b f h i).column (b.flatOf e.2)
    (tget PixelColumn.fresh (i.face f).pixel.cols e.1) e.1 e.2.raw).2) raw _ k

variable {raw}

/-- A column without a sample stays. -/
theorem linePixel_col_void {k : Nat} (hk : ∀ e ∈ raw, e.1 ≠ k) : (linePixel b f h raw i).col k = (i.face f).pixel.col k := by
  have hfilter : raw.filter (fun e => decide (e.1 = k)) = [] :=
    List.filter_eq_nil_iff.mpr fun e he => by simpa using hk e he
  rw [linePixel_col, hfilter]
  rfl

/-- A column with one sample makes its step. -/
theorem linePixel_col_one {k : Nat} {v : Sample} (hk : raw.filter (fun e => decide (e.1 = k)) = [(k, v)]) :
    (linePixel b f h raw i).col k =
      ((lineContext b f h i).column (b.flatOf v) ((i.face f).pixel.col k) k v.raw).2 := by
  rw [linePixel_col, hk]
  rfl

/-- A column stays that no sample changes. -/
theorem linePixel_col_same {k : Nat} (hk : ∀ e ∈ raw, e.1 = k →
      ((lineContext b f h i).column (b.flatOf e.2) ((i.face f).pixel.col k) k e.2.raw).2 = (i.face f).pixel.col k) :
    (linePixel b f h raw i).col k = (i.face f).pixel.col k := by
  rw [linePixel_col]
  cases hlast : ((raw.filter fun e => decide (e.1 = k)).map fun e =>
      ((lineContext b f h i).column (b.flatOf e.2) ((i.face f).pixel.col e.1) e.1 e.2.raw).2).getLast? with
  | none => rfl
  | some v =>
    obtain ⟨e, he, rfl⟩ := List.mem_map.mp (List.mem_of_getLast? hlast)
    obtain ⟨hraw, hkey⟩ := List.mem_filter.mp he
    have hkey := of_decide_eq_true hkey
    subst hkey
    exact hk e hraw rfl

theorem linePixel_cols_canonical (hwf : twf PixelColumn.fresh (i.face f).pixel.cols = true) :
    twf PixelColumn.fresh (linePixel b f h raw i).cols = true :=
  foldl_keeps (p := fun t : Table PixelColumn => twf PixelColumn.fresh t = true) (fun _ _ ht => twf_tset _ _ ht) _ hwf

theorem learnsLine_iff {x : LineContext} :
    x.learnsLine = true ↔ x.phase = .learning ∧ x.cls = .inspection ∧ x.zone = some .coated := by
  simp only [LineContext.learnsLine, Bool.and_eq_true, decide_eq_true_eq, and_assoc]

theorem linePixel_fields (b : Base) (h : LineHead) (raw : Table Sample) (i : Insp) :
    (linePixel b f h raw i).phase = (i.face f).pixel.phase ∧
    (linePixel b f h raw i).learnLength = (i.face f).pixel.learnLength ∧
    (linePixel b f h raw i).learnLines = if (lineContext b f h i).learnsLine then (i.face f).pixel.learnLines + 1
      else (i.face f).pixel.learnLines := ⟨rfl, rfl, rfl⟩

/-- The face's pixel side after a line: the columns of the line, learned where the line ends the phase. -/
theorem processLine_pixel_ends {ln : HandedLine} {i : Insp} (hend : EndsLearning b f ln.head (b.litSamples f ln.raw)
      (lineStart b f ln.head (linePlaced b f ln.head i))) :
    ((processLine b f ln i).face f).pixel =
      { linePixel b f ln.head (b.litSamples f ln.raw) (lineStart b f ln.head (linePlaced b f ln.head i)) with
        cols := tmap PixelColumn.fresh PixelColumn.learn
          (linePixel b f ln.head (b.litSamples f ln.raw) (lineStart b f ln.head (linePlaced b f ln.head i))).cols,
        phase := .detecting } := by
  rw [processLine_ends b f hend, endLearning_face, lineHanded_face]

theorem processLine_pixel_goes_on {ln : HandedLine} {i : Insp} (hend : ¬ EndsLearning b f ln.head (b.litSamples f ln.raw)
      (lineStart b f ln.head (linePlaced b f ln.head i))) :
    ((processLine b f ln i).face f).pixel =
      linePixel b f ln.head (b.litSamples f ln.raw) (lineStart b f ln.head (linePlaced b f ln.head i)) := by
  rw [processLine_goes_on b f hend, lineHanded_face]

theorem linePlaced_face : (linePlaced b f h i).face f = { i.face f with pixel := { (i.face f).pixel with
    lastPos := if b.banks.running then some h.pos else (i.face f).pixel.lastPos } } := by
  unfold linePlaced
  rw [onFace_face]

/-- The state after the line's start, the line taken from those handed over. -/
def lineTaken (s : State) (f : FaceId) (h : LineHead) (rest : List HandedLine) : Insp :=
  lineStart s.dev.base f h (linePlaced s.dev.base f h
    (s.dev.insp.onFace f fun x => { x with asm := { x.asm with handed := rest } }))

theorem lineTaken_pixel (s : State) (f : FaceId) (h : LineHead) (rest : List HandedLine) :
    ((lineTaken s f h rest).face f).pixel = { (s.dev.face f).pixel with
      lastPos := if s.dev.base.banks.running then some h.pos else (s.dev.face f).pixel.lastPos } := by
  rw [lineTaken, lineStart_pixel, linePlaced_face, onFace_face]
  rfl

theorem lineTaken_continuous {s : State} {f : FaceId} (h : LineHead) (rest : List HandedLine)
    (hs : (s.dev.face f).pattern.state = some .continuous) :
    ((lineTaken s f h rest).face f).pattern = (s.dev.face f).pattern := by
  have hplaced : ((linePlaced s.dev.base f h (s.dev.insp.onFace f fun x =>
      { x with asm := { x.asm with handed := rest } })).face f).pattern = (s.dev.face f).pattern := by
    rw [linePlaced_face, onFace_face]
    rfl
  rw [lineTaken, lineStart_continuous _ _ _ _ (by rw [hplaced, hs]), hplaced]

/-- The line side that the obligations name, after the line's start. -/
theorem lineTaken_eq {s : State} {f : FaceId} {h : LineHead} {rest : List HandedLine} {i j : Insp}
    (hi : i = (s.dev.insp.onFace f fun y => { y with
      asm := { y.asm with handed := rest },
      pixel := { (s.dev.face f).pixel with
        lastPos := if s.dev.base.banks.running then some h.pos else (s.dev.face f).pixel.lastPos } }))
    (hsteps : s.dev.base.banks.running = true → h.cls = .inspection →
      j = patternStep s.dev.base f h (tierLineStart s.dev.base f h i))
    (hsame : s.dev.base.banks.running = false ∨ h.cls = .creep → j = i) : j = lineTaken s f h rest := by
  have hplaced : linePlaced s.dev.base f h (s.dev.insp.onFace f fun x => { x with asm := { x.asm with handed := rest } }) = i := by
    rw [linePlaced, onFace_onFace, hi]
    cases f <;> rfl
  rw [lineTaken, hplaced]
  cases hrun : s.dev.base.banks.running with
  | false => rw [hsame (.inl hrun), lineStart_same _ _ _ _ (.inl hrun)]
  | true =>
    cases hcls : h.cls with
    | creep => rw [hsame (.inr hcls), lineStart_same _ _ _ _ (.inr hcls)]
    | inspection => rw [hsteps hrun hcls, lineStart_steps _ _ _ _ hrun hcls]

theorem processLine_lines (ln : HandedLine) (i : Insp) :
    ((processLine b f ln i).face f).pixel.learnLines = (linePixel b f ln.head (b.litSamples f ln.raw)
      (lineStart b f ln.head (linePlaced b f ln.head i))).learnLines ∧
    ((processLine b f ln i).face f).pixel.learnLength = (linePixel b f ln.head (b.litSamples f ln.raw)
      (lineStart b f ln.head (linePlaced b f ln.head i))).learnLength := by
  by_cases hend : EndsLearning b f ln.head (b.litSamples f ln.raw) (lineStart b f ln.head (linePlaced b f ln.head i))
  · rw [processLine_pixel_ends b f hend]
    exact ⟨rfl, rfl⟩
  · rw [processLine_pixel_goes_on b f hend]
    exact ⟨rfl, rfl⟩

/-- The kind an entry gives, read in a plan that may be absent. -/
theorem planKind_map (plan : Option Plan) (k : Nat) :
    planKind (plan.map fun p => planEntry p k) = (planEntry (plan.getD []) k).kind := by
  cases plan <;> rfl

theorem endLearning_out (b : Base) (f : FaceId) (h : LineHead) (i : Insp) : (endLearning b f h i).out =
    i.out.offer .p2 (.status (some f) (i.lost f) (.learnDone (i.face f).pixel.learnLength h.index
      (unlearnedLanes ((b.banks.plan f).getD []) (b.lit f) ((endLearning b f h i).face f).pixel))) := by
  cases f <;> rfl

theorem unlearnedLanes_eq (b : Base) (f : FaceId) (plan : Plan) (x : Pixel) : unlearnedLanes plan (b.lit f) x =
    ((List.range 8192).filter fun k => decide ((planEntry plan k).kind = .lane) && !b.dark f k && !(x.col k).learned).length := by
  have hdark : ∀ k, (!b.dark f k) = inSpans (b.lit f) k := fun k => Bool.not_not _
  simp only [hdark]
  rfl

theorem lineHanded_lost (b : Base) (f : FaceId) (h : LineHead) (raw : Table Sample) (i : Insp) :
    (lineHanded b f h raw i).lost f = i.lost f := by
  unfold Insp.lost
  rw [lineHanded_face]
  dsimp only
  split <;> rfl

end Line

/-! ### One column -/

section Column

variable {x : LineContext} {flat : FlatEntry} {v : PixelColumn} {j raw : Nat}

theorem adapt_of_idle (hx : x.phase = .idle) (e : Option PlanEntry) (flag : Option Polarity) (c : Nat) (dev : Int) :
    x.adapt v e flag c dev = v := by
  unfold LineContext.adapt
  rw [hx]

theorem adapt_of_learning (hx : x.phase = .learning) (e : Option PlanEntry) (flag : Option Polarity) (c : Nat) (dev : Int) :
    x.adapt v e flag c dev =
      if x.adapts e = true ∧ v.count < 4096 then { v with sum := v.sum + c, count := v.count + 1 } else v := by
  unfold LineContext.adapt
  rw [hx]
  simp only [Bool.and_eq_true, decide_eq_true_eq]

/-- A column whose place and line do not adapt stays. -/
theorem adapt_of_not_adapts {e : Option PlanEntry} (h : x.adapts e = false) (flag : Option Polarity) (c : Nat) (dev : Int) :
    x.adapt v e flag c dev = v := by
  cases hx : x.phase with
  | idle => exact adapt_of_idle hx _ _ _ _
  | learning => exact (adapt_of_learning hx _ _ _ _).trans (if_neg fun hc => Bool.false_ne_true (h.symm.trans hc.1))
  | detecting => exact (adapt_of_detecting hx _ _ _ _ _).trans (if_neg fun hc => Bool.false_ne_true (h.symm.trans hc.1))

theorem learn_none (h : v.count = 0) : v.learn = v := if_neg (by omega)

theorem learn_some (h : 0 < v.count) :
    v.learn = { v with ref := (16 * v.sum + v.count / 2) / v.count, learned := true } := if_pos h

end Column

/-- What a line demands of the columns that collect only on COATED lines it demands of all. -/
theorem collects_on_line {few inspection coated guarded margin : Prop} :
    few ∧ inspection ∧ (guarded ∧ (inspection ∧ coated) ∨ margin) ↔ (inspection ∧ (guarded ∧ coated ∨ margin)) ∧ few := by
  tauto

/-- The column with one sample, on a line of a LEARNING face. -/
theorem linePixel_learning {b : Base} {f : FaceId} {h : LineHead} {raw : Table Sample} {i : Insp} {k : Nat} {y : Sample}
    {v : PixelColumn} (hphase : (i.face f).pixel.phase = .learning) (hv : (i.face f).pixel.col k = v)
    (hone : raw.filter (fun e => decide (e.1 = k)) = [(k, y)]) :
    (linePixel b f h raw i).col k =
      if (lineContext b f h i).adapts ((b.banks.plan f).map fun p => planEntry p k) = true ∧ v.count < 4096 then
        { v with
          sum := v.sum + corrected y.raw (tget FlatEntry.unity (b.port y.port).flat y.pixel), count := v.count + 1 }
      else v := by
  rw [linePixel_col_one b f h i hone, snd_column_eq_adapt, adapt_of_learning hphase, hv]
  rfl

/-- Where a column of the line adapts, by the kind its plan gives. -/
theorem lineContext_adapts (b : Base) (f : FaceId) (h : LineHead) (i : Insp) (k : Nat) :
    (lineContext b f h i).adapts ((b.banks.plan f).map fun p => planEntry p k) = true ↔ h.cls = .inspection ∧
      (((planEntry ((b.banks.plan f).getD []) k).kind = .lane ∨ (planEntry ((b.banks.plan f).getD []) k).kind = .guard) ∧
        zoneAt (i.face f).pattern (b.banks.contents f).pattern h.pos = some .coated ∨
        (planEntry ((b.banks.plan f).getD []) k).kind = .margin) := by
  rw [adapts_iff, planKind_map]
  rfl

end Sys2Proof.Machine

open Sys2Proof Sys2Proof.Machine

/-- Settles O31: a column's learning step by the kinds and the zone; the line then ends the phase where it brings the count to the
learn length. -/
theorem learningCollectsAndEnds : Obligations.LearningCollectsAndEnds := by
  unfold Obligations.LearningCollectsAndEnds
  refine ⟨?column, fun v => ⟨learn_none, fun h => ?learned⟩, ?continuous, ?line⟩
  case column =>
    rintro x flat v j raw y kind collects rfl hkind hcollects
    have hplan : planKind (x.plan.map fun p => planEntry p j) = kind := by
      rw [hkind]
      cases x.plan <;> rfl
    have hadapts : collects ↔ x.adapts (x.plan.map fun p => planEntry p j) = true := by rw [hcollects, adapts_iff, hplan]
    rw [snd_column_eq_adapt]
    refine ⟨fun hphase hc hcount => ?_, fun hphase hc => ?_, fun hno => ?_⟩
    · rw [adapt_of_learning hphase, if_pos ⟨hadapts.mp hc, hcount⟩]
      rfl
    · rw [adapt_of_learning hphase, if_neg]
      rintro ⟨ha, hlt⟩
      obtain hc | hc := hc
      · exact hc (hadapts.mpr ha)
      · omega
    · obtain hidle | hrest := hno
      · exact adapt_of_idle hidle _ _ _ _
      · refine adapt_of_not_adapts (Bool.eq_false_iff.mpr fun ha => ?_) _ _ _
        obtain ⟨hcls, hplace⟩ := (adapts_iff _ _).mp ha
        rw [hplan] at hplace
        obtain hcreep | rfl | rfl := hrest
        · exact absurd (hcls.symm.trans hcreep) (by decide)
        · simp at hplace
        · simp at hplace
  case learned =>
    rw [learn_some h]
    exact ⟨rfl, rfl, rfl, rfl⟩
  case continuous =>
    intro f s ln rest hin hno hstate hphase hcls
    have hpixel := lineTaken_pixel s f ln.head rest
    have hlearns : (lineContext s.dev.base f ln.head (lineTaken s f ln.head rest)).learnsLine = true := by
      refine learnsLine_iff.mpr ⟨?_, hcls, ?_⟩
      · exact (congrArg Pixel.phase hpixel).trans hphase
      · show zoneAt ((lineTaken s f ln.head rest).face f).pattern _ _ = _
        rw [lineTaken_continuous ln.head rest hstate, zoneAt, hstate]
    obtain ⟨hphase', hlength, hlines⟩ := linePixel_fields f s.dev.base ln.head (s.dev.base.litSamples f ln.raw)
      (lineTaken s f ln.head rest)
    rw [if_pos hlearns, hpixel] at hlines
    rw [hpixel] at hlength hphase'
    refine ⟨_, next_dev (takePixelLine_eq f hin hno), ?_⟩
    by_cases hend : (s.dev.face f).pixel.learnLength ≤ (s.dev.face f).pixel.learnLines + 1
    · have hends : EndsLearning s.dev.base f ln.head (s.dev.base.litSamples f ln.raw) (lineTaken s f ln.head rest) :=
        ⟨hlearns, by rw [hlength, hlines]; exact hend⟩
      have hafter := processLine_pixel_ends s.dev.base f hends
      rw [if_pos hend]
      exact ⟨(congrArg Pixel.learnLines hafter).trans hlines, congrArg Pixel.phase hafter⟩
    · have hgoes : ¬ EndsLearning s.dev.base f ln.head (s.dev.base.litSamples f ln.raw) (lineTaken s f ln.head rest) := by
        rintro ⟨_, hle⟩
        rw [hlength, hlines] at hle
        exact hend hle
      have hafter := processLine_pixel_goes_on s.dev.base f hgoes
      rw [if_neg hend]
      exact ⟨(congrArg Pixel.learnLines hafter).trans hlines, (congrArg Pixel.phase hafter).trans (hphase'.trans hphase)⟩
  case line =>
    rintro f s ln rest x raw i j kind coated ends hin hno rfl rfl hi hj hj' hkind hphase hwf hcoated hends
    obtain rfl := lineTaken_eq hi hj hj'
    have hpixel := lineTaken_pixel s f ln.head rest
    have hlearns : coated ↔ (lineContext s.dev.base f ln.head (lineTaken s f ln.head rest)).learnsLine = true := by
      rw [hcoated, learnsLine_iff]
      refine ⟨fun h => ⟨(congrArg Pixel.phase hpixel).trans hphase, h⟩, fun h => h.2⟩
    obtain ⟨hphase', hlength, hlines⟩ := linePixel_fields f s.dev.base ln.head (s.dev.base.litSamples f ln.raw)
      (lineTaken s f ln.head rest)
    rw [hpixel] at hlines hlength hphase'
    have hlinesCoated : coated → (linePixel s.dev.base f ln.head (s.dev.base.litSamples f ln.raw)
        (lineTaken s f ln.head rest)).learnLines = (s.dev.face f).pixel.learnLines + 1 := fun hc =>
      hlines.trans (if_pos (hlearns.mp hc))
    have hlinesNot : ¬ coated → (linePixel s.dev.base f ln.head (s.dev.base.litSamples f ln.raw)
        (lineTaken s f ln.head rest)).learnLines = (s.dev.face f).pixel.learnLines := fun hc =>
      hlines.trans (if_neg fun h => hc (hlearns.mpr h))
    have hends' : ends ↔ EndsLearning s.dev.base f ln.head (s.dev.base.litSamples f ln.raw) (lineTaken s f ln.head rest) := by
      rw [hends, EndsLearning, hlength]
      refine ⟨fun ⟨hc, hle⟩ => ⟨hlearns.mp hc, (hlinesCoated hc).symm ▸ hle⟩, fun ⟨hc, hle⟩ => ⟨hlearns.mpr hc, ?_⟩⟩
      rwa [hlinesCoated (hlearns.mpr hc)] at hle
    obtain ⟨hafterLines, hafterLength⟩ := processLine_lines s.dev.base f ln
      (s.dev.insp.onFace f fun x => { x with asm := { x.asm with handed := rest } })
    have hcol (k : Nat) : ((lineTaken s f ln.head rest).face f).pixel.col k = (s.dev.face f).pixel.col k := by
      rw [hpixel]
      rfl
    have hcanon : twf PixelColumn.fresh (linePixel s.dev.base f ln.head (s.dev.base.litSamples f ln.raw)
        (lineTaken s f ln.head rest)).cols = true := by
      refine linePixel_cols_canonical _ _ _ _ ?_
      rw [hpixel]
      exact hwf
    refine ⟨_, next_dev (takePixelLine_eq f hin hno), fun hc => hafterLines.trans (hlinesCoated hc),
      fun hc => hafterLines.trans (hlinesNot hc), hafterLength.trans hlength,
      fun he => congrArg Pixel.phase (processLine_pixel_ends s.dev.base f (hends'.mp he)),
      fun he => (congrArg Pixel.phase (processLine_pixel_goes_on s.dev.base f (hends'.not.mp he))).trans (hphase'.trans hphase),
      fun k => ⟨(linePixel s.dev.base f ln.head (s.dev.base.litSamples f ln.raw) (lineTaken s f ln.head rest)).col k,
        fun hvoid => (linePixel_col_void _ _ _ _ hvoid).trans (hcol k), fun y collects hone hcollects => ?collects, fun he => ?learned,
        fun he => ?kept⟩, fun he => ?done, fun he => ?quiet⟩
    case collects =>
      have hone' : (s.dev.base.litSamples f ln.raw).filter (fun e => decide (e.1 = k)) = [(k, y)] := hone
      have hstep := linePixel_learning (b := s.dev.base) (h := ln.head) (i := lineTaken s f ln.head rest)
        ((congrArg Pixel.phase hpixel).trans hphase) (hcol k) hone'
      have hadapts : collects ↔ (lineContext s.dev.base f ln.head (lineTaken s f ln.head rest)).adapts
          ((s.dev.base.banks.plan f).map fun p => planEntry p k) = true ∧ ((s.dev.face f).pixel.col k).count < 4096 := by
        rw [hcollects, lineContext_adapts, hcoated, hkind]
        exact collects_on_line
      exact ⟨fun hc => hstep.trans (if_pos (hadapts.mp hc)), fun hc => hstep.trans (if_neg (hadapts.not.mp hc))⟩
    case learned =>
      refine (congrArg (fun y : Pixel => y.col k) (processLine_pixel_ends s.dev.base f (hends'.mp he))).trans ?_
      exact tget_tmap PixelColumn.learn rfl hcanon k
    case kept =>
      exact congrArg (fun y : Pixel => y.col k) (processLine_pixel_goes_on s.dev.base f (hends'.not.mp he))
    case done =>
      have hline : processLine s.dev.base f ln (s.dev.insp.onFace f fun x => { x with asm := { x.asm with handed := rest } }) =
          endLearning s.dev.base f ln.head (lineHanded s.dev.base f ln.head (s.dev.base.litSamples f ln.raw)
            (lineTaken s f ln.head rest)) := processLine_ends s.dev.base f (hends'.mp he)
      have hout := endLearning_out s.dev.base f ln.head
        (lineHanded s.dev.base f ln.head (s.dev.base.litSamples f ln.raw) (lineTaken s f ln.head rest))
      have hhanded : ((lineHanded s.dev.base f ln.head (s.dev.base.litSamples f ln.raw)
          (lineTaken s f ln.head rest)).face f).pixel.learnLength = (s.dev.face f).pixel.learnLength := by
        rw [lineHanded_face]
        exact hlength
      have hkinds : kind = fun k => (planEntry ((s.dev.base.banks.plan f).getD []) k).kind := funext hkind
      rw [lineHanded_out, lineHanded_lost, unlearnedLanes_eq, hhanded, ← hline] at hout
      rw [hkinds]
      exact hout
    case quiet =>
      exact (congrArg Insp.out (processLine_goes_on s.dev.base f (hends'.not.mp he))).trans (lineHanded_out _ _ _ _ _)
end

section
/-! R39, R41 to R43, R61, R67: the record of a line, and what a line leaves. -/

namespace Sys2Proof.Machine

open Sys2Proof

/-! ### The flag of a column (R43) -/

section Flags

variable {x : LineContext} {e : Option PlanEntry} {learned : Bool} {dev : Int}

theorem flags_iff : x.flags e learned = true ↔ x.cls = .inspection ∧ x.phase = .detecting ∧ x.zone = some .coated ∧
    learned = true ∧ (planKind e).detects = true := by
  simp only [LineContext.flags, Bool.and_eq_true, decide_eq_true_eq, and_assoc]

theorem detects_entry (y : RecordColumn) : y.detects = (planKind y.entry).detects := by
  unfold RecordColumn.detects planKind
  cases y.entry <;> rfl

theorem flag_none (h : ¬ x.flags e learned = true) : x.flag e learned dev = none := if_neg h

theorem flag_some (h : x.flags e learned = true) : x.flag e learned dev =
    flagOf dev (tget TierRow.empty x.thresholds (x.tiers.getD ((e.bind (·.lane)).getD 0) 0)) := if_pos h

theorem flagOf_bright {t : TierRow} (h : 16 * (t.tb : Int) ≤ dev) : flagOf dev t = some .bright := if_pos h

theorem flagOf_dark {t : TierRow} (h : dev < 16 * (t.tb : Int)) (hd : dev ≤ -(16 * (t.td : Int))) :
    flagOf dev t = some .dark := (if_neg (by omega)).trans (if_pos hd)

theorem flagOf_none {t : TierRow} (h : dev < 16 * (t.tb : Int)) (hd : -(16 * (t.td : Int)) < dev) : flagOf dev t = none :=
  (if_neg (by omega)).trans (if_neg (by omega))

end Flags

/-! ### The record (R39) -/

section Record

variable {b : Base} {f : FaceId} {h : LineHead} {i : Insp} {raw : Table Sample}

/-- What the record carries for a sample. -/
def recordColumn (b : Base) (f : FaceId) (h : LineHead) (i : Insp) (k : Nat) (v : Sample) : RecordColumn :=
  ((lineContext b f h i).column (b.flatOf v) ((i.face f).pixel.col k) k v.raw).1

theorem lineRecord_cols : (lineRecord b f h i raw).cols = raw.map fun e => (e.1, recordColumn b f h i e.1 e.2) := by
  show ((lineContext b f h i).columns b (i.face f).pixel raw).map _ = _
  rw [LineContext.columns, List.map_map]
  rfl

theorem mem_record_cols {k : Nat} {y : RecordColumn} :
    (k, y) ∈ (lineRecord b f h i raw).cols ↔ ∃ v, (k, v) ∈ raw ∧ recordColumn b f h i k v = y := by
  rw [lineRecord_cols, List.mem_map]
  constructor
  · rintro ⟨⟨k', v⟩, hv, heq⟩
    obtain ⟨rfl, rfl⟩ := Prod.mk.inj heq
    exact ⟨v, hv, rfl⟩
  · rintro ⟨v, hv, rfl⟩
    exact ⟨(k, v), hv, rfl⟩

theorem record_exit_iff : (lineRecord b f h i raw).exit = true ↔ h.cls = .inspection ∧
    (i.face f).pattern.lastZone = some .coated ∧ (lineRecord b f h i raw).zone ≠ some .coated := by
  show coatingExit _ _ _ = true ↔ _
  simp only [coatingExit, Bool.and_eq_true, decide_eq_true_eq, and_assoc]
  rfl

theorem record_learned_iff (hwf : twf PixelColumn.fresh (i.face f).pixel.cols = true) (k : Nat) :
    k ∈ (lineRecord b f h i raw).learned ↔ ((i.face f).pixel.col k).learned = true := by
  show k ∈ ((i.face f).pixel.cols.filter fun e => e.2.learned).map (·.1) ↔ _
  constructor
  · intro hk
    obtain ⟨⟨k, v⟩, he, rfl⟩ := List.mem_map.mp hk
    obtain ⟨hmem, hlearned⟩ := List.mem_filter.mp he
    exact (congrArg PixelColumn.learned (tget_of_mem hwf hmem)).trans hlearned
  · intro hl
    have hne : tget PixelColumn.fresh (i.face f).pixel.cols k ≠ PixelColumn.fresh := fun heq =>
      Bool.false_ne_true ((congrArg PixelColumn.learned heq).symm.trans hl)
    exact List.mem_map_of_mem (f := Prod.fst) (List.mem_filter.mpr ⟨mem_of_tget hne, hl⟩)

/-- R43 on a column of the record. -/
theorem recordColumn_no_flag {k : Nat} {v : Sample} {y : RecordColumn} {zone : Option Zone}
    (hy : recordColumn b f h i k v = y) (hzone : (lineRecord b f h i raw).zone = zone)
    (hno : (i.face f).pixel.phase ≠ .detecting ∨ h.cls = .creep ∨ ((i.face f).pixel.col k).learned = false ∨
      zone ≠ some .coated ∨ y.detects = false) : y.flag = none := by
  subst hy
  refine flag_none fun hflags => ?_
  obtain ⟨hcls, hphase, hcoated, hlearned, hdetects⟩ := flags_iff.mp hflags
  obtain hno | hno | hno | hno | hno := hno
  · exact hno hphase
  · exact absurd (hcls.symm.trans hno) (by decide)
  · exact Bool.false_ne_true (hno.symm.trans hlearned)
  · exact hno (hzone.symm.trans hcoated)
  · exact Bool.false_ne_true ((hno.symm.trans (detects_entry _)).trans hdetects)

theorem recordColumn_flag {k : Nat} {v : Sample} {y : RecordColumn} {zone : Option Zone}
    (hy : recordColumn b f h i k v = y) (hzone : (lineRecord b f h i raw).zone = zone)
    (hphase : (i.face f).pixel.phase = .detecting) (hcls : h.cls = .inspection)
    (hlearned : ((i.face f).pixel.col k).learned = true) (hcoated : zone = some .coated) (hdetects : y.detects = true) :
    y.flag = flagOf y.dev ((b.banks.contents f).tier ((lineRecord b f h i raw).tiers.getD y.lane 0)) := by
  subst hy
  exact flag_some (flags_iff.mpr ⟨hcls, hphase, hzone.trans hcoated, hlearned, (detects_entry _).symm.trans hdetects⟩)

/-- R44, R45: the column with one sample, on a line of a face that is not LEARNING. -/
theorem linePixel_tracking {k : Nat} {v : Sample} (hone : raw.filter (fun e => decide (e.1 = k)) = [(k, v)])
    (hphase : (i.face f).pixel.phase ≠ .learning) :
    (linePixel b f h raw i).col k =
      if (i.face f).pixel.phase = .detecting ∧ (lineContext b f h i).adapts ((b.banks.plan f).map fun p => planEntry p k) = true ∧
        ((i.face f).pixel.col k).learned = true ∧ (recordColumn b f h i k v).flag = none ∧
        (b.banks.contents f).detection.k ≠ 0 then
        { (i.face f).pixel.col k with
          ref := tracked ((i.face f).pixel.col k).ref (recordColumn b f h i k v).dev (b.banks.contents f).detection.k }
      else (i.face f).pixel.col k := by
  rw [linePixel_col_one b f h i hone, snd_column_eq_adapt]
  cases hface : (i.face f).pixel.phase with
  | learning => exact absurd hface hphase
  | idle => exact (adapt_of_idle hface _ _ _ _).trans (if_neg fun hc => Phase.noConfusion hc.1).symm
  | detecting =>
    refine (adapt_of_detecting hface _ _ _ _ _).trans (ite_congr (propext ?_) (fun _ => rfl) (fun _ => rfl))
    exact ⟨fun hc => ⟨rfl, hc⟩, fun hc => hc.2⟩

/-- The columns of a creep line stay. -/
theorem linePixel_creep (hcls : h.cls = .creep) (k : Nat) : (linePixel b f h raw i).col k = (i.face f).pixel.col k := by
  refine linePixel_col_same b f h i fun e _ _ => ?_
  rw [snd_column_eq_adapt]
  refine adapt_of_not_adapts (Bool.eq_false_iff.mpr fun ha => ?_) _ _ _
  exact absurd (((adapts_iff _ _).mp ha).1.symm.trans hcls) (by decide)

end Record

/-! ### What the line leaves -/

section Processed

variable (b : Base) (f : FaceId) (ln : HandedLine) (i : Insp)

/-- The end of a learning phase changes the face's pixel side alone. -/
theorem processLine_face_but_pixel : (processLine b f ln i).face f =
    { (lineHanded b f ln.head (b.litSamples f ln.raw) (lineStart b f ln.head (linePlaced b f ln.head i))).face f with
      pixel := ((processLine b f ln i).face f).pixel } := by
  by_cases hend : EndsLearning b f ln.head (b.litSamples f ln.raw) (lineStart b f ln.head (linePlaced b f ln.head i))
  · rw [processLine_ends b f hend, endLearning_face]
  · rw [processLine_goes_on b f hend]

/-- The end of a learning phase changes the columns and the phase alone. -/
theorem processLine_pixel_but_learned : ((processLine b f ln i).face f).pixel =
    { linePixel b f ln.head (b.litSamples f ln.raw) (lineStart b f ln.head (linePlaced b f ln.head i)) with
      cols := ((processLine b f ln i).face f).pixel.cols, phase := ((processLine b f ln i).face f).pixel.phase } := by
  by_cases hend : EndsLearning b f ln.head (b.litSamples f ln.raw) (lineStart b f ln.head (linePlaced b f ln.head i))
  · rw [processLine_pixel_ends b f hend]
  · rw [processLine_pixel_goes_on b f hend]

theorem processLine_marks : (processLine b f ln i).marks = (lineStart b f ln.head (linePlaced b f ln.head i)).marks := by
  by_cases hend : EndsLearning b f ln.head (b.litSamples f ln.raw) (lineStart b f ln.head (linePlaced b f ln.head i))
  · rw [processLine_ends b f hend]
    exact (Within.endLearning (f := f) ln.head _ b .marks (by simp)).trans (lineHanded_marks _ _ _ _ _)
  · rw [processLine_goes_on b f hend, lineHanded_marks]

variable {b f ln i}

/-- A line goes on without an end of a learning phase where its face is not LEARNING afterwards. -/
theorem not_endsLearning {j : Insp} (h : (j.face f).pixel.phase ≠ .learning ∨ ln.head.cls = .creep) :
    ¬ EndsLearning b f ln.head (b.litSamples f ln.raw) j := by
  rintro ⟨hlearns, _⟩
  obtain ⟨hphase, hcls, _⟩ := learnsLine_iff.mp hlearns
  obtain h | h := h
  · exact h hphase
  · exact absurd (hcls.symm.trans h) (by decide)

/-- A creep line is recorded and counted, and nothing else. -/
theorem Within.processLine_creep (hcls : ln.head.cls = .creep) :
    Within [.pixel f, .blob f, .streak f, .preview f] i (Machine.processLine b f ln i) := by
  rw [processLine_goes_on b f (not_endsLearning (.inr hcls)), lineStart_same _ _ _ _ (.inr hcls)]
  unfold lineHanded Machine.keepZone
  rw [if_neg (by rw [hcls]; decide)]
  exact Within.after (Within.handOn _ _) <| Within.after (Within.pixel _ f _) <| Within.after (Within.pixel _ f _) <|
    Within.refl _ _

end Processed

/-! ### The zone of the last inspection line (R67) -/

section LastZone

variable (b : Base) (f : FaceId) (h : LineHead) (e : Int) (i : Insp)

/-- The events of a pattern step leave the zone of the last inspection line. -/
theorem reachEdge_lastZone : ((reachEdge b f h e i).face f).pattern.lastZone = (i.face f).pattern.lastZone := by
  unfold reachEdge offerPattern
  dsimp only
  rw [consumed_face]
  cases (i.face f).pattern.state with
  | none => exact congrArg (fun y : Face => y.pattern.lastZone) consumed_face
  | some x =>
    cases x <;> dsimp only
    case continuous => exact congrArg (fun y : Face => y.pattern.lastZone) consumed_face
    case lost => rw [offerStatus_face, onFace_face]
    case seeking => rw [onFace_face]
    case synced => split <;> rw [onFace_face]
    case coasting => split <;> rw [onFace_face]

theorem reachLimit_lastZone : ((reachLimit b f h i).face f).pattern.lastZone = (i.face f).pattern.lastZone := by
  unfold reachLimit offerPattern
  dsimp only
  cases (i.face f).pattern.state with
  | none => rfl
  | some x =>
    cases x <;> dsimp only
    case seeking => rw [offerStatus_face, onFace_face]
    case synced => split <;> simp only [offerStatus_face, onFace_face]
    case coasting => split <;> simp only [offerStatus_face, onFace_face]

variable {b f h i}

theorem nextEvent_edge_or_limit {j : Insp} (hj : nextEvent b f h i = some j) :
    (∃ e, j = reachEdge b f h e i) ∨ j = reachLimit b f h i := by
  unfold nextEvent at hj
  cases hedge : nextEdge b f i with
  | none =>
    cases hlimit : nextLimit b f i <;> simp only [hedge, hlimit] at hj
    · exact absurd hj (Option.some_ne_none j).symm
    · exact .inr (Option.some.inj ((Option.ite_none_right_eq_some.mp hj).2)).symm
  | some e =>
    cases hlimit : nextLimit b f i <;> simp only [hedge, hlimit] at hj
    · exact .inl ⟨e, (Option.some.inj ((Option.ite_none_right_eq_some.mp hj).2)).symm⟩
    · split at hj
      · exact .inl ⟨e, (Option.some.inj ((Option.ite_none_right_eq_some.mp hj).2)).symm⟩
      · exact .inr (Option.some.inj ((Option.ite_none_right_eq_some.mp hj).2)).symm

theorem patternStep_lastZone : ((patternStep b f h i).face f).pattern.lastZone = (i.face f).pattern.lastZone := by
  refine patternStep_keeps (P := fun j => (j.face f).pattern.lastZone = (i.face f).pattern.lastZone) (fun j k hj hk => ?_) rfl
  obtain ⟨e, rfl⟩ | rfl := nextEvent_edge_or_limit hk
  · exact (reachEdge_lastZone b f h e j).trans hj
  · exact (reachLimit_lastZone b f h j).trans hj

theorem lineStart_lastZone : ((lineStart b f h i).face f).pattern.lastZone = (i.face f).pattern.lastZone := by
  have htier : ((tierLineStart b f h i).face f).pattern = (i.face f).pattern :=
    Within.tierLineStart (f := f) h i b (.pattern f) (by simp)
  unfold lineStart
  split
  · rw [patternStep_lastZone, htier]
  · rfl

end LastZone

/-- What the line's start leaves of its face. -/
theorem lineTaken_rest (s : State) (f : FaceId) (h : LineHead) (rest : List HandedLine) :
    ((lineTaken s f h rest).face f).asm = { (s.dev.face f).asm with handed := rest } ∧
    ((lineTaken s f h rest).face f).blob = (s.dev.face f).blob ∧
    ((lineTaken s f h rest).face f).streak = (s.dev.face f).streak ∧
    ((lineTaken s f h rest).face f).preview = (s.dev.face f).preview ∧
    ((lineTaken s f h rest).face f).pattern.lastZone = (s.dev.face f).pattern.lastZone := by
  have hplaced := linePlaced_face s.dev.base f h (s.dev.insp.onFace f fun x => { x with asm := { x.asm with handed := rest } })
  rw [onFace_face] at hplaced
  have hstart := Within.lineStart (b := s.dev.base) (f := f) h
    (linePlaced s.dev.base f h (s.dev.insp.onFace f fun x => { x with asm := { x.asm with handed := rest } })) s.dev.base
  exact ⟨(hstart (.asm f) (by simp)).trans (congrArg Face.asm hplaced :),
    (hstart (.blob f) (by simp)).trans (congrArg Face.blob hplaced :),
    (hstart (.streak f) (by simp)).trans (congrArg Face.streak hplaced :),
    (hstart (.preview f) (by simp)).trans (congrArg Face.preview hplaced :),
    lineStart_lastZone.trans (congrArg (fun y : Face => y.pattern.lastZone) hplaced :)⟩

/-- What a column's tracking step demands, its place and the line's class apart. -/
theorem tracks_in_order {detecting inspection learned quiet moves place : Prop} :
    detecting ∧ inspection ∧ learned ∧ quiet ∧ moves ∧ place ↔ detecting ∧ (inspection ∧ place) ∧ learned ∧ quiet ∧ moves := by
  tauto

end Sys2Proof.Machine

open Sys2Proof Sys2Proof.Machine

/-- Settles O28: the record and the columns of the line, over the state its start leaves. -/
theorem pixelChainHandsOnRecord : Obligations.PixelChainHandsOnRecord := by
  unfold Obligations.PixelChainHandsOnRecord
  rintro f s ln rest x raw i j hin rfl hno rfl hi hj
  have hj : j = lineTaken s f ln.head rest := by
    refine lineTaken_eq hi (fun hrun hcls => hj.trans (if_pos ⟨hrun, hcls⟩)) fun hno => hj.trans (if_neg ?_)
    rintro ⟨hrun, hcls⟩
    obtain hno | hno := hno
    · exact Bool.false_ne_true (hno.symm.trans hrun)
    · exact absurd (hcls.symm.trans hno) (by decide)
  have hpixel : (j.face f).pixel = _ := (congrArg (fun j : Insp => (j.face f).pixel) hj).trans (lineTaken_pixel s f ln.head rest)
  have hphase : (j.face f).pixel.phase = (s.dev.face f).pixel.phase := (congrArg Pixel.phase hpixel :)
  have hcol (k : Nat) : (j.face f).pixel.col k = (s.dev.face f).pixel.col k := (congrArg (fun y : Pixel => y.col k) hpixel :)
  obtain ⟨hasm, hblob, hstreak, hpreview, hzone⟩ := lineTaken_rest s f ln.head rest
  have hface := processLine_face_but_pixel s.dev.base f ln
    (s.dev.insp.onFace f fun x => { x with asm := { x.asm with handed := rest } })
  have hafter := processLine_pixel_but_learned s.dev.base f ln
    (s.dev.insp.onFace f fun x => { x with asm := { x.asm with handed := rest } })
  have hmarks := processLine_marks s.dev.base f ln
    (s.dev.insp.onFace f fun x => { x with asm := { x.asm with handed := rest } })
  have hgoes (h : (j.face f).pixel.phase ≠ .learning ∨ ln.head.cls = .creep) := processLine_goes_on s.dev.base f (ln := ln)
    (i := s.dev.insp.onFace f fun x => { x with asm := { x.asm with handed := rest } })
    (not_endsLearning (h.imp_left fun hx => by rwa [hj] at hx))
  have hstart : lineStart s.dev.base f ln.head (linePlaced s.dev.base f ln.head
    (s.dev.insp.onFace f fun x => { x with asm := { x.asm with handed := rest } })) = j := hj.symm
  rw [← hj] at hasm hblob hstreak hpreview hzone
  rw [hstart] at hface hafter hmarks hgoes
  rw [lineHanded_face] at hface
  have hgoesPixel (h : (j.face f).pixel.phase ≠ .learning ∨ ln.head.cls = .creep) :=
    (congrArg (fun j : Insp => (j.face f).pixel) (hgoes h)).trans (congrArg Face.pixel (lineHanded_face _ _ _ _ _))
  have hlanes (h : (s.dev.face f).pixel.phase ≠ .learning ∨ ln.head.cls = .creep) : (j.face f).pixel.phase ≠ .learning ∨
      ln.head.cls = .creep := h.imp_left fun hx => hphase.symm ▸ hx
  refine ⟨_, lineRecord s.dev.base f ln.head j (s.dev.base.litSamples f ln.raw), next_dev (takePixelLine_eq f hin hno),
    (congrArg Face.asm hface :).trans hasm, (congrArg Face.blob hface :).trans (by rw [hblob]), (congrArg Face.streak hface :).trans (by rw [hstreak]),
    (congrArg Face.preview hface :).trans (by rw [hpreview]), hmarks, (congrArg Face.tier hface :),
    fun h => (congrArg Insp.out (hgoes (hlanes (.inl h)))).trans (lineHanded_out _ _ _ _ _), (congrArg Face.pattern hface :),
    rfl, hphase, rfl, rfl, rfl, rfl, ?exit, fun k => ?kinds, fun hwf k => ?learned, ?names, fun k v hkv => ?column,
    fun k hvoid hx => ?void, fun k n v y kind tracks hx hone hy hkind hn htracks => ?tracking,
    ?processed, (congrArg Pixel.lastClip hafter :), ?clipped, ?reservation, ?last, fun hcls => ?creep, ?only⟩
  case exit =>
    rw [record_exit_iff, hzone]
  case kinds =>
    show columnKind (s.dev.base.banks.plan f) (s.dev.base.lit f) k = _
    unfold columnKind
    rw [inSpans_lit]
    cases s.dev.base.dark f k <;> rfl
  case learned =>
    rw [record_learned_iff (by rw [hpixel]; exact hwf), hcol]
  case names =>
    rw [lineRecord_cols, List.map_map]
    rfl
  case column =>
    refine ⟨recordColumn s.dev.base f ln.head j k v, _, mem_record_cols.mpr ⟨v, hkv, rfl⟩, rfl, rfl, ?_, ?_, rfl, fun hno => ?_,
      fun hx hcls hlearned hcoated hdetects => ?_⟩
    · rw [← hcol]
      rfl
    · rw [← hcol]
      rfl
    · refine recordColumn_no_flag (b := s.dev.base) (f := f) (raw := s.dev.base.litSamples f ln.raw) rfl rfl ?_
      rw [hphase, hcol]
      exact hno
    · have hflag := recordColumn_flag (b := s.dev.base) (f := f) (raw := s.dev.base.litSamples f ln.raw) rfl rfl
        (hphase.trans hx) hcls ((congrArg PixelColumn.learned (hcol k)).trans hlearned) hcoated hdetects
      exact ⟨fun hb => hflag.trans (flagOf_bright hb), fun hb hd => hflag.trans (flagOf_dark hb hd),
        fun hb hd => hflag.trans (flagOf_none hb hd)⟩
  case void =>
    have hnot : ¬ EndsLearning s.dev.base f ln.head (s.dev.base.litSamples f ln.raw) j := fun hends => by
      have hdetecting : (s.dev.face f).pixel.phase = .detecting :=
        hx.symm.trans (congrArg Pixel.phase (processLine_pixel_ends s.dev.base f (by rwa [← hstart] at hends)))
      exact absurd ((hphase.trans hdetecting).symm.trans (learnsLine_iff.mp hends.1).1) (by decide)
    have hgoes := processLine_pixel_goes_on s.dev.base f (by rwa [← hstart] at hnot)
    rw [hstart] at hgoes
    exact (congrArg (fun y : Pixel => y.col k) hgoes).trans ((linePixel_col_void _ _ _ _ hvoid).trans (hcol k))
  case tracking =>
    obtain ⟨v', hv', rfl⟩ := mem_record_cols.mp hy
    have hmem : (k, v') ∈ (s.dev.base.litSamples f ln.raw).filter fun e => decide (e.1 = k) :=
      List.mem_filter.mpr ⟨hv', decide_eq_true rfl⟩
    obtain rfl : v' = v := (Prod.mk.inj (List.mem_singleton.mp (hone ▸ hmem))).2
    have hstep := (congrArg (fun y : Pixel => y.col k) (hgoesPixel (hlanes (.inl hx)))).trans
      (linePixel_tracking (h := ln.head) (i := j) hone (by rw [hphase]; exact hx))
    rw [hphase, hcol] at hstep
    have hconds : tracks ↔ (s.dev.face f).pixel.phase = .detecting ∧
        (lineContext s.dev.base f ln.head j).adapts ((s.dev.base.banks.plan f).map fun p => planEntry p k) = true ∧
        ((s.dev.face f).pixel.col k).learned = true ∧ (recordColumn s.dev.base f ln.head j k v').flag = none ∧
        (s.dev.base.banks.contents f).detection.k ≠ 0 := by
      rw [htracks, tracks_in_order, lineContext_adapts, ← hkind, hn]
      rfl
    refine ⟨fun ht => ⟨_, ?_, hstep.trans (if_pos (hconds.mp ht))⟩, fun ht => hstep.trans (if_neg (hconds.not.mp ht))⟩
    have hdev : (recordColumn s.dev.base f ln.head j k v').dev =
        deviation (corrected v'.raw (s.dev.base.flatOf v')) ((s.dev.face f).pixel.col k).ref := by
      rw [← hcol]
      rfl
    rw [hdev, tracked_eq_add_trackStep, trackStep_eq_tdiv_pow, hn]
  case processed =>
    refine (congrArg Pixel.processed hafter :).trans ?_
    exact (congrArg (fun y : Pixel => min (y.processed + 1) 4294967295) hpixel :)
  case clipped =>
    refine (congrArg Pixel.clipped hafter :).trans ?_
    refine (congrArg (fun y : Pixel => min (y.clipped + _) 4294967295) hpixel :).trans ?_
    exact (congrArg (fun y : Pixel => min ((s.dev.face f).pixel.clipped + y.lastClip) 4294967295) hafter :).symm
  case reservation =>
    exact (congrArg Pixel.reservation hafter :).trans (congrArg Pixel.reservation hpixel :)
  case last =>
    exact (congrArg Pixel.lastPos hafter :).trans (congrArg Pixel.lastPos hpixel :)
  case creep =>
    have hline := hgoesPixel (.inr hcls)
    refine ⟨⟨rfl, ?_⟩, fun k => ?_, ?_, ?_⟩
    · refine Touches.insp ?_
      exact Within.after (Within.processLine_creep hcls) <| Within.after (Within.asm _ f _) <| Within.refl _ _
    · exact (congrArg (fun y : Pixel => y.col k) hline :).trans ((linePixel_creep hcls k).trans (hcol k))
    · exact (congrArg Pixel.phase hline :).trans hphase
    · refine (congrArg Pixel.learnLines hline :).trans ?_
      refine Eq.trans (if_neg fun hlearns => ?_) (congrArg Pixel.learnLines hpixel :)
      exact absurd (hcls.symm.trans (learnsLine_iff.mp hlearns).2.1) (by decide)
  case only =>
    refine ⟨rfl, Touches.insp ?_⟩
    exact Within.after (Within.processLine _ _) <| Within.after (Within.asm _ f _) <| Within.refl _ _
end

section
/-! R50, R68, R140, R153, R154: a face's switch to the scheduled bank, and the line it is made before. -/

namespace Sys2Proof.Machine

open Sys2Proof

/-! ### The banks (R153) -/

section SwitchBanks

variable {b : Banks} {f : FaceId} {new : BankId}

/-- The banks stand ready for a face's switch. -/
def ReadyToSwitch (b : Banks) (f : FaceId) (new : BankId) : Prop :=
  (f = .lead → (b.bank new).state = .scheduled ∧ (b.bank new.other).state = .active .both) ∧
    (f = .trail → (b.bank new).state = .active .lead ∧ (b.bank new.other).state = .active .trail)

theorem scheduled_ready (h : ReadyToSwitch b .lead new) : b.scheduled = some new := by
  obtain ⟨hnew, hother⟩ := h.1 rfl
  cases new with
  | bank0 => exact if_pos hnew
  | bank1 => exact (if_neg fun h0 => BankState.noConfusion (hother.symm.trans h0)).trans (if_pos hnew)

theorem midChange_ready (h : ReadyToSwitch b .trail new) : b.midChange = some new := by
  obtain ⟨hnew, hother⟩ := h.2 rfl
  cases new with
  | bank0 => exact if_pos hnew
  | bank1 => exact (if_neg fun h0 => absurd (hother.symm.trans h0) (by decide)).trans (if_pos hnew)

theorem switchTarget_ready {base : Base} {p y : Int} (h : ReadyToSwitch base.banks f new) (hp : base.banks.switchPos = some p)
    (hle : p ≤ y) : switchTarget base f y = some new := by
  unfold switchTarget
  rw [hp]
  refine (if_pos hle).trans ?_
  cases f with
  | lead => exact scheduled_ready h
  | trail => exact midChange_ready h

theorem switched_compiled (b : Banks) (f : FaceId) (i j : BankId) : ((b.switched f i).bank j).compiled = (b.bank j).compiled := by
  cases f <;> cases i <;> cases j <;> rfl

theorem switched_activeOn (b : Banks) (f : FaceId) (i : BankId) : (b.switched f i).activeOn f = some i := by
  cases f <;> cases i <;> rfl

theorem switched_contents (b : Banks) (f : FaceId) (i : BankId) : (b.switched f i).contents f = (b.bank i).contents := by
  unfold Banks.contents
  rw [switched_activeOn]
  exact switched_bank b f i i

end SwitchBanks

/-! ### Under the new bank (R50, R68, R72, R140) -/

section NewBank

variable (b : Base) (f : FaceId) (h : LineHead) (i : Insp)

theorem enterPattern_eq (x : Pattern) : enterPattern b f x = { x with
    state := some (if (b.banks.contents f).pattern.g = 0 then .continuous else .seeking), edge := none, misses := 0,
    seek := if (b.banks.contents f).pattern.g = 0 then none else some (b.motion.h + b.dieOffset f) } := by
  unfold enterPattern
  dsimp only
  split <;> rfl

theorem enterPattern_not_lost (x : Pattern) : (enterPattern b f x).state ≠ some .lost := by
  rw [enterPattern_eq]
  dsimp only
  split <;> nofun

theorem switchPattern_pattern : ((switchPattern b f h i).face f).pattern = enterPattern b f (i.face f).pattern := by
  unfold switchPattern offerPattern
  dsimp only
  split
  · rw [offerStatus_face, onFace_face]
  · rw [onFace_face]

/-- R140: the tier state of a face loaded at the line of its switch. -/
def switchedTier (x : Tier) : Tier := (x.load (b.banks.contents f).tierPolicy h.pos).testAlert (b.na f)

theorem loadTiersAtSwitch_eq : loadTiersAtSwitch b f h i = offerAlert (b.na f) f (some (h.index, h.pos)) (i.face f).tier
    (switchedTier b f h (i.face f).tier) (offerLanes b f .changeover (some (h.index, h.pos)) (i.face f).tier
      (switchedTier b f h (i.face f).tier) (List.range 16) (i.onFace f fun x => { x with
        tier := switchedTier b f h (i.face f).tier })) := rfl

theorem loadTiersAtSwitch_tier : ((loadTiersAtSwitch b f h i).face f).tier = switchedTier b f h (i.face f).tier := by
  rw [loadTiersAtSwitch_eq, offerAlert_tier, offerLanes_tier, onFace_face]

theorem switchedTier_lane (x : Tier) {j : Nat} (hj : j < 16) :
    (switchedTier b f h x).lane j = (b.banks.contents f).tierPolicy.lane :=
  (tget_foldl_tset Lane.powerOn (b.banks.contents f).tierPolicy.lane laneNumbers [] j).trans (if_pos (List.mem_range.mpr hj))

theorem switchedTier_eq (x : Tier) : switchedTier b f h x = { x with
    lanes := (switchedTier b f h x).lanes, current := 0, next := some (h.pos + (b.banks.contents f).tierPolicy.span),
    fa := (b.banks.contents f).tierPolicy.fa, alert := decide (b.na f ≤ (switchedTier b f h x).atT2),
    alerts := if b.na f ≤ (switchedTier b f h x).atT2 ∧ x.alert = false then min (x.alerts + 1) 4294967295 else x.alerts } := by
  conv_lhs => rw [switchedTier, testAlert_eq]
  rfl

theorem switchedTier_canonical (x : Tier) : twf Lane.powerOn (switchedTier b f h x).lanes = true :=
  twf_load x (b.banks.contents f).tierPolicy h.pos

theorem switchLearning_enters (hl : (b.banks.contents f).tierPolicy.learnOnEntry = true) :
    switchLearning b f i = enterLearning b f i := if_pos hl

theorem switchLearning_stays (hl : (b.banks.contents f).tierPolicy.learnOnEntry = false) : switchLearning b f i =
    if (i.face f).pixel.phase = .learning then i.onFace f fun x => { x with pixel := { x.pixel with
      learnLength := (b.banks.contents f).detection.learnLength } } else i :=
  if_neg fun ht => Bool.false_ne_true (hl.symm.trans ht)

/-- R153: a face whose blobs and streaks are closed takes up the new bank. -/
def takeUpBank : Insp := switchLearning b f (loadTiersAtSwitch b f h (switchPattern b f h i))

theorem Within.takeUpBank : Within [.pixel f, .pattern f, .tier f, .out] i (Machine.takeUpBank b f h i) :=
  Within.after (Within.switchLearning _) <| Within.after (Within.loadTiersAtSwitch _ _) <|
    Within.after (Within.switchPattern _ _) <| Within.refl _ _

theorem takeUpBank_pattern : ((takeUpBank b f h i).face f).pattern = enterPattern b f (i.face f).pattern := by
  have hlearning := Within.switchLearning (b := b) (f := f) (loadTiersAtSwitch b f h (switchPattern b f h i)) b (.pattern f) (by simp)
  have htiers := Within.loadTiersAtSwitch (b := b) (f := f) h (switchPattern b f h i) b (.pattern f) (by simp)
  exact (hlearning.trans htiers).trans (switchPattern_pattern b f h i)

theorem takeUpBank_tier : ((takeUpBank b f h i).face f).tier = switchedTier b f h (i.face f).tier := by
  have hlearning := Within.switchLearning (b := b) (f := f) (loadTiersAtSwitch b f h (switchPattern b f h i)) b (.tier f) (by simp)
  have hpattern := Within.switchPattern (b := b) (f := f) h i b (.tier f) (by simp)
  exact (hlearning.trans (loadTiersAtSwitch_tier b f h _)).trans (congrArg (switchedTier b f h) hpattern)

theorem takeUpBank_pixel_before : ((loadTiersAtSwitch b f h (switchPattern b f h i)).face f).pixel = (i.face f).pixel := by
  have htiers := Within.loadTiersAtSwitch (b := b) (f := f) h (switchPattern b f h i) b (.pixel f) (by simp)
  exact htiers.trans (Within.switchPattern (b := b) (f := f) h i b (.pixel f) (by simp))

theorem takeUpBank_pixel_enters (hl : (b.banks.contents f).tierPolicy.learnOnEntry = true) :
    ((takeUpBank b f h i).face f).pixel =
      (i.face f).pixel.enterLearning (b.banks.contents f).detection.learnLength := by
  rw [takeUpBank, switchLearning_enters b f _ hl, enterLearning, onFace_face, takeUpBank_pixel_before]

theorem takeUpBank_pixel_stays (hl : (b.banks.contents f).tierPolicy.learnOnEntry = false) :
    ((takeUpBank b f h i).face f).pixel = if (i.face f).pixel.phase = .learning then
      { (i.face f).pixel with learnLength := (b.banks.contents f).detection.learnLength } else (i.face f).pixel := by
  rw [takeUpBank, switchLearning_stays b f _ hl]
  have hbefore := takeUpBank_pixel_before b f h i
  by_cases hphase : (i.face f).pixel.phase = .learning
  · rw [if_pos hphase, if_pos (by rw [hbefore]; exact hphase), onFace_face, hbefore]
  · rw [if_neg hphase, if_neg (by rw [hbefore]; exact hphase), hbefore]

theorem takeUpBank_reservation : ((takeUpBank b f h i).face f).pixel.reservation = (i.face f).pixel.reservation := by
  cases hl : (b.banks.contents f).tierPolicy.learnOnEntry with
  | true => rw [takeUpBank_pixel_enters b f h i hl]; rfl
  | false =>
    rw [takeUpBank_pixel_stays b f h i hl]
    split <;> rfl

/-- R72: a face that leaves LOST at the switch reports it. -/
theorem switchPattern_eq : switchPattern b f h i = if (i.face f).pattern.state = some .lost then
    (i.onFace f fun y => { y with pattern := enterPattern b f y.pattern }).offer .p2 (.status (some f) false (.pattern .lost
      (if (b.banks.contents f).pattern.g = 0 then .continuous else .seeking) .changeover h.index (h.pos / 10240) none))
    else i.onFace f fun y => { y with pattern := enterPattern b f y.pattern } := by
  have hlost : (i.onFace f fun y => { y with pattern := enterPattern b f y.pattern }).lost f = false := by
    unfold Insp.lost
    rw [onFace_face]
    exact decide_eq_false (enterPattern_not_lost _ _ _)
  have hstate : (((i.onFace f fun y => { y with pattern := enterPattern b f y.pattern }).face f).pattern.state).getD .continuous =
      if (b.banks.contents f).pattern.g = 0 then .continuous else .seeking := by
    rw [onFace_face, enterPattern_eq]
    rfl
  unfold switchPattern offerPattern Insp.offerStatus
  dsimp only
  rw [Option.map_some, Option.getD_some, hlost, hstate]
  exact if_congr decide_eq_true_iff rfl rfl

end NewBank

/-! ### The line after the switch -/

section LineAfter

variable (b : Base) (f : FaceId) (ln : HandedLine) (i : Insp)

/-- The state after the start of the line. -/
def lineStarted : Insp := lineStart b f ln.head (linePlaced b f ln.head i)

theorem lineStarted_pixel : ((lineStarted b f ln i).face f).pixel = { (i.face f).pixel with
    lastPos := if b.banks.running then some ln.head.pos else (i.face f).pixel.lastPos } := by
  rw [lineStarted, lineStart_pixel, linePlaced_face]

theorem processLine_open : ((processLine b f ln i).face f).blob.openCount = (i.face f).blob.openCount ∧
    ((processLine b f ln i).face f).streak.openCount = (i.face f).streak.openCount := by
  have hstart := Within.lineStart (b := b) (f := f) ln.head (linePlaced b f ln.head i) b
  have hplaced := linePlaced_face b f ln.head i
  rw [processLine_face_but_pixel, lineHanded_face]
  exact ⟨(congrArg Blobs.openCount ((hstart (.blob f) (by simp)).trans (congrArg Face.blob hplaced :)) :),
    (congrArg Streaks.openCount ((hstart (.streak f) (by simp)).trans (congrArg Face.streak hplaced :)) :)⟩

theorem processLine_tier : ((processLine b f ln i).face f).tier = ((lineStarted b f ln i).face f).tier := by
  rw [processLine_face_but_pixel, lineHanded_face]
  rfl

theorem processLine_pattern : ∃ z, ((processLine b f ln i).face f).pattern =
    { ((lineStarted b f ln i).face f).pattern with lastZone := z } := by
  rw [processLine_face_but_pixel, lineHanded_face]
  dsimp only
  split
  · exact ⟨_, rfl⟩
  · exact ⟨_, rfl⟩

/-! #### Learning -/

theorem processLine_learnLength : ((processLine b f ln i).face f).pixel.learnLength = (i.face f).pixel.learnLength := by
  rw [(processLine_lines b f ln i).2]
  exact (congrArg Pixel.learnLength (lineStarted_pixel b f ln i) :)

theorem processLine_reservation : ((processLine b f ln i).face f).pixel.reservation = (i.face f).pixel.reservation := by
  rw [processLine_pixel_but_learned]
  exact (congrArg Pixel.reservation (lineStarted_pixel b f ln i) :)

theorem processLine_learnLines : ((processLine b f ln i).face f).pixel.learnLines =
    if (lineContext b f ln.head (lineStarted b f ln i)).learnsLine then (i.face f).pixel.learnLines + 1
    else (i.face f).pixel.learnLines := by
  rw [(processLine_lines b f ln i).1, (linePixel_fields f b ln.head _ _).2.2]
  have hlines := (congrArg Pixel.learnLines (lineStarted_pixel b f ln i) :)
  exact (congrArg (fun n => if (lineContext b f ln.head (lineStarted b f ln i)).learnsLine then n + 1 else n) hlines :)

theorem processLine_learnLines_between : (i.face f).pixel.learnLines ≤ ((processLine b f ln i).face f).pixel.learnLines ∧
    ((processLine b f ln i).face f).pixel.learnLines ≤ (i.face f).pixel.learnLines + 1 := by
  rw [processLine_learnLines]
  split <;> omega

variable {b f ln i}

theorem processLine_not_learning (hx : (i.face f).pixel.phase ≠ .learning) :
    ((processLine b f ln i).face f).pixel.phase = (i.face f).pixel.phase ∧
    ((processLine b f ln i).face f).pixel.learnLines = (i.face f).pixel.learnLines := by
  have hphase : ((lineStarted b f ln i).face f).pixel.phase = (i.face f).pixel.phase :=
    (congrArg Pixel.phase (lineStarted_pixel b f ln i) :)
  refine ⟨?_, ?_⟩
  · rw [processLine_pixel_goes_on b f (not_endsLearning (.inl fun h => hx (hphase.symm.trans h)))]
    exact hphase
  · rw [processLine_learnLines]
    exact if_neg fun h => hx (hphase.symm.trans (learnsLine_iff.mp h).1)

theorem processLine_learning (hx : (i.face f).pixel.phase = .learning)
    (hlines : (i.face f).pixel.learnLines + 1 < (i.face f).pixel.learnLength) :
    ((processLine b f ln i).face f).pixel.phase = .learning := by
  have hpixel := lineStarted_pixel b f ln i
  have hgoes : ¬ EndsLearning b f ln.head (b.litSamples f ln.raw) (lineStarted b f ln i) := by
    rintro ⟨hlearns, hle⟩
    obtain ⟨_, hlength, hcount⟩ := linePixel_fields f b ln.head (b.litSamples f ln.raw) (lineStarted b f ln i)
    rw [hlength, hcount, if_pos hlearns, hpixel] at hle
    dsimp only at hle
    omega
  rw [processLine_pixel_goes_on b f hgoes]
  exact (congrArg Pixel.phase hpixel :).trans hx

/-- A column collects at most once on a line. -/
theorem adapt_count_le {x : LineContext} {v : PixelColumn} (e : Option PlanEntry) (flag : Option Polarity) (c : Nat) (dev : Int) :
    (x.adapt v e flag c dev).count ≤ v.count + 1 := by
  cases hx : x.phase with
  | idle =>
    rw [adapt_of_idle hx]
    omega
  | learning =>
    rw [adapt_of_learning hx]
    split
    · exact Nat.le_refl _
    · omega
  | detecting =>
    rw [adapt_of_detecting hx]
    split
    · exact Nat.le_succ _
    · omega

theorem linePixel_counts {h : LineHead} {raw : Table Sample} {j : Insp} {n : Nat}
    (hj : AllListed (fun v => v.count ≤ n) (j.face f).pixel.cols) :
    AllListed (fun v => v.count ≤ n + 1) (linePixel b f h raw j).cols := by
  have hcol (k : Nat) : ((j.face f).pixel.col k).count ≤ n :=
    AllListed.tget (p := fun v : PixelColumn => v.count ≤ n) (Nat.zero_le n) hj k
  unfold linePixel pixelAfter LineContext.columns
  dsimp only
  rw [List.foldl_map]
  refine foldl_keeps (p := AllListed fun v : PixelColumn => v.count ≤ n + 1) (fun t e ht => ht.tset _ ?_) _
    (fun e he => Nat.le_succ_of_le (hj e he))
  rw [snd_column_eq_adapt]
  exact (adapt_count_le _ _ _ _).trans (Nat.succ_le_succ (hcol e.1))

theorem learn_count (v : PixelColumn) : v.learn.count = v.count := by
  unfold PixelColumn.learn
  split <;> rfl

/-- On the first line of a learning phase a column collects at most one value. -/
theorem processLine_counts {n : Nat} (hi : AllListed (fun v => v.count ≤ n) (i.face f).pixel.cols) (k : Nat) :
    (((processLine b f ln i).face f).pixel.col k).count ≤ n + 1 := by
  have hstarted : AllListed (fun v => v.count ≤ n) ((lineStarted b f ln i).face f).pixel.cols := by
    rw [lineStarted_pixel]
    exact hi
  have hline := linePixel_counts (b := b) (h := ln.head) (raw := b.litSamples f ln.raw) hstarted
  refine AllListed.tget (p := fun v : PixelColumn => v.count ≤ n + 1) (Nat.zero_le _) ?_ k
  by_cases hend : EndsLearning b f ln.head (b.litSamples f ln.raw) (lineStarted b f ln i)
  · rw [processLine_pixel_ends b f hend]
    exact hline.tmap fun v hv => (learn_count v).trans_le hv
  · rw [processLine_pixel_goes_on b f hend]
    exact hline

theorem clearSums_counts (x : Pixel) : AllListed (fun v => v.count ≤ 0) x.clearSums.cols := fun e he => by
  obtain ⟨hmap, _⟩ := List.mem_filter.mp he
  obtain ⟨v, _, rfl⟩ := List.mem_map.mp hmap
  exact Nat.le_refl 0

/-! #### The pattern state -/

theorem lineStart_quiet {h : LineHead} (hquiet : h.cls = .creep ∨
      (∀ e ∈ nextEdge b f i, h.pos < e) ∧ ∀ l ∈ nextLimit b f i, h.pos < l) :
    ((lineStart b f h i).face f).pattern = (i.face f).pattern := by
  have htier := Within.tierLineStart (b := b) (f := f) h i b
  have hpattern : ((tierLineStart b f h i).face f).pattern = (i.face f).pattern := htier (.pattern f) (by simp)
  have hmarks : (tierLineStart b f h i).marks = i.marks := htier .marks (by simp)
  obtain hcreep | ⟨hedge, hlimit⟩ := hquiet
  · rw [lineStart_same b f h i (.inr hcreep)]
  · have hnone : nextEvent b f h (tierLineStart b f h i) = none := by
      refine nextEvent_none ?_ ?_
      · unfold nextEdge at hedge ⊢
        rwa [hmarks]
      · unfold nextLimit at hlimit ⊢
        rwa [hpattern]
    unfold lineStart
    split
    · rw [patternStep_of_none hnone, hpattern]
    · rfl

/-! #### The tiers -/

theorem lineStart_tier {h : LineHead} (hdue : ∀ nb ∈ (i.face f).tier.next, h.pos < nb) :
    ∃ p l, ((lineStart b f h i).face f).tier = { (i.face f).tier with lastPos := p, lastLine := l } := by
  unfold lineStart
  split
  · refine ⟨some h.pos, some h.index, ?_⟩
    have hpattern := Within.patternStep (b := b) (f := f) h (tierLineStart b f h i) b (.tier f) (by simp)
    refine hpattern.trans ?_
    show ((tierLineStart b f h i).face f).tier = _
    rw [tierLineStart_eq, boundarySteps_none hdue, onFace_face]
  · exact ⟨_, _, rfl⟩

/-- A canonical table whose lanes have the given limits. -/
def HasLimits (lo hi : Nat) (x : Tier) : Prop :=
  twf Lane.powerOn x.lanes = true ∧ ∀ j < 16, (x.lane j).minLimit = lo ∧ (x.lane j).maxLimit = hi

variable {lo hi : Nat} {index : Word} {y : Int}

theorem relaxed_limits (p : TierPolicy) (y : Int) (l : Lane) :
    (l.relaxed p y).minLimit = l.minLimit ∧ (l.relaxed p y).maxLimit = l.maxLimit := by
  unfold Lane.relaxed
  split <;> exact ⟨rfl, rfl⟩

theorem HasLimits.relaxLane {n : Nat} (h : HasLimits lo hi (i.face f).tier) :
    HasLimits lo hi ((relaxLane b f index y i n).face f).tier := by
  obtain ⟨hcanon, hlimits⟩ := h
  refine ⟨?_, fun j hj => ?_⟩
  · by_cases hr : relaxes (b.banks.contents f).tierPolicy ((i.face f).tier.lane n) y = true
    · rw [relaxLane_falls hr, commitTiers_tier]
      exact twf_tset _ _ hcanon
    · rw [relaxLane_stays hr]
      exact hcanon
  · rw [relaxLane_lane]
    split
    next hjn =>
      obtain ⟨hmin, hmax⟩ := relaxed_limits (b.banks.contents f).tierPolicy y ((i.face f).tier.lane n)
      rw [hmin, hmax, ← hjn]
      exact hlimits j hj
    next => exact hlimits j hj

theorem HasLimits.boundaryStep (h : HasLimits lo hi (i.face f).tier) :
    HasLimits lo hi ((boundaryStep b f index y i).face f).tier := by
  rw [boundaryStep_tier]
  refine foldl_keeps (p := fun i : Insp => HasLimits lo hi (i.face f).tier) (fun _ _ hi => hi.relaxLane) _ ?_
  rw [rotated_tier]
  obtain ⟨hcanon, hlimits⟩ := h
  refine ⟨twf_rotate hcanon, fun j hj => ?_⟩
  rw [rotate_lane hcanon]
  exact hlimits j hj

theorem HasLimits.boundarySteps (n : Nat) (h : HasLimits lo hi (i.face f).tier) :
    HasLimits lo hi ((boundarySteps b f index y n i).face f).tier := by
  induction n generalizing i with
  | zero => exact h
  | succ n ih =>
    unfold Machine.boundarySteps
    split
    · split
      · exact ih h.boundaryStep
      · exact h
    · exact h

theorem HasLimits.lineStart {hd : LineHead} (h : HasLimits lo hi (i.face f).tier) :
    HasLimits lo hi ((lineStart b f hd i).face f).tier := by
  unfold Machine.lineStart
  split
  · have hpattern := Within.patternStep (b := b) (f := f) hd (tierLineStart b f hd i) b (.tier f) (by simp)
    refine Eq.mpr (congrArg (HasLimits lo hi) hpattern) ?_
    show HasLimits lo hi ((tierLineStart b f hd i).face f).tier
    rw [tierLineStart_eq, onFace_face]
    exact h.boundarySteps _
  · exact h

end LineAfter

/-! ### The switch and its line (R153) -/

section Switch

variable (f : FaceId) (new : BankId) (b : Base) (i : Insp)

/-- The part's slow state once a face has switched. -/
def switchedBase (b : Base) (f : FaceId) (new : BankId) : Base := { b with banks := b.banks.switched f new }

/-- A face whose blobs and streaks are closed, without reservation. -/
def closedAtSwitch (b : Base) (f : FaceId) (i : Insp) : Insp :=
  (switchCloses b f i).onFace f fun x => { x with pixel := { x.pixel with reservation := none } }

theorem switchCloses_open : ((switchCloses b f i).face f).blob.openCount = 0 ∧
    ((switchCloses b f i).face f).streak.openCount = 0 := by
  let j := closeAllBlobs b f .changeover none (drainStreakLines b f (drainBlobLines b f i))
  let k := closeAllStreaks b f .changeover (testSaturation f (j.face f).blob.lastLine j)
  have hlast : Within [.tier f, .corr, .out] k (switchCloses b f i) := by
    have hevents : Within [.tier f, .corr, .out] k (drainEvents b f .streakTracker (drainEvents b f .blobBuilder k)) :=
      Within.after (Within.drainEvents _ _) <| Within.after (Within.drainEvents _ _) <| Within.refl _ _
    cases f with
    | lead => exact hevents
    | trail => exact Within.after (Within.drainTrail _) hevents
  constructor
  · refine (congrArg Blobs.openCount (hlast b (.blob f) (by simp))).trans ?_
    refine (congrArg Blobs.openCount (Within.closeAllStreaks _ _ b (.blob f) (by simp))).trans ?_
    exact congrArg (fun t => (occupied t).length) ((testSaturation_open _ j).trans (closeAllBlobs_open b _ _ _))
  · refine (congrArg Streaks.openCount (hlast b (.streak f) (by simp))).trans ?_
    exact closeAllStreaks_openCount b _ _

theorem closedAtSwitch_face : (closedAtSwitch b f i).face f = { (switchCloses b f i).face f with
    pixel := { (i.face f).pixel with reservation := none } } := by
  have hpixel : ((switchCloses b f i).face f).pixel = (i.face f).pixel :=
    Within.switchCloses (b := b) (f := f) i b (.pixel f) (by simp [blobParts])
  unfold closedAtSwitch
  rw [onFace_face, hpixel]

theorem Within.closedAtSwitch : Within (.pixel f :: .streak f :: blobParts f) i (Machine.closedAtSwitch b f i) :=
  Within.after (Within.pixel _ f _) <| Within.after (Within.switchCloses _) <| Within.refl _ _

/-- R153: the state a switch leaves to the line. -/
def switchedInsp (b : Base) (f : FaceId) (h : LineHead) (new : BankId) (i : Insp) : Insp :=
  (takeUpBank (switchedBase b f new) f h (closedAtSwitch b f i)).offerStatus (some f)
    (.bankSwitched new.other new (toUnits (b.banks.switchPos.getD 0)) h.index (toUnits h.pos))

theorem takePixelLine_switches {d : Dev} {ln : HandedLine} {rest : List HandedLine} {p : Int}
    (hin : (d.face f).asm.handed = ln :: rest) (hp : d.base.banks.switchPos = some p) (hle : p ≤ ln.head.pos)
    (hready : ReadyToSwitch d.base.banks f new) : takePixelLine f d = {
      base := switchedBase d.base f new,
      insp := processLine (switchedBase d.base f new) f ln (switchedInsp d.base f ln.head new
        (d.insp.onFace f fun x => { x with asm := { x.asm with handed := rest } })) } := by
  unfold takePixelLine
  rw [hin]
  dsimp only
  unfold pixelLine
  have htarget : switchTarget (d.onFace f fun x => { x with asm := { x.asm with handed := rest } }).base f ln.head.pos = some new :=
    switchTarget_ready (base := d.base) hready hp hle
  rw [htarget]
  rfl

theorem switchedTier_limits (h : LineHead) (x : Tier) : HasLimits (b.banks.contents f).tierPolicy.minTier
    (b.banks.contents f).tierPolicy.maxTier (switchedTier b f h x) :=
  ⟨switchedTier_canonical b f h x, fun j hj => by rw [switchedTier_lane b f h x hj]; exact ⟨rfl, rfl⟩⟩

theorem switchedInsp_face (h : LineHead) :
    (switchedInsp b f h new i).face f = (takeUpBank (switchedBase b f new) f h (closedAtSwitch b f i)).face f :=
  offerStatus_face _ _ _ _

end Switch

end Sys2Proof.Machine

open Sys2Proof Sys2Proof.Machine

/-- Settles O32: the face's blocks closed under the old bank, the new bank taken up, then the line under it. -/
theorem faceSwitchesToScheduledBank : Obligations.FaceSwitchesToScheduledBank := by
  unfold Obligations.FaceSwitchesToScheduledBank
  rintro f s ln rest p new c x seek hin hp hle hstates rfl rfl hseek
  have hready : ReadyToSwitch s.dev.base.banks f new := by
    cases f with
    | lead => exact ⟨fun _ => hstates, nofun⟩
    | trail => exact ⟨nofun, fun _ => hstates⟩
  let i0 := s.dev.insp.onFace f fun x => { x with asm := { x.asm with handed := rest } }
  let sb := switchedBase s.dev.base f new
  let l := closedAtSwitch s.dev.base f i0
  let m := switchedInsp s.dev.base f ln.head new i0
  have hc : sb.banks.contents f = (s.dev.base.banks.bank new).contents := switched_contents _ _ _
  have hface : m.face f = (takeUpBank sb f ln.head l).face f := switchedInsp_face f new s.dev.base i0 ln.head
  have htaken := Within.takeUpBank sb f ln.head l
  have hl : l.face f = _ := closedAtSwitch_face f s.dev.base i0
  have hpixel : (l.face f).pixel = { (s.dev.face f).pixel with reservation := none } := by
    refine (congrArg Face.pixel hl :).trans ?_
    rw [show i0.face f = _ from onFace_face _ _ _]
    rfl
  have hswitched : Within [.asm f, .pixel f, .pattern f, .blob f, .streak f, .tier f, .corr, .out] s.dev.insp m :=
    Within.after (Within.offerStatus _ _ _) <| Within.after (Within.takeUpBank _ _ _ _) <|
      Within.after (Within.closedAtSwitch _ _ _) <| Within.after (Within.asm _ f _) <| Within.refl _ _
  have hwithin : Within [.asm f, .pixel f, .pattern f, .blob f, .streak f, .tier f, .preview f, .marks, .corr, .out] s.dev.insp
      (processLine sb f ln m) := Within.after (Within.processLine _ _) (hswitched.mono (by simp))
  have hmarks : (linePlaced sb f ln.head m).marks = s.dev.insp.marks :=
    (onFace_marks _ _ _).trans (hswitched sb .marks (by simp))
  replace hseek : seek = sb.motion.h + sb.dieOffset f := by
    rw [hseek, ← hc]
    cases f <;> rfl
  have hplaced := linePlaced_face sb f ln.head m
  have htier : (m.face f).tier = switchedTier sb f ln.head (l.face f).tier :=
    (congrArg Face.tier hface).trans (takeUpBank_tier sb f ln.head l)
  have hpattern : ((linePlaced sb f ln.head m).face f).pattern = enterPattern sb f (l.face f).pattern := by
    rw [hplaced]
    exact (congrArg Face.pattern hface).trans (takeUpBank_pattern sb f ln.head l)
  refine ⟨_, next_dev (takePixelLine_switches f new hin hp hle hready), ?new, ?old, ?pos,
    fun i => ⟨switched_bank _ _ _ _, switched_compiled _ _ _ _⟩, switched_activeOn _ _ _, switched_running _ _ _, ?blobs, ?streaks, ?reservation, ?limits, ?tiers, ?enters, ?stays, ?continuous,
    ?seeking, ?only, ?steps, ?report, ?pattern, ?learning, ?load⟩
  case new =>
    refine (switched_new _ _ _).trans ?_
    cases f <;> rfl
  case old =>
    refine (switched_old _ _ _).trans ?_
    cases f <;> rfl
  case pos =>
    cases f with
    | lead => cases new <;> exact hp
    | trail => rfl
  case blobs =>
    refine (processLine_open sb f ln m).1.trans ?_
    rw [hface]
    refine (congrArg Blobs.openCount (htaken sb (.blob f) (by simp))).trans ?_
    exact (congrArg (fun x : Face => x.blob.openCount) hl :).trans (switchCloses_open f s.dev.base i0).1
  case streaks =>
    refine (processLine_open sb f ln m).2.trans ?_
    rw [hface]
    refine (congrArg Streaks.openCount (htaken sb (.streak f) (by simp))).trans ?_
    exact (congrArg (fun x : Face => x.streak.openCount) hl :).trans (switchCloses_open f s.dev.base i0).2
  case reservation =>
    refine (processLine_reservation sb f ln m).trans ?_
    exact (congrArg Face.pixel hface ▸ takeUpBank_reservation sb f ln.head l).trans (congrArg Pixel.reservation hpixel :)
  case limits =>
    intro j hj
    rw [← hc]
    have hloaded : HasLimits (sb.banks.contents f).tierPolicy.minTier (sb.banks.contents f).tierPolicy.maxTier
        ((linePlaced sb f ln.head m).face f).tier := by
      rw [hplaced, htier]
      exact switchedTier_limits f sb ln.head _
    have hlimits := (hloaded.lineStart (b := sb) (hd := ln.head)).2 j hj
    exact (processLine_tier sb f ln m).symm ▸ hlimits
  case tiers =>
    intro hw
    rw [← hc] at hw ⊢
    have hdue : ∀ nb ∈ ((linePlaced sb f ln.head m).face f).tier.next, ln.head.pos < nb := by
      rw [hplaced, htier, switchedTier_eq]
      rintro _ ⟨⟩
      unfold TierPolicy.span
      omega
    obtain ⟨q, n, hstart⟩ := lineStart_tier (b := sb) hdue
    have hafter := (processLine_tier sb f ln m).trans hstart
    rw [hplaced, htier] at hafter
    refine ⟨fun j hj => ?_, ?_, ?_, ?_, ?_⟩
    · exact (congrArg (fun x : Tier => x.lane j) hafter :).trans (switchedTier_lane sb f ln.head (l.face f).tier hj)
    · exact (congrArg Tier.current hafter :).trans (congrArg Tier.current (switchedTier_eq sb f ln.head (l.face f).tier) :)
    · exact (congrArg Tier.next hafter :).trans (congrArg Tier.next (switchedTier_eq sb f ln.head (l.face f).tier) :)
    · exact (congrArg Tier.fa hafter :).trans (congrArg Tier.fa (switchedTier_eq sb f ln.head (l.face f).tier) :)
    · refine (congrArg Tier.alert hafter :).trans ((congrArg Tier.alert (switchedTier_eq sb f ln.head (l.face f).tier) :).trans ?_)
      exact congrArg (fun n => decide (sb.na f ≤ n)) (congrArg Tier.atT2 hafter :).symm
  case enters =>
    intro hon
    rw [← hc] at hon ⊢
    have hm : (m.face f).pixel = _ := (congrArg Face.pixel hface :).trans (takeUpBank_pixel_enters sb f ln.head l hon)
    refine ⟨(processLine_learnLength sb f ln m).trans (congrArg Pixel.learnLength hm :),
      fun k => processLine_counts (hm ▸ clearSums_counts _) k, fun hlong => ⟨?_, ?_⟩⟩
    · refine processLine_learning (congrArg Pixel.phase hm :) ?_
      rw [hm]
      show 0 + 1 < (sb.banks.contents f).detection.learnLength
      omega
    · exact (processLine_learnLines_between sb f ln m).2.trans_eq (congrArg (fun x : Pixel => x.learnLines + 1) hm :)
  case stays =>
    intro hoff
    rw [← hc] at hoff ⊢
    have hm : (m.face f).pixel = _ := (congrArg Face.pixel hface :).trans (takeUpBank_pixel_stays sb f ln.head l hoff)
    rw [hpixel] at hm
    refine ⟨fun hx => ?_, fun hx => ?_⟩
    · replace hm := hm.trans (if_neg hx)
      obtain ⟨hphase, hlines⟩ := processLine_not_learning (b := sb) (ln := ln)
        (fun h => hx ((congrArg Pixel.phase hm :).symm.trans h))
      exact ⟨hphase.trans (congrArg Pixel.phase hm :), hlines.trans (congrArg Pixel.learnLines hm :),
        (processLine_learnLength sb f ln m).trans (congrArg Pixel.learnLength hm :)⟩
    · replace hm := hm.trans (if_pos hx)
      have hlines : (m.face f).pixel.learnLines = (s.dev.face f).pixel.learnLines := (congrArg Pixel.learnLines hm :)
      have hlength : (m.face f).pixel.learnLength = (sb.banks.contents f).detection.learnLength :=
        (congrArg Pixel.learnLength hm :)
      have hbetween := processLine_learnLines_between sb f ln m
      rw [hlines] at hbetween
      refine ⟨(processLine_learnLength sb f ln m).trans hlength, fun hlong => ⟨?_, hbetween⟩⟩
      exact processLine_learning ((congrArg Pixel.phase hm :).trans hx) (by rw [hlines, hlength]; exact hlong)
  case continuous =>
    intro hg
    rw [← hc] at hg
    have hentered := hpattern.trans (enterPattern_eq sb f _)
    rw [if_pos hg, if_pos hg] at hentered
    have hstart : ((lineStarted sb f ln m).face f).pattern = ((linePlaced sb f ln.head m).face f).pattern :=
      lineStart_continuous sb f ln.head _ (congrArg Pattern.state hentered)
    obtain ⟨z, hz⟩ := processLine_pattern sb f ln m
    rw [hstart, hentered] at hz
    exact ⟨congrArg Pattern.state hz, congrArg Pattern.edge hz, congrArg Pattern.misses hz, congrArg Pattern.seek hz⟩
  case seeking =>
    intro hg hquiet
    rw [← hc] at hg
    have hentered := hpattern.trans (enterPattern_eq sb f _)
    rw [if_neg (by omega), if_neg (by omega)] at hentered
    have hstart : ((lineStarted sb f ln m).face f).pattern = ((linePlaced sb f ln.head m).face f).pattern := by
      refine lineStart_quiet (hquiet.imp_right fun ⟨hlimit, hmarked⟩ => ⟨fun e he => ?_, fun q hq => ?_⟩)
      · rw [nextEdge_eq, hmarks] at he
        obtain ⟨k, hk, rfl⟩ := Option.map_eq_some_iff.mp he
        have hwaits : k.handledBy f = false := by simpa using List.find?_some hk
        have hpos := hmarked k (List.mem_of_find?_eq_some hk) (by cases f <;> exact hwaits)
        rw [hseek] at hpos
        change ln.head.pos < k.h + (s.dev.base.motion.h + sb.dieOffset f - s.dev.base.motion.h) at hpos
        change ln.head.pos < k.h + sb.dieOffset f
        omega
      · unfold nextLimit at hq
        rw [hentered, limit_seeking _ rfl] at hq
        rw [← hc, hseek] at hlimit
        obtain rfl : _ = q := Option.some.inj hq
        exact hlimit
    obtain ⟨z, hz⟩ := processLine_pattern sb f ln m
    rw [hstart, hentered] at hz
    refine ⟨(congrArg Pattern.state hz :), (congrArg Pattern.edge hz :), (congrArg Pattern.misses hz :),
      (congrArg Pattern.seek hz :).trans ?_⟩
    rw [hseek]
  case only =>
    refine ⟨rfl, Touches.after (hwithin sb) (Touches.after (Touches.onBanks s.dev fun x => x.switched f new) (Touches.refl _ _))⟩
  case steps =>
    rintro old b i j k l' rfl rfl rfl rfl rfl rfl
    have hpos : toUnits (s.dev.base.banks.switchPos.getD 0) = p / 10240 := by
      rw [hp]
      rfl
    rw [← hpos]
    cases f <;> rfl
  case report =>
    rintro b h i j rfl
    exact switchPattern_eq b f h i
  case pattern =>
    intro b y
    rw [enterPattern_eq]
    cases f <;> rfl
  case learning =>
    rintro b i _ rfl
    exact ⟨switchLearning_enters b f i, switchLearning_stays b f i⟩
  case load =>
    rintro b h i _ before after _ rfl rfl rfl rfl
    rw [loadTiersAtSwitch_tier]
    exact ⟨switchedTier_eq b f h _, fun j hj => switchedTier_lane b f h _ hj, loadTiersAtSwitch_eq b f h i⟩
end

section
/-! R157, R158: what is kept of the Output Arbiter by every block, because they reach it by offers and by buffers alone. -/

namespace Sys2Proof.Machine

open Sys2Proof

/-- A property of the Output Arbiter that an offer to a queue of reports and a release keep. -/
structure ReportLaw (P : Out → Prop) : Prop where
  offer : ∀ (o : Out) (q : QueueId) (r : Report), q ≠ .excerpt → P o → P (o.offer q r)
  release : ∀ (o : Out) (r : Report), P o → P (o.release r)

/-- A property that the buffers do not enter. -/
def BufferLaw (P : Out → Prop) : Prop := ∀ (o : Out) (t : Table (Option Buffer)), P o → P { o with buffers := t }

/-- A change after which the Output Arbiter has a property it had before. -/
def Reports (P : Out → Prop) (i j : Insp) : Prop := P i.out → P j.out

section Traversal

variable {P : Out → Prop} {b : Base} {f : FaceId}

theorem Reports.same {i j : Insp} (h : j.out = i.out) : Reports P i j := fun hi => by rwa [h]

theorem Reports.refl (i : Insp) : Reports P i i := Reports.same rfl

/-- A change after a change. -/
theorem Reports.after {i j k : Insp} (h : Reports P j k) (h' : Reports P i j) : Reports P i k := fun hi => h (h' hi)

theorem Reports.ite {i j k : Insp} {c : Prop} [Decidable c] (h : Reports P i j) (h' : Reports P i k) :
    Reports P i (if c then j else k) := by
  split
  · exact h
  · exact h'

theorem Reports.foldl {β : Type} {g : Insp → β → Insp} (hg : ∀ i x, Reports P i (g i x)) (xs : List β) (i : Insp) :
    Reports P i (xs.foldl g i) := foldl_keeps (p := fun i : Insp => P i.out) (fun i x => hg i x) xs

/-- A change short of the Output Arbiter. -/
theorem Reports.onFace (i : Insp) (f : FaceId) (g : Face → Face) : Reports P i (i.onFace f g) := Reports.same (onFace_out _ _ _)

theorem Reports.onStreaks (i : Insp) (f : FaceId) (g : Streaks → Streaks) : Reports P i (i.onStreaks f g) := Reports.onFace _ _ _

theorem Reports.enterLearning (i : Insp) : Reports P i (Machine.enterLearning b f i) := Reports.onFace _ _ _

theorem Reports.sendEvent (src : EventSource) (e : CountedEvent) (i : Insp) : Reports P i (Machine.sendEvent f src e i) :=
  Reports.onFace _ _ _

theorem Reports.keepZone (h : LineHead) (z : Option Zone) (i : Insp) : Reports P i (Machine.keepZone f h z i) := by
  unfold Machine.keepZone
  exact Reports.ite (Reports.onFace _ _ _) (Reports.refl _)

theorem Reports.handOn (r : LineRecord) (i : Insp) : Reports P i (Machine.handOn f r i) := Reports.onFace _ _ _

theorem Reports.switchLearning (i : Insp) : Reports P i (Machine.switchLearning b f i) := by
  unfold Machine.switchLearning
  exact Reports.ite (Reports.enterLearning _) (Reports.ite (Reports.onFace _ _ _) (Reports.refl _))

variable (hP : ReportLaw P)
include hP

/-! ### The leaves -/

theorem Reports.route (i : Insp) (t : Route) (r : Report) : Reports P i (i.route t r) := fun hi => by
  obtain ⟨level, slot⟩ := t
  show P (i.out.route level slot r)
  unfold Out.route
  cases level <;> cases slot <;> first | exact hP.release _ _ hi | exact hP.offer _ _ _ (by decide) hi

theorem Reports.offerStatus (i : Insp) (f : Option FaceId) (st : Status) : Reports P i (i.offerStatus f st) :=
  hP.offer _ _ _ (by decide)

/-! ### Tiers -/

theorem Reports.offerLanes (c : LaneCause) (l : Option (Word × Int)) (o n : Tier) (lanes : List Nat) (i : Insp) :
    Reports P i (Machine.offerLanes b f c l o n lanes i) :=
  Reports.foldl (fun _ _ => Reports.ite (Reports.refl _) (Reports.route hP _ _ _)) _ _

theorem Reports.offerAlert (na : Nat) (l : Option (Word × Int)) (o n : Tier) (i : Insp) :
    Reports P i (Machine.offerAlert na f l o n i) :=
  Reports.ite (Reports.refl _) (Reports.offerStatus hP _ _ _)

theorem Reports.commitTiers (direct : List Nat) (c : LaneCause) (l : Option (Word × Int)) (t : Tier) (i : Insp) :
    Reports P i (Machine.commitTiers b f direct c l t i) :=
  Reports.after (Reports.offerLanes hP _ _ _ _ _ _) <| Reports.after (Reports.offerAlert hP _ _ _ _ _) <|
    Reports.after (Reports.offerLanes hP _ _ _ _ _ _) <| Reports.onFace _ _ _

theorem Reports.applyEvent (e : CountedEvent) (i : Insp) : Reports P i (Machine.applyEvent b f e i) := by
  unfold Machine.applyEvent
  exact Reports.ite (Reports.after (Reports.commitTiers hP _ _ _ _ _) (Reports.onFace _ _ _)) (Reports.onFace _ _ _)

theorem Reports.drainEvents (src : EventSource) (i : Insp) : Reports P i (Machine.drainEvents b f src i) :=
  Reports.after (Reports.foldl (fun i e => Reports.applyEvent hP e i) _ _) (Reports.onFace _ _ _)

theorem Reports.relaxLane (n : Word) (y : Int) (i : Insp) (j : Nat) : Reports P i (Machine.relaxLane b f n y i j) := by
  unfold Machine.relaxLane
  exact Reports.ite (Reports.commitTiers hP _ _ _ _ _) (Reports.refl _)

theorem Reports.boundaryStep (n : Word) (y : Int) (i : Insp) : Reports P i (Machine.boundaryStep b f n y i) :=
  Reports.after (Reports.onFace _ _ _) <| Reports.after (Reports.foldl (fun i j => Reports.relaxLane hP n y i j) _ _) <|
    Reports.onFace _ _ _

theorem Reports.boundarySteps (n : Word) (y : Int) (k : Nat) (i : Insp) :
    Reports P i (Machine.boundarySteps b f n y k i) := by
  induction k generalizing i with
  | zero => exact Reports.refl _
  | succ k ih =>
    unfold Machine.boundarySteps
    split
    · exact Reports.ite (Reports.after (ih _) (Reports.boundaryStep hP n y i)) (Reports.refl _)
    · exact Reports.refl _

theorem Reports.tierLineStart (h : LineHead) (i : Insp) : Reports P i (Machine.tierLineStart b f h i) :=
  Reports.after (Reports.onFace _ _ _) (Reports.boundarySteps hP _ _ _ i)

theorem Reports.loadTiersAtSwitch (h : LineHead) (i : Insp) : Reports P i (Machine.loadTiersAtSwitch b f h i) :=
  Reports.after (Reports.offerAlert hP _ _ _ _ _) <| Reports.after (Reports.offerLanes hP _ _ _ _ _ _) <| Reports.onFace _ _ _

/-! ### The coating pattern -/

theorem Reports.offerPattern (o n : PatternState) (c : PatternCause) (h : LineHead) (e : Option Int) (i : Insp) :
    Reports P i (Machine.offerPattern f o n c h e i) := Reports.offerStatus hP _ _ _

theorem Reports.reachEdge (h : LineHead) (e : Int) (i : Insp) : Reports P i (Machine.reachEdge b f h e i) := by
  have hconsumed : Reports P i { i with marks := i.marks.consume f } := Reports.same rfl
  unfold Machine.reachEdge
  dsimp only
  split
  · exact hconsumed
  · exact hconsumed
  · exact Reports.after (Reports.onFace _ _ _) hconsumed
  · exact Reports.ite (Reports.after (Reports.onFace _ _ _) hconsumed) (Reports.after (Reports.onFace _ _ _) hconsumed)
  · exact Reports.ite (Reports.after (Reports.onFace _ _ _) hconsumed) (Reports.after (Reports.onFace _ _ _) hconsumed)
  · exact Reports.after (Reports.offerPattern hP _ _ _ _ _ _) (Reports.after (Reports.onFace _ _ _) hconsumed)

theorem Reports.reachLimit (h : LineHead) (i : Insp) : Reports P i (Machine.reachLimit b f h i) := by
  unfold Machine.reachLimit
  dsimp only
  split
  · exact Reports.after (Reports.offerPattern hP _ _ _ _ _ _) (Reports.onFace _ _ _)
  · exact Reports.ite (Reports.onFace _ _ _) (Reports.after (Reports.offerPattern hP _ _ _ _ _ _) (Reports.onFace _ _ _))
  · exact Reports.ite (Reports.onFace _ _ _) (Reports.after (Reports.offerPattern hP _ _ _ _ _ _) (Reports.onFace _ _ _))
  all_goals exact Reports.refl _

theorem Reports.patternStep (h : LineHead) (i : Insp) : Reports P i (Machine.patternStep b f h i) := fun hi => by
  refine patternStep_keeps (P := fun j => P j.out) (fun j k hj hk => ?_) hi
  obtain ⟨e, rfl⟩ | rfl := nextEvent_edge_or_limit hk
  · exact Reports.reachEdge hP h e j hj
  · exact Reports.reachLimit hP h j hj

theorem Reports.switchPattern (h : LineHead) (i : Insp) : Reports P i (Machine.switchPattern b f h i) :=
  Reports.ite (Reports.after (Reports.offerPattern hP _ _ _ _ _ _) (Reports.onFace _ _ _)) (Reports.onFace _ _ _)

/-! ### The Face Correlator -/

theorem Reports.reportLeadOnly (r : LeadOnlyReason) (c : Candidate) (i : Insp) : Reports P i (Machine.reportLeadOnly r c i) :=
  Reports.route hP _ _ _

theorem Reports.takeLead (c : Candidate) (i : Insp) : Reports P i (Machine.takeLead c i) := by
  unfold Machine.takeLead
  refine Reports.after (Reports.same rfl) ?_
  split
  · exact Reports.ite (Reports.after (Reports.reportLeadOnly hP _ _ _) (Reports.same rfl)) (Reports.refl _)
  · exact Reports.refl _

theorem Reports.takeTrail (c : Candidate) (i : Insp) : Reports P i (Machine.takeTrail b c i) := by
  unfold Machine.takeTrail
  split <;> exact Reports.after (Reports.route hP _ _ _) (Reports.same rfl)

theorem Reports.expire (p m : Int) (i : Insp) : Reports P i (Machine.expire p m i) :=
  Reports.after (Reports.foldl (fun i c => Reports.reportLeadOnly hP .expired c i) _ _) (Reports.same rfl)

theorem Reports.settleTrail (l : List TrailWork) (i : Insp) : Reports P i (Machine.settleTrail l i) := by
  induction l generalizing i with
  | nil => exact Reports.same rfl
  | cons w rest ih =>
    cases w with
    | candidate c => exact Reports.same rfl
    | expiry p m => exact Reports.after (ih _) (Reports.expire hP p m i)

theorem Reports.drainTrail (i : Insp) : Reports P i (Machine.drainTrail b i) := by
  unfold Machine.drainTrail
  refine Reports.after (Reports.foldl (fun i w => ?_) _ _) (Reports.same rfl)
  cases w with
  | candidate c => exact Reports.takeTrail hP _ _
  | expiry p m => exact Reports.expire hP _ _ _

theorem Reports.drainLead (i : Insp) : Reports P i (Machine.drainLead i) :=
  Reports.after (Reports.foldl (fun i c => Reports.takeLead hP c i) _ _) (Reports.same rfl)

theorem Reports.flushPending (i : Insp) : Reports P i (Machine.flushPending i) :=
  Reports.after (Reports.foldl (fun i c => Reports.reportLeadOnly hP .stop c i) _ _) (Reports.same rfl)

/-! ### Streaks -/

theorem Reports.closeStreak (r : StreakReason) (sv : Option Nat) (l : Option (Word × Int)) (k : Nat) (s : Streak) (i : Insp) :
    Reports P i (Machine.closeStreak b f r sv l k s i) := by
  have hreported : ∀ x rt rep, Reports P i ((i.onStreaks f x).route rt rep) := fun x rt rep =>
    Reports.after (Reports.route hP _ _ _) (Reports.onStreaks _ _ _)
  unfold Machine.closeStreak
  exact Reports.ite (Reports.ite (Reports.after (Reports.onStreaks _ _ _) (hreported _ _ _))
    (Reports.after (Reports.offerStatus hP _ _ _) (Reports.after (Reports.onStreaks _ _ _) (hreported _ _ _)))) (hreported _ _ _)

theorem Reports.mergeStreak (l : Option (Word × Int)) (k : Nat) (i : Insp) (y : Nat × Streak) :
    Reports P i (Machine.mergeStreak b f l k i y) :=
  Reports.after (Reports.closeStreak hP _ _ _ _ _ _) (Reports.onStreaks _ _ _)

theorem Reports.openStreak (r : LineRecord) (c : Nat) (x : RecordColumn) (v : Int) (k : Nat) (i : Insp) :
    Reports P i (Machine.openStreak b f r c x v k i) := by
  have hreported : ∀ x rt rep, Reports P i ((i.onStreaks f x).route rt rep) := fun x rt rep =>
    Reports.after (Reports.route hP _ _ _) (Reports.onStreaks _ _ _)
  unfold Machine.openStreak
  exact Reports.ite (hreported _ _ _) (Reports.after (Reports.sendEvent _ _ _) (hreported _ _ _))

theorem Reports.holdOnset (h : LineHead) (i : Insp) : Reports P i (Machine.holdOnset f h i) := by
  unfold Machine.holdOnset
  exact Reports.ite (Reports.onStreaks _ _ _) (Reports.after (Reports.offerStatus hP _ _ _) (Reports.onStreaks _ _ _))

theorem Reports.enterStreak (r : LineRecord) (c : Nat) (x : RecordColumn) (v : Int) (i : Insp) :
    Reports P i (Machine.enterStreak b f r c x v i) := by
  unfold Machine.enterStreak
  dsimp only
  split
  · split
    · exact Reports.openStreak hP _ _ _ _ _ _
    · exact Reports.holdOnset hP _ _
  · exact Reports.after (Reports.onStreaks _ _ _) (Reports.foldl (fun i y => Reports.mergeStreak hP _ _ i y) _ _)

theorem Reports.streakColumn (r : LineRecord) (i : Insp) (c : Nat) : Reports P i (Machine.streakColumn b f r i c) := by
  unfold Machine.streakColumn Machine.eligibleStep
  dsimp only
  split
  · exact Reports.onStreaks _ _ _
  · split
    · split
      · split
        · exact Reports.onStreaks _ _ _
        · exact Reports.ite (Reports.after (Reports.enterStreak hP _ _ _ _ _) (Reports.onStreaks _ _ _)) (Reports.onStreaks _ _ _)
      · exact Reports.refl _
    · exact Reports.refl _

theorem Reports.continueStep (r : LineRecord) (n : Int) (i : Insp) (e : Nat × Streak) :
    Reports P i (Machine.continueStep b f r n i e) := by
  unfold Machine.continueStep
  exact Reports.ite (Reports.after (Reports.route hP _ _ _) (Reports.onStreaks _ _ _)) (Reports.refl _)

theorem Reports.continueTests (r : LineRecord) (i : Insp) : Reports P i (Machine.continueTests b f r i) := by
  unfold Machine.continueTests
  exact Reports.ite (Reports.refl _) (Reports.foldl (fun i e => Reports.continueStep hP _ _ i e) _ _)

theorem Reports.closeReleased (l : Option (Word × Int)) (i : Insp) : Reports P i (Machine.closeReleased b f l i) :=
  Reports.foldl (fun i _ => Reports.closeStreak hP _ _ _ _ _ i) _ _

theorem Reports.streakLine (r : LineRecord) (i : Insp) : Reports P i (Machine.streakLine b f r i) :=
  Reports.after (Reports.continueTests hP _ _) <| Reports.after (Reports.closeReleased hP _ _) <|
    Reports.after (Reports.foldl (fun i c => Reports.streakColumn hP _ i c) _ _) (Reports.onStreaks _ _ _)

theorem Reports.drainStreakLines (i : Insp) : Reports P i (Machine.drainStreakLines b f i) :=
  Reports.after (Reports.foldl (fun i r => Reports.streakLine hP r i) _ _) (Reports.onStreaks _ _ _)

theorem Reports.closeAllStreaks (r : StreakReason) (i : Insp) : Reports P i (Machine.closeAllStreaks b f r i) :=
  Reports.after (Reports.onStreaks _ _ _) (Reports.foldl (fun i _ => Reports.closeStreak hP _ _ _ _ _ i) _ _)

/-! ### Blobs -/

theorem Reports.offerBlobSaturation (on : Bool) (l : Option Word) (i : Insp) :
    Reports P i (Machine.offerBlobSaturation f on l i) := Reports.offerStatus hP _ _ _

theorem Reports.linkRun (h : LineHead) (i : Insp) (u : Run) : Reports P i (Machine.linkRun f h i u) := by
  unfold Machine.linkRun Machine.discardRun
  dsimp only
  split
  · split
    · exact Reports.onFace _ _ _
    · split
      · exact Reports.onFace _ _ _
      · exact Reports.after (Reports.offerBlobSaturation hP _ _ _) (Reports.onFace _ _ _)
  · exact Reports.onFace _ _ _

theorem Reports.testSaturation (l : Option Word) (i : Insp) : Reports P i (Machine.testSaturation f l i) :=
  Reports.ite (Reports.after (Reports.offerBlobSaturation hP _ _ _) (Reports.onFace _ _ _)) (Reports.refl _)

theorem Reports.dispose (o : ClassOutcome) (r : Defect) (i : Insp) : Reports P i (Machine.dispose b f o r i) := by
  unfold Machine.dispose
  refine Reports.ite ?_ (Reports.route hP _ _ _)
  cases f <;> exact Reports.same rfl

omit hP in
/-- A blob closed by STOP captures no excerpt. -/
theorem Reports.excerptAtClose {r : Defect} (hcap : r.trunc ≠ .stop → BufferLaw P) (x : Blob) (o : ClassOutcome) (i : Insp) :
    Reports P i (Machine.excerptAtClose f x o r i).2 := by
  unfold Machine.excerptAtClose
  split
  · split
    · exact Reports.refl _
    next hstop =>
      split
      · unfold Machine.capture
        split
        · exact hcap hstop _ _
        · exact Reports.onFace _ _ _
      · exact Reports.refl _
  · exact Reports.refl _

section Closes

variable {reason : TruncReason} (hcap : reason ≠ .stop → BufferLaw P)
include hcap

theorem Reports.sendBlob (l : Option (Word × Int)) (i : Insp) (e : Nat × Blob) :
    Reports P i (Machine.sendBlob b f reason l i e) := by
  unfold Machine.sendBlob
  refine Reports.after (Reports.dispose hP _ _ _) <| Reports.after (Reports.excerptAtClose hcap _ _ _) ?_
  exact Reports.ite (Reports.after (Reports.sendEvent _ _ _) (Reports.onFace _ _ _)) (Reports.onFace _ _ _)

theorem Reports.closeAllBlobs (l : Option (Word × Int)) (i : Insp) : Reports P i (Machine.closeAllBlobs b f reason l i) :=
  Reports.after (Reports.foldl (fun i e => Reports.sendBlob hP hcap l i e) _ _) (Reports.onFace _ _ _)

end Closes

variable (hB : BufferLaw P)
include hB

theorem Reports.endLine (h : LineHead) (i : Insp) : Reports P i (Machine.endLine b f h i) :=
  Reports.after (Reports.foldl (fun i _ => Reports.sendBlob hP (fun _ => hB) _ i _) _ _) (Reports.onFace _ _ _)

theorem Reports.handleBlobLine (r : LineRecord) (i : Insp) : Reports P i (Machine.handleBlobLine b f r i) := by
  unfold Machine.handleBlobLine
  refine Reports.after (Reports.testSaturation hP _ _) <| Reports.after (Reports.endLine hP hB _ _) <|
    Reports.after (Reports.foldl (fun i u => Reports.linkRun hP _ i u) _ _) <| Reports.after (Reports.onFace _ _ _) ?_
  exact Reports.ite (Reports.after (Reports.testSaturation hP _ _) <|
    Reports.after (Reports.closeAllBlobs hP (fun _ => hB) _ _) (Reports.onFace _ _ _)) (Reports.onFace _ _ _)

theorem Reports.blobLine (r : LineRecord) (i : Insp) : Reports P i (Machine.blobLine b f r i) := by
  unfold Machine.blobLine
  refine Reports.ite (Reports.onFace _ _ _) ?_
  have hline := Reports.after (Reports.handleBlobLine (b := b) (f := f) hP hB r _)
    (Reports.onFace i f fun x => { x with blob := { x.blob with ring := enterRing r x.blob.ring } })
  cases f with
  | lead => exact hline
  | trail => exact Reports.after (Reports.settleTrail hP _ _) hline

theorem Reports.drainBlobLines (i : Insp) : Reports P i (Machine.drainBlobLines b f i) :=
  Reports.after (Reports.foldl (fun i r => Reports.blobLine hP hB r i) _ _) (Reports.onFace _ _ _)

/-! ### The Pixel Chain -/

theorem Reports.switchCloses (i : Insp) : Reports P i (Machine.switchCloses b f i) := by
  unfold Machine.switchCloses
  have hclosed := Reports.after (Reports.drainEvents (b := b) (f := f) hP .streakTracker _) <|
    Reports.after (Reports.drainEvents (b := b) (f := f) hP .blobBuilder _) <|
    Reports.after (Reports.closeAllStreaks (b := b) (f := f) hP .changeover _) <|
    Reports.after (Reports.testSaturation (f := f) hP ((Machine.closeAllBlobs b f .changeover none
      (Machine.drainStreakLines b f (Machine.drainBlobLines b f i))).face f).blob.lastLine _) <|
    Reports.after (Reports.closeAllBlobs (b := b) (f := f) (reason := .changeover) hP (fun _ => hB) none _) <|
    Reports.after (Reports.drainStreakLines (b := b) (f := f) hP _) (Reports.drainBlobLines (b := b) (f := f) hP hB i)
  cases f with
  | lead => exact hclosed
  | trail => exact Reports.after (Reports.drainTrail hP _) hclosed

omit hB in
theorem Reports.endLearning (h : LineHead) (i : Insp) : Reports P i (Machine.endLearning b f h i) :=
  Reports.after (Reports.offerStatus hP _ _ _) (Reports.onFace _ _ _)

omit hB in
theorem Reports.lineStart (h : LineHead) (i : Insp) : Reports P i (Machine.lineStart b f h i) :=
  Reports.ite (Reports.after (Reports.patternStep hP _ _) (Reports.tierLineStart hP _ _)) (Reports.refl _)

omit hB in
theorem Reports.processLine (l : HandedLine) (i : Insp) : Reports P i (Machine.processLine b f l i) := by
  have hstart : Reports P i (Machine.lineStart b f l.head (linePlaced b f l.head i)) :=
    Reports.after (Reports.lineStart hP _ _) (Reports.onFace _ _ _)
  have hline : Reports P i (lineHanded b f l.head (b.litSamples f l.raw) (Machine.lineStart b f l.head (linePlaced b f l.head i))) :=
    Reports.after (Reports.handOn _ _) <| Reports.after (Reports.keepZone _ _ _) <| Reports.after (Reports.onFace _ _ _) hstart
  by_cases hend : EndsLearning b f l.head (b.litSamples f l.raw) (Machine.lineStart b f l.head (linePlaced b f l.head i))
  · rw [processLine_ends b f hend]
    exact Reports.after (Reports.endLearning hP _ _) hline
  · rw [processLine_goes_on b f hend]
    exact hline

theorem Reports.pixelLine (l : HandedLine) (d : Dev) : Reports P d.insp (Machine.pixelLine f l d).insp := by
  unfold Machine.pixelLine
  refine Reports.after (Reports.processLine hP _ _) ?_
  split
  next new _ =>
    exact Reports.after (Reports.offerStatus hP _ _ _) <| Reports.after (Reports.switchLearning _) <|
      Reports.after (Reports.loadTiersAtSwitch hP _ _) <| Reports.after (Reports.switchPattern hP _ _) <|
      Reports.after (Reports.onFace _ _ _) (Reports.switchCloses hP hB _)
  next => exact Reports.refl _

theorem Reports.drainPixelLines (d : Dev) : Reports P d.insp (Machine.drainPixelLines f d).insp := fun hd =>
  foldl_keeps (p := fun d : Dev => P d.insp.out) (fun d ln => Reports.pixelLine hP hB ln d) _ (Reports.onFace _ _ _ hd)

theorem Reports.finishFace (d : Dev) : Reports P d.insp (Machine.finishFace f d).insp :=
  Reports.after (Reports.drainStreakLines hP _) <| Reports.after (Reports.drainBlobLines hP hB _) (Reports.drainPixelLines hP hB d)

end Traversal

end Sys2Proof.Machine
end

section
/-! R151: STOP; what the blocks of a face finish, what they close, and what is cleared. -/

namespace Sys2Proof.Machine

open Sys2Proof

/-! ### Both faces -/

section BothFaces

variable {act : FaceId → Dev → Dev} {d : Dev}

/-- What the turn of either face keeps, both turns keep. -/
theorem bothFaces_keeps {R : Dev → Prop} (hfree : R d.nextFree) (hact : ∀ f d, R d → R (act f d)) : R (d.bothFaces act) := by
  obtain ⟨first, h⟩ := bothFaces_order d act
  rw [h]
  exact hact _ _ (hact _ _ hfree)

/-- What the turn of a face makes of it, and the turn of the other leaves, holds of both after both turns. -/
theorem bothFaces_each {Q : FaceId → Dev → Prop} (hmade : ∀ f d, Q f (act f d))
    (hstays : ∀ f g d, g ≠ f → Q g d → Q g (act f d)) (g : FaceId) : Q g (d.bothFaces act) := by
  obtain ⟨first, h⟩ := bothFaces_order d act
  rw [h]
  by_cases hg : g = otherFace first
  · subst hg
    exact hmade _ _
  · refine hstays _ _ _ hg ?_
    obtain rfl : g = first := by
      cases g <;> cases first <;> first | rfl | exact absurd rfl hg
    exact hmade _ _

end BothFaces

/-! ### The records that wait (R39) -/

section Inboxes

variable {b : Base} {f : FaceId}

theorem blobLine_inbox (r : LineRecord) (i : Insp) : ((blobLine b f r i).face f).blob.inbox = (i.face f).blob.inbox := by
  have hring : ((i.onFace f fun x => { x with blob := { x.blob with ring := enterRing r x.blob.ring } }).face f).blob.inbox =
      (i.face f).blob.inbox := by rw [onFace_face]
  have hline (j : Insp) : ((handleBlobLine b f r j).face f).blob.inbox = (j.face f).blob.inbox :=
    congrArg (fun x => x.2.1) ((handleBlobLine_held b f r j).trans (beforeEnd_held b f r j _ rfl))
  unfold blobLine
  dsimp only
  split
  · exact hring
  · cases f with
    | lead => exact (hline _).trans hring
    | trail => exact (congrArg Blobs.inbox (queueExpiry_blob b r _ _)).trans ((hline _).trans hring)

theorem drainBlobLines_inbox (i : Insp) : ((drainBlobLines b f i).face f).blob.inbox = [] := by
  refine (foldl_same (π := fun i : Insp => (i.face f).blob.inbox) (fun i r => blobLine_inbox r i) _ _).trans ?_
  rw [onFace_face]

theorem streakLine_inbox (r : LineRecord) (i : Insp) : ((streakLine b f r i).streaks f).inbox = (i.streaks f).inbox := by
  obtain ⟨htaken, _⟩ := lineSteps_step (b := b) (f := f) r
    (streakWalk r { i.streaks f with last := some (r.head.index, r.head.pos) })
    (i.onStreaks f fun x => { x with last := some (r.head.index, r.head.pos) })
  rw [streakLine_eq]
  refine (congrArg Prod.fst htaken).trans ?_
  rw [onStreaks_streaks]
  rfl

theorem drainStreakLines_inbox (i : Insp) : ((drainStreakLines b f i).streaks f).inbox = [] := by
  refine (foldl_same (π := fun i : Insp => (i.streaks f).inbox) (fun i r => streakLine_inbox r i) _ _).trans ?_
  rw [onStreaks_streaks]

end Inboxes

/-! ### What the blocks finish (R39, R52) -/

section Finish

variable {f : FaceId}

/-- The parts that a face's turn at finishing can change. -/
def finishParts (f : FaceId) : List Part :=
  [.banks, .marks, .corr, .out, .asm f, .pixel f, .pattern f, .blob f, .streak f, .tier f, .preview f]

theorem Touches.pixelLine (ln : HandedLine) (d : Dev) :
    Touches [.banks, .marks, .corr, .out, .pixel f, .pattern f, .blob f, .streak f, .tier f, .preview f] d
      (Machine.pixelLine f ln d) := by
  unfold Machine.pixelLine
  refine Touches.after (Touches.insp (Within.processLine _ _)) ?_
  split
  next new _ =>
    have hwithin : Within [.corr, .out, .pixel f, .pattern f, .blob f, .streak f, .tier f] d.insp
        (Machine.switchFace f ln.head new d).insp :=
      Within.after (Within.offerStatus _ _ _) <| Within.after (Within.switchLearning _) <|
        Within.after (Within.loadTiersAtSwitch _ _) <| Within.after (Within.switchPattern _ _) <|
        Within.after (Within.pixel _ f _) <| Within.after (Within.switchCloses _) <| Within.refl _ _
    exact Touches.after (hwithin (switchedBase d.base f new)) <|
      Touches.after (Touches.onBanks d fun x => x.switched f new) <| Touches.refl _ _
  next => exact Touches.refl _ _

theorem Touches.drainPixelLines (d : Dev) : Touches (finishParts f) d (Machine.drainPixelLines f d) := by
  have hhanded : Touches [.asm f] d (d.onFace f fun x => { x with asm := { x.asm with handed := [] } }) :=
    Touches.onFace (Within.asm _ f _)
  exact Touches.after (Touches.foldl (fun d ln => Touches.pixelLine ln d) _ _) (hhanded.mono (by simp [finishParts]))
    (by simp [finishParts])

theorem Touches.finishFace (d : Dev) : Touches (finishParts f) d (Machine.finishFace f d) := by
  unfold Machine.finishFace
  refine Touches.after (Touches.insp (d := Machine.drainPixelLines f d) (l := [.streak f, .blob f, .tier f, .corr, .out]) ?_)
    (Touches.drainPixelLines d) (by simp [finishParts])
  exact Within.after (Within.drainStreakLines _) <| Within.after (Within.drainBlobLines _) <| Within.refl _ _

theorem drainPixelLines_asm (d : Dev) : ((drainPixelLines f d).face f).asm = { (d.face f).asm with handed := [] } := by
  unfold drainPixelLines
  refine (foldl_same (π := fun d : Dev => (d.face f).asm) (fun d ln => Touches.pixelLine ln d (.asm f) (by simp)) _ _).trans ?_
  exact congrArg Face.asm (onFace_face d.insp f _)

/-- No line and no record waits. -/
theorem finishFace_emptied (d : Dev) : ((finishFace f d).face f).asm = { (d.face f).asm with handed := [] } ∧
    ((finishFace f d).face f).blob.inbox = [] ∧ ((finishFace f d).face f).streak.inbox = [] := by
  have hblob := Within.drainBlobLines (b := (drainPixelLines f d).base) (f := f) (drainPixelLines f d).insp
    (drainPixelLines f d).base
  have hstreak := Within.drainStreakLines (b := (drainPixelLines f d).base) (f := f)
    (drainBlobLines (drainPixelLines f d).base f (drainPixelLines f d).insp) (drainPixelLines f d).base
  refine ⟨?_, ?_, drainStreakLines_inbox _⟩
  · exact (hstreak (.asm f) (by simp [streakParts])).trans ((hblob (.asm f) (by simp [blobParts])).trans (drainPixelLines_asm d))
  · exact (congrArg Blobs.inbox (hstreak (.blob f) (by simp [streakParts]))).trans (drainBlobLines_inbox _)

/-- A face without waiting lines keeps its pixel side and its pattern state. -/
theorem Touches.finishFace_idle {d : Dev} (h : (d.face f).asm.handed = []) :
    Touches [.blob f, .streak f, .tier f, .corr, .out] d (Machine.finishFace f d) := by
  have hself : d.insp.onFace f (fun x => { x with asm := { x.asm with handed := [] } }) = d.insp := onFace_self (by
    show ({ d.face f with asm := { (d.face f).asm with handed := [] } } : Face) = d.face f
    rw [← h])
  have hdrain : Machine.drainPixelLines f d = d := by
    unfold Machine.drainPixelLines
    rw [h]
    exact congrArg (fun i => { d with insp := i }) hself
  unfold Machine.finishFace
  rw [hdrain]
  refine Touches.insp (Within.after (Within.drainStreakLines _) <| Within.after (Within.drainBlobLines _) <| Within.refl _ _)

end Finish

/-! ### The banks (R151) -/

section StopBanks

/-- R151: the state of a bank after STOP. -/
def stoppedState : BankState → BankState
  | .active _ | .scheduled => .checked
  | .vacant => .vacant
  | .opened => .opened
  | .checking => .checking
  | .checked => .checked

theorem bankStop_eq (x : Bank) : x.stop = { x with state := stoppedState x.state } := by
  obtain ⟨state, contents, compiled⟩ := x
  cases state <;> rfl

theorem bankStop_congr {x y : Bank} (hcontents : x.contents = y.contents) (hcompiled : x.compiled = y.compiled)
    (hstate : stoppedState x.state = stoppedState y.state) : x.stop = y.stop := by
  rw [bankStop_eq, bankStop_eq, hcontents, hcompiled, hstate]

/-- STOP makes the same of the banks before and after a change. -/
def StopsAlike (b b' : Banks) : Prop := b'.checkTag = b.checkTag ∧ ∀ i, (b'.bank i).stop = (b.bank i).stop

theorem StopsAlike.refl (b : Banks) : StopsAlike b b := ⟨rfl, fun _ => rfl⟩

theorem StopsAlike.trans {b b' b'' : Banks} (h : StopsAlike b b') (h' : StopsAlike b' b'') : StopsAlike b b'' := by
  obtain ⟨htag, hbank⟩ := h
  obtain ⟨htag', hbank'⟩ := h'
  exact ⟨htag'.trans htag, fun i => (hbank' i).trans (hbank i)⟩

/-- A switch moves banks among the states that STOP makes CHECKED. -/
theorem switched_stopsAlike {b : Banks} (h : BankLaw b) {f : FaceId} {i : BankId}
    (hi : (f = .lead ∧ (b.bank i).state = .scheduled) ∨ (f = .trail ∧ (b.bank i).state = .active .lead)) :
    StopsAlike b (b.switched f i) := by
  refine ⟨by cases f <;> cases i <;> rfl, fun j => ?_⟩
  refine bankStop_congr (switched_bank b f i j) (switched_compiled b f i j) ?_
  have hstate : (b.bank i).state = .scheduled ∨ (b.bank i).state = .active .lead := hi.imp And.right And.right
  obtain ⟨_, hbeside⟩ := h.beside hstate
  by_cases hj : j = i
  · subst hj
    rw [switched_new]
    obtain hstate | hstate := hstate
    · rw [hstate]
      split <;> rfl
    · rw [hstate]
      split <;> rfl
  · obtain rfl : j = i.other := by
      cases i <;> cases j <;> first | rfl | exact absurd rfl hj
    rw [switched_old]
    obtain ⟨_, hother⟩ | ⟨_, hother⟩ := hbeside
    · rw [hother]
      split <;> rfl
    · rw [hother]
      split <;> rfl

theorem pixelLine_stopsAlike (f : FaceId) (ln : HandedLine) {d : Dev} (h : BankLaw d.base.banks) :
    StopsAlike d.base.banks (pixelLine f ln d).base.banks := by
  unfold pixelLine
  dsimp only
  split
  next i hi => exact switched_stopsAlike h (switchTarget_state hi)
  next => exact StopsAlike.refl _

theorem finishFace_stopsAlike (f : FaceId) {b : Banks} {d : Dev} (h : BankLaw d.base.banks ∧ StopsAlike b d.base.banks) :
    BankLaw (finishFace f d).base.banks ∧ StopsAlike b (finishFace f d).base.banks :=
  foldl_keeps (p := fun d : Dev => BankLaw d.base.banks ∧ StopsAlike b d.base.banks)
    (fun _ ln ⟨hlaw, halike⟩ => ⟨pixelLine_bankLaw f ln hlaw, halike.trans (pixelLine_stopsAlike f ln hlaw)⟩) _ h

end StopBanks

/-! ### The work that waits at the correlator (R118, R119) -/

section Waiting

variable {b : Base} {f : FaceId}

/-- What waits at the correlator for a face's candidates. -/
def NoWork (f : FaceId) (c : Corr) : Prop := (f = .lead → c.leadWork = []) ∧ (f = .trail → c.trailWork = [])

/-- The work of both faces. -/
def Corr.work (c : Corr) : List Candidate × List TrailWork := (c.leadWork, c.trailWork)

theorem takeLead_work (c : Candidate) (i : Insp) : (takeLead c i).corr.work = i.corr.work := by
  unfold takeLead
  dsimp only
  split
  · split <;> rfl
  · rfl

theorem takeTrail_work (c : Candidate) (i : Insp) : (takeTrail b c i).corr.work = i.corr.work := by
  cases h : takeFirst (entryTest b c) i.corr.list with
  | none => rw [takeTrail_alone b h]; rfl
  | some e => rw [takeTrail_match b h]; rfl

theorem expire_work (p m : Int) (i : Insp) : (expire p m i).corr.work = i.corr.work := by
  rw [expire_eq]
  rfl

theorem drainLead_work (i : Insp) : (drainLead i).corr.work = ([], i.corr.trailWork) :=
  foldl_same (π := fun i : Insp => i.corr.work) (fun i c => takeLead_work c i) _ _

theorem drainTrail_work (i : Insp) : (drainTrail b i).corr.work = (i.corr.leadWork, []) := by
  unfold drainTrail
  refine foldl_same (π := fun i : Insp => i.corr.work) (fun i w => ?_) _ _
  cases w with
  | candidate c => exact takeTrail_work c i
  | expiry p m => exact expire_work p m i

theorem dispose_trailWork (o : ClassOutcome) (r : Defect) (i : Insp) :
    (dispose b .lead o r i).corr.trailWork = i.corr.trailWork := by
  unfold dispose
  split <;> rfl

/-- A closed blob of LEAD leaves what waits for TRAIL. -/
theorem sendBlob_trailWork (reason : TruncReason) (line : Option (Word × Int)) (i : Insp) (e : Nat × Blob) :
    (sendBlob b .lead reason line i e).corr.trailWork = i.corr.trailWork := by
  obtain ⟨k, x⟩ := e
  rw [sendBlob_eq b rfl rfl rfl rfl, dispose_trailWork, excerptAtClose_corr, countClosed_corr]

theorem closeAllBlobs_otherWork (reason : TruncReason) (line : Option (Word × Int)) {g : FaceId} (hg : g ≠ f) {i : Insp}
    (h : NoWork g i.corr) : NoWork g (closeAllBlobs b f reason line i).corr := by
  obtain ⟨hlead, htrail⟩ := h
  cases g with
  | lead =>
    obtain rfl : f = .trail := by
      cases f
      · exact absurd rfl hg
      · rfl
    obtain ⟨closed, hclosed⟩ := closeAllBlobs_sentOn b reason line i
    exact ⟨fun _ => (congrArg Corr.leadWork hclosed).trans (hlead rfl), nofun⟩
  | trail =>
    obtain rfl : f = .lead := by
      cases f
      · rfl
      · exact absurd rfl hg
    refine ⟨nofun, fun _ => ?_⟩
    rw [closeAllBlobs_eq]
    refine (foldl_same (π := fun i : Insp => i.corr.trailWork) (fun i e => sendBlob_trailWork reason line i e) _ _).trans ?_
    rw [onFace_corr]
    exact htrail rfl

end Waiting

/-! ### The closes (R97, R113) -/

section Closes

variable {f : FaceId}

/-- R141: a face's candidates taken, the waiting TRAIL work in order (log 57). -/
def drainCandidates (b : Base) (f : FaceId) (i : Insp) : Insp := if f = .lead then drainLead i else drainTrail b i

theorem stopBlobs_eq (d : Dev) : stopBlobs f d = { d with
    insp := drainEvents d.base f .streakTracker (drainEvents d.base f .blobBuilder (drainCandidates d.base f
      (closeAllBlobs d.base f .stop (d.face f).tier.lastInspection d.insp))) } := by cases f <;> rfl

theorem Within.drainCandidates (b : Base) (i : Insp) : Within [.corr, .out] i (Machine.drainCandidates b f i) :=
  Within.ite (Within.drainLead i) (Within.drainTrail i)

theorem Touches.stopBlobs (d : Dev) : Touches [.blob f, .tier f, .corr, .out] d (Machine.stopBlobs f d) := by
  rw [stopBlobs_eq]
  exact Touches.insp <| Within.after (Within.drainEvents _ _) <| Within.after (Within.drainEvents _ _) <|
    Within.after (Within.drainCandidates _ _) <| Within.after (Within.closeAllBlobs _ _ _) <| Within.refl _ _

theorem Touches.stopStreaks (d : Dev) : Touches [.streak f, .out] d (Machine.stopStreaks f d) :=
  Touches.insp (Within.closeAllStreaks _ _)

/-- What follows the closes leaves the blobs. -/
theorem stopBlobs_blob (d : Dev) : ((stopBlobs f d).face f).blob =
    ((closeAllBlobs d.base f .stop (d.face f).tier.lastInspection d.insp).face f).blob := by
  have hrest : Within [.tier f, .corr, .out] (closeAllBlobs d.base f .stop (d.face f).tier.lastInspection d.insp)
      (stopBlobs f d).insp := by
    rw [stopBlobs_eq]
    exact Within.after (Within.drainEvents _ _) <| Within.after (Within.drainEvents _ _) <|
      Within.after (Within.drainCandidates _ _) <| Within.refl _ _
  exact hrest d.base (.blob f) (by simp)

theorem stopBlobs_open (d : Dev) : ((stopBlobs f d).face f).blob.openCount = 0 := by
  rw [stopBlobs_blob]
  exact congrArg (fun t => (occupied t).length) (closeAllBlobs_open _ _ _ _)

theorem stopBlobs_inbox (d : Dev) : ((stopBlobs f d).face f).blob.inbox = (d.face f).blob.inbox := by
  rw [stopBlobs_blob]
  exact congrArg (fun x => x.2.1) (closeAllBlobs_held d.base .stop (d.face f).tier.lastInspection d.insp)

theorem stopBlobs_corr (d : Dev) : (stopBlobs f d).insp.corr = (drainCandidates d.base f
    (closeAllBlobs d.base f .stop (d.face f).tier.lastInspection d.insp)).corr := by
  have hrest : Within [.tier f, .out] (drainCandidates d.base f
      (closeAllBlobs d.base f .stop (d.face f).tier.lastInspection d.insp)) (stopBlobs f d).insp := by
    rw [stopBlobs_eq]
    exact Within.after (Within.drainEvents _ _) <| Within.after (Within.drainEvents _ _) <| Within.refl _ _
  exact hrest d.base .corr (by simp)

theorem stopBlobs_noWork (d : Dev) : NoWork f (stopBlobs f d).insp.corr := by
  rw [stopBlobs_corr]
  cases f with
  | lead => exact ⟨fun _ => congrArg Prod.fst (drainLead_work _), nofun⟩
  | trail => exact ⟨nofun, fun _ => congrArg Prod.snd (drainTrail_work _)⟩

theorem stopBlobs_otherWork {g : FaceId} (hg : g ≠ f) {d : Dev} (h : NoWork g d.insp.corr) :
    NoWork g (stopBlobs f d).insp.corr := by
  have hclosed := closeAllBlobs_otherWork (b := d.base) .stop (d.face f).tier.lastInspection hg h
  rw [stopBlobs_corr]
  cases f with
  | lead =>
    exact ⟨fun h => absurd h hg, fun h => (congrArg Prod.snd (drainLead_work _)).trans (hclosed.2 h)⟩
  | trail =>
    exact ⟨fun h => (congrArg Prod.fst (drainTrail_work _)).trans (hclosed.1 h), fun h => absurd h hg⟩

theorem stopStreaks_open (d : Dev) : ((stopStreaks f d).face f).streak.openCount = 0 := closeAllStreaks_openCount _ _ _

theorem closeAllStreaks_eq (b : Base) (reason : StreakReason) (i : Insp) : ((closeAllStreaks b f reason i).streaks f) =
    (((orderBy older (occupied (i.streaks f).open_)).foldl
      (fun j e => closeStreak b f reason none (i.streaks f).last e.1 e.2 j) i).streaks f).quietAll := by
  unfold closeAllStreaks
  dsimp only
  rw [onStreaks_streaks]

theorem stopStreaks_inbox (d : Dev) : ((stopStreaks f d).face f).streak.inbox = (d.face f).streak.inbox := by
  refine (congrArg Streaks.inbox (closeAllStreaks_eq d.base .stop d.insp)).trans ?_
  obtain ⟨htaken, _⟩ := StreakStep.foldl (fun i (e : Nat × Streak) => closeStreak_step (b := d.base) (f := f) .stop none
    (d.insp.streaks f).last e.1 e.2 i) (orderBy older (occupied (d.insp.streaks f).open_)) d.insp
  exact congrArg Prod.fst htaken

theorem quietAll_quiet (x : Streaks) (k : Nat) : (x.quietAll.col k).state = .quiet := by
  by_cases hquiet : x.quietAll.col k = StreakColumn.quiet 0
  · rw [hquiet]
    rfl
  · obtain ⟨hmap, _⟩ := List.mem_filter.mp (mem_of_tget hquiet)
    obtain ⟨v, _, heq⟩ := List.mem_map.mp hmap
    have hvalue : x.quietAll.col k = StreakColumn.quiet v.2.acc := (congrArg Prod.snd heq).symm
    rw [hvalue]
    rfl

theorem stopStreaks_quiet (d : Dev) (k : Nat) : (((stopStreaks f d).face f).streak.col k).state = .quiet := by
  refine (congrArg (fun x : Streaks => (x.col k).state) (closeAllStreaks_eq d.base .stop d.insp)).trans ?_
  exact quietAll_quiet _ k

end Closes

/-! ### The Output Arbiter at STOP (R161) -/

section Output

/-- What STOP leaves of the link. -/
def SameLink (o o' : Out) : Prop := o'.linkUp = o.linkUp ∧ o'.startPending = o.startPending

theorem sameLink_law (o : Out) : ReportLaw (SameLink o) where
  offer o' q r _ h := by
    obtain ⟨hup, hstart⟩ := h
    exact ⟨(offer_linkUp _ _ _).trans hup, (offer_startPending _ _ _).trans hstart⟩
  release o' r h := by
    obtain ⟨hup, hstart⟩ := h
    exact ⟨(release_linkUp _ _).trans hup, (release_startPending _ _).trans hstart⟩

theorem sameLink_buffers (o : Out) : BufferLaw (SameLink o) := fun _ _ h => h

/-- No buffer is in use and no excerpt waits. -/
def NoExcerpts (o : Out) : Prop := (∀ k, tget none o.buffers k = none) ∧ o.excerpt.entries = []

theorem NoExcerpts.freeBuffer {o : Out} (h : NoExcerpts o) (n : Nat) : NoExcerpts (o.freeBuffer n) := by
  obtain ⟨hbuffers, hentries⟩ := h
  refine ⟨fun k => ?_, hentries⟩
  show tget none (tset none o.buffers n none) k = none
  rw [tget_tset]
  split
  · rfl
  · exact hbuffers k

theorem NoExcerpts.freeRecord {o : Out} (h : NoExcerpts o) (r : Defect) : NoExcerpts (o.freeRecord r) := by
  unfold Out.freeRecord
  split
  · exact h.freeBuffer _
  · exact h

theorem NoExcerpts.setQueue {o : Out} (h : NoExcerpts o) {q : QueueId} (hq : q ≠ .excerpt) (x : Queue) :
    NoExcerpts (o.setQueue q x) := by
  cases q <;> first | exact h | exact absurd rfl hq

theorem NoExcerpts.pickFrom {o : Out} (h : NoExcerpts o) (q : QueueId) (t : FaceId) : NoExcerpts (o.pickFrom q t) := by
  unfold Out.pickFrom
  split
  · exact h
  next e rest hentries =>
    have hq : q ≠ .excerpt := by
      rintro rfl
      exact List.cons_ne_nil _ _ (hentries.symm.trans h.2)
    exact h.setQueue hq { o.queue q with entries := rest }

theorem NoExcerpts.pick {o : Out} (h : NoExcerpts o) : NoExcerpts o.pick := by
  unfold Out.pick
  split
  · split
    · exact h
    · split
      · exact h.pickFrom _ _
      · exact h
  · exact h

theorem noExcerpts_law : ReportLaw NoExcerpts where
  release o r h := by
    cases r with
    | defect r => exact h.freeRecord r
    | through l t md cd => exact (h.freeRecord l).freeRecord t
    | reply _ | streak _ | lane _ | status _ _ _ | excerpt _ | preview _ | start _ _ _ => exact h
  offer o q r hq h := by
    unfold Out.offer
    split
    · exact (h.setQueue hq _).pick
    · have hlose := h.setQueue hq (o.queue q).lose
      cases r with
      | defect r => exact hlose.freeRecord r
      | through l t md cd => exact (hlose.freeRecord l).freeRecord t
      | reply _ | streak _ | lane _ | status _ _ _ | excerpt _ | preview _ | start _ _ _ => exact hlose

theorem stop_noExcerpts (o : Out) : NoExcerpts o.stop := ⟨fun _ => rfl, rfl⟩

variable {P : Out → Prop} {f : FaceId} (hP : ReportLaw P)
include hP

theorem Reports.stopBlobs (d : Dev) : Reports P d.insp (Machine.stopBlobs f d).insp := by
  rw [stopBlobs_eq]
  exact Reports.after (Reports.drainEvents hP _ _) <| Reports.after (Reports.drainEvents hP _ _) <|
    Reports.after (Reports.ite (Reports.drainLead hP _) (Reports.drainTrail hP _))
      (Reports.closeAllBlobs (reason := .stop) hP (fun h => absurd rfl h) _ _)

theorem Reports.stopStreaks (d : Dev) : Reports P d.insp (Machine.stopStreaks f d).insp := Reports.closeAllStreaks hP _ _

end Output

end Sys2Proof.Machine
end

section
/-! R151: the steps of STOP, one after the other. -/

namespace Sys2Proof.Machine

open Sys2Proof

section Stages

variable (d : Dev)

/-- Lines and records already handed on are finished. -/
def finished : Dev := d.bothFaces finishFace

/-- The buffers are freed, the records withdrawn, the blobs closed, their candidates and events taken. -/
def blobsStopped : Dev := ({ finished d with insp := withdrawAll (finished d).insp }).bothFaces stopBlobs

/-- The pending entries have left, the streaks are closed. -/
def streaksStopped : Dev := ({ blobsStopped d with insp := flushPending (blobsStopped d).insp }).bothFaces stopStreaks

theorem stopPart_eq : stopPart d = clearAtStop (streaksStopped d) := rfl

/-! ### The lines and records finished -/

theorem finished_touches : Touches (.free :: (finishParts .lead ++ finishParts .trail)) d (finished d) :=
  Touches.bothFaces (fun f d => (Touches.finishFace d).mono (by cases f <;> simp)) (by simp)

theorem finished_handed (f : FaceId) : ((finished d).face f).asm.handed = [] :=
  bothFaces_each (Q := fun f e => (e.face f).asm.handed = []) (fun f e => congrArg Assembler.handed (finishFace_emptied e).1)
    (fun f g e hne hg => (congrArg Assembler.handed (Touches.finishFace (f := f) e (.asm g) (by simp [finishParts, hne]))).trans hg) f

theorem finished_blobInbox (f : FaceId) : ((finished d).face f).blob.inbox = [] :=
  bothFaces_each (Q := fun f e => (e.face f).blob.inbox = []) (fun f e => (finishFace_emptied e).2.1)
    (fun f g e hne hg => (congrArg Blobs.inbox (Touches.finishFace (f := f) e (.blob g) (by simp [finishParts, hne]))).trans hg) f

theorem finished_streakInbox (f : FaceId) : ((finished d).face f).streak.inbox = [] :=
  bothFaces_each (Q := fun f e => (e.face f).streak.inbox = []) (fun f e => (finishFace_emptied e).2.2)
    (fun f g e hne hg => (congrArg Streaks.inbox (Touches.finishFace (f := f) e (.streak g) (by simp [finishParts, hne]))).trans hg) f

theorem finished_asm (f : FaceId) : ((finished d).face f).asm = { (d.face f).asm with handed := [] } := by
  have hkept : ((finished d).face f).asm = { (d.face f).asm with handed := ((finished d).face f).asm.handed } := by
    refine bothFaces_keeps (R := fun e => (e.face f).asm = { (d.face f).asm with handed := (e.face f).asm.handed }) rfl
      fun g e he => ?_
    by_cases hg : f = g
    · subst hg
      rw [(finishFace_emptied e).1, he]
    · rw [show ((finishFace g e).face f).asm = (e.face f).asm from Touches.finishFace e (.asm f) (by simp [finishParts, hg])]
      exact he
  rw [hkept, finished_handed]

theorem finished_banks (h : BankLaw d.base.banks) : StopsAlike d.base.banks (finished d).base.banks :=
  (bothFaces_keeps (R := fun e => BankLaw e.base.banks ∧ StopsAlike d.base.banks e.base.banks) ⟨h, StopsAlike.refl _⟩
    fun f _ he => finishFace_stopsAlike f he).2

/-- A face without waiting lines keeps its pixel side and its pattern state. -/
theorem finished_idle {d : Dev} {f : FaceId} (h : (d.face f).asm.handed = []) :
    ((finished d).face f).pixel = (d.face f).pixel ∧ ((finished d).face f).pattern = (d.face f).pattern := by
  refine (bothFaces_keeps (R := fun e => (e.face f).asm.handed = [] ∧ (e.face f).pixel = (d.face f).pixel ∧
    (e.face f).pattern = (d.face f).pattern) ⟨h, rfl, rfl⟩ fun g e ⟨hhanded, hpixel, hpattern⟩ => ?_).2
  by_cases hg : f = g
  · subst hg
    have hidle := Touches.finishFace_idle hhanded
    exact ⟨(congrArg Assembler.handed (hidle (.asm f) (by simp))).trans hhanded, (hidle (.pixel f) (by simp)).trans hpixel,
      (hidle (.pattern f) (by simp)).trans hpattern⟩
  · have hother := Touches.finishFace (f := g) e
    exact ⟨(congrArg Assembler.handed (hother (.asm f) (by simp [finishParts, hg]))).trans hhanded,
      (hother (.pixel f) (by simp [finishParts, hg])).trans hpixel,
      (hother (.pattern f) (by simp [finishParts, hg])).trans hpattern⟩

theorem finished_marks {d : Dev} (h : ∀ f, (d.face f).asm.handed = []) : (finished d).insp.marks = d.insp.marks := by
  refine (bothFaces_keeps (R := fun e => (∀ f, (e.face f).asm.handed = []) ∧ e.insp.marks = d.insp.marks) ⟨h, rfl⟩
    fun g e ⟨hhanded, hmarks⟩ => ?_).2
  have hidle := Touches.finishFace_idle (hhanded g)
  exact ⟨fun f => (congrArg Assembler.handed (hidle (.asm f) (by simp))).trans (hhanded f), (hidle .marks (by simp)).trans hmarks⟩

theorem finished_link : SameLink d.insp.out (finished d).insp.out :=
  bothFaces_keeps (R := fun e => SameLink d.insp.out e.insp.out) ⟨rfl, rfl⟩
    fun f e he => Reports.finishFace (f := f) (sameLink_law _) (sameLink_buffers _) e he

/-! ### The blobs -/

theorem Within.withdrawAll (i : Insp) : Within [.corr, .out] i (Machine.withdrawAll i) :=
  Within.after (Within.withCorr { i with out := i.out.stop } _) <| Within.after (Within.withOut i i.out.stop) <| Within.refl _ _

/-- The parts that the closes of the blobs can change. -/
def stopBlobParts : List Part := [.free, .blob .lead, .blob .trail, .tier .lead, .tier .trail, .corr, .out]

theorem blobsStopped_touches : Touches stopBlobParts (finished d) (blobsStopped d) :=
  Touches.after (Touches.bothFaces (l := stopBlobParts)
      (fun f d => (Touches.stopBlobs d).mono (by cases f <;> simp [stopBlobParts])) (by simp [stopBlobParts]))
    (Touches.insp ((Within.withdrawAll (finished d).insp).mono (by simp [stopBlobParts]))) (by simp [stopBlobParts])

theorem blobsStopped_open (f : FaceId) : ((blobsStopped d).face f).blob.openCount = 0 :=
  bothFaces_each (Q := fun f e => (e.face f).blob.openCount = 0) (fun f e => stopBlobs_open e)
    (fun f g e hne hg => (congrArg Blobs.openCount (Touches.stopBlobs (f := f) e (.blob g) (by simp [hne]))).trans hg) f

theorem blobsStopped_inbox (f : FaceId) : ((blobsStopped d).face f).blob.inbox = [] := by
  refine bothFaces_keeps (R := fun e => (e.face f).blob.inbox = []) (finished_blobInbox d f) fun g e he => ?_
  by_cases hg : f = g
  · subst hg
    exact (stopBlobs_inbox e).trans he
  · exact (congrArg Blobs.inbox (Touches.stopBlobs (f := g) e (.blob f) (by simp [hg]))).trans he

theorem blobsStopped_noWork (f : FaceId) : NoWork f (blobsStopped d).insp.corr :=
  bothFaces_each (Q := fun f e => NoWork f e.insp.corr) (fun _ e => stopBlobs_noWork e)
    (fun _ _ _ hne hg => stopBlobs_otherWork hne hg) f

theorem blobsStopped_out {P : Out → Prop} (hP : ReportLaw P) (h : P (finished d).insp.out.stop) : P (blobsStopped d).insp.out :=
  bothFaces_keeps (R := fun e => P e.insp.out) h fun f e he => Reports.stopBlobs (f := f) hP e he

/-! ### The pending entries and the streaks -/

theorem flushPending_eq (i : Insp) : flushPending i = { i with
    corr := { i.corr with list := [], stopped := min (i.corr.stopped + i.corr.list.length) 4294967295 },
    out := i.corr.list.foldl (fun o c => o.route (if c.level.rank < c.leadOnlyLevel.rank then c.leadOnlyLevel else c.level) c.slot
      (.defect { c.record with mark := .leadOnly .stop })) i.out } := by
  unfold flushPending
  dsimp only
  rw [foldl_reportLeadOnly]
  rfl

/-- The parts that the flush and the closes of the streaks can change. -/
def stopStreakParts : List Part := [.free, .streak .lead, .streak .trail, .corr, .out]

theorem streaksStopped_touches : Touches stopStreakParts (blobsStopped d) (streaksStopped d) :=
  Touches.after (Touches.bothFaces (l := stopStreakParts)
      (fun f d => (Touches.stopStreaks d).mono (by cases f <;> simp [stopStreakParts])) (by simp [stopStreakParts]))
    (Touches.insp ((Within.flushPending (blobsStopped d).insp).mono (by simp [stopStreakParts]))) (by simp [stopStreakParts])

theorem streaksStopped_corr : (streaksStopped d).insp.corr = { (blobsStopped d).insp.corr with
    list := [],
    stopped := min ((blobsStopped d).insp.corr.stopped + (blobsStopped d).insp.corr.list.length) 4294967295 } := by
  have hflush := congrArg Insp.corr (flushPending_eq (blobsStopped d).insp)
  exact bothFaces_keeps (R := fun e => e.insp.corr = _) hflush fun f e he => (Touches.stopStreaks (f := f) e .corr (by simp)).trans he

theorem streaksStopped_open (f : FaceId) : ((streaksStopped d).face f).streak.openCount = 0 :=
  bothFaces_each (Q := fun f e => (e.face f).streak.openCount = 0) (fun f e => stopStreaks_open e)
    (fun f g e hne hg => (congrArg Streaks.openCount (Touches.stopStreaks (f := f) e (.streak g) (by simp [hne]))).trans hg) f

theorem streaksStopped_quiet (f : FaceId) (k : Nat) : (((streaksStopped d).face f).streak.col k).state = .quiet :=
  bothFaces_each (Q := fun f e => ((e.face f).streak.col k).state = .quiet) (fun f e => stopStreaks_quiet e k)
    (fun f g e hne hg => (congrArg (fun x : Streaks => (x.col k).state)
      (Touches.stopStreaks (f := f) e (.streak g) (by simp [hne]))).trans hg) f

theorem streaksStopped_inbox (f : FaceId) : ((streaksStopped d).face f).streak.inbox = [] := by
  have hflushed : (({ blobsStopped d with insp := flushPending (blobsStopped d).insp } : Dev).face f).streak =
      ((finished d).face f).streak :=
    ((Within.flushPending (blobsStopped d).insp) (blobsStopped d).base (.streak f) (by simp)).trans
      (blobsStopped_touches d (.streak f) (by simp [stopBlobParts]))
  refine bothFaces_keeps (R := fun e => (e.face f).streak.inbox = [])
    ((congrArg Streaks.inbox hflushed).trans (finished_streakInbox d f)) fun g e he => ?_
  by_cases hg : f = g
  · subst hg
    exact (stopStreaks_inbox e).trans he
  · exact (congrArg Streaks.inbox (Touches.stopStreaks (f := g) e (.streak f) (by simp [hg]))).trans he

theorem streaksStopped_out {P : Out → Prop} (hP : ReportLaw P) (h : P (finished d).insp.out.stop) :
    P (streaksStopped d).insp.out :=
  bothFaces_keeps (R := fun e => P e.insp.out) (Reports.flushPending hP _ (blobsStopped_out d hP h))
    fun f e he => Reports.stopStreaks (f := f) hP e he

/-- After the lines are finished STOP changes blobs, streaks, tiers, correlator and output, and then clears. -/
theorem streaksStopped_since : Touches (stopBlobParts ++ stopStreakParts) (finished d) (streaksStopped d) :=
  (((blobsStopped_touches d).mono (by simp)).trans ((streaksStopped_touches d).mono (by simp)))

/-! ### What is cleared -/

theorem clearAtStop_face (f : FaceId) : (clearAtStop d).face f = (d.face f).stop := by cases f <;> rfl

theorem clearAtStop_bank (i : BankId) : (clearAtStop d).base.banks.bank i = (d.base.banks.bank i).stop := by cases i <;> rfl

end Stages

end Sys2Proof.Machine

open Sys2Proof Sys2Proof.Machine

/-- Settles O57: the steps of STOP one by one, then what each leaves. -/
theorem stopEndsInspection : Obligations.StopEndsInspection := by
  unfold Obligations.StopEndsInspection
  rintro c rest s d hready rfl
  refine ⟨fun hrun => runCommand_refused hready (if_neg fun h => Bool.false_ne_true (hrun.symm.trans h)), ?command, fun s f =>
    ⟨?line, ?blobs, ?streaks, ?lead, ?trails, ?event⟩, fun b f src i => ⟨rfl, rfl, rfl, ?trail, rfl⟩, ?flush, ?withdraw,
    fun r => ⟨?held, ?free, rfl, fun t md cd => rfl, ?others⟩⟩
  case trail =>
    refine congrArg (fun g => i.corr.trailWork.foldl g _) (funext₂ fun i w => ?_)
    cases w <;> rfl
  case flush =>
    rintro i j rfl
    exact ⟨congrArg Insp.corr (flushPending_eq i), congrArg Insp.out (flushPending_eq i), Within.flushPending i⟩
  case withdraw =>
    rintro i j rfl
    refine ⟨fun q hq => ?_, fun q hq => ?_, rfl, fun k => rfl, ?_, ?_, Within.withdrawAll i⟩
    · cases q <;> first | rfl | exact absurd hq (by decide)
    · cases q <;> first | rfl | exact absurd hq (by decide)
    · refine congrArg (fun g => i.out.tx.map g) (funext fun t => ?_)
      obtain ⟨queue, report, words, live⟩ := t
      cases report <;> rfl
    · refine congrArg (fun g => { i.corr with
        list := i.corr.list.map Candidate.withdraw, leadWork := i.corr.leadWork.map Candidate.withdraw,
        trailWork := i.corr.trailWork.map g }) (funext fun w => ?_)
      cases w <;> rfl
  case held =>
    rintro k (hk | hk)
    · unfold Defect.withdraw
      rw [hk]
      rfl
    · unfold Defect.withdraw
      rw [hk]
      rfl
  case free =>
    intro hk
    have hnone : r.excerpt.held = none := by
      cases h : r.excerpt with
      | captured k => exact absurd h (hk k).1
      | partly k => exact absurd h (hk k).2
      | none | skipped | withdrawn => rfl
    unfold Defect.withdraw
    rw [hnone]
  case others =>
    intro x hdefect hthrough
    cases x with
    | defect y => exact absurd rfl (hdefect y)
    | through y t md cd => exact absurd rfl (hthrough y t md cd)
    | reply _ | streak _ | lane _ | status _ _ _ | excerpt _ | preview _ | start _ _ _ => rfl
  case command =>
    intro hrun hlaw
    let d := s.dev.takeCommand rest
    let x := finished d
    let z := streaksStopped d
    have hstarted := finished_touches d
    have hsince := streaksStopped_since d
    have hclosed := streaksStopped_touches d
    have hbanks := finished_banks d hlaw
    have hkept : z.base.banks = x.base.banks := hsince .banks (by simp [stopBlobParts, stopStreakParts])
    have hmarks : z.insp.marks = x.insp.marks := hsince .marks (by simp [stopBlobParts, stopStreakParts])
    have hface (f : FaceId) : (stopPart d).face f = (z.face f).stop := clearAtStop_face z f
    have hpixel (f : FaceId) : (z.face f).pixel = (x.face f).pixel :=
      hsince (.pixel f) (by simp [stopBlobParts, stopStreakParts])
    have hpattern (f : FaceId) : (z.face f).pattern = (x.face f).pattern :=
      hsince (.pattern f) (by simp [stopBlobParts, stopStreakParts])
    have hasm (f : FaceId) : (z.face f).asm = { (s.dev.face f).asm with handed := [] } :=
      (hsince (.asm f) (by simp [stopBlobParts, stopStreakParts])).trans (finished_asm d f)
    have hgrid (f : FaceId) : (z.face f).grid = (s.dev.face f).grid :=
      (hsince (.grid f) (by simp [stopBlobParts, stopStreakParts])).trans (hstarted (.grid f) (by simp [finishParts]))
    have hblob (f : FaceId) : (z.face f).blob = ((blobsStopped d).face f).blob := hclosed (.blob f) (by simp [stopStreakParts])
    have hcorr := streaksStopped_corr d
    have hlink : SameLink s.dev.insp.out z.insp.out := streaksStopped_out d (sameLink_law _) (finished_link d)
    obtain ⟨hbuffers, hentries⟩ := streaksStopped_out d noExcerpts_law (stop_noExcerpts _)
    refine ⟨stopPart d, runCommand_taken hready (if_pos hrun), rfl, rfl, ?tag, ?bank, fun f => ?face, rfl, rfl,
      congrArg Corr.list hcorr, (congrArg Corr.leadWork hcorr).trans ((blobsStopped_noWork d .lead).1 rfl),
      (congrArg Corr.trailWork hcorr).trans ((blobsStopped_noWork d .trail).2 rfl), hbuffers, hentries, hlink.1, hlink.2,
      ?motion, ?sens, ?exec, ?steps⟩
    case tag =>
      exact (congrArg Banks.checkTag hkept).trans hbanks.1
    case bank =>
      intro i
      have hstop : (stopPart d).base.banks.bank i = (s.dev.base.banks.bank i).stop :=
        (clearAtStop_bank z i).trans ((congrArg (fun b : Banks => (b.bank i).stop) hkept).trans (hbanks.2 i))
      refine ⟨_, rfl, hstop.trans ((bankStop_eq _).trans ?_)⟩
      generalize s.dev.base.banks.bank i = y
      obtain ⟨state, contents, compiled⟩ := y
      cases state <;> rfl
    case face =>
      rw [hface f]
      exact ⟨(congrArg Blobs.openCount (hblob f)).trans (blobsStopped_open d f), rfl, rfl,
        (congrArg Blobs.inbox (hblob f)).trans (blobsStopped_inbox d f), streaksStopped_open d f, rfl, streaksStopped_inbox d f,
        streaksStopped_quiet d f, rfl, rfl, rfl, rfl, congrArg Assembler.handed (hasm f), rfl, rfl, rfl, rfl, rfl,
        clearSums_zero _, hgrid f, (congrArg Assembler.geometry (hasm f) :)⟩
    case motion =>
      exact (hsince .motion (by simp [stopBlobParts, stopStreakParts])).trans (hstarted .motion (by simp [finishParts]))
    case sens =>
      exact (hsince .sens (by simp [stopBlobParts, stopStreakParts])).trans (hstarted .sens (by simp [finishParts]))
    case exec =>
      exact (hsince .exec (by simp [stopBlobParts, stopStreakParts])).trans (hstarted .exec (by simp [finishParts]))
    case steps =>
      intro turns finish closes streaks hturns hfinish hcloses hstreaks
      obtain rfl : finish = finishFace := funext₂ fun f y => hfinish f y _ rfl
      obtain rfl : closes = stopBlobs := funext₂ fun f y => (hcloses f y _ _ rfl rfl).trans (by cases f <;> rfl)
      obtain rfl : streaks = stopStreaks := funext₂ fun f y => hstreaks f y
      have hboth (act : FaceId → Dev → Dev) (y : Dev) : turns act y (y.bothFaces act) := by
        obtain ⟨first, horder⟩ := bothFaces_order y act
        refine (hturns _ _ _).mpr ⟨_, rfl, ?_⟩
        cases first
        · exact .inl horder
        · exact .inr horder
      refine ⟨x, blobsStopped d, z, hboth _ _, hboth _ _, hboth _ _, rfl, rfl, congrArg Marks.stop hmarks, finished_marks (d := d),
        fun f => ?_⟩
      rw [hface f]
      refine ⟨congrArg Assembler.abandon (hasm f), congrArg Pattern.stop (hpattern f), ?_, fun hcanon k => ?_,
        finished_idle (d := d), rfl, rfl, rfl, rfl⟩
      · show (z.face f).pixel.stop = { (x.face f).pixel with
          cols := (z.face f).pixel.stop.cols, phase := .idle, learnLines := 0, reservation := none }
        rw [hpixel f]
        rfl
      · show tget PixelColumn.fresh (z.face f).pixel.clearSums.cols k = _
        rw [hpixel f]
        exact clearSums_col hcanon k
  case line =>
    intro ln rest hin
    refine next_dev ?_
    unfold takePixelLine
    rw [hin]
  case blobs =>
    intro r rest hin
    refine next_insp ?_
    unfold takeBlobLine
    rw [show (s.dev.insp.face f).blob.inbox = r :: rest from hin]
  case streaks =>
    intro r rest hin
    refine next_insp ?_
    unfold takeStreakLine
    rw [show (s.dev.insp.streaks f).inbox = r :: rest from hin]
  case lead =>
    intro c rest hin
    refine next_insp ?_
    unfold takeNextLead
    rw [hin]
  case trails =>
    intro c hin
    refine next_insp ?_
    rw [takeNextTrail_candidate _ hin]
    rfl
  case event =>
    intro src e rest hin
    refine next_insp ?_
    unfold takeEvent
    rw [show ((s.dev.insp.face f).tier.events src) = e :: rest from hin]
end
